-- ==== Sys2Proof/Word.lean ====
section
/-! DEFINITION. The word types of the block (00_scope R9, R10; 30_encoding R110). -/

namespace Sys2Proof

/-- One byte of DATA or of a stream (20_memory R80). -/
abbrev Byte := BitVec 8

/-- One command word (30_encoding R110, R118). -/
abbrev Command := BitVec 32

/-- A value of `ARG0` or `RES` (10_state R30). -/
abbrev Word64 := BitVec 64

/-- A value of the range coder's 56-bit registers (44_range_coder R280). -/
abbrev Word56 := BitVec 56

end Sys2Proof
end

