-- ==== Sys2Proof/Syntax.lean ====
section
/-! DEFINITION. The 63 commands (30_encoding R112 to R114; opcode_table.json), one constructor per row. Immediate numbers are
natural numbers whose bounds WellFormed.lean checks. -/

namespace Sys2Proof

/-- A command, as the opcode table lists it. -/
inductive Instr where
  /-- `SYS.NOP`: no effect but `STATUS` and `RES` (R151). -/
  | sysNop
  /-- `SYS.SRESET`: reset by command (R152). -/
  | sysSreset
  /-- `SYS.USTATE`: report the unit state of unit `u` (R153). -/
  | sysUstate (u : Nat)
  /-- `BSW.INIT`: bind the writer (R181). -/
  | bswInit
  /-- `BSW.WRBIT`: append `ARG0[0]` (R184). -/
  | bswWrbit
  /-- `BSW.WRBITS`: append the low `n` bits of `ARG0` (R185). -/
  | bswWrbits (n : Nat)
  /-- `BSW.FLUSH`: hand the complete bytes to SINK (R186). -/
  | bswFlush
  /-- `BSW.CLOSE`: pad, hand everything to SINK and close (R188). -/
  | bswClose
  /-- `BSW.WRITTEN`: read the count of bits written (R189). -/
  | bswWritten
  /-- `BSR.INIT`: bind the reader (R195). -/
  | bsrInit
  /-- `BSR.RDBIT`: read one bit (R196). -/
  | bsrRdbit
  /-- `BSR.RDBITS`: read `n` bits (R197). -/
  | bsrRdbits (n : Nat)
  /-- `BSR.CLOSE`: close the reader (R198). -/
  | bsrClose
  /-- `BSR.READ`: read the count of bits consumed (R199). -/
  | bsrRead
  /-- `BEE.INIT`: start the binary encoder with predictor kind `k` (R226). -/
  | beeInit (k : Nat)
  /-- `BEE.ENCBIT`: encode `ARG0[0]` (R229). -/
  | beeEncbit
  /-- `BEE.ENCBYTE`: encode `ARG0[7:0]` (R230). -/
  | beeEncbyte
  /-- `BEE.ENCODE`: encode an array (R231). -/
  | beeEncode
  /-- `BEE.DISPOSE`: write the trailing state (R232). -/
  | beeDispose
  /-- `BED.INIT`: start the binary decoder (R235). -/
  | bedInit (k : Nat)
  /-- `BED.DECBIT`: decode one bit (R238). -/
  | bedDecbit
  /-- `BED.DECBYTE`: decode one byte (R239). -/
  | bedDecbyte
  /-- `BED.DECODE`: decode an array (R240). -/
  | bedDecode
  /-- `BED.DISPOSE`: end the decoder (R241). -/
  | bedDispose
  /-- `FPE.INIT`: start the FPAQ encoder (R261). -/
  | fpeInit (k : Nat)
  /-- `FPE.ENCBYTE`: encode the continue bit and `ARG0[7:0]` (R262). -/
  | fpeEncbyte
  /-- `FPE.ENCODE`: encode an array (R263). -/
  | fpeEncode
  /-- `FPE.DISPOSE`: write the end marker and the trailing state (R264). -/
  | fpeDispose
  /-- `FPD.INIT`: start the FPAQ decoder (R265). -/
  | fpdInit (k : Nat)
  /-- `FPD.DECBIT`: decode one bit (R266). -/
  | fpdDecbit
  /-- `FPD.DECBYTE`: decode eight bits (R267). -/
  | fpdDecbyte
  /-- `FPD.DECODE`: decode up to the end marker (R270). -/
  | fpdDecode
  /-- `FPD.DISPOSE`: end the decoder (R271). -/
  | fpdDispose
  /-- `RCE.INIT`: start the range encoder, `chunkSize` in `ARG0` (R291). -/
  | rceInit
  /-- `RCE.ENCBYTE`: encode `ARG0[7:0]` (R287). -/
  | rceEncbyte
  /-- `RCE.ENCODE`: encode an array in chunks (R289). -/
  | rceEncode
  /-- `RCE.DISPOSE`: write the 56-bit `low` (R290). -/
  | rceDispose
  /-- `RCD.INIT`: start the range decoder (R295). -/
  | rcdInit
  /-- `RCD.DECBYTE`: decode one symbol (R296). -/
  | rcdDecbyte
  /-- `RCD.DECODE`: decode an array in chunks (R298). -/
  | rcdDecode
  /-- `RCD.DISPOSE`: end the decoder (R299). -/
  | rcdDispose
  /-- `HFE.INIT`: start the Huffman encoder (R320). -/
  | hfeInit
  /-- `HFE.ENCODE`: encode one block (R330). -/
  | hfeEncode
  /-- `HFE.DISPOSE`: end the encoder (R331). -/
  | hfeDispose
  /-- `HFD.INIT`: start the Huffman decoder (R320). -/
  | hfdInit
  /-- `HFD.DECODE`: decode one block (R340). -/
  | hfdDecode
  /-- `HFD.DISPOSE`: end the decoder (R346). -/
  | hfdDispose
  /-- `EGE.INIT`: start the exp-Golomb encoder (R364). -/
  | egeInit (signed : Bool)
  /-- `EGE.ENCBYTE`: encode `ARG0[7:0]` (R365). -/
  | egeEncbyte
  /-- `EGE.ENCODE`: encode an array (R367). -/
  | egeEncode
  /-- `EGE.DISPOSE`: end the encoder (R368). -/
  | egeDispose
  /-- `EGD.INIT`: start the exp-Golomb decoder (R364). -/
  | egdInit (signed : Bool)
  /-- `EGD.DECBYTE`: decode one byte (R366). -/
  | egdDecbyte
  /-- `EGD.DECODE`: decode an array (R367). -/
  | egdDecode
  /-- `EGD.DISPOSE`: end the decoder (R368). -/
  | egdDispose
  /-- `RGE.INIT`: start the Rice-Golomb encoder with `logBase` = `l` (R370). -/
  | rgeInit (signed : Bool) (l : Nat)
  /-- `RGE.ENCBYTE`: encode `ARG0[7:0]` (R374). -/
  | rgeEncbyte
  /-- `RGE.ENCODE`: encode an array (R377). -/
  | rgeEncode
  /-- `RGE.DISPOSE`: end the encoder (R378). -/
  | rgeDispose
  /-- `RGD.INIT`: start the Rice-Golomb decoder (R370). -/
  | rgdInit (signed : Bool) (l : Nat)
  /-- `RGD.DECBYTE`: decode one byte (R376). -/
  | rgdDecbyte
  /-- `RGD.DECODE`: decode an array (R377). -/
  | rgdDecode
  /-- `RGD.DISPOSE`: end the decoder (R378). -/
  | rgdDispose
  deriving DecidableEq, Repr

end Sys2Proof
end

