-- ==== Sys2Proof/WellFormed.lean ====
section
/-! DEFINITION. Which terms of `Instr` a command word can hold: every immediate fits its `IMM` field (30_encoding R114). A
well-formed immediate may still be illegal as an argument (`N` = 0, `K` = 3): that is the command's own check. -/

namespace Sys2Proof

/-- Every immediate fits its field: `U`, `K` and `L` in four bits, `N` in seven (30_encoding R114). -/
def wellFormed : Instr → Bool
  | .sysNop => true
  | .sysSreset => true
  | .sysUstate u => u < 16
  | .bswInit => true
  | .bswWrbit => true
  | .bswWrbits n => n < 128
  | .bswFlush => true
  | .bswClose => true
  | .bswWritten => true
  | .bsrInit => true
  | .bsrRdbit => true
  | .bsrRdbits n => n < 128
  | .bsrClose => true
  | .bsrRead => true
  | .beeInit k => k < 16
  | .beeEncbit => true
  | .beeEncbyte => true
  | .beeEncode => true
  | .beeDispose => true
  | .bedInit k => k < 16
  | .bedDecbit => true
  | .bedDecbyte => true
  | .bedDecode => true
  | .bedDispose => true
  | .fpeInit k => k < 16
  | .fpeEncbyte => true
  | .fpeEncode => true
  | .fpeDispose => true
  | .fpdInit k => k < 16
  | .fpdDecbit => true
  | .fpdDecbyte => true
  | .fpdDecode => true
  | .fpdDispose => true
  | .rceInit => true
  | .rceEncbyte => true
  | .rceEncode => true
  | .rceDispose => true
  | .rcdInit => true
  | .rcdDecbyte => true
  | .rcdDecode => true
  | .rcdDispose => true
  | .hfeInit => true
  | .hfeEncode => true
  | .hfeDispose => true
  | .hfdInit => true
  | .hfdDecode => true
  | .hfdDispose => true
  | .egeInit _ => true
  | .egeEncbyte => true
  | .egeEncode => true
  | .egeDispose => true
  | .egdInit _ => true
  | .egdDecbyte => true
  | .egdDecode => true
  | .egdDispose => true
  | .rgeInit _ l => l < 16
  | .rgeEncbyte => true
  | .rgeEncode => true
  | .rgeDispose => true
  | .rgdInit _ l => l < 16
  | .rgdDecbyte => true
  | .rgdDecode => true
  | .rgdDispose => true

/-- `wellFormed` as a proposition. -/
abbrev WellFormed (i : Instr) : Prop := wellFormed i = true

end Sys2Proof
end

