-- ==== Sys2Proof/Decode.lean ====
section
/-! DEFINITION. The command word (30_encoding R110 to R114, R121): decoding, total on every word and rejecting by name, and the
encoder written from the same tables. -/

namespace Sys2Proof

/-- Why a word is no command (30_encoding R111): each reason is the one fault `ILLEGAL_COMMAND` to the host. -/
inductive DecodeError where
  /-- `RSV` is not zero. -/
  | reservedBits
  /-- The `UNIT`/`OP` pair is not in the table of R113 (unit 15 and operations 8 to 15 among them). -/
  | reservedOperation
  /-- A bit of `IMM` is set that R114 does not give to the operation. -/
  | strayImmediate
  deriving DecidableEq, Repr

/-- `UNIT`, bits [31:28] (R110). -/
def unitField (w : Command) : BitVec 4 := w.extractLsb' 28 4

/-- `OP`, bits [27:24] (R110). -/
def opField (w : Command) : BitVec 4 := w.extractLsb' 24 4

/-- `RSV`, bits [23:16] (R110). -/
def rsvField (w : Command) : BitVec 8 := w.extractLsb' 16 8

/-- `IMM`, bits [15:0] (R110). -/
def immField (w : Command) : BitVec 16 := w.extractLsb' 0 16

/-- The `S` bit, `IMM[4]`, of the Golomb INIT commands (R114). -/
def signField (signed : Bool) : BitVec 16 := if signed then 16 else 0

/-- An operation that uses no bit of `IMM` (R114). -/
def withoutImm (imm : BitVec 16) (i : Instr) : Except DecodeError Instr :=
  if imm = 0 then .ok i else .error .strayImmediate

/-- An operation whose operand is the low `bits` bits of `IMM` (R114: `U`, `N`, `K`). -/
def withNumber (bits : Nat) (imm : BitVec 16) (f : Nat → Instr) : Except DecodeError Instr :=
  if imm.toNat < 2 ^ bits then .ok (f imm.toNat) else .error .strayImmediate

/-- An operation whose operand is `S = IMM[4]` (R114). -/
def withSign (imm : BitVec 16) (f : Bool → Instr) : Except DecodeError Instr :=
  if imm = 0 then .ok (f false) else if imm = 16 then .ok (f true) else .error .strayImmediate

/-- An operation whose operands are `S = IMM[4]` and `L = IMM[3:0]` (R114). -/
def withSignAndBase (imm : BitVec 16) (f : Bool → Nat → Instr) : Except DecodeError Instr :=
  if imm.toNat < 32 then .ok (f (imm.getLsbD 4) (imm.toNat % 16)) else .error .strayImmediate

/-- The table of R113, with the immediates of R114. -/
def decodeOperation (unit op : Nat) (imm : BitVec 16) : Except DecodeError Instr :=
  match unit, op with
  | 0, 0 => withoutImm imm .sysNop
  | 0, 1 => withoutImm imm .sysSreset
  | 0, 2 => withNumber 4 imm .sysUstate
  | 1, 0 => withoutImm imm .bswInit
  | 1, 1 => withoutImm imm .bswWrbit
  | 1, 2 => withNumber 7 imm .bswWrbits
  | 1, 3 => withoutImm imm .bswFlush
  | 1, 4 => withoutImm imm .bswClose
  | 1, 5 => withoutImm imm .bswWritten
  | 2, 0 => withoutImm imm .bsrInit
  | 2, 1 => withoutImm imm .bsrRdbit
  | 2, 2 => withNumber 7 imm .bsrRdbits
  | 2, 4 => withoutImm imm .bsrClose
  | 2, 5 => withoutImm imm .bsrRead
  | 3, 0 => withNumber 4 imm .beeInit
  | 3, 1 => withoutImm imm .beeEncbit
  | 3, 2 => withoutImm imm .beeEncbyte
  | 3, 6 => withoutImm imm .beeEncode
  | 3, 7 => withoutImm imm .beeDispose
  | 4, 0 => withNumber 4 imm .bedInit
  | 4, 1 => withoutImm imm .bedDecbit
  | 4, 2 => withoutImm imm .bedDecbyte
  | 4, 6 => withoutImm imm .bedDecode
  | 4, 7 => withoutImm imm .bedDispose
  | 5, 0 => withNumber 4 imm .fpeInit
  | 5, 2 => withoutImm imm .fpeEncbyte
  | 5, 6 => withoutImm imm .fpeEncode
  | 5, 7 => withoutImm imm .fpeDispose
  | 6, 0 => withNumber 4 imm .fpdInit
  | 6, 1 => withoutImm imm .fpdDecbit
  | 6, 2 => withoutImm imm .fpdDecbyte
  | 6, 6 => withoutImm imm .fpdDecode
  | 6, 7 => withoutImm imm .fpdDispose
  | 7, 0 => withoutImm imm .rceInit
  | 7, 2 => withoutImm imm .rceEncbyte
  | 7, 6 => withoutImm imm .rceEncode
  | 7, 7 => withoutImm imm .rceDispose
  | 8, 0 => withoutImm imm .rcdInit
  | 8, 2 => withoutImm imm .rcdDecbyte
  | 8, 6 => withoutImm imm .rcdDecode
  | 8, 7 => withoutImm imm .rcdDispose
  | 9, 0 => withoutImm imm .hfeInit
  | 9, 6 => withoutImm imm .hfeEncode
  | 9, 7 => withoutImm imm .hfeDispose
  | 10, 0 => withoutImm imm .hfdInit
  | 10, 6 => withoutImm imm .hfdDecode
  | 10, 7 => withoutImm imm .hfdDispose
  | 11, 0 => withSign imm .egeInit
  | 11, 2 => withoutImm imm .egeEncbyte
  | 11, 6 => withoutImm imm .egeEncode
  | 11, 7 => withoutImm imm .egeDispose
  | 12, 0 => withSign imm .egdInit
  | 12, 2 => withoutImm imm .egdDecbyte
  | 12, 6 => withoutImm imm .egdDecode
  | 12, 7 => withoutImm imm .egdDispose
  | 13, 0 => withSignAndBase imm .rgeInit
  | 13, 2 => withoutImm imm .rgeEncbyte
  | 13, 6 => withoutImm imm .rgeEncode
  | 13, 7 => withoutImm imm .rgeDispose
  | 14, 0 => withSignAndBase imm .rgdInit
  | 14, 2 => withoutImm imm .rgdDecbyte
  | 14, 6 => withoutImm imm .rgdDecode
  | 14, 7 => withoutImm imm .rgdDispose
  | _, _ => .error .reservedOperation

/-- The command a word stands for, or why it is illegal (R111). -/
def decode (w : Command) : Except DecodeError Instr :=
  if rsvField w = 0 then decodeOperation (unitField w).toNat (opField w).toNat (immField w) else .error .reservedBits

/-- The `UNIT` value of a command (R112, R113). -/
def Instr.unit : Instr → BitVec 4
  | .sysNop => 0
  | .sysSreset => 0
  | .sysUstate _ => 0
  | .bswInit => 1
  | .bswWrbit => 1
  | .bswWrbits _ => 1
  | .bswFlush => 1
  | .bswClose => 1
  | .bswWritten => 1
  | .bsrInit => 2
  | .bsrRdbit => 2
  | .bsrRdbits _ => 2
  | .bsrClose => 2
  | .bsrRead => 2
  | .beeInit _ => 3
  | .beeEncbit => 3
  | .beeEncbyte => 3
  | .beeEncode => 3
  | .beeDispose => 3
  | .bedInit _ => 4
  | .bedDecbit => 4
  | .bedDecbyte => 4
  | .bedDecode => 4
  | .bedDispose => 4
  | .fpeInit _ => 5
  | .fpeEncbyte => 5
  | .fpeEncode => 5
  | .fpeDispose => 5
  | .fpdInit _ => 6
  | .fpdDecbit => 6
  | .fpdDecbyte => 6
  | .fpdDecode => 6
  | .fpdDispose => 6
  | .rceInit => 7
  | .rceEncbyte => 7
  | .rceEncode => 7
  | .rceDispose => 7
  | .rcdInit => 8
  | .rcdDecbyte => 8
  | .rcdDecode => 8
  | .rcdDispose => 8
  | .hfeInit => 9
  | .hfeEncode => 9
  | .hfeDispose => 9
  | .hfdInit => 10
  | .hfdDecode => 10
  | .hfdDispose => 10
  | .egeInit _ => 11
  | .egeEncbyte => 11
  | .egeEncode => 11
  | .egeDispose => 11
  | .egdInit _ => 12
  | .egdDecbyte => 12
  | .egdDecode => 12
  | .egdDispose => 12
  | .rgeInit _ _ => 13
  | .rgeEncbyte => 13
  | .rgeEncode => 13
  | .rgeDispose => 13
  | .rgdInit _ _ => 14
  | .rgdDecbyte => 14
  | .rgdDecode => 14
  | .rgdDispose => 14

/-- The `OP` value of a command (R113). -/
def Instr.op : Instr → BitVec 4
  | .sysNop => 0
  | .sysSreset => 1
  | .sysUstate _ => 2
  | .bswInit => 0
  | .bswWrbit => 1
  | .bswWrbits _ => 2
  | .bswFlush => 3
  | .bswClose => 4
  | .bswWritten => 5
  | .bsrInit => 0
  | .bsrRdbit => 1
  | .bsrRdbits _ => 2
  | .bsrClose => 4
  | .bsrRead => 5
  | .beeInit _ => 0
  | .beeEncbit => 1
  | .beeEncbyte => 2
  | .beeEncode => 6
  | .beeDispose => 7
  | .bedInit _ => 0
  | .bedDecbit => 1
  | .bedDecbyte => 2
  | .bedDecode => 6
  | .bedDispose => 7
  | .fpeInit _ => 0
  | .fpeEncbyte => 2
  | .fpeEncode => 6
  | .fpeDispose => 7
  | .fpdInit _ => 0
  | .fpdDecbit => 1
  | .fpdDecbyte => 2
  | .fpdDecode => 6
  | .fpdDispose => 7
  | .rceInit => 0
  | .rceEncbyte => 2
  | .rceEncode => 6
  | .rceDispose => 7
  | .rcdInit => 0
  | .rcdDecbyte => 2
  | .rcdDecode => 6
  | .rcdDispose => 7
  | .hfeInit => 0
  | .hfeEncode => 6
  | .hfeDispose => 7
  | .hfdInit => 0
  | .hfdDecode => 6
  | .hfdDispose => 7
  | .egeInit _ => 0
  | .egeEncbyte => 2
  | .egeEncode => 6
  | .egeDispose => 7
  | .egdInit _ => 0
  | .egdDecbyte => 2
  | .egdDecode => 6
  | .egdDispose => 7
  | .rgeInit _ _ => 0
  | .rgeEncbyte => 2
  | .rgeEncode => 6
  | .rgeDispose => 7
  | .rgdInit _ _ => 0
  | .rgdDecbyte => 2
  | .rgdDecode => 6
  | .rgdDispose => 7

/-- The `IMM` field of a command (R114). -/
def Instr.imm : Instr → BitVec 16
  | .sysNop => 0
  | .sysSreset => 0
  | .sysUstate u => BitVec.ofNat 16 u
  | .bswInit => 0
  | .bswWrbit => 0
  | .bswWrbits n => BitVec.ofNat 16 n
  | .bswFlush => 0
  | .bswClose => 0
  | .bswWritten => 0
  | .bsrInit => 0
  | .bsrRdbit => 0
  | .bsrRdbits n => BitVec.ofNat 16 n
  | .bsrClose => 0
  | .bsrRead => 0
  | .beeInit k => BitVec.ofNat 16 k
  | .beeEncbit => 0
  | .beeEncbyte => 0
  | .beeEncode => 0
  | .beeDispose => 0
  | .bedInit k => BitVec.ofNat 16 k
  | .bedDecbit => 0
  | .bedDecbyte => 0
  | .bedDecode => 0
  | .bedDispose => 0
  | .fpeInit k => BitVec.ofNat 16 k
  | .fpeEncbyte => 0
  | .fpeEncode => 0
  | .fpeDispose => 0
  | .fpdInit k => BitVec.ofNat 16 k
  | .fpdDecbit => 0
  | .fpdDecbyte => 0
  | .fpdDecode => 0
  | .fpdDispose => 0
  | .rceInit => 0
  | .rceEncbyte => 0
  | .rceEncode => 0
  | .rceDispose => 0
  | .rcdInit => 0
  | .rcdDecbyte => 0
  | .rcdDecode => 0
  | .rcdDispose => 0
  | .hfeInit => 0
  | .hfeEncode => 0
  | .hfeDispose => 0
  | .hfdInit => 0
  | .hfdDecode => 0
  | .hfdDispose => 0
  | .egeInit signed => signField signed
  | .egeEncbyte => 0
  | .egeEncode => 0
  | .egeDispose => 0
  | .egdInit signed => signField signed
  | .egdDecbyte => 0
  | .egdDecode => 0
  | .egdDispose => 0
  | .rgeInit signed l => signField signed ||| BitVec.ofNat 16 l
  | .rgeEncbyte => 0
  | .rgeEncode => 0
  | .rgeDispose => 0
  | .rgdInit signed l => signField signed ||| BitVec.ofNat 16 l
  | .rgdDecbyte => 0
  | .rgdDecode => 0
  | .rgdDispose => 0

/-- The command word (R121): `(UNIT << 28) | (OP << 24) | IMM`. -/
def encode (i : Instr) : Command := i.unit ++ i.op ++ (0 : BitVec 8) ++ i.imm

/-- What the decoder reads from an instruction of `nbits` bits numbered as opcode_table.json numbers them: a command is one
32-bit word (R118), so the word is the number. -/
def decodeTableWord (nbits w : Nat) : Option Instr :=
  match decode (BitVec.ofNat 32 (w % 2 ^ nbits)) with
  | .ok i => some i
  | .error _ => none

end Sys2Proof
end

