-- ==== Sys2Proof/Config.lean ====
section
/-! DEFINITION. What an implementation fixes (00_scope R9, 93_implementation_defined section 3) and the free values of the
model, which have no body so that nothing can be proved of one. -/

namespace Sys2Proof

/-- The legal values of the parameter `CLAMP_MASK` (93 section 3; 90_conflicts C3): the source's literal `BOTTOM - 1`, or
`BOTTOM`. -/
inductive ClampMask where
  | literal
  | bottom
  deriving DecidableEq, Repr

/-- The parameters a model takes (00_scope R9). They are data of the state that nothing changes (log 11). -/
structure Params where
  /-- `DATA_SIZE`, bytes of DATA. -/
  dataSize : Nat
  /-- `BSW_BUF_BYTES`, the writer's buffer in bytes. -/
  bufBytes : Nat
  /-- `CLAMP_MASK`. -/
  clamp : ClampMask
  deriving DecidableEq, Repr

/-- The defaults of 00_scope R9. -/
def Params.default : Params := { dataSize := 2 ^ 20, bufBytes := 65536, clamp := .literal }

/-- The legal values of 00_scope R9: `DATA_SIZE` in 1..2^32 and `BSW_BUF_BYTES` at least 8. -/
abbrev Params.Legal (p : Params) : Prop := 1 ≤ p.dataSize ∧ p.dataSize ≤ 2 ^ 32 ∧ 8 ≤ p.bufBytes

/-- FREE VALUE (log 1). The byte that DATA holds at an address nothing has written: unspecified (70 R443, 93 U3). -/
opaque Config.powerUpByte : Nat → Byte

/-- FREE VALUE (log 7, log 12). Register contents the spec leaves unspecified: the n-th draw, register by register (44 R288
and 93 U1: `low`, `range`, `freq` after the clamp case; 10_state R30: a read of the write-only `CMD`). -/
opaque Config.freeRegister : Nat → Nat → Word64

end Sys2Proof
end

