-- ==== Sys2Proof/Machine/Memory.lean ====
section
/-! DEFINITION. DATA memory (20_memory R80, R81): the bytes that have been written, in one canonical form. -/

namespace Sys2Proof.Machine

/-- The written bytes of DATA, as (address, byte) pairs with addresses strictly rising. -/
abbrev Memory := List Host.Cell

/-- What an unlisted address reads as: no known byte (70 R443: DATA is unspecified at power-up). A command that reads such a
byte reads `Config.powerUpByte` (log 1). -/
abbrev Memory.unlisted : Option Byte := none

/-- The canonical form: addresses strictly rise, and no entry is what an unlisted address reads as. -/
abbrev Memory.wf (m : Memory) : Prop :=
  m.Pairwise (fun a b => a.1 < b.1) ∧ ∀ c ∈ m, some c.2 ≠ Memory.unlisted

/-- The byte listed at an address. -/
def Memory.lookup (m : Memory) (a : Nat) : Option Byte :=
  match m with
  | [] => Memory.unlisted
  | c :: rest => if c.1 = a then some c.2 else Memory.lookup rest a

/-- The memory after a write of one byte, in canonical form. -/
def Memory.insert (m : Memory) (a : Nat) (v : Byte) : Memory :=
  match m with
  | [] => [(a, v)]
  | c :: rest =>
    if a < c.1 then (a, v) :: c :: rest
    else if a = c.1 then (a, v) :: rest
    else c :: Memory.insert rest a v

end Sys2Proof.Machine
end

