-- ==== Sys2Proof/Machine/Table.lean ====
section
/-! DEFINITION. A table of a fixed number of like entries (10_state R37, R43, R46), and the operations over it. -/

namespace Sys2Proof.Machine

/-- `n` entries, in index order. -/
structure Table (α : Type) (n : Nat) where
  cells : List α
  size : cells.length = n
  deriving DecidableEq, Repr

/-- `table[i]`; an index past the end reads as `fallback` (no rule forms one). -/
def Table.get {α : Type} {n : Nat} (t : Table α n) (i : Nat) (fallback : α) : α := t.cells.getD i fallback

/-- `table[i] <- x`. -/
def Table.set {α : Type} {n : Nat} (t : Table α n) (i : Nat) (x : α) : Table α n :=
  { cells := t.cells.set i x, size := by rw [List.length_set]; exact t.size }

/-- The table whose entry `i` is `f i`. -/
def Table.ofFn {α : Type} (n : Nat) (f : Nat → α) : Table α n :=
  { cells := (List.range n).map f, size := by rw [List.length_map, List.length_range] }

/-- The table whose every entry is `x`. -/
def Table.fill {α : Type} (n : Nat) (x : α) : Table α n :=
  { cells := List.replicate n x, size := List.length_replicate }

/-- Entry `i` becomes `f x` for `i >= k`, the entries below `k` staying as they are. -/
def mapFrom {α : Type} (f : α → α) : Nat → List α → List α
  | _, [] => []
  | 0, x :: xs => f x :: mapFrom f 0 xs
  | k + 1, x :: xs => x :: mapFrom f k xs

theorem length_mapFrom {α : Type} (f : α → α) (k : Nat) (xs : List α) : (mapFrom f k xs).length = xs.length := by
  induction xs generalizing k with
  | nil => cases k <;> rfl
  | cons x xs ih => cases k <;> simp [mapFrom, ih]

/-- Every entry from index `k` on goes through `f`. -/
def Table.updateFrom {α : Type} {n : Nat} (t : Table α n) (k : Nat) (f : α → α) : Table α n :=
  { cells := mapFrom f k t.cells, size := by rw [length_mapFrom]; exact t.size }

end Sys2Proof.Machine
end

