-- ==== Sys2Proof/Machine/Units.lean ====
section
/-! DEFINITION. The state of the fifteen units (10_state R33 to R48), the values their INIT commands give them, and their values
after reset (R52). -/

namespace Sys2Proof.Machine

/-- `USTATE` of BSW and BSR (10_state R33). -/
inductive StreamState where
  | uninit
  | opened
  | closed
  deriving DecidableEq, Repr

/-- `USTATE` of a coder unit (10_state R33). -/
inductive CoderState where
  | uninit
  | ready
  | disposed
  | failed
  deriving DecidableEq, Repr

/-- BSW (10_state R34). -/
structure Writer where
  ustate : StreamState
  /-- `bsw.W`, the bits appended since `BSW.INIT`, oldest first. -/
  bits : List Bool
  /-- `bsw.written`. -/
  written : Word64
  /-- `bsw.delivered`, in bytes. -/
  delivered : Nat
  /-- `bsw.closed`. -/
  closed : Bool
  deriving DecidableEq, Repr

/-- BSR (10_state R36). -/
structure Reader where
  ustate : StreamState
  /-- `bsr.R`, the bytes taken from SOURCE since `BSR.INIT`, oldest first. -/
  bytes : List Byte
  /-- `bsr.read`, in bits. -/
  read : Word64
  /-- `bsr.ended`. -/
  ended : Bool
  /-- `bsr.closed`. -/
  closed : Bool
  deriving DecidableEq, Repr

/-- A predictor (10_state R37). -/
structure Predictor where
  ctx : BitVec 10
  n0 : Table (BitVec 11) 512
  n1 : Table (BitVec 11) 512
  deriving DecidableEq, Repr

/-- BEE and FPE (10_state R39, R42). -/
structure BinaryEncoder where
  ustate : CoderState
  low : BitVec 32
  high : BitVec 32
  pred : Predictor
  /-- The predictor kind `K` (10_state R39, R52). -/
  kind : BitVec 4
  deriving DecidableEq, Repr

/-- BED and FPD (10_state R40, R42). -/
structure BinaryDecoder where
  ustate : CoderState
  low : BitVec 32
  high : BitVec 32
  current : BitVec 32
  seeded : Bool
  pred : Predictor
  kind : BitVec 4
  deriving DecidableEq, Repr

/-- The cumulative frequency table `freq[0..257]` (10_state R43). -/
abbrev FreqTable := Table Word64 258

/-- RCE (10_state R43). -/
structure RangeEncoder where
  ustate : CoderState
  low : Word56
  range : Word56
  freq : FreqTable
  chunkSize : BitVec 32
  deriving DecidableEq, Repr

/-- RCD (10_state R44). -/
structure RangeDecoder where
  ustate : CoderState
  low : Word56
  range : Word56
  code : Word56
  seeded : Bool
  freq : FreqTable
  chunkSize : BitVec 32
  deriving DecidableEq, Repr

/-- HFE and HFD (10_state R46, R47). -/
structure Huffman where
  ustate : CoderState
  sizes : Table (BitVec 8) 256
  codes : Table Word64 256
  deriving DecidableEq, Repr

/-- EGE and EGD (10_state R48). -/
structure ExpGolomb where
  ustate : CoderState
  signed : Bool
  deriving DecidableEq, Repr

/-- RGE and RGD (10_state R48). -/
structure RiceGolomb where
  ustate : CoderState
  signed : Bool
  logBase : BitVec 3
  deriving DecidableEq, Repr

/-- BSW after reset (R52); `BSW.INIT` differs by `USTATE` (41_bitstream R181). -/
def writerFresh (u : StreamState) : Writer := { ustate := u, bits := [], written := 0, delivered := 0, closed := false }

/-- BSR after reset (R52); `BSR.INIT` differs by `USTATE` (41_bitstream R195). -/
def readerFresh (u : StreamState) : Reader := { ustate := u, bytes := [], read := 0, ended := false, closed := false }

/-- A predictor after reset and after INIT (10_state R37; 42_binary_coder R222). -/
def predictorFresh : Predictor := { ctx := 1, n0 := Table.fill 512 0, n1 := Table.fill 512 0 }

/-- BEE and FPE after reset; INIT differs by `USTATE` (10_state R39, R52; 42_binary_coder R226). -/
def binaryEncoderFresh (u : CoderState) : BinaryEncoder :=
  { ustate := u, low := 0, high := 0xFFFFFFFF, pred := predictorFresh, kind := 0 }

/-- BED and FPD after reset; INIT differs by `USTATE` (10_state R40, R52; 42_binary_coder R235). -/
def binaryDecoderFresh (u : CoderState) : BinaryDecoder :=
  { ustate := u, low := 0, high := 0xFFFFFFFF, current := 0, seeded := false, pred := predictorFresh, kind := 0 }

/-- `flat()`: `freq[v] <- v` (44_range_coder R283). -/
def flatTable : FreqTable := Table.ofFn 258 (BitVec.ofNat 64)

/-- RCE after reset; INIT differs by `USTATE` and `chunkSize` (10_state R43, R52; 44_range_coder R291). -/
def rangeEncoderFresh (u : CoderState) (chunkSize : BitVec 32) : RangeEncoder :=
  { ustate := u, low := 0, range := BitVec.ofNat 56 (2 ^ 56 - 1), freq := flatTable, chunkSize := chunkSize }

/-- RCD after reset; INIT differs by `USTATE` and `chunkSize` (10_state R44, R52; 44_range_coder R295). -/
def rangeDecoderFresh (u : CoderState) (chunkSize : BitVec 32) : RangeDecoder :=
  { ustate := u, low := 0, range := BitVec.ofNat 56 (2 ^ 56 - 1), code := 0, seeded := false, freq := flatTable, chunkSize := chunkSize }

/-- HFE and HFD after reset; INIT differs by `USTATE` (10_state R46, R47, R52; 45_huffman R320). -/
def huffmanFresh (u : CoderState) : Huffman := { ustate := u, sizes := Table.fill 256 0, codes := Table.fill 256 0 }

/-- EGE and EGD after reset (10_state R48, R52). -/
def expGolombReset : ExpGolomb := { ustate := .uninit, signed := false }

/-- RGE and RGD after reset (10_state R48, R52). -/
def riceGolombReset : RiceGolomb := { ustate := .uninit, signed := false, logBase := 1 }

end Sys2Proof.Machine
end

