-- ==== Sys2Proof/Machine/State.lean ====
section
/-! DEFINITION. The state of the machine as plain data (10_state, 20_memory sections 1 and 2), the reasons a step can stop, and
the state after reset (10_state R52). -/

namespace Sys2Proof.Machine

/-- Why the machine stops. No command stops it: a command's fault is a code in `STATUS` (60_exceptions R407). -/
inductive Fault where
  /-- Raised by a host read or write of a window offset that 20_memory R82 does not list, or past the last DATA byte. Safe: the
  machine stops where the spec says nothing (log 13). -/
  | noSuchOffset
  deriving DecidableEq, Repr

/-- Why an instruction has no meaning. -/
inductive Refusal where
  /-- For an arm of `exec` without a meaning; none is left. Safe. -/
  | notModelled (mnemonic : String)
  deriving DecidableEq, Repr

/-- The fault codes a command can raise (60_exceptions R400). -/
inductive FaultCode where
  | illegalCommand
  | notInitialized
  | invalidArgument
  | endOfStream
  | streamClosed
  | invalidStream
  | coderDisposed
  | rangeDegenerate
  | coderFailed
  deriving DecidableEq, Repr

/-- The host's answer to a SOURCE request (20_memory R84): a byte, or END. -/
inductive SourceAnswer where
  | byte (b : Byte)
  | finish
  deriving DecidableEq, Repr

/-- A stream port, named where a command waits on it (20_memory R83, R84). -/
inductive Port where
  | sink
  | source
  deriving DecidableEq, Repr

/-- What the host does to the block (70_reset_and_hazards R457). -/
inductive HostMove where
  /-- A write of a window offset (20_memory R82); at offset 0 it issues a command. -/
  | write (offset : Nat) (value : Word64)
  /-- A read of a window offset. -/
  | read (offset : Nat)
  /-- An answer to a SOURCE request. -/
  | answer (a : SourceAnswer)
  /-- The acceptance of `n` more bytes at SINK. -/
  | accept (n : Nat)
  /-- The hardware reset. -/
  | reset
  deriving DecidableEq, Repr

/-- The machine. -/
structure State where
  /-- The implementation parameters (00_scope R9). -/
  params : Params
  /-- `CMD` (10_state R30). -/
  cmd : Command
  /-- `ARG0` (R30). -/
  arg0 : Word64
  /-- `ARG1` (R30). -/
  arg1 : BitVec 32
  /-- `ARG2` (R30). -/
  arg2 : BitVec 32
  /-- `ARG3` (R30). -/
  arg3 : BitVec 32
  /-- `RES` (R30). -/
  res : Word64
  /-- `STATUS` (R32). -/
  status : BitVec 32
  bsw : Writer
  bsr : Reader
  bee : BinaryEncoder
  bed : BinaryDecoder
  fpe : BinaryEncoder
  fpd : BinaryDecoder
  rce : RangeEncoder
  rcd : RangeDecoder
  hfe : Huffman
  hfd : Huffman
  ege : ExpGolomb
  egd : ExpGolomb
  rge : RiceGolomb
  rgd : RiceGolomb
  /-- DATA (20_memory R80). -/
  data : Memory
  /-- The bytes handed to SINK, oldest first (20_memory R83). -/
  sink : List Byte
  /-- How many more bytes the host has said it accepts at SINK (20_memory R83, 70_reset_and_hazards R453; log 3). -/
  sinkRoom : Nat
  /-- The SOURCE answers given and not yet taken, oldest first (20_memory R84; log 4). -/
  source : List SourceAnswer
  /-- The port that the command in `CMD` waits on (20_memory R83, R84; log 5). -/
  waiting : Option Port
  /-- How many bytes of the waiting command the host has accepted (log 5). -/
  sent : Nat
  /-- The SOURCE answers the waiting command has taken (log 5). -/
  taken : List SourceAnswer
  /-- The host's moves still to come, oldest first (log 2). -/
  host : List HostMove
  /-- What the host's last read of its window returned (log 12). -/
  hostRead : Word64
  /-- How many free values have been drawn (log 7). -/
  freeCount : Nat
  deriving DecidableEq, Repr

/-- The machine right after power-up reset (10_state R52; 70_reset_and_hazards R440, R441): every unit UNINIT, every register at
its reset value, DATA unspecified, nothing pending at the ports, no host move yet. -/
def State.reset : State where
  params := Params.default
  cmd := 0
  arg0 := 0
  arg1 := 0
  arg2 := 0
  arg3 := 0
  res := 0
  status := 0
  bsw := writerFresh .uninit
  bsr := readerFresh .uninit
  bee := binaryEncoderFresh .uninit
  bed := binaryDecoderFresh .uninit
  fpe := binaryEncoderFresh .uninit
  fpd := binaryDecoderFresh .uninit
  rce := rangeEncoderFresh .uninit 65536
  rcd := rangeDecoderFresh .uninit 65536
  hfe := huffmanFresh .uninit
  hfd := huffmanFresh .uninit
  ege := expGolombReset
  egd := expGolombReset
  rge := riceGolombReset
  rgd := riceGolombReset
  data := []
  sink := []
  sinkRoom := 0
  source := []
  waiting := none
  sent := 0
  taken := []
  host := []
  hostRead := 0
  freeCount := 0

end Sys2Proof.Machine
end

