-- ==== Sys2Proof/Machine/Flags.lean ====
section
/-! DEFINITION. `STATUS` (10_state R32), the fault codes (60_exceptions R400), the unit states as `SYS.USTATE` reports them
(10_state R33), and the end of a command: completing (40_system R150) and raising a fault (60_exceptions R401). -/

namespace Sys2Proof.Machine

/-- The number of a fault code (60_exceptions R400). -/
def FaultCode.code : FaultCode → BitVec 8
  | .illegalCommand => 0x01
  | .notInitialized => 0x02
  | .invalidArgument => 0x03
  | .endOfStream => 0x04
  | .streamClosed => 0x05
  | .invalidStream => 0x06
  | .coderDisposed => 0x07
  | .rangeDegenerate => 0x08
  | .coderFailed => 0x09

/-- `USTATE` of BSW and BSR as a number (10_state R33). -/
def StreamState.code : StreamState → Word64
  | .uninit => 0
  | .opened => 1
  | .closed => 2

/-- `USTATE` of a coder unit as a number (10_state R33). -/
def CoderState.code : CoderState → Word64
  | .uninit => 0
  | .ready => 1
  | .disposed => 2
  | .failed => 3

/-- The `STATUS` word of its fields; bits [31:24] are zero (10_state R32). -/
def statusWord (op unit : BitVec 4) (first code : BitVec 8) : BitVec 32 := (0 : BitVec 8) ++ op ++ unit ++ first ++ code

/-- `STATUS.CODE` (10_state R32). -/
def statusCode (w : BitVec 32) : BitVec 8 := w.extractLsb' 0 8

/-- `STATUS.FIRST` (10_state R32). -/
def statusFirst (w : BitVec 32) : BitVec 8 := w.extractLsb' 8 8

/-- `STATUS.UNIT` (10_state R32). -/
def statusUnit (w : BitVec 32) : BitVec 4 := w.extractLsb' 16 4

/-- `STATUS.OP` (10_state R32). -/
def statusOp (w : BitVec 32) : BitVec 4 := w.extractLsb' 20 4

/-- The sticky `STATUS.FIRST` after a fault `c` (60_exceptions R401): the first fault since reset stays. -/
def firstFault (first : BitVec 8) (c : FaultCode) : BitVec 8 := if first = 0 then c.code else first

/-- A command completes with the result `v` (40_system R150 (4)): `STATUS.FIRST` stays. No command is in progress any more. -/
def complete (unit op : BitVec 4) (v : Word64) (s : State) : State :=
  { s with res := v, status := statusWord op unit (statusFirst s.status) 0, sent := 0 }

/-- RAISING A FAULT (60_exceptions R401): the block saves nothing but `STATUS` and transfers control nowhere (R407). -/
def raiseFault (unit op : BitVec 4) (c : FaultCode) (s : State) : State :=
  { s with status := statusWord op unit (firstFault (statusFirst s.status) c) c.code, sent := 0 }

end Sys2Proof.Machine
end

