-- ==== Sys2Proof/Machine/Operands.lean ====
section
/-! DEFINITION. The register operands of the commands (30_encoding R115, R116) and the validation of an array descriptor
(40_system R159). -/

namespace Sys2Proof.Machine

/-- `ARG0[0]`, the bit operand (30_encoding R115). -/
def argBit (s : State) : Bool := s.arg0.getLsbD 0

/-- `ARG0[7:0]`, the byte operand (30_encoding R115). -/
def argByte (s : State) : Byte := s.arg0.extractLsb' 0 8

/-- `ARG0[31:0]`, the chunk size operand and the base address (30_encoding R115, R116). -/
def argLow (s : State) : BitVec 32 := s.arg0.extractLsb' 0 32

/-- The legal chunk sizes (44_range_coder R282, R291): 0, or 1024 to 2^30 as a signed number. -/
abbrev chunkSizeLegal (c : BitVec 32) : Prop := c = 0 ∨ (1024 ≤ c.toInt ∧ c.toInt ≤ 2 ^ 30)

/-- The checks of an array descriptor (40_system R159): `size = ARG1`, `off = ARG2`, `len = ARG3` signed, `base = ARG0[31:0]`
unsigned. -/
abbrev descriptorValid (s : State) : Prop :=
  0 ≤ s.arg1.toInt ∧ 0 ≤ s.arg2.toInt ∧ 0 ≤ s.arg3.toInt ∧ s.arg2.toInt + s.arg3.toInt ≤ s.arg1.toInt ∧
    ((argLow s).toNat : Int) + s.arg1.toInt ≤ s.params.dataSize

/-- The address of the first element, `base + off` (30_encoding R116). -/
def arrayStart (s : State) : Nat := (argLow s).toNat + s.arg2.toNat

/-- The number of elements, `len` (30_encoding R116). -/
def arrayLength (s : State) : Nat := s.arg3.toNat

end Sys2Proof.Machine
end

