-- ==== Sys2Proof/Machine/Ops.lean ====
section
/-! DEFINITION. The operations every command is built from: DATA bytes (00_scope R12), the writer's `PutBits` and hand-offs
(41_bitstream R183 to R191), the reader's `GetBits` (R197), the unit-state checks (40_system R155 to R157), elements and what a
fault undoes (60_exceptions R402, R404), array loops (40_system R159 to R163), waits (20_memory R83, R84), and reset
(70_reset_and_hazards R440). -/

namespace Sys2Proof.Machine

/-- Why an operation does not go on. -/
inductive Stop where
  /-- A fault is raised (60_exceptions R402). -/
  | fault (c : FaultCode)
  /-- The clamp case of `RANGE_DEGENERATE`, which undoes nothing (44_range_coder R288 (a)). -/
  | clamped
  /-- The command waits on a port (20_memory R83, R84). -/
  | wait (p : Port)
  deriving DecidableEq, Repr

/-- An operation over the state that answers a value, or stops with the state it had reached. -/
abbrev M (α : Type) := EStateM Stop State α

/-- `raise c` (00_scope R12). -/
def raise {α : Type} (c : FaultCode) : M α := fun s => .error (.fault c) s

/-- The clamp case of `RANGE_DEGENERATE` (44_range_coder R288 (a)). -/
def stick {α : Type} : M α := fun s => .error .clamped s

/-- An operation that first looks at the state. -/
def look {α : Type} (f : State → M α) : M α := fun s => f s s

/-- `reg <- v` (00_scope R12). -/
def update (f : State → State) : M Unit := fun s => .ok () (f s)

/-! ### DATA -/

/-- The byte of DATA at an address: the byte last written, or the free power-up byte (log 1). -/
def dataByte (s : State) (a : Nat) : Byte := (Memory.lookup s.data a).getD (Config.powerUpByte a)

/-- `MemRead(addr, 1)` (00_scope R12). -/
def memRead (a : Nat) : M Byte := fun s => .ok (dataByte s a) s

/-- `MemWrite(addr, 1, v)` (00_scope R12). -/
def memWrite (a : Nat) (v : Byte) : M Unit := update fun s => { s with data := Memory.insert s.data a v }

/-! ### Bits -/

/-- The low `n` bits of `v`, most significant first (20_memory R87). -/
def bitsOf (v n : Nat) : List Bool := (List.range n).map fun i => v.testBit (n - 1 - i)

/-- The number a bit sequence stands for, first bit most significant (20_memory R87). -/
def bitsValue (bs : List Bool) : Nat := bs.foldl (fun v b => 2 * v + b.toNat) 0

/-! ### The writer -/

/-- Byte `k` of the output for the bits `w`: bit `8k` in bit 7, missing bits 0 (41_bitstream R183). -/
def outByte (w : List Bool) (k : Nat) : Byte :=
  BitVec.ofNat 8 (bitsValue ((List.range 8).map fun j => w.getD (8 * k + j) false))

/-- Bytes `start .. start + n - 1` of the output (41_bitstream R183). -/
def outBytes (w : List Bool) (start n : Nat) : List Byte := (List.range n).map fun j => outByte w (start + j)

/-- Hand the bytes `bs` to SINK (20_memory R83). Bytes the host accepted before the command began to wait are not handed over
again (log 5); where the host accepts no more the command waits. -/
def handOff (bs : List Byte) : M Unit := fun s =>
  let new := bs.drop s.sent
  let t := { s with sent := s.sent - bs.length, bsw.delivered := s.bsw.delivered + bs.length }
  if new.length ≤ s.sinkRoom then .ok () { t with sink := s.sink ++ new, sinkRoom := s.sinkRoom - new.length }
  else .error (.wait .sink) { t with sink := s.sink ++ new.take s.sinkRoom, sinkRoom := 0 }

/-- The complete bytes of `W`, `bsw.written >> 3` (41_bitstream R186). -/
def completeBytes (b : Writer) : Nat := b.written.toNat / 8

/-- `deliver()` (41_bitstream R190): whole buffers of `BSW_BUF_BYTES`, while one is full. -/
def deliver : M Unit := look fun s =>
  let n := (completeBytes s.bsw - s.bsw.delivered) / s.params.bufBytes * s.params.bufBytes
  if n = 0 then pure () else handOff (outBytes s.bsw.bits s.bsw.delivered n)

/-- `PutBits(v, n)` (41_bitstream R185). -/
def putBits (v n : Nat) : M Unit := look fun s =>
  if s.bsw.ustate = .uninit then raise .notInitialized
  else if s.bsw.closed then raise .streamClosed
  else do
    update fun s =>
      { s with bsw.bits := s.bsw.bits ++ bitsOf v n, bsw.written := s.bsw.written + BitVec.ofNat 64 n }
    deliver

/-- What FLUSH does to the writer (41_bitstream R186): the complete bytes go to SINK. -/
def flushWriter : M Unit := look fun s =>
  if s.bsw.closed then pure ()
  else handOff (outBytes s.bsw.bits s.bsw.delivered (completeBytes s.bsw - s.bsw.delivered))

/-- The bytes CLOSE pads with (41_bitstream R188): 0xFF up to a multiple of eight bytes. -/
def padLength (nbytes : Nat) : Nat := (8 - nbytes % 8) % 8

/-- What CLOSE does to the writer (41_bitstream R188). -/
def closeWriter : M Unit := look fun s =>
  if s.bsw.closed then pure ()
  else do
    let nbytes := (s.bsw.written.toNat + 7) / 8
    handOff (outBytes s.bsw.bits s.bsw.delivered (nbytes - s.bsw.delivered) ++ List.replicate (padLength nbytes) 0xFF)
    update fun s => { s with bsw.closed := true, bsw.ustate := .closed }

/-! ### The reader -/

/-- Take `k` more bytes from SOURCE (20_memory R84, 41_bitstream R197): an END stays remembered and ends the read; where the
host has not answered the command waits. -/
def takeBytes : Nat → M Unit
  | 0 => pure ()
  | k + 1 => fun s =>
    if s.bsr.ended then .error (.fault .endOfStream) s
    else
      match s.source with
      | [] => .error (.wait .source) s
      | .byte b :: rest => takeBytes k { s with source := rest, bsr.bytes := s.bsr.bytes ++ [b] }
      | .finish :: rest => .error (.fault .endOfStream) { s with source := rest, bsr.ended := true }

/-- Bit `i` of the bytes taken: bit 7 of each byte first (20_memory R85). -/
def streamBit (bytes : List Byte) (i : Nat) : Bool := (bytes.getD (i / 8) 0).getLsbD (7 - i % 8)

/-- Bits `start .. start + n - 1` of the bytes taken, as an `n`-bit number (41_bitstream R197). -/
def streamField (bytes : List Byte) (start n : Nat) : Nat :=
  bitsValue ((List.range n).map fun j => streamBit bytes (start + j))

/-- The bytes that must have been taken before `n` more bits can be read (41_bitstream R197). -/
def bytesNeeded (r : Reader) (n : Nat) : Nat := (r.read.toNat + n + 7) / 8

/-- `GetBits(n)` (41_bitstream R197). -/
def getBits (n : Nat) : M Nat := look fun s =>
  if s.bsr.ustate = .uninit then raise .notInitialized
  else if s.bsr.closed then raise .streamClosed
  else do
    takeBytes (bytesNeeded s.bsr n - s.bsr.bytes.length)
    update fun s => { s with bsr.read := s.bsr.read + BitVec.ofNat 64 n }
    look fun t => pure (streamField t.bsr.bytes s.bsr.read.toNat n)

/-! ### Unit-state checks -/

/-- A stream command other than INIT on an UNINIT stream raises `NOT_INITIALIZED` (40_system R155). -/
def onStream {α : Type} (u : StreamState) (body : M α) : M α := if u = .uninit then raise .notInitialized else body

/-- A coder command other than INIT and DISPOSE (40_system R155 to R157). -/
def onReady {α : Type} (u : CoderState) (body : M α) : M α :=
  match u with
  | .uninit => raise .notInitialized
  | .failed => raise .coderFailed
  | .disposed => raise .coderDisposed
  | .ready => body

/-- DISPOSE (40_system R155 to R157): on a DISPOSED coder it completes with no effect. -/
def onDispose (u : CoderState) (body : M Unit) : M Word64 :=
  match u with
  | .uninit => raise .notInitialized
  | .failed => raise .coderFailed
  | .disposed => pure 0
  | .ready => do
    body
    pure 0

/-! ### Elements -/

/-- The state after a faulting element that began in `s` and had reached `t` (60_exceptions R402): no effect, but the SOURCE
bytes it took, and an END it met, stay (41_bitstream R200; log 8). -/
def undo (s t : State) : State :=
  { s with source := t.source, bsr.bytes := t.bsr.bytes, bsr.ended := t.bsr.ended }

/-- One element (40_system R160): all its effects or, on a fault, none (60_exceptions R402). -/
def element {α : Type} (body : M α) : M α := fun s =>
  match body s with
  | .error (.fault c) t => .error (.fault c) (undo s t)
  | r => r

/-- A byte element of an array command: on a fault `RES` is the count of completed elements (60_exceptions R404). -/
def elementAt {α : Type} (count : Nat) (body : M α) : M α := fun s =>
  match element body s with
  | .error (.fault c) t => .error (.fault c) { t with res := BitVec.ofNat 64 count }
  | .error .clamped t => .error .clamped { t with res := BitVec.ofNat 64 count }
  | r => r

/-- An element of a DECODE: end of stream is no fault but the end of the data (40_system R163, 60_exceptions R405). -/
def elementOrEnd {α : Type} (count : Nat) (body : M α) : M (Option α) := fun s =>
  match elementAt count body s with
  | .ok v t => .ok (some v) t
  | .error (.fault .endOfStream) t => .ok none t
  | .error e t => .error e t

/-! ### Array commands -/

/-- An array command's checks: the unit state, where a fault reports no element completed (40_system R155 to R157,
60_exceptions R404; log 15), then the descriptor (40_system R159): -1 where it fails, with no other effect. -/
def onArray (u : CoderState) (body : Nat → Nat → M Word64) : M Word64 := do
  elementAt 0 (onReady u (pure ()))
  look fun s => if descriptorValid s then body (arrayStart s) (arrayLength s) else pure (BitVec.ofInt 64 (-1))

/-- The byte elements of an ENCODE from index `i`, `n` of them (40_system R160): `before` runs outside the element (44_range_coder
R289), `code` encodes the byte read. -/
def encodeFrom (before : Nat → M Unit) (code : Byte → M Unit) (start : Nat) : Nat → Nat → M Unit
  | 0, _ => pure ()
  | n + 1, i => do
    before i
    elementAt i do
      let v ← memRead (start + i)
      code v
    encodeFrom before code start n (i + 1)

/-- The whole loop of an ENCODE, which answers `len` (40_system R162). -/
def encodeAll (before : Nat → M Unit) (code : Byte → M Unit) (start len : Nat) : M Word64 := do
  encodeFrom before code start len 0
  pure (BitVec.ofNat 64 len)

/-- The byte elements of a DECODE from index `i`, at most `n` of them (40_system R160, R163); `code` answers no byte at the
coder's own end of data. The answer is the number of bytes written. -/
def decodeFrom (before : Nat → M Unit) (code : M (Option Byte)) (start : Nat) : Nat → Nat → M Nat
  | 0, i => pure i
  | n + 1, i => do
    before i
    match ← elementOrEnd i code with
    | some (some v) => do
      memWrite (start + i) v
      decodeFrom before code start n (i + 1)
    | _ => pure i

/-- The whole loop of a DECODE, which answers the number of bytes written (40_system R163). -/
def decodeAll (before : Nat → M Unit) (code : M (Option Byte)) (start len : Nat) : M Word64 := do
  let n ← decodeFrom before code start len 0
  pure (BitVec.ofNat 64 n)

/-- No chunk start. -/
def noChunk : Nat → M Unit := fun _ => pure ()

/-! ### Reset -/

/-- The effect of a reset (70_reset_and_hazards R440; 10_state R52): every register and unit at its reset value; DATA, what the
host has been handed, the answers not yet taken, the parameters and the host's own moves stay. A transfer in progress is
abandoned. -/
def resetAll (s : State) : State :=
  { State.reset with
    params := s.params
    data := s.data
    sink := s.sink
    sinkRoom := s.sinkRoom
    source := s.source
    host := s.host
    hostRead := s.hostRead
    freeCount := s.freeCount }

/-! ### Running a command -/

/-- A command that waited begins again with the answers it had taken (log 5). -/
def resume (s : State) : State := { s with source := s.taken ++ s.source, taken := [], waiting := none }

/-- The command that began in `s` waits on `p`, having reached `t` (log 5): what the host and DATA have seen stays, the rest is as
at its beginning. -/
def suspend (p : Port) (s t : State) : State :=
  { s with
    data := t.data
    sink := t.sink
    sinkRoom := t.sinkRoom
    source := t.source
    waiting := some p
    sent := s.sent + (t.sink.length - s.sink.length)
    taken := s.source.take (s.source.length - t.source.length) }

/-- `USTATE` FAILED for the range coder a command belongs to (44_range_coder R288; units 7 and 8 of 30_encoding R112). -/
def markFailed (unit : BitVec 4) (s : State) : State :=
  if unit = 7 then { s with rce.ustate := .failed }
  else if unit = 8 then { s with rcd.ustate := .failed }
  else s

/-- The range coder's registers after the clamp case of `RANGE_DEGENERATE` (44_range_coder R288 (a), 60_exceptions R402): free
values (log 7). -/
def scrambleRange (unit : BitVec 4) (s : State) : State :=
  let draw := Config.freeRegister s.freeCount
  let low := (draw 0).setWidth 56
  let range := (draw 1).setWidth 56
  let freq : FreqTable := Table.ofFn 258 fun v => draw (3 + v)
  let t := { s with freeCount := s.freeCount + 1 }
  if unit = 7 then { t with rce.low := low, rce.range := range, rce.freq := freq }
  else if unit = 8 then
    { t with rcd.low := low, rcd.range := range, rcd.freq := freq, rcd.code := (draw 2).setWidth 56, rcd.seeded := true }
  else t

/-- How a command ends (40_system R150): it completes, raises a fault, or waits. -/
def finish (unit op : BitVec 4) (s : State) : EStateM.Result Stop State Word64 → State
  | .ok v t => complete unit op v t
  | .error (.fault c) t => raiseFault unit op c (if c = .rangeDegenerate then markFailed unit t else t)
  | .error .clamped t => raiseFault unit op .rangeDegenerate (scrambleRange unit (markFailed unit t))
  | .error (.wait p) t => suspend p s t

/-- Run the body of the command `i` (40_system R150). -/
def command (i : Instr) (body : M Word64) (s : State) : Host.Outcome State Fault Refusal :=
  .next (finish i.unit i.op (resume s) (body (resume s)))

end Sys2Proof.Machine
end

