-- ==== Sys2Proof/Machine/BitStream.lean ====
section
/-! DEFINITION. The bit-stream writer BSW and reader BSR (41_bitstream). -/

namespace Sys2Proof.Machine

/-- `BSW.INIT` (41_bitstream R181). -/
def execBswInit (s : State) : Host.Outcome State Fault Refusal :=
  command .bswInit (do
    update fun s => { s with bsw := writerFresh .opened }
    pure 0) s

/-- `BSW.WRBIT` (41_bitstream R184). -/
def execBswWrbit (s : State) : Host.Outcome State Fault Refusal :=
  command .bswWrbit (do
    putBits (argBit s).toNat 1
    pure 1) s

/-- The checks of WRBITS before the field is written, in the order of 60_exceptions R403 (41_bitstream R185). -/
def checkWriteLength (n : Nat) : M Unit := look fun s =>
  if s.bsw.ustate = .uninit then raise .notInitialized
  else if s.bsw.closed then raise .streamClosed
  else if n < 1 ∨ 64 < n then raise .invalidArgument
  else pure ()

/-- `BSW.WRBITS N` (41_bitstream R185). -/
def execBswWrbits (n : Nat) (s : State) : Host.Outcome State Fault Refusal :=
  command (.bswWrbits n) (do
    checkWriteLength n
    putBits s.arg0.toNat n
    pure (BitVec.ofNat 64 n)) s

/-- `BSW.FLUSH` (41_bitstream R186). -/
def execBswFlush (s : State) : Host.Outcome State Fault Refusal :=
  command .bswFlush (onStream s.bsw.ustate do
    flushWriter
    pure 0) s

/-- `BSW.CLOSE` (41_bitstream R188). -/
def execBswClose (s : State) : Host.Outcome State Fault Refusal :=
  command .bswClose (onStream s.bsw.ustate do
    closeWriter
    pure 0) s

/-- `BSW.WRITTEN` (41_bitstream R189). -/
def execBswWritten (s : State) : Host.Outcome State Fault Refusal :=
  command .bswWritten (onStream s.bsw.ustate (pure s.bsw.written)) s

/-- `BSR.INIT` (41_bitstream R195). -/
def execBsrInit (s : State) : Host.Outcome State Fault Refusal :=
  command .bsrInit (do
    update fun s => { s with bsr := readerFresh .opened }
    pure 0) s

/-- `BSR.RDBIT` (41_bitstream R196). -/
def execBsrRdbit (s : State) : Host.Outcome State Fault Refusal :=
  command .bsrRdbit (element do
    let v ← getBits 1
    pure (BitVec.ofNat 64 v)) s

/-- The checks of RDBITS before the field is read, in the order of 60_exceptions R403 (41_bitstream R197). -/
def checkReadLength (n : Nat) : M Unit := look fun s =>
  if s.bsr.ustate = .uninit then raise .notInitialized
  else if s.bsr.closed then raise .streamClosed
  else if n < 1 ∨ 64 < n then raise .invalidArgument
  else pure ()

/-- `BSR.RDBITS N` (41_bitstream R197). -/
def execBsrRdbits (n : Nat) (s : State) : Host.Outcome State Fault Refusal :=
  command (.bsrRdbits n) (element do
    checkReadLength n
    let v ← getBits n
    pure (BitVec.ofNat 64 v)) s

/-- `BSR.CLOSE` (41_bitstream R198). -/
def execBsrClose (s : State) : Host.Outcome State Fault Refusal :=
  command .bsrClose (onStream s.bsr.ustate do
    update fun s => { s with bsr.closed := true, bsr.ustate := .closed }
    pure 0) s

/-- `BSR.READ` (41_bitstream R199). -/
def execBsrRead (s : State) : Host.Outcome State Fault Refusal :=
  command .bsrRead (onStream s.bsr.ustate (pure s.bsr.read)) s

end Sys2Proof.Machine
end

