-- ==== Sys2Proof/Machine/Binary.lean ====
section
/-! DEFINITION. The adaptive predictor, the steps of the binary entropy coder shared with the FPAQ coder (42_binary_coder R220 to
R239, 43_fpaq R260), and the units BEE and BED. -/

namespace Sys2Proof.Machine

/-! ### The predictor -/

/-- `get()` (42_binary_coder R223): the probability that the next bit is 1, out of 4096. -/
def Predictor.probability (p : Predictor) : Nat :=
  let n0 := (p.n0.get p.ctx.toNat 0).toNat
  let n1 := (p.n1.get p.ctx.toNat 0).toNat
  ((n1 + 1) * 4096) / (n0 + n1 + 2)

/-- The counters of one context after `bit` (42_binary_coder R224): the counter of the bit grows, and both are halved when it
passes 2000. -/
def countBit (n0 n1 : Nat) (bit : Bool) : Nat × Nat :=
  let m0 := if bit then n0 else n0 + 1
  let m1 := if bit then n1 + 1 else n1
  if 2000 < (if bit then m1 else m0) then (m0 / 2, m1 / 2) else (m0, m1)

/-- The context after `bit` (42_binary_coder R224). -/
def nextContext (ctx : Nat) (bit : Bool) : Nat :=
  let c := 2 * ctx + bit.toNat
  if 512 ≤ c then 1 else c

/-- `update(bit)` (42_binary_coder R224). -/
def Predictor.update (p : Predictor) (bit : Bool) : Predictor :=
  let c := p.ctx.toNat
  let m := countBit (p.n0.get c 0).toNat (p.n1.get c 0).toNat bit
  { ctx := BitVec.ofNat 10 (nextContext c bit)
    n0 := p.n0.set c (BitVec.ofNat 11 m.1)
    n1 := p.n1.set c (BitVec.ofNat 11 m.2) }

/-! ### The interval -/

/-- The split point (42_binary_coder R227). -/
def splitPoint (low high : BitVec 32) (p : Nat) : BitVec 32 := low + ((high - low) >>> 12) * BitVec.ofNat 32 p

/-- The lower end of the interval after `bit` (42_binary_coder R229). -/
def stepLow (low xmid : BitVec 32) (bit : Bool) : BitVec 32 := if bit then low else xmid + 1

/-- The upper end of the interval after `bit` (42_binary_coder R229). -/
def stepHigh (high xmid : BitVec 32) (bit : Bool) : BitVec 32 := if bit then xmid else high

/-- The top bytes agree (42_binary_coder R228). -/
def topAgrees (low high : BitVec 32) : Bool := (low ^^^ high) &&& 0xFF000000 == 0

/-- Carry-less renormalization (42_binary_coder R228): `shift` is the per-side action on the agreeing `high` and the side's own
register. The loop runs at most four times, since four shifts leave `low` = 0 and `high` = 0xFFFFFFFF. -/
def renormalize {α : Type} (shift : BitVec 32 → α → M α) :
    Nat → BitVec 32 → BitVec 32 → α → M (BitVec 32 × BitVec 32 × α)
  | 0, low, high, a => pure (low, high, a)
  | k + 1, low, high, a =>
    if topAgrees low high then do
      let a ← shift high a
      renormalize shift k (low <<< 8) ((high <<< 8) ||| 0xFF) a
    else pure (low, high, a)

/-! ### The encoder's steps -/

/-- The encoder's shift: the agreeing top byte is written (42_binary_coder R229). -/
def shiftOut (high : BitVec 32) (_ : Unit) : M Unit := putBits (high >>> 24).toNat 8

/-- `encodeBit(bit)` (42_binary_coder R229). -/
def encodeBit (e : BinaryEncoder) (bit : Bool) : M BinaryEncoder := do
  let xmid := splitPoint e.low e.high e.pred.probability
  let (low, high, _) ← renormalize shiftOut 4 (stepLow e.low xmid bit) (stepHigh e.high xmid bit) ()
  pure { e with low := low, high := high, pred := e.pred.update bit }

/-- `encodeBit` for each bit in order. -/
def encodeBits (e : BinaryEncoder) : List Bool → M BinaryEncoder
  | [] => pure e
  | b :: bs => do
    let e ← encodeBit e b
    encodeBits e bs

/-- `encodeByte(v)` (42_binary_coder R230): most significant bit first. -/
def encodeByte (e : BinaryEncoder) (v : Byte) : M BinaryEncoder := encodeBits e (bitsOf v.toNat 8)

/-- The dispose flush (42_binary_coder R232): `low << 24` in 56 bits, then BSW.FLUSH. -/
def flushInterval (e : BinaryEncoder) : M Unit := do
  putBits (e.low.toNat * 2 ^ 24) 56
  flushWriter

/-! ### The decoder's steps -/

/-- The lazy seed (42_binary_coder R236). -/
def seedDecoder (d : BinaryDecoder) : M BinaryDecoder :=
  if d.seeded then pure d
  else do
    let v ← getBits 32
    pure { d with current := BitVec.ofNat 32 v, seeded := true }

/-- The decoder's shift: a byte is read into `current` (42_binary_coder R238). -/
def shiftIn (_ : BitVec 32) (current : BitVec 32) : M (BitVec 32) := do
  let v ← getBits 8
  pure ((current <<< 8) ||| BitVec.ofNat 32 v)

/-- `decodeBit()` (42_binary_coder R237, R238). -/
def decodeBit (d : BinaryDecoder) : M (Bool × BinaryDecoder) := do
  let d ← seedDecoder d
  let xmid := splitPoint d.low d.high d.pred.probability
  let bit := decide (d.current ≤ xmid)
  let (low, high, current) ← renormalize shiftIn 4 (stepLow d.low xmid bit) (stepHigh d.high xmid bit) d.current
  pure (bit, { d with low := low, high := high, current := current, pred := d.pred.update bit })

/-- `decodeBit` `n` times, the bits gathered into a number, first bit most significant (42_binary_coder R239). -/
def decodeBits (d : BinaryDecoder) : Nat → Nat → M (Nat × BinaryDecoder)
  | 0, v => pure (v, d)
  | n + 1, v => do
    let (bit, d) ← decodeBit d
    decodeBits d n (2 * v + bit.toNat)

/-- `decodeByte()` (42_binary_coder R239). -/
def decodeByte (d : BinaryDecoder) : M (Byte × BinaryDecoder) := do
  let (v, d) ← decodeBits d 8 0
  pure (BitVec.ofNat 8 v, d)

/-! ### BEE -/

/-- `BEE.INIT K` (42_binary_coder R226). -/
def execBeeInit (k : Nat) (s : State) : Host.Outcome State Fault Refusal :=
  command (.beeInit k) (
    if k ≠ 0 then raise .invalidArgument
    else do
      update fun s => { s with bee := binaryEncoderFresh .ready }
      pure 0) s

/-- One element of BEE. -/
def beeElement (code : BinaryEncoder → M BinaryEncoder) : M Unit := look fun s => do
  let e ← code s.bee
  update fun s => { s with bee := e }

/-- `BEE.ENCBIT` (42_binary_coder R229). -/
def execBeeEncbit (s : State) : Host.Outcome State Fault Refusal :=
  command .beeEncbit (onReady s.bee.ustate do
    element (beeElement fun e => encodeBit e (argBit s))
    pure 0) s

/-- `BEE.ENCBYTE` (42_binary_coder R230). -/
def execBeeEncbyte (s : State) : Host.Outcome State Fault Refusal :=
  command .beeEncbyte (onReady s.bee.ustate do
    element (beeElement fun e => encodeByte e (argByte s))
    pure 0) s

/-- `BEE.ENCODE` (42_binary_coder R231). -/
def execBeeEncode (s : State) : Host.Outcome State Fault Refusal :=
  command .beeEncode (onArray s.bee.ustate (encodeAll noChunk fun v => beeElement fun e => encodeByte e v)) s

/-- `BEE.DISPOSE` (42_binary_coder R232). -/
def execBeeDispose (s : State) : Host.Outcome State Fault Refusal :=
  command .beeDispose (onDispose s.bee.ustate (element do
    flushInterval s.bee
    update fun s => { s with bee.ustate := .disposed })) s

/-! ### BED -/

/-- `BED.INIT K` (42_binary_coder R235). -/
def execBedInit (k : Nat) (s : State) : Host.Outcome State Fault Refusal :=
  command (.bedInit k) (
    if k ≠ 0 then raise .invalidArgument
    else do
      update fun s => { s with bed := binaryDecoderFresh .ready }
      pure 0) s

/-- One element of BED. -/
def bedElement {α : Type} (code : BinaryDecoder → M (α × BinaryDecoder)) : M α := look fun s => do
  let (v, d) ← code s.bed
  update fun s => { s with bed := d }
  pure v

/-- `BED.DECBIT` (42_binary_coder R238). -/
def execBedDecbit (s : State) : Host.Outcome State Fault Refusal :=
  command .bedDecbit (onReady s.bed.ustate do
    let bit ← element (bedElement decodeBit)
    pure (BitVec.ofNat 64 bit.toNat)) s

/-- `BED.DECBYTE` (42_binary_coder R239). -/
def execBedDecbyte (s : State) : Host.Outcome State Fault Refusal :=
  command .bedDecbyte (onReady s.bed.ustate do
    let v ← element (bedElement decodeByte)
    pure (v.setWidth 64)) s

/-- `BED.DECODE` (42_binary_coder R240). -/
def execBedDecode (s : State) : Host.Outcome State Fault Refusal :=
  command .bedDecode (onArray s.bed.ustate (decodeAll noChunk (some <$> bedElement decodeByte))) s

/-- `BED.DISPOSE` (42_binary_coder R241, 40_system R164). -/
def execBedDispose (s : State) : Host.Outcome State Fault Refusal :=
  command .bedDispose (onDispose s.bed.ustate (update fun s => { s with bed.ustate := .disposed })) s

end Sys2Proof.Machine
end

