-- ==== Sys2Proof/Machine/Fpaq.lean ====
section
/-! DEFINITION. The FPAQ byte coder, units FPE and FPD (43_fpaq): the steps of Binary.lean on their own registers (R260). -/

namespace Sys2Proof.Machine

/-- `fpEncodeByte(v)` (43_fpaq R262): the continue bit 0, then the byte. -/
def fpEncodeByte (e : BinaryEncoder) (v : Byte) : M BinaryEncoder := do
  let e ← encodeBit e false
  encodeByte e v

/-- `FPE.INIT K` (43_fpaq R261). -/
def execFpeInit (k : Nat) (s : State) : Host.Outcome State Fault Refusal :=
  command (.fpeInit k) (
    if k ≠ 0 then raise .invalidArgument
    else do
      update fun s => { s with fpe := binaryEncoderFresh .ready }
      pure 0) s

/-- One element of FPE. -/
def fpeElement (code : BinaryEncoder → M BinaryEncoder) : M Unit := look fun s => do
  let e ← code s.fpe
  update fun s => { s with fpe := e }

/-- `FPE.ENCBYTE` (43_fpaq R262). -/
def execFpeEncbyte (s : State) : Host.Outcome State Fault Refusal :=
  command .fpeEncbyte (onReady s.fpe.ustate do
    element (fpeElement fun e => fpEncodeByte e (argByte s))
    pure 0) s

/-- `FPE.ENCODE` (43_fpaq R263). -/
def execFpeEncode (s : State) : Host.Outcome State Fault Refusal :=
  command .fpeEncode (onArray s.fpe.ustate (encodeAll noChunk fun v => fpeElement fun e => fpEncodeByte e v)) s

/-- `FPE.DISPOSE` (43_fpaq R264): the end marker and the flush are one element. -/
def execFpeDispose (s : State) : Host.Outcome State Fault Refusal :=
  command .fpeDispose (onDispose s.fpe.ustate (element do
    let e ← encodeBit s.fpe true
    flushInterval e
    update fun s => { s with fpe := { e with ustate := .disposed } })) s

/-- `FPD.INIT K` (43_fpaq R265). -/
def execFpdInit (k : Nat) (s : State) : Host.Outcome State Fault Refusal :=
  command (.fpdInit k) (
    if k ≠ 0 then raise .invalidArgument
    else do
      update fun s => { s with fpd := binaryDecoderFresh .ready }
      pure 0) s

/-- One element of FPD. -/
def fpdElement {α : Type} (code : BinaryDecoder → M (α × BinaryDecoder)) : M α := look fun s => do
  let (v, d) ← code s.fpd
  update fun s => { s with fpd := d }
  pure v

/-- `FPD.DECBIT` (43_fpaq R266). -/
def execFpdDecbit (s : State) : Host.Outcome State Fault Refusal :=
  command .fpdDecbit (onReady s.fpd.ustate do
    let bit ← element (fpdElement decodeBit)
    pure (BitVec.ofNat 64 bit.toNat)) s

/-- `FPD.DECBYTE` (43_fpaq R267): eight bits, no continue bit. -/
def execFpdDecbyte (s : State) : Host.Outcome State Fault Refusal :=
  command .fpdDecbyte (onReady s.fpd.ustate do
    let v ← element (fpdElement decodeByte)
    pure (v.setWidth 64)) s

/-- The loop of FPD.DECODE at index `i` with room for `n` more bytes (43_fpaq R270): the continue bit is decoded before the room
is tested, and each `decodeBit` and each `decodeByte` is its own element. The answer is the number of bytes written. -/
def fpDecodeFrom (start : Nat) : Nat → Nat → M Nat
  | 0, i => do
    let _ ← elementOrEnd i (fpdElement decodeBit)
    pure i
  | n + 1, i => do
    match ← elementOrEnd i (fpdElement decodeBit) with
    | some false => do
      match ← elementOrEnd i (fpdElement decodeByte) with
      | some v => do
        memWrite (start + i) v
        fpDecodeFrom start n (i + 1)
      | none => pure i
    | _ => pure i

/-- `FPD.DECODE` (43_fpaq R270). -/
def execFpdDecode (s : State) : Host.Outcome State Fault Refusal :=
  command .fpdDecode (onArray s.fpd.ustate (fun start len => do
    let n ← fpDecodeFrom start len 0
    pure (BitVec.ofNat 64 n))) s

/-- `FPD.DISPOSE` (43_fpaq R271, 40_system R164). -/
def execFpdDispose (s : State) : Host.Outcome State Fault Refusal :=
  command .fpdDispose (onDispose s.fpd.ustate (update fun s => { s with fpd.ustate := .disposed })) s

end Sys2Proof.Machine
end

