-- ==== Sys2Proof/Machine/Golomb.lean ====
section
/-! DEFINITION. The exp-Golomb and Rice-Golomb coders, units EGE, EGD, RGE and RGD (46_golomb). -/

namespace Sys2Proof.Machine

/-! ### Magnitude and sign -/

/-- The magnitude of a byte (46_golomb R360): 0..255 unsigned, 0..128 signed. -/
def magnitude (signed : Bool) (v : Byte) : Nat := if signed then v.toInt.natAbs else v.toNat

/-- The byte is negative in signed mode (46_golomb R360). -/
def isNegative (signed : Bool) (v : Byte) : Bool := signed && v.msb

/-- The decoded byte, `(neg ? -m : m) mod 256` (46_golomb R362). -/
def signedByte (neg : Bool) (m : Nat) : Byte := if neg then -BitVec.ofNat 8 m else BitVec.ofNat 8 m

/-- `n` zero bits. -/
def putZeros : Nat → M Unit
  | 0 => pure ()
  | n + 1 => do
    putBits 0 1
    putZeros n

/-- The sign bit (46_golomb R361): in signed mode, after a magnitude that is not 0. -/
def putSign (signed : Bool) (m : Nat) (neg : Bool) : M Unit :=
  if signed && m != 0 then putBits neg.toNat 1 else pure ()

/-- The sign bit read back (46_golomb R361, R366, R376). -/
def getSign (signed : Bool) (m : Nat) : M Bool :=
  if signed && m != 0 then do
    let b ← getBits 1
    pure (b == 1)
  else pure false

/-- `while GetBits(1) == 0`: how many zero bits came before the one bit, `n` having come before (46_golomb R366, R376). The first
argument bounds the loop. -/
def countZeros : Nat → Nat → M Nat
  | 0, _ => raise .endOfStream
  | k + 1, n => do
    let b ← getBits 1
    if b = 0 then countZeros k (n + 1) else pure n

/-- More bits than the reader can get: the bytes taken and the answers given, and one. With this bound `countZeros` never runs
out: it meets a one bit, END or a wait before. -/
def bitsInReach (s : State) : Nat := 8 * (s.bsr.bytes.length + s.source.length) + 1

/-- The zero bits before the next one bit (46_golomb R366, R376). -/
def unaryZeros : M Nat := look fun s => countZeros (bitsInReach s) 0

/-! ### Exp-Golomb -/

/-- `egCode(m, neg)` (46_golomb R363). -/
def putExpGolomb (signed : Bool) (m : Nat) (neg : Bool) : M Unit := do
  putZeros (Nat.log2 (m + 1))
  putBits (m + 1) (Nat.log2 (m + 1) + 1)
  putSign signed m neg

/-- One element of EGE (46_golomb R365). -/
def egeElement (v : Byte) : M Unit := look fun s =>
  putExpGolomb s.ege.signed (magnitude s.ege.signed v) (isNegative s.ege.signed v)

/-- `n` more bits behind `x` (46_golomb R366). -/
def appendBits : Nat → Nat → M Nat
  | 0, x => pure x
  | n + 1, x => do
    let b ← getBits 1
    appendBits n (2 * x + b)

/-- `egDecode()` (46_golomb R366). -/
def egdElement : M Byte := look fun s => do
  let n ← unaryZeros
  let x ← appendBits n 1
  let neg ← getSign s.egd.signed (x - 1)
  pure (signedByte neg (x - 1))

/-- `EGE.INIT S` (46_golomb R364). -/
def execEgeInit (signed : Bool) (s : State) : Host.Outcome State Fault Refusal :=
  command (.egeInit signed) (do
    update fun s => { s with ege := { ustate := .ready, signed := signed } }
    pure 0) s

/-- `EGE.ENCBYTE` (46_golomb R365). -/
def execEgeEncbyte (s : State) : Host.Outcome State Fault Refusal :=
  command .egeEncbyte (onReady s.ege.ustate do
    element (egeElement (argByte s))
    pure 0) s

/-- `EGE.ENCODE` (46_golomb R367). -/
def execEgeEncode (s : State) : Host.Outcome State Fault Refusal :=
  command .egeEncode (onArray s.ege.ustate (encodeAll noChunk egeElement)) s

/-- `EGE.DISPOSE` (46_golomb R368, 40_system R164). -/
def execEgeDispose (s : State) : Host.Outcome State Fault Refusal :=
  command .egeDispose (onDispose s.ege.ustate (update fun s => { s with ege.ustate := .disposed })) s

/-- `EGD.INIT S` (46_golomb R364). -/
def execEgdInit (signed : Bool) (s : State) : Host.Outcome State Fault Refusal :=
  command (.egdInit signed) (do
    update fun s => { s with egd := { ustate := .ready, signed := signed } }
    pure 0) s

/-- `EGD.DECBYTE` (46_golomb R366). -/
def execEgdDecbyte (s : State) : Host.Outcome State Fault Refusal :=
  command .egdDecbyte (onReady s.egd.ustate do
    let v ← element egdElement
    pure (v.setWidth 64)) s

/-- `EGD.DECODE` (46_golomb R367). -/
def execEgdDecode (s : State) : Host.Outcome State Fault Refusal :=
  command .egdDecode (onArray s.egd.ustate (decodeAll noChunk (some <$> egdElement))) s

/-- `EGD.DISPOSE` (46_golomb R368, 40_system R164). -/
def execEgdDispose (s : State) : Host.Outcome State Fault Refusal :=
  command .egdDispose (onDispose s.egd.ustate (update fun s => { s with egd.ustate := .disposed })) s

/-! ### Rice-Golomb -/

/-- `rgCode(m, neg)` (46_golomb R373). -/
def putRice (signed : Bool) (k m : Nat) (neg : Bool) : M Unit := do
  putZeros (m >>> k)
  putBits 1 1
  putBits (m % 2 ^ k) k
  putSign signed m neg

/-- One element of RGE (46_golomb R374). -/
def rgeElement (v : Byte) : M Unit := look fun s =>
  putRice s.rge.signed s.rge.logBase.toNat (magnitude s.rge.signed v) (isNegative s.rge.signed v)

/-- `rgDecode()` (46_golomb R376). -/
def rgdElement : M Byte := look fun s => do
  let q ← unaryZeros
  let r ← getBits s.rgd.logBase.toNat
  let m := q * 2 ^ s.rgd.logBase.toNat + r
  let neg ← getSign s.rgd.signed m
  pure (signedByte neg m)

/-- The legal values of `logBase` (46_golomb R370). -/
abbrev logBaseLegal (l : Nat) : Prop := 1 ≤ l ∧ l ≤ 7

/-- `RGE.INIT S, L` (46_golomb R370). -/
def execRgeInit (signed : Bool) (l : Nat) (s : State) : Host.Outcome State Fault Refusal :=
  command (.rgeInit signed l) (
    if logBaseLegal l then do
      update fun s => { s with rge := { ustate := .ready, signed := signed, logBase := BitVec.ofNat 3 l } }
      pure 0
    else raise .invalidArgument) s

/-- `RGE.ENCBYTE` (46_golomb R374). -/
def execRgeEncbyte (s : State) : Host.Outcome State Fault Refusal :=
  command .rgeEncbyte (onReady s.rge.ustate do
    element (rgeElement (argByte s))
    pure 0) s

/-- `RGE.ENCODE` (46_golomb R377). -/
def execRgeEncode (s : State) : Host.Outcome State Fault Refusal :=
  command .rgeEncode (onArray s.rge.ustate (encodeAll noChunk rgeElement)) s

/-- `RGE.DISPOSE` (46_golomb R378, 40_system R164). -/
def execRgeDispose (s : State) : Host.Outcome State Fault Refusal :=
  command .rgeDispose (onDispose s.rge.ustate (update fun s => { s with rge.ustate := .disposed })) s

/-- `RGD.INIT S, L` (46_golomb R370). -/
def execRgdInit (signed : Bool) (l : Nat) (s : State) : Host.Outcome State Fault Refusal :=
  command (.rgdInit signed l) (
    if logBaseLegal l then do
      update fun s => { s with rgd := { ustate := .ready, signed := signed, logBase := BitVec.ofNat 3 l } }
      pure 0
    else raise .invalidArgument) s

/-- `RGD.DECBYTE` (46_golomb R376). -/
def execRgdDecbyte (s : State) : Host.Outcome State Fault Refusal :=
  command .rgdDecbyte (onReady s.rgd.ustate do
    let v ← element rgdElement
    pure (v.setWidth 64)) s

/-- `RGD.DECODE` (46_golomb R377). -/
def execRgdDecode (s : State) : Host.Outcome State Fault Refusal :=
  command .rgdDecode (onArray s.rgd.ustate (decodeAll noChunk (some <$> rgdElement))) s

/-- `RGD.DISPOSE` (46_golomb R378, 40_system R164). -/
def execRgdDispose (s : State) : Host.Outcome State Fault Refusal :=
  command .rgdDispose (onDispose s.rgd.ustate (update fun s => { s with rgd.ustate := .disposed })) s

end Sys2Proof.Machine
end

