-- ==== Sys2Proof/Machine/Huffman.lean ====
section
/-! DEFINITION. The canonical Huffman coder, units HFE and HFD (45_huffman). Frequencies, leaves and trees are temporaries of a
command (R321), not state. -/

namespace Sys2Proof.Machine

/-! ### Building code lengths -/

/-- A Huffman tree (45_huffman R323). -/
inductive HuffmanTree where
  | leaf (sym : Nat)
  | node (left right : HuffmanTree)
  deriving DecidableEq, Repr

/-- A weighted tree, as the queues hold it (45_huffman R323). -/
abbrev WeightedTree := Nat × HuffmanTree

/-- How often a symbol occurs (45_huffman R321). -/
def frequency (input : List Byte) (sym : Nat) : Nat := input.count (BitVec.ofNat 8 sym)

/-- The leaves in ascending order of (frequency, symbol), absent symbols left out (45_huffman R321, R322). The sort is stable and
starts from symbol order. -/
def sortedLeaves (input : List Byte) : List WeightedTree :=
  let leaves := (List.range 256).filterMap fun sym =>
    if frequency input sym = 0 then none else some (frequency input sym, HuffmanTree.leaf sym)
  leaves.insertionSort fun a b => a.1 ≤ b.1

/-- `take()` (45_huffman R323): the lighter head, the first queue's on a tie. -/
def takeLightest : List WeightedTree → List WeightedTree → Option (WeightedTree × List WeightedTree × List WeightedTree)
  | [], [] => none
  | a :: q1, [] => some (a, q1, [])
  | [], b :: q2 => some (b, [], q2)
  | a :: q1, b :: q2 => if a.1 ≤ b.1 then some (a, q1, b :: q2) else some (b, a :: q1, q2)

/-- The two-queue merge (45_huffman R323); the count bounds the loop by the number of leaves. -/
def mergeQueues : Nat → List WeightedTree → List WeightedTree → Option HuffmanTree
  | 0, _, _ => none
  | k + 1, q1, q2 =>
    match takeLightest q1 q2 with
    | none => none
    | some (a, q1, q2) =>
      match takeLightest q1 q2 with
      | none => some a.2
      | some (b, q1, q2) => mergeQueues k q1 (q2 ++ [(a.1 + b.1, .node a.2 b.2)])

/-- Each leaf of a tree with its depth below `depth` (45_huffman R324). -/
def leafDepths : HuffmanTree → Nat → List (Nat × Nat)
  | .leaf sym, depth => [(sym, depth)]
  | .node l r, depth => leafDepths l (depth + 1) ++ leafDepths r (depth + 1)

/-- The code length of each present symbol (45_huffman R324): the depth of its leaf, but 1 for a single symbol. -/
def codeLengths (input : List Byte) : List (Nat × Nat) :=
  let leaves := sortedLeaves input
  match mergeQueues leaves.length leaves [] with
  | none => []
  | some (.leaf sym) => [(sym, 1)]
  | some tree => leafDepths tree 0

/-- The number listed for a symbol, 0 where none is. -/
def listedAt (pairs : List (Nat × Nat)) (sym : Nat) : Nat :=
  match pairs.find? fun p => p.1 == sym with
  | some p => p.2
  | none => 0

/-- `sizes` of an input (45_huffman R321 to R324). -/
def buildSizes (input : List Byte) : Table (BitVec 8) 256 :=
  let lengths := codeLengths input
  Table.ofFn 256 fun sym => BitVec.ofNat 8 (listedAt lengths sym)

/-! ### Canonical codes -/

/-- `sizes[sym]`. -/
def sizeAt (t : Table (BitVec 8) 256) (sym : Nat) : Nat := (t.get sym 0).toNat

/-- `codes[sym]`. -/
def codeAt (t : Table Word64 256) (sym : Nat) : Nat := (t.get sym 0).toNat

/-- The symbols with a code, in symbol order. -/
def presentSymbols (sizes : Table (BitVec 8) 256) : List Nat := (List.range 256).filter fun sym => sizeAt sizes sym != 0

/-- The length of the longest code, 0 when no symbol is present (45_huffman R328, R341). -/
def longestCode (sizes : Table (BitVec 8) 256) : Nat := (presentSymbols sizes).foldl (fun m sym => max m (sizeAt sizes sym)) 0

/-- The present symbols by decreasing length, then by symbol (45_huffman R326). -/
def canonicalOrder (sizes : Table (BitVec 8) 256) : List Nat :=
  (presentSymbols sizes).insertionSort fun a b => sizeAt sizes b ≤ sizeAt sizes a

/-- The loop of the canonical assignment (45_huffman R326). -/
def assignCodes (sizes : Table (BitVec 8) 256) : List Nat → Nat → Nat → List (Nat × Nat)
  | [], _, _ => []
  | sym :: rest, code, prev =>
    let code := code >>> (prev - sizeAt sizes sym)
    (sym, code) :: assignCodes sizes rest (code + 1) (sizeAt sizes sym)

/-- `canonical(sizes)` (45_huffman R326, R343): the longest codes first, absent symbols 0. -/
def canonicalCodes (sizes : Table (BitVec 8) 256) : Table Word64 256 :=
  let assigned := assignCodes sizes (canonicalOrder sizes) 0 (longestCode sizes)
  Table.ofFn 256 fun sym => BitVec.ofNat 64 (listedAt assigned sym)

/-! ### The encoder -/

/-- The width of a length field (45_huffman R328): the bit length of the longest code's length. -/
def lengthWidth (sizes : Table (BitVec 8) 256) : Nat :=
  if longestCode sizes = 0 then 0 else Nat.log2 (longestCode sizes) + 1

/-- Write fields of one width. -/
def putFields (w : Nat) : List Nat → M Unit
  | [] => pure ()
  | v :: vs => do
    putBits v w
    putFields w vs

/-- `writeHeader()` (45_huffman R328). -/
def writeHeader (sizes : Table (BitVec 8) 256) : M Unit := do
  putBits 1 1
  putBits (lengthWidth sizes) 5
  if lengthWidth sizes = 0 then pure () else putFields (lengthWidth sizes) ((List.range 256).map (sizeAt sizes))

/-- The bytes of an array operand (00_scope R12). -/
def arrayBytes (s : State) (start len : Nat) : List Byte := (List.range len).map fun i => dataByte s (start + i)

/-- The header element of HFE (45_huffman R330): tables and header, or nothing. -/
def hfeHeader (start len : Nat) : M Unit := look fun s => do
  let sizes := buildSizes (arrayBytes s start len)
  writeHeader sizes
  update fun s => { s with hfe.sizes := sizes, hfe.codes := canonicalCodes sizes }

/-- One code word (45_huffman R329). -/
def hfeElement (v : Byte) : M Unit := look fun s => putBits (codeAt s.hfe.codes v.toNat) (sizeAt s.hfe.sizes v.toNat)

/-- `HFE.INIT` (45_huffman R320). -/
def execHfeInit (s : State) : Host.Outcome State Fault Refusal :=
  command .hfeInit (do
    update fun s => { s with hfe := huffmanFresh .ready }
    pure 0) s

/-- `HFE.ENCODE` (45_huffman R330). -/
def execHfeEncode (s : State) : Host.Outcome State Fault Refusal :=
  command .hfeEncode (onArray s.hfe.ustate (fun start len => do
    elementAt 0 (hfeHeader start len)
    encodeAll noChunk hfeElement start len)) s

/-- `HFE.DISPOSE` (45_huffman R331, 40_system R164). -/
def execHfeDispose (s : State) : Host.Outcome State Fault Refusal :=
  command .hfeDispose (onDispose s.hfe.ustate (update fun s => { s with hfe.ustate := .disposed })) s

/-! ### The decoder -/

/-- Read `n` fields of one width. -/
def getFields (w : Nat) : Nat → M (List Nat)
  | 0 => pure []
  | n + 1 => do
    let v ← getBits w
    let vs ← getFields w n
    pure (v :: vs)

/-- The Kraft sum scaled by 2^64 (45_huffman R342). -/
def kraftSum (lengths : List Nat) : Nat := (lengths.map fun l => if l = 0 then 0 else 2 ^ (64 - l)).sum

/-- The validation of a header's lengths (45_huffman R342): none above 64; one present symbol of length 1, or a complete code. -/
def headerValid (lengths : List Nat) : Bool :=
  let present := lengths.filter (· != 0)
  lengths.all (· ≤ 64) &&
    (if present.length = 1 then present == [1]
     else if 2 ≤ present.length then kraftSum lengths == 2 ^ 64
     else true)

/-- `readHeader()` (45_huffman R342). -/
def readHeader : M (Table (BitVec 8) 256) := do
  let flag ← getBits 1
  if flag ≠ 1 then raise .invalidStream
  else
    let w ← getBits 5
    let lengths ← if w = 0 then pure (List.replicate 256 0) else getFields w 256
    if headerValid lengths then pure (Table.ofFn 256 fun sym => BitVec.ofNat 8 (lengths.getD sym 0))
    else raise .invalidStream

/-- The header element of HFD (45_huffman R340, R342): an empty table with bytes to decode is a fault of this element (log 9). -/
def hfdHeader (len : Nat) : M Unit := do
  let sizes ← readHeader
  if 0 < len ∧ presentSymbols sizes = [] then raise .invalidStream
  else update fun s => { s with hfd.sizes := sizes, hfd.codes := canonicalCodes sizes }

/-- The present symbol whose code word is the `l` bits `v` (45_huffman R341). -/
def matchCode (h : Huffman) (v l : Nat) : Option Nat :=
  (presentSymbols h.sizes).find? fun sym => sizeAt h.sizes sym == l && codeAt h.codes sym == v

/-- The descent of `decodeSymbol()` after `l` bits `v`, with `n` more bits allowed (45_huffman R341). -/
def descend (h : Huffman) : Nat → Nat → Nat → M Byte
  | 0, _, _ => raise .invalidStream
  | n + 1, v, l => do
    let b ← getBits 1
    match matchCode h (2 * v + b) (l + 1) with
    | some sym => pure (BitVec.ofNat 8 sym)
    | none => descend h n (2 * v + b) (l + 1)

/-- `decodeSymbol()` (45_huffman R341): at least one bit is read, and none past the longest code. -/
def hfdElement : M Byte := look fun s => descend s.hfd (max 1 (longestCode s.hfd.sizes)) 0 0

/-- `HFD.INIT` (45_huffman R320). -/
def execHfdInit (s : State) : Host.Outcome State Fault Refusal :=
  command .hfdInit (do
    update fun s => { s with hfd := huffmanFresh .ready }
    pure 0) s

/-- `HFD.DECODE` (45_huffman R340). -/
def execHfdDecode (s : State) : Host.Outcome State Fault Refusal :=
  command .hfdDecode (onArray s.hfd.ustate (fun start len => do
    match ← elementOrEnd 0 (hfdHeader len) with
    | none => pure 0
    | some _ => decodeAll noChunk (some <$> hfdElement) start len)) s

/-- `HFD.DISPOSE` (45_huffman R346, 40_system R164). -/
def execHfdDispose (s : State) : Host.Outcome State Fault Refusal :=
  command .hfdDispose (onDispose s.hfd.ustate (update fun s => { s with hfd.ustate := .disposed })) s

end Sys2Proof.Machine
end

