-- ==== Sys2Proof/Machine/Range.lean ====
section
/-! DEFINITION. The range coder, units RCE and RCD (44_range_coder). -/

namespace Sys2Proof.Machine

/-- `TOP` (44_range_coder R280). -/
def rangeTop : Nat := 2 ^ 48

/-- `BOTTOM` (44_range_coder R280). -/
def rangeBottom : Nat := 2 ^ 40 - 1

/-- The straddle clamp's mask (00_scope R9; 90_conflicts C3). -/
def clampMask : ClampMask → Nat
  | .literal => rangeBottom - 1
  | .bottom => rangeBottom

/-- `freq[v]` (44_range_coder R281). -/
def freqAt (t : FreqTable) (v : Nat) : Nat := (t.get v 0).toNat

/-- `update(s)` (44_range_coder R285). -/
def countSymbol (t : FreqTable) (sym : Nat) : FreqTable := t.updateFrom (sym + 1) (· + 1)

/-- The width of one count, `range div freq[257]` (44_range_coder R286). -/
def unitWidth (range : Word56) (t : FreqTable) : Nat := range.toNat / freqAt t 257

/-- `low` after the step for a symbol (44_range_coder R286). -/
def symbolLow (low : Word56) (t : FreqTable) (r sym : Nat) : Word56 := BitVec.ofNat 56 (low.toNat + freqAt t sym * r)

/-- `range` after the step for a symbol (44_range_coder R286). -/
def symbolRange (t : FreqTable) (r sym : Nat) : Word56 := BitVec.ofNat 56 ((freqAt t (sym + 1) - freqAt t sym) * r)

/-- What renormalization does next (44_range_coder R284): leave the loop, or shift with this `range` (0 is the degenerate case). -/
def straddleRange (clamp : ClampMask) (low range : Word56) : Option Nat :=
  if (low.toNat ^^^ (low.toNat + range.toNat)) % 2 ^ 56 < rangeTop then some range.toNat
  else if range.toNat < rangeBottom then some (((2 ^ 56 - low.toNat) % 2 ^ 56) &&& clampMask clamp)
  else none

/-- The clamp was taken and gave 0 (44_range_coder R284, R288 (a)). -/
def clampedToZero (low range : Word56) (next : Nat) : Bool :=
  rangeTop ≤ (low.toNat ^^^ (low.toNat + range.toNat)) % 2 ^ 56 && next == 0

/-- Renormalization (44_range_coder R284): `shift` is the per-side action on `low` and the side's own register. The count bounds
the loop, which between steps of a reachable state never runs that long (log 10). -/
def renormRange {α : Type} (clamp : ClampMask) (shift : Word56 → α → M α) :
    Nat → Word56 → Word56 → α → M (Word56 × Word56 × α)
  | 0, low, range, a => pure (low, range, a)
  | k + 1, low, range, a =>
    match straddleRange clamp low range with
    | none => pure (low, range, a)
    | some next =>
      if clampedToZero low range next then stick
      else do
        let a ← shift low a
        renormRange clamp shift k (low <<< 8) (BitVec.ofNat 56 next <<< 8) a

/-- The bound of the renormalization loop (log 10). -/
def renormLimit : Nat := 64

/-! ### The encoder -/

/-- The encoder's shift: the top byte of `low` is written (44_range_coder R287). -/
def rangeShiftOut (low : Word56) (_ : Unit) : M Unit := putBits (low >>> 48).toNat 8

/-- `encodeSymbol(b)` (44_range_coder R286, R287). -/
def encodeSymbol (e : RangeEncoder) (sym : Nat) : M RangeEncoder := look fun s => do
  let r := unitWidth e.range e.freq
  if r = 0 then raise .rangeDegenerate
  else
    let (low, range, _) ←
      renormRange s.params.clamp rangeShiftOut renormLimit (symbolLow e.low e.freq r sym) (symbolRange e.freq r sym) ()
    pure { e with low := low, range := range, freq := countSymbol e.freq sym }

/-- One element of RCE. -/
def rceElement (v : Byte) : M Unit := look fun s => do
  let e ← encodeSymbol s.rce v.toNat
  update fun s => { s with rce := e }

/-- The start of a chunk (44_range_coder R289): where the index is a multiple of the chunk size, or of `len` when that is 0. -/
def chunkStart (chunkSize : BitVec 32) (len i : Nat) : Bool :=
  i % (if chunkSize = 0 then len else chunkSize.toNat) == 0

/-- `RCE.INIT` (44_range_coder R291). -/
def execRceInit (s : State) : Host.Outcome State Fault Refusal :=
  command .rceInit (
    if chunkSizeLegal (argLow s) then do
      update fun s => { s with rce := rangeEncoderFresh .ready (argLow s) }
      pure 0
    else raise .invalidArgument) s

/-- `RCE.ENCBYTE` (44_range_coder R287). -/
def execRceEncbyte (s : State) : Host.Outcome State Fault Refusal :=
  command .rceEncbyte (onReady s.rce.ustate do
    element (rceElement (argByte s))
    pure 0) s

/-- The table reset of RCE at a chunk start (44_range_coder R289). -/
def rceChunk (len i : Nat) : M Unit :=
  update fun s => if chunkStart s.rce.chunkSize len i then { s with rce.freq := flatTable } else s

/-- `RCE.ENCODE` (44_range_coder R289). -/
def execRceEncode (s : State) : Host.Outcome State Fault Refusal :=
  command .rceEncode (onArray s.rce.ustate (fun start len => encodeAll (rceChunk len) rceElement start len)) s

/-- `RCE.DISPOSE` (44_range_coder R290): the seven bytes of `low`, with no flush of BSW. -/
def execRceDispose (s : State) : Host.Outcome State Fault Refusal :=
  command .rceDispose (onDispose s.rce.ustate (element do
    putBits s.rce.low.toNat 56
    update fun s => { s with rce.ustate := .disposed })) s

/-! ### The decoder -/

/-- The lazy seed (44_range_coder R296). -/
def seedRange (d : RangeDecoder) : M RangeDecoder :=
  if d.seeded then pure d
  else do
    let v ← getBits 56
    pure { d with code := BitVec.ofNat 56 v, seeded := true }

/-- The decoder's shift: a byte is read into `code` (44_range_coder R296). -/
def rangeShiftIn (_ : Word56) (code : Word56) : M Word56 := do
  let v ← getBits 8
  pure ((code <<< 8) ||| BitVec.ofNat 56 v)

/-- The symbol of a count (44_range_coder R296): the `v` in 0..256 with `freq[v] <= count < freq[v+1]`. -/
def findSymbol (t : FreqTable) (count : Nat) : Option Nat :=
  (List.range 257).find? fun v => freqAt t v ≤ count && count < freqAt t (v + 1)

/-- `decodeSymbol()` (44_range_coder R296, R297). -/
def decodeSymbol (d : RangeDecoder) : M (Nat × RangeDecoder) := look fun s => do
  let d ← seedRange d
  let r := unitWidth d.range d.freq
  if r = 0 then raise .rangeDegenerate
  else
    let count := (d.code - d.low).toNat / r
    match (if count < freqAt d.freq 257 then findSymbol d.freq count else none) with
    | none => raise .invalidStream
    | some sym =>
      let (low, range, code) ←
        renormRange s.params.clamp rangeShiftIn renormLimit (symbolLow d.low d.freq r sym) (symbolRange d.freq r sym) d.code
      pure (sym, { d with low := low, range := range, code := code, freq := countSymbol d.freq sym })

/-- One element of RCD. -/
def rcdElement : M Nat := look fun s => do
  let (sym, d) ← decodeSymbol s.rcd
  update fun s => { s with rcd := d }
  pure sym

/-- `RCD.INIT` (44_range_coder R295). -/
def execRcdInit (s : State) : Host.Outcome State Fault Refusal :=
  command .rcdInit (
    if chunkSizeLegal (argLow s) then do
      update fun s => { s with rcd := rangeDecoderFresh .ready (argLow s) }
      pure 0
    else raise .invalidArgument) s

/-- `RCD.DECBYTE` (44_range_coder R296): the EOF symbol is answered as 256. -/
def execRcdDecbyte (s : State) : Host.Outcome State Fault Refusal :=
  command .rcdDecbyte (onReady s.rcd.ustate do
    let sym ← element rcdElement
    pure (BitVec.ofNat 64 sym)) s

/-- The table reset of RCD at a chunk start (44_range_coder R298). -/
def rcdChunk (len i : Nat) : M Unit :=
  update fun s => if chunkStart s.rcd.chunkSize len i then { s with rcd.freq := flatTable } else s

/-- The byte of a decoded symbol; the EOF symbol 256 has none (44_range_coder R298). -/
def symbolByte (sym : Nat) : Option Byte := if sym = 256 then none else some (BitVec.ofNat 8 sym)

/-- `RCD.DECODE` (44_range_coder R298). -/
def execRcdDecode (s : State) : Host.Outcome State Fault Refusal :=
  command .rcdDecode (onArray s.rcd.ustate (fun start len =>
    decodeAll (rcdChunk len) (symbolByte <$> rcdElement) start len)) s

/-- `RCD.DISPOSE` (44_range_coder R299, 40_system R164). -/
def execRcdDispose (s : State) : Host.Outcome State Fault Refusal :=
  command .rcdDispose (onDispose s.rcd.ustate (update fun s => { s with rcd.ustate := .disposed })) s

end Sys2Proof.Machine
end

