-- ==== Sys2Proof/Machine/Sys.lean ====
section
/-! DEFINITION. The SYS unit (40_system R151 to R153). -/

namespace Sys2Proof.Machine

/-- `SYS.NOP` (40_system R151). -/
def execSysNop (s : State) : Host.Outcome State Fault Refusal := command .sysNop (pure 0) s

/-- `SYS.SRESET` (40_system R152): the reset of 70_reset_and_hazards R440, `STATUS` and `RES` included. -/
def execSysSreset (s : State) : Host.Outcome State Fault Refusal :=
  command .sysSreset (do
    update resetAll
    pure 0) s

/-- `USTATE[U]` (10_state R33, 40_system R153); the units 0 and 15 read as 0. -/
def unitState (s : State) : Nat → Word64
  | 1 => s.bsw.ustate.code
  | 2 => s.bsr.ustate.code
  | 3 => s.bee.ustate.code
  | 4 => s.bed.ustate.code
  | 5 => s.fpe.ustate.code
  | 6 => s.fpd.ustate.code
  | 7 => s.rce.ustate.code
  | 8 => s.rcd.ustate.code
  | 9 => s.hfe.ustate.code
  | 10 => s.hfd.ustate.code
  | 11 => s.ege.ustate.code
  | 12 => s.egd.ustate.code
  | 13 => s.rge.ustate.code
  | 14 => s.rgd.ustate.code
  | _ => 0

/-- `SYS.USTATE U` (40_system R153). -/
def execSysUstate (u : Nat) (s : State) : Host.Outcome State Fault Refusal :=
  command (.sysUstate u) (look fun s => pure (unitState s u)) s

end Sys2Proof.Machine
end

