-- ==== Sys2Proof/Machine/Dispatch.lean ====
section
/-! DEFINITION. One arm per command (40_system R150): its meaning. -/

namespace Sys2Proof.Machine

def exec (i : Instr) (s : State) : Host.Outcome State Fault Refusal :=
  match i with
  | .sysNop => Sys2Proof.Machine.execSysNop s
  | .sysSreset => Sys2Proof.Machine.execSysSreset s
  | .sysUstate u => Sys2Proof.Machine.execSysUstate u s
  | .bswInit => Sys2Proof.Machine.execBswInit s
  | .bswWrbit => Sys2Proof.Machine.execBswWrbit s
  | .bswWrbits n => Sys2Proof.Machine.execBswWrbits n s
  | .bswFlush => Sys2Proof.Machine.execBswFlush s
  | .bswClose => Sys2Proof.Machine.execBswClose s
  | .bswWritten => Sys2Proof.Machine.execBswWritten s
  | .bsrInit => Sys2Proof.Machine.execBsrInit s
  | .bsrRdbit => Sys2Proof.Machine.execBsrRdbit s
  | .bsrRdbits n => Sys2Proof.Machine.execBsrRdbits n s
  | .bsrClose => Sys2Proof.Machine.execBsrClose s
  | .bsrRead => Sys2Proof.Machine.execBsrRead s
  | .beeInit k => Sys2Proof.Machine.execBeeInit k s
  | .beeEncbit => Sys2Proof.Machine.execBeeEncbit s
  | .beeEncbyte => Sys2Proof.Machine.execBeeEncbyte s
  | .beeEncode => Sys2Proof.Machine.execBeeEncode s
  | .beeDispose => Sys2Proof.Machine.execBeeDispose s
  | .bedInit k => Sys2Proof.Machine.execBedInit k s
  | .bedDecbit => Sys2Proof.Machine.execBedDecbit s
  | .bedDecbyte => Sys2Proof.Machine.execBedDecbyte s
  | .bedDecode => Sys2Proof.Machine.execBedDecode s
  | .bedDispose => Sys2Proof.Machine.execBedDispose s
  | .fpeInit k => Sys2Proof.Machine.execFpeInit k s
  | .fpeEncbyte => Sys2Proof.Machine.execFpeEncbyte s
  | .fpeEncode => Sys2Proof.Machine.execFpeEncode s
  | .fpeDispose => Sys2Proof.Machine.execFpeDispose s
  | .fpdInit k => Sys2Proof.Machine.execFpdInit k s
  | .fpdDecbit => Sys2Proof.Machine.execFpdDecbit s
  | .fpdDecbyte => Sys2Proof.Machine.execFpdDecbyte s
  | .fpdDecode => Sys2Proof.Machine.execFpdDecode s
  | .fpdDispose => Sys2Proof.Machine.execFpdDispose s
  | .rceInit => Sys2Proof.Machine.execRceInit s
  | .rceEncbyte => Sys2Proof.Machine.execRceEncbyte s
  | .rceEncode => Sys2Proof.Machine.execRceEncode s
  | .rceDispose => Sys2Proof.Machine.execRceDispose s
  | .rcdInit => Sys2Proof.Machine.execRcdInit s
  | .rcdDecbyte => Sys2Proof.Machine.execRcdDecbyte s
  | .rcdDecode => Sys2Proof.Machine.execRcdDecode s
  | .rcdDispose => Sys2Proof.Machine.execRcdDispose s
  | .hfeInit => Sys2Proof.Machine.execHfeInit s
  | .hfeEncode => Sys2Proof.Machine.execHfeEncode s
  | .hfeDispose => Sys2Proof.Machine.execHfeDispose s
  | .hfdInit => Sys2Proof.Machine.execHfdInit s
  | .hfdDecode => Sys2Proof.Machine.execHfdDecode s
  | .hfdDispose => Sys2Proof.Machine.execHfdDispose s
  | .egeInit signed => Sys2Proof.Machine.execEgeInit signed s
  | .egeEncbyte => Sys2Proof.Machine.execEgeEncbyte s
  | .egeEncode => Sys2Proof.Machine.execEgeEncode s
  | .egeDispose => Sys2Proof.Machine.execEgeDispose s
  | .egdInit signed => Sys2Proof.Machine.execEgdInit signed s
  | .egdDecbyte => Sys2Proof.Machine.execEgdDecbyte s
  | .egdDecode => Sys2Proof.Machine.execEgdDecode s
  | .egdDispose => Sys2Proof.Machine.execEgdDispose s
  | .rgeInit signed l => Sys2Proof.Machine.execRgeInit signed l s
  | .rgeEncbyte => Sys2Proof.Machine.execRgeEncbyte s
  | .rgeEncode => Sys2Proof.Machine.execRgeEncode s
  | .rgeDispose => Sys2Proof.Machine.execRgeDispose s
  | .rgdInit signed l => Sys2Proof.Machine.execRgdInit signed l s
  | .rgdDecbyte => Sys2Proof.Machine.execRgdDecbyte s
  | .rgdDecode => Sys2Proof.Machine.execRgdDecode s
  | .rgdDispose => Sys2Proof.Machine.execRgdDispose s

end Sys2Proof.Machine
end

