-- ==== Sys2Proof/Machine/HostPort.lean ====
section
/-! DEFINITION. What the host does to the block (70_reset_and_hazards R457): accesses of its window (20_memory R82), answers and
acceptances at the ports (R83, R84), reset (R440), and how the block takes the host's next move. -/

namespace Sys2Proof.Machine

/-- What a host move comes to. -/
inductive Intake where
  /-- The move is done (or waits); no command runs. -/
  | settled (s : State)
  /-- The command word `w` is to be run. -/
  | issue (w : Command) (s : State)
  /-- The window has no such offset. -/
  | noSuchOffset
  deriving DecidableEq, Repr

/-- The first window offset of DATA (20_memory R82). -/
def dataWindow : Nat := 0x10000

/-- What a read of a window offset returns (20_memory R82), `none` where the table lists no such offset (log 13). The write-only
`CMD` reads as a free value (log 12). -/
def windowRead (s : State) (offset : Nat) : Option Word64 :=
  if offset = 0x00 then some (Config.freeRegister s.freeCount 0)
  else if offset = 0x08 then some s.arg0
  else if offset = 0x10 then some (s.arg1.setWidth 64)
  else if offset = 0x14 then some (s.arg2.setWidth 64)
  else if offset = 0x18 then some (s.arg3.setWidth 64)
  else if offset = 0x20 then some s.res
  else if offset = 0x28 then some (s.status.setWidth 64)
  else if 0x30 ≤ offset ∧ offset < dataWindow then some 0
  else if dataWindow ≤ offset ∧ offset < dataWindow + s.params.dataSize then
    some ((dataByte s (offset - dataWindow)).setWidth 64)
  else none

/-- A host read (R457): the value is what the host gets; only a read of `CMD` draws a free value. -/
def hostReads (offset : Nat) (s : State) : Intake :=
  match windowRead s offset with
  | none => .noSuchOffset
  | some v => .settled { s with hostRead := v, freeCount := if offset = 0 then s.freeCount + 1 else s.freeCount }

/-- A host write (20_memory R82): of `CMD` it issues a command (40_system R150); `RES` and `STATUS` are not written by the host
(10_state R30, R32; log 12) and the reserved range ignores writes. -/
def hostWrites (offset : Nat) (v : Word64) (s : State) : Intake :=
  if offset = 0x00 then .issue (v.setWidth 32) { s with cmd := v.setWidth 32 }
  else if offset = 0x08 then .settled { s with arg0 := v }
  else if offset = 0x10 then .settled { s with arg1 := v.setWidth 32 }
  else if offset = 0x14 then .settled { s with arg2 := v.setWidth 32 }
  else if offset = 0x18 then .settled { s with arg3 := v.setWidth 32 }
  else if offset = 0x20 then .settled s
  else if offset = 0x28 then .settled s
  else if 0x30 ≤ offset ∧ offset < dataWindow then .settled s
  else if dataWindow ≤ offset ∧ offset < dataWindow + s.params.dataSize then
    .settled { s with data := Memory.insert s.data (offset - dataWindow) (v.setWidth 8) }
  else .noSuchOffset

/-- The host answers a SOURCE request, the present one or the next (20_memory R84). -/
def addAnswer (a : SourceAnswer) (s : State) : State := { s with source := s.source ++ [a] }

/-- The host accepts `n` more bytes at SINK (20_memory R83). -/
def addRoom (n : Nat) (s : State) : State := { s with sinkRoom := s.sinkRoom + n }

/-- The host's next move while no command waits. -/
def takeMove (m : HostMove) (s : State) : Intake :=
  match m with
  | .write offset v => hostWrites offset v s
  | .read offset => hostReads offset s
  | .answer a => .settled (addAnswer a s)
  | .accept n => .settled (addRoom n s)
  | .reset => .settled (resetAll s)

/-- The host's next move while a command waits (70 R440, R452, R453): an answer or an acceptance lets the command go on, a reset
abandons it, and a window access waits. -/
def takeMoveWaiting (m : HostMove) (rest : List HostMove) (s : State) : Intake :=
  match m with
  | .answer a => .issue s.cmd (addAnswer a { s with host := rest })
  | .accept n => .issue s.cmd (addRoom n { s with host := rest })
  | .reset => .settled (resetAll { s with host := rest })
  | .write _ _ => .settled s
  | .read _ => .settled s

/-- The block takes the host's next move; with none it stays as it is (70 R441, 60_exceptions R415). -/
def intake (s : State) : Intake :=
  match s.host with
  | [] => .settled s
  | m :: rest => if s.waiting = none then takeMove m { s with host := rest } else takeMoveWaiting m rest s

/-- The host's write of a command word, as its next move: offset 0 of the window (20_memory R82). -/
def issueNext (w : Command) (s : State) : State :=
  { s with waiting := none, sent := 0, taken := [], host := .write 0 (w.setWidth 64) :: s.host }

/-- The fault of an illegal command word (30_encoding R111): only `STATUS` changes. -/
def illegalCommand (w : Command) (s : State) : State := raiseFault (unitField w) (opField w) .illegalCommand s

end Sys2Proof.Machine
end

