-- ==== Sys2Proof/Machine/Step.lean ====
section
/-! DEFINITION. One step of the machine: the host's next move and, where it issues a command or lets a waiting one go on, the
whole command (00_scope R3; 40_system R150). -/

namespace Sys2Proof.Machine

/-- Run a command word (40_system R150): its command's meaning, or the fault of an illegal word. -/
def runWord (w : Command) (s : State) : Host.Outcome State Fault Refusal :=
  match decode w with
  | .ok i => exec i s
  | .error _ => .next (illegalCommand w s)

/-- One step. -/
def step (s : State) : Host.Outcome State Fault Refusal :=
  match intake s with
  | .settled t => .next t
  | .issue w t => runWord w t
  | .noSuchOffset => .fault .noSuchOffset

/-- `s` with the instruction word `w` as the host's next write of `CMD`, and no command waiting, so that the next step runs it
(log 2). -/
def State.withFetchWord (s : State) (nbits w : Nat) : State := issueNext (BitVec.ofNat 32 (w % 2 ^ nbits)) s

end Sys2Proof.Machine
end

