-- ==== Sys2Proof/Safety.lean ====
section
/-! DEFINITION. The terms in which claims about the machine are stated: words that are commands, states with no command in
progress, what the writer holds and the reader can read, one run of each coder as a relation written from the spec's loops, code
words, and the invariants of the machine. -/

namespace Sys2Proof

/-- The operations of a unit with the `IMM` bits each may set (30_encoding R113, R114). -/
def operationsOf : Nat → List (Nat × Nat)
  | 0 => [(0, 0), (1, 0), (2, 0x0F)]
  | 1 => [(0, 0), (1, 0), (2, 0x7F), (3, 0), (4, 0), (5, 0)]
  | 2 => [(0, 0), (1, 0), (2, 0x7F), (4, 0), (5, 0)]
  | 3 => [(0, 0x0F), (1, 0), (2, 0), (6, 0), (7, 0)]
  | 4 => [(0, 0x0F), (1, 0), (2, 0), (6, 0), (7, 0)]
  | 5 => [(0, 0x0F), (2, 0), (6, 0), (7, 0)]
  | 6 => [(0, 0x0F), (1, 0), (2, 0), (6, 0), (7, 0)]
  | 7 => [(0, 0), (2, 0), (6, 0), (7, 0)]
  | 8 => [(0, 0), (2, 0), (6, 0), (7, 0)]
  | 9 => [(0, 0), (6, 0), (7, 0)]
  | 10 => [(0, 0), (6, 0), (7, 0)]
  | 11 => [(0, 0x10), (2, 0), (6, 0), (7, 0)]
  | 12 => [(0, 0x10), (2, 0), (6, 0), (7, 0)]
  | 13 => [(0, 0x1F), (2, 0), (6, 0), (7, 0)]
  | 14 => [(0, 0x1F), (2, 0), (6, 0), (7, 0)]
  | _ => []

/-- A word that 30_encoding R111 lets be a command: `RSV` zero, a listed operation, and no stray bit of `IMM`. -/
abbrev LegalWord (w : Command) : Prop :=
  w.toNat / 2 ^ 16 % 2 ^ 8 = 0 ∧
    ∃ r ∈ operationsOf (w.toNat / 2 ^ 28), r.1 = w.toNat / 2 ^ 24 % 2 ^ 4 ∧ w.toNat % 2 ^ 16 &&& r.2 = w.toNat % 2 ^ 16

namespace Machine

/-! ### Commands and states -/

/-- No command is in progress (70_reset_and_hazards R441, R453). -/
abbrev Settled (s : State) : Prop := s.waiting = none ∧ s.sent = 0 ∧ s.taken = []

/-- The `ENCODE` and `DECODE` commands: operation 6 of a coder unit (30_encoding R113). -/
abbrev IsArray (i : Instr) : Prop := i.op = 6

/-- The `DECODE` commands: operation 6 of the even units, which are the decoders (30_encoding R112, R113). -/
abbrev IsDecode (i : Instr) : Prop := i.op = 6 ∧ i.unit.toNat % 2 = 0

/-- The word that the next step runs: the one the host writes to `CMD`, or the waiting one that an answer or an acceptance lets
go on. -/
def nextCommand (s : State) : Option Command :=
  match s.waiting, s.host with
  | none, .write 0 v :: _ => some (v.setWidth 32)
  | some _, .answer _ :: _ => some s.cmd
  | some _, .accept _ :: _ => some s.cmd
  | _, _ => none

/-- The offsets of the host window (20_memory R82). -/
abbrev ListedOffset (p : Params) (offset : Nat) : Prop :=
  offset ∈ [0x00, 0x08, 0x10, 0x14, 0x18, 0x20, 0x28] ∨ (0x30 ≤ offset ∧ offset ≤ 0xFFFF) ∨
    (0x10000 ≤ offset ∧ offset ≤ 0x10000 + p.dataSize - 1 ∧ 1 ≤ p.dataSize)

/-- The value of `STATUS` with these fields (10_state R32). -/
def statusOf (op unit : BitVec 4) (first code : BitVec 8) : BitVec 32 :=
  BitVec.ofNat 32 (op.toNat * 2 ^ 20 + unit.toNat * 2 ^ 16 + first.toNat * 2 ^ 8 + code.toNat)

/-! ### Bits and bytes -/

/-- The eight bits of a byte, bit 7 first (20_memory R85). -/
def byteBits (b : Byte) : List Bool := bitsOf b.toNat 8

/-- The bits of a byte sequence, in stream order (20_memory R85). -/
def bytesBits (bs : List Byte) : List Bool := bs.flatMap byteBits

/-- The bytes of DATA after `bs` are written from address `a` on. -/
def writeBytes (m : Memory) (a : Nat) : List Byte → Memory
  | [] => m
  | b :: bs => writeBytes (Memory.insert m a b) (a + 1) bs

/-! ### The writer -/

/-- `out(bsw)` (41_bitstream R183, R188). -/
def writerOutput (b : Writer) : List Byte :=
  let n := (b.bits.length + 7) / 8
  outBytes b.bits 0 n ++ (if b.closed then List.replicate (padLength n) 0xFF else [])

/-- SINK accepts `n` more bytes (20_memory R83). -/
abbrev SinkTakes (s : State) (n : Nat) : Prop := n ≤ s.sinkRoom

/-- `s` after the bytes `bs` of the writer's output went to SINK. -/
def handed (s : State) (bs : List Byte) : State :=
  { s with sink := s.sink ++ bs, sinkRoom := s.sinkRoom - bs.length, bsw.delivered := s.bsw.delivered + bs.length }

/-- The bytes that go to SINK once the writer holds `n` bits (41_bitstream R190): the largest multiple of `BSW_BUF_BYTES` that is
complete and undelivered. -/
def fullBuffers (s : State) (n : Nat) : Nat := (n / 8 - s.bsw.delivered) / s.params.bufBytes * s.params.bufBytes

/-- `s` after the bits `w` were appended to the writer (41_bitstream R185, R190). Nothing is written for no bits. -/
def appended (s : State) (w : List Bool) : State :=
  if w = [] then s
  else
    handed { s with bsw.bits := s.bsw.bits ++ w, bsw.written := s.bsw.written + BitVec.ofNat 64 w.length }
      (outBytes (s.bsw.bits ++ w) s.bsw.delivered (fullBuffers s (s.bsw.bits.length + w.length)))

/-- The writer counts the bits it holds (10_state R34). -/
abbrev CountsBits (s : State) : Prop := s.bsw.written.toNat = s.bsw.bits.length

/-- The writer is open and counts its bits. -/
abbrev WriterOpen (s : State) : Prop := s.bsw.ustate = .opened ∧ s.bsw.closed = false ∧ CountsBits s

/-- The bits `w` can be written (41_bitstream R182, R191): none, or the writer is open, its 64-bit count does not run over, and
SINK takes the full buffers. -/
abbrev CanWrite (s : State) (w : List Bool) : Prop :=
  w = [] ∨
    (WriterOpen s ∧ s.bsw.bits.length + w.length < 2 ^ 64 ∧ SinkTakes s (fullBuffers s (s.bsw.bits.length + w.length)))

/-- `s` after a flush of the writer (41_bitstream R186). -/
def flushed (s : State) : State :=
  handed s (outBytes s.bsw.bits s.bsw.delivered (s.bsw.bits.length / 8 - s.bsw.delivered))

/-- The bits `w` can be written and the writer then flushed. -/
abbrev CanWriteAndFlush (s : State) (w : List Bool) : Prop :=
  WriterOpen s ∧ s.bsw.bits.length + w.length < 2 ^ 64 ∧ SinkTakes s ((s.bsw.bits.length + w.length) / 8 - s.bsw.delivered)

/-- What a write of at least one bit raises where the writer is not open (41_bitstream R182, R185; 40_system R158). -/
abbrev WriterFault (s : State) (c : FaultCode) : Prop :=
  (s.bsw.ustate = .uninit ∧ c = .notInitialized) ∨
    (s.bsw.ustate ≠ .uninit ∧ s.bsw.closed = true ∧ c = .streamClosed)

/-! ### The reader -/

/-- The bytes the host's answers bring before an END (20_memory R84). -/
def answeredBytes : List SourceAnswer → List Byte
  | .byte b :: rest => b :: answeredBytes rest
  | _ => []

/-- The answers behind the first END. -/
def afterEnd : List SourceAnswer → List SourceAnswer
  | [] => []
  | .byte _ :: rest => afterEnd rest
  | .finish :: rest => rest

/-- The bytes the reader holds or can take: after an END none (20_memory R84). -/
def incoming (s : State) : List Byte := s.bsr.bytes ++ (if s.bsr.ended then [] else answeredBytes s.source)

/-- The bits the reader can give, in stream order (20_memory R85, R86). -/
def unread (s : State) : List Bool := (bytesBits (incoming s)).drop s.bsr.read.toNat

/-- `s` after the reader gave `n` bits (20_memory R86, 41_bitstream R197). Nothing is taken for no bits. -/
def consumed (s : State) (n : Nat) : State :=
  if n = 0 then s
  else
    let k := (s.bsr.read.toNat + n + 7) / 8 - s.bsr.bytes.length
    { s with
      source := s.source.drop k
      bsr.bytes := s.bsr.bytes ++ (answeredBytes s.source).take k
      bsr.read := s.bsr.read + BitVec.ofNat 64 n }

/-- The reader is open. -/
abbrev ReaderOpen (s : State) : Prop := s.bsr.ustate = .opened ∧ s.bsr.closed = false

/-- The next bits the reader gives are `w` (41_bitstream R197): none, or it is open and its 64-bit count does not run over. -/
abbrev CanRead (s : State) (w : List Bool) : Prop :=
  w = [] ∨ (ReaderOpen s ∧ s.bsr.read.toNat + w.length < 2 ^ 64 ∧ w <+: unread s)

/-- `s` after a read that met END (41_bitstream R197): the bytes before it are taken, and no more are asked for. -/
def metEnd (s : State) : State :=
  if s.bsr.ended then s
  else { s with source := afterEnd s.source, bsr.bytes := incoming s, bsr.ended := true }

/-- What a read of at least one bit raises where the reader is not open (41_bitstream R197; 40_system R158). -/
abbrev ReaderFault (s : State) (c : FaultCode) : Prop :=
  (s.bsr.ustate = .uninit ∧ c = .notInitialized) ∨
    (s.bsr.ustate ≠ .uninit ∧ s.bsr.closed = true ∧ c = .streamClosed)

/-- `s` after an element that read `n` bits was undone: the bytes it took stay, and no bit is consumed (60_exceptions R402;
log 17). -/
def takenBack (s : State) (n : Nat) : State :=
  { s with source := (consumed s n).source, bsr.bytes := (consumed s n).bsr.bytes }

/-- The reader is open and END stands behind the bits it can give (20_memory R84), which do not run its 64-bit count over. -/
abbrev BeforeEnd (s : State) : Prop :=
  ReaderOpen s ∧ (s.bsr.ended = true ∨ .finish ∈ s.source) ∧ s.bsr.read.toNat + (unread s).length < 2 ^ 64

/-- The reader can give the bits `v`, and then the stream ends inside the bits `w`: some of them are missing. -/
abbrev EndsInside (s : State) (v w : List Bool) : Prop :=
  BeforeEnd s ∧ v <+: unread s ∧ unread s <+: v ++ w ∧ (unread s).length < v.length + w.length

/-! ### The binary coder -/

/-- The renormalization loop (42_binary_coder R228): from the interval `low`, `high`, the bytes `out` leave it, and the interval
left is `low'`, `high'`. -/
inductive Settles : BitVec 32 → BitVec 32 → List Byte → BitVec 32 → BitVec 32 → Prop
  | done (low high : BitVec 32) : (low ^^^ high) &&& 0xFF000000 ≠ 0 → Settles low high [] low high
  | shift (low high : BitVec 32) (out : List Byte) (low' high' : BitVec 32) :
      (low ^^^ high) &&& 0xFF000000 = 0 → Settles (low <<< 8) ((high <<< 8) ||| 0xFF) out low' high' →
        Settles low high ((high >>> 24).setWidth 8 :: out) low' high'

/-- The encoder's steps for a bit sequence (42_binary_coder R229): the bytes `out` leave the interval. -/
inductive CodedBits : BinaryEncoder → List Bool → List Byte → BinaryEncoder → Prop
  | nil (e : BinaryEncoder) : CodedBits e [] [] e
  | zero (e e' : BinaryEncoder) (bits : List Bool) (out out' : List Byte) (low high : BitVec 32) :
      Settles (splitPoint e.low e.high e.pred.probability + 1) e.high out low high →
        CodedBits { e with low := low, high := high, pred := e.pred.update false } bits out' e' →
          CodedBits e (false :: bits) (out ++ out') e'
  | one (e e' : BinaryEncoder) (bits : List Bool) (out out' : List Byte) (low high : BitVec 32) :
      Settles e.low (splitPoint e.low e.high e.pred.probability) out low high →
        CodedBits { e with low := low, high := high, pred := e.pred.update true } bits out' e' →
          CodedBits e (true :: bits) (out ++ out') e'

/-- The decoder's renormalization loop (42_binary_coder R228, R238), which reads the bytes `used` into `current`. -/
inductive Refills : BitVec 32 → BitVec 32 → BitVec 32 → List Byte → BitVec 32 → BitVec 32 → BitVec 32 → Prop
  | done (low high current : BitVec 32) : (low ^^^ high) &&& 0xFF000000 ≠ 0 → Refills low high current [] low high current
  | shift (low high current : BitVec 32) (b : Byte) (used : List Byte) (low' high' current' : BitVec 32) :
      (low ^^^ high) &&& 0xFF000000 = 0 →
        Refills (low <<< 8) ((high <<< 8) ||| 0xFF) ((current <<< 8) ||| b.setWidth 32) used low' high' current' →
          Refills low high current (b :: used) low' high' current'

/-- The decoder's steps (42_binary_coder R236 to R238): fed exactly the bytes `used`, it decodes a bit sequence. -/
inductive DecodedBits : BinaryDecoder → List Byte → List Bool → BinaryDecoder → Prop
  | nil (d : BinaryDecoder) : DecodedBits d [] [] d
  | seed (d d' : BinaryDecoder) (b3 b2 b1 b0 : Byte) (used : List Byte) (bit : Bool) (bits : List Bool) :
      d.seeded = false →
        DecodedBits { d with current := b3 ++ b2 ++ b1 ++ b0, seeded := true } used (bit :: bits) d' →
          DecodedBits d (b3 :: b2 :: b1 :: b0 :: used) (bit :: bits) d'
  | zero (d d' : BinaryDecoder) (used used' : List Byte) (bits : List Bool) (low high current : BitVec 32) :
      d.seeded = true → (splitPoint d.low d.high d.pred.probability).toNat < d.current.toNat →
        Refills (splitPoint d.low d.high d.pred.probability + 1) d.high d.current used low high current →
          DecodedBits { d with low := low, high := high, current := current, pred := d.pred.update false } used' bits d' →
            DecodedBits d (used ++ used') (false :: bits) d'
  | one (d d' : BinaryDecoder) (used used' : List Byte) (bits : List Bool) (low high current : BitVec 32) :
      d.seeded = true → d.current.toNat ≤ (splitPoint d.low d.high d.pred.probability).toNat →
        Refills d.low (splitPoint d.low d.high d.pred.probability) d.current used low high current →
          DecodedBits { d with low := low, high := high, current := current, pred := d.pred.update true } used' bits d' →
            DecodedBits d (used ++ used') (true :: bits) d'

/-- The four bytes of a 32-bit register, most significant first (20_memory R87). -/
def registerBytes (v : BitVec 32) : List Byte :=
  [v.extractLsb' 24 8, v.extractLsb' 16 8, v.extractLsb' 8 8, v.extractLsb' 0 8]

/-- The bits of the dispose flush (42_binary_coder R232): the bytes of `low`, then three zero bytes. -/
def flushBits (low : BitVec 32) : List Bool := bytesBits (registerBytes low ++ [0, 0, 0])

/-- The bits of a byte behind its continue bit (43_fpaq R262). -/
def continuedBits (bs : List Byte) : List Bool := bs.flatMap fun b => false :: byteBits b

/-! ### The range coder -/

/-- The top bytes of `low` and `low + range` agree (44_range_coder R284). -/
abbrev TopSettled (low range : Word56) : Prop := (low.toNat ^^^ (low.toNat + range.toNat)) % 2 ^ 56 < 2 ^ 48

/-- The clamped range of a straddle, `(-low) & MASK & CLAMP_MASK` (44_range_coder R284). -/
def clampedRange (clamp : ClampMask) (low : Word56) : Nat :=
  (2 ^ 56 - low.toNat) % 2 ^ 56 &&& (match clamp with | .literal => 2 ^ 40 - 2 | .bottom => 2 ^ 40 - 1)

/-- The renormalization loop (44_range_coder R284), where it ends: the bytes `out` leave `low`. -/
inductive RangeSettles (clamp : ClampMask) : Word56 → Word56 → List Byte → Word56 → Word56 → Prop
  | done (low range : Word56) :
      ¬TopSettled low range → 2 ^ 40 - 1 ≤ range.toNat → RangeSettles clamp low range [] low range
  | settled (low range : Word56) (out : List Byte) (low' range' : Word56) :
      TopSettled low range → RangeSettles clamp (low <<< 8) (range <<< 8) out low' range' →
        RangeSettles clamp low range ((low >>> 48).setWidth 8 :: out) low' range'
  | straddle (low range : Word56) (out : List Byte) (low' range' : Word56) :
      ¬TopSettled low range → range.toNat < 2 ^ 40 - 1 → clampedRange clamp low ≠ 0 →
        RangeSettles clamp (low <<< 8) (BitVec.ofNat 56 (clampedRange clamp low) <<< 8) out low' range' →
          RangeSettles clamp low range ((low >>> 48).setWidth 8 :: out) low' range'

/-- The renormalization loop where its clamp gives 0 (44_range_coder R288 (a)), with the bytes that left `low` before. -/
inductive RangeSticks (clamp : ClampMask) : Word56 → Word56 → List Byte → Prop
  | zero (low range : Word56) :
      ¬TopSettled low range → range.toNat < 2 ^ 40 - 1 → clampedRange clamp low = 0 → RangeSticks clamp low range []
  | settled (low range : Word56) (out : List Byte) :
      TopSettled low range → RangeSticks clamp (low <<< 8) (range <<< 8) out →
        RangeSticks clamp low range ((low >>> 48).setWidth 8 :: out)
  | straddle (low range : Word56) (out : List Byte) :
      ¬TopSettled low range → range.toNat < 2 ^ 40 - 1 → clampedRange clamp low ≠ 0 →
        RangeSticks clamp (low <<< 8) (BitVec.ofNat 56 (clampedRange clamp low) <<< 8) out →
          RangeSticks clamp low range ((low >>> 48).setWidth 8 :: out)

/-- `r = range div freq[257]` (44_range_coder R286). -/
abbrev stepWidth (range : Word56) (t : FreqTable) : Nat := range.toNat / freqAt t 257

/-- `low` after the step for the symbol `sym` (44_range_coder R286). -/
abbrev stepLow56 (low range : Word56) (t : FreqTable) (sym : Nat) : Word56 :=
  BitVec.ofNat 56 (low.toNat + freqAt t sym * stepWidth range t)

/-- `range` after the step for the symbol `sym` (44_range_coder R286). -/
abbrev stepRange56 (range : Word56) (t : FreqTable) (sym : Nat) : Word56 :=
  BitVec.ofNat 56 ((freqAt t (sym + 1) - freqAt t sym) * stepWidth range t)

/-- The table a step uses at element index `i` (44_range_coder R289): flat at each multiple of the chunk length `sz`; `none` is a
single-symbol command, which never resets the table. -/
def tableAt (sz : Option Nat) (i : Nat) (t : FreqTable) : FreqTable :=
  match sz with
  | none => t
  | some n => if i % n = 0 then flatTable else t

/-- The encoder's steps for symbols whose element indices start at `i`, with a flat table at each multiple of `sz`
(44_range_coder R287, R289). -/
inductive RangeCoded (clamp : ClampMask) (sz : Option Nat) : Nat → RangeEncoder → List Nat → List Byte → RangeEncoder → Prop
  | nil (i : Nat) (e : RangeEncoder) : RangeCoded clamp sz i e [] [] e
  | cons (i : Nat) (e e' : RangeEncoder) (t : FreqTable) (sym : Nat) (syms : List Nat) (out out' : List Byte)
      (low range : Word56) :
      t = tableAt sz i e.freq → stepWidth e.range t ≠ 0 →
        RangeSettles clamp (stepLow56 e.low e.range t sym) (stepRange56 e.range t sym) out low range →
          RangeCoded clamp sz (i + 1) { e with low := low, range := range, freq := countSymbol t sym } syms out' e' →
            RangeCoded clamp sz i e (sym :: syms) (out ++ out') e'

/-- The decoder's renormalization loop (44_range_coder R284, R296), which reads the bytes `used` into `code`. -/
inductive RangeRefills (clamp : ClampMask) : Word56 → Word56 → Word56 → List Byte → Word56 → Word56 → Word56 → Prop
  | done (low range code : Word56) :
      ¬TopSettled low range → 2 ^ 40 - 1 ≤ range.toNat → RangeRefills clamp low range code [] low range code
  | settled (low range code : Word56) (b : Byte) (used : List Byte) (low' range' code' : Word56) :
      TopSettled low range →
        RangeRefills clamp (low <<< 8) (range <<< 8) ((code <<< 8) ||| b.setWidth 56) used low' range' code' →
          RangeRefills clamp low range code (b :: used) low' range' code'
  | straddle (low range code : Word56) (b : Byte) (used : List Byte) (low' range' code' : Word56) :
      ¬TopSettled low range → range.toNat < 2 ^ 40 - 1 → clampedRange clamp low ≠ 0 →
        RangeRefills clamp (low <<< 8) (BitVec.ofNat 56 (clampedRange clamp low) <<< 8)
            ((code <<< 8) ||| b.setWidth 56) used low' range' code' →
          RangeRefills clamp low range code (b :: used) low' range' code'

/-- `sym` is the symbol of a count (44_range_coder R296): the one `v` in 0..256 with `freq[v] <= count < freq[v+1]`. -/
abbrev SymbolOf (t : FreqTable) (count sym : Nat) : Prop :=
  count < freqAt t 257 ∧ ∀ v ≤ 256, (freqAt t v ≤ count ∧ count < freqAt t (v + 1)) ↔ v = sym

/-- `count = ((code - low) & MASK) div r` (44_range_coder R296). -/
abbrev stepCount (d : RangeDecoder) (t : FreqTable) : Nat :=
  (d.code.toNat + 2 ^ 56 - d.low.toNat) % 2 ^ 56 / stepWidth d.range t

/-- The decoder's steps (44_range_coder R296, R298), with element indices and flat tables as in `RangeCoded`: fed exactly the
bytes `used`, it decodes the symbols. -/
inductive RangeDecoded (clamp : ClampMask) (sz : Option Nat) : Nat → RangeDecoder → List Byte → List Nat → RangeDecoder → Prop
  | nil (i : Nat) (d : RangeDecoder) : RangeDecoded clamp sz i d [] [] d
  | seed (i : Nat) (d d' : RangeDecoder) (b6 b5 b4 b3 b2 b1 b0 : Byte) (used : List Byte) (sym : Nat) (syms : List Nat) :
      d.seeded = false →
        RangeDecoded clamp sz i { d with code := b6 ++ b5 ++ b4 ++ b3 ++ b2 ++ b1 ++ b0, seeded := true } used (sym :: syms) d' →
          RangeDecoded clamp sz i d (b6 :: b5 :: b4 :: b3 :: b2 :: b1 :: b0 :: used) (sym :: syms) d'
  | cons (i : Nat) (d d' : RangeDecoder) (t : FreqTable) (sym : Nat) (syms : List Nat) (used used' : List Byte)
      (low range code : Word56) :
      d.seeded = true → t = tableAt sz i d.freq → stepWidth d.range t ≠ 0 →
        SymbolOf t (stepCount d t) sym → sym ≤ 256 →
          RangeRefills clamp (stepLow56 d.low d.range t sym) (stepRange56 d.range t sym) d.code used low range code →
            RangeDecoded clamp sz (i + 1) { d with low := low, range := range, code := code, freq := countSymbol t sym }
                used' syms d' →
              RangeDecoded clamp sz i d (used ++ used') (sym :: syms) d'

/-- The chunk length of an array command (44_range_coder R289). -/
def chunkLength (chunkSize : BitVec 32) (len : Nat) : Option Nat := some (if chunkSize = 0 then len else chunkSize.toNat)

/-- The lazy seed (44_range_coder R296): a seeded decoder reads nothing, an unseeded one seven bytes. -/
inductive RangeSeeds : RangeDecoder → List Byte → RangeDecoder → Prop
  | kept (d : RangeDecoder) : d.seeded = true → RangeSeeds d [] d
  | read (d : RangeDecoder) (b6 b5 b4 b3 b2 b1 b0 : Byte) : d.seeded = false →
      RangeSeeds d [b6, b5, b4, b3, b2, b1, b0]
        { d with code := b6 ++ b5 ++ b4 ++ b3 ++ b2 ++ b1 ++ b0, seeded := true }

/-- The first turn of the renormalization loop shifts a byte (44_range_coder R284). -/
abbrev RangeShifts (clamp : ClampMask) (low range : Word56) : Prop :=
  TopSettled low range ∨ (range.toNat < 2 ^ 40 - 1 ∧ clampedRange clamp low ≠ 0)

/-- The seven bytes of a 56-bit register, most significant first (20_memory R87). -/
def registerBytes56 (v : Word56) : List Byte :=
  [v.extractLsb' 48 8, v.extractLsb' 40 8, v.extractLsb' 32 8, v.extractLsb' 24 8, v.extractLsb' 16 8, v.extractLsb' 8 8,
    v.extractLsb' 0 8]

/-! ### Code words -/

/-- The bits of a Huffman header (45_huffman R328). -/
def headerBits (w : Nat) (lengths : List Nat) : List Bool :=
  true :: bitsOf w 5 ++ (if w = 0 then [] else lengths.flatMap fun l => bitsOf l w)

/-- The code lengths of a table, in symbol order. -/
def lengthsOf (sizes : Table (BitVec 8) 256) : List Nat := (List.range 256).map (sizeAt sizes)

/-- The code word of a symbol (45_huffman R329). -/
def codeWord (sizes : Table (BitVec 8) 256) (codes : Table Word64 256) (sym : Nat) : List Bool :=
  bitsOf (codeAt codes sym) (sizeAt sizes sym)

/-- The code words of a byte sequence (45_huffman R329). -/
def codeWords (sizes : Table (BitVec 8) 256) (codes : Table Word64 256) (xs : List Byte) : List Bool :=
  xs.flatMap fun b => codeWord sizes codes b.toNat

/-- Every code fits its length, and no code word begins another one (45_huffman R327). -/
def Uniquely (sizes : Table (BitVec 8) 256) (codes : Table Word64 256) : Prop :=
  (∀ a < 256, sizeAt sizes a ≠ 0 → codeAt codes a < 2 ^ sizeAt sizes a) ∧
    ∀ a < 256, ∀ b < 256, sizeAt sizes a ≠ 0 → sizeAt sizes b ≠ 0 →
      codeWord sizes codes a <+: codeWord sizes codes b → a = b

/-- The lengths that a header may give (45_huffman R342). -/
def LengthsAllowed (lengths : List Nat) : Prop :=
  (∀ l ∈ lengths, l ≤ 64) ∧
    ((lengths.filter (· ≠ 0)).length = 1 → lengths.filter (· ≠ 0) = [1]) ∧
      (2 ≤ (lengths.filter (· ≠ 0)).length → ((lengths.filter (· ≠ 0)).map fun l => 2 ^ (64 - l)).sum = 2 ^ 64)

/-- The two-queue merge as 45_huffman R323 runs it: `take()` prefers the first queue on a tie. -/
inductive TakesLightest :
    List WeightedTree → List WeightedTree → WeightedTree → List WeightedTree → List WeightedTree → Prop
  | first (a : WeightedTree) (q1 q2 : List WeightedTree) : (∀ b ∈ q2.head?, a.1 ≤ b.1) → TakesLightest (a :: q1) q2 a q1 q2
  | second (b : WeightedTree) (q1 q2 : List WeightedTree) : (∀ a ∈ q1.head?, b.1 < a.1) → TakesLightest q1 (b :: q2) b q1 q2

/-- The merge of two queues ends in a tree (45_huffman R323). -/
inductive Merges : List WeightedTree → List WeightedTree → HuffmanTree → Prop
  | root (q1 q2 : List WeightedTree) (a : WeightedTree) : TakesLightest q1 q2 a [] [] → Merges q1 q2 a.2
  | pair (q1 q2 q1' q2' q1'' q2'' : List WeightedTree) (a b : WeightedTree) (tree : HuffmanTree) :
      TakesLightest q1 q2 a q1' q2' → TakesLightest q1' q2' b q1'' q2'' →
        Merges q1'' (q2'' ++ [(a.1 + b.1, .node a.2 b.2)]) tree → Merges q1 q2 tree

/-- The leaf of a symbol stands at a depth of a tree (45_huffman R324). -/
inductive LeafAt : HuffmanTree → Nat → Nat → Prop
  | leaf (sym : Nat) : LeafAt (.leaf sym) sym 0
  | left (a b : HuffmanTree) (sym d : Nat) : LeafAt a sym d → LeafAt (.node a b) sym (d + 1)
  | right (a b : HuffmanTree) (sym d : Nat) : LeafAt b sym d → LeafAt (.node a b) sym (d + 1)

/-- The sign bit behind a magnitude (46_golomb R361). -/
def signBits (signed : Bool) (m : Nat) (neg : Bool) : List Bool := if signed = true ∧ m ≠ 0 then [neg] else []

/-- The exp-Golomb code (46_golomb R363). -/
def expGolombBits (signed : Bool) (m : Nat) (neg : Bool) : List Bool :=
  List.replicate (Nat.log2 (m + 1)) false ++ bitsOf (m + 1) (Nat.log2 (m + 1) + 1) ++ signBits signed m neg

/-- The Rice code (46_golomb R373). -/
def riceBits (signed : Bool) (k m : Nat) (neg : Bool) : List Bool :=
  List.replicate (m / 2 ^ k) false ++ true :: bitsOf (m % 2 ^ k) k ++ signBits signed m neg

/-- The byte that a magnitude and its sign bit decode to (46_golomb R362). -/
def golombByte (signed : Bool) (m : Nat) (neg : Bool) : Byte :=
  if signed = true ∧ m ≠ 0 ∧ neg = true then BitVec.ofInt 8 (-m) else BitVec.ofNat 8 m

/-! ### Invariants -/

/-- `STATUS` holds codes of 60_exceptions R400 and zeros above its fields, and a fault in `CODE` is never without one in `FIRST`
(10_state R32). -/
abbrev StatusLegal (s : State) : Prop :=
  (statusCode s.status).toNat ≤ 9 ∧ (statusFirst s.status).toNat ≤ 9 ∧ s.status.toNat < 2 ^ 24 ∧
    (statusCode s.status ≠ 0 → statusFirst s.status ≠ 0)

/-- The bounds of 10_state R37 and 42_binary_coder R225. -/
def PredictorLegal (p : Predictor) : Prop :=
  1 ≤ p.ctx.toNat ∧ p.ctx.toNat ≤ 511 ∧ ∀ c < 512, (p.n0.get c 0).toNat ≤ 2000 ∧ (p.n1.get c 0).toNat ≤ 2000

/-- The interval of 10_state R41. -/
abbrev IntervalLegal (low high : BitVec 32) : Prop := low.toNat < high.toNat ∧ (low ^^^ high) &&& 0xFF000000 ≠ 0

/-- The binary coders between commands (10_state R37, R41, R42). -/
def BinaryLegal (s : State) : Prop :=
  (IntervalLegal s.bee.low s.bee.high ∧ PredictorLegal s.bee.pred) ∧ (IntervalLegal s.bed.low s.bed.high ∧ PredictorLegal s.bed.pred) ∧
    (IntervalLegal s.fpe.low s.fpe.high ∧ PredictorLegal s.fpe.pred) ∧ (IntervalLegal s.fpd.low s.fpd.high ∧ PredictorLegal s.fpd.pred)

/-- The registers of a range coder between commands (10_state R45, 44_range_coder R284). -/
def RangeLegal (low range : Word56) (t : FreqTable) : Prop :=
  freqAt t 0 = 0 ∧ (∀ v ≤ 256, freqAt t v < freqAt t (v + 1)) ∧ freqAt t 257 ≤ 2 ^ 56 ∧ low.toNat + range.toNat ≤ 2 ^ 56 ∧
    (low.toNat + range.toNat = 2 ^ 56 → 2 ^ 56 - 2 ^ 48 ≤ low.toNat) ∧ 2 ^ 40 - 1 ≤ range.toNat

/-- Both range coders, unless they are FAILED (10_state R45, 44_range_coder R288). -/
def RangesLegal (s : State) : Prop :=
  (s.rce.ustate ≠ .failed → RangeLegal s.rce.low s.rce.range s.rce.freq) ∧
    (s.rcd.ustate ≠ .failed → RangeLegal s.rcd.low s.rcd.range s.rcd.freq)

/-- DATA in its canonical form, within `DATA_SIZE` (20_memory R80). -/
def DataLegal (s : State) : Prop := Memory.wf s.data ∧ ∀ c ∈ s.data, c.1 < s.params.dataSize

/-- The unit states agree with the streams' flags, the reader holds every byte it has read from, and only the range coders are
FAILED (10_state R33, R36, 41_bitstream R200). -/
def UnitsLegal (s : State) : Prop :=
  (s.bsw.closed = true ↔ s.bsw.ustate = .closed) ∧ (s.bsr.closed = true ↔ s.bsr.ustate = .closed) ∧
    (s.bsr.read.toNat + 7) / 8 ≤ s.bsr.bytes.length ∧
      s.bee.ustate ≠ .failed ∧ s.bed.ustate ≠ .failed ∧ s.fpe.ustate ≠ .failed ∧ s.fpd.ustate ≠ .failed ∧
        s.hfe.ustate ≠ .failed ∧ s.hfd.ustate ≠ .failed ∧ s.ege.ustate ≠ .failed ∧ s.egd.ustate ≠ .failed ∧
          s.rge.ustate ≠ .failed ∧ s.rgd.ustate ≠ .failed

/-- What SINK was handed since `BSW.INIT` is the beginning of the writer's output, and no byte of a waiting command is among it
(20_memory R83, 41_bitstream R183), as long as the 64-bit count of the writer does not run over. -/
def CarriesOutput (s : State) : Prop :=
  s.sent = 0 ∧
    (s.bsw.bits.length < 2 ^ 64 →
      CountsBits s ∧ s.bsw.delivered ≤ (writerOutput s.bsw).length ∧
        (s.bsw.closed = false → s.bsw.delivered ≤ s.bsw.bits.length / 8) ∧
          (writerOutput s.bsw).take s.bsw.delivered <:+ s.sink)

/-- SINK carries the writer's output, or the command in `CMD` stalls there, begun in a state where it did: its registers are those of
that state, and what SINK took of it is not in them yet (log 5). -/
def SinkCarriesOutput (s : State) : Prop :=
  CarriesOutput s ∨
    ∃ u i, CarriesOutput u ∧ Settled u ∧ decode s.cmd = .ok i ∧ exec i u = .next s ∧ s.waiting = some .sink

end Machine

end Sys2Proof
end

