-- ==== Sys2Proof/Certificates/Slice0/Obligations.lean ====
section
/-! DEFINITION. The statements for the provers. Each docstring names the rules of spec/ it formalises; the vocabulary is that of
Safety.lean. A state with no command in progress is `Settled`; the next states are written out in full, so each of them is a frame
too: what it does not name is as it was. -/

open Sys2Proof Sys2Proof.Machine

/-! ### Encoding -/

/-- 30_encoding R110 to R114, R121: decoding the word of a well-formed command gives the command back. -/
def Obligations.DecodeEncode : Prop := ∀ i : Instr, WellFormed i → decode (encode i) = .ok i

/-- 30_encoding R110 to R114: a word has one reading, which is well formed and encodes to that word. -/
def Obligations.EncodeDecode : Prop := ∀ (w : Command) (i : Instr), decode w = .ok i → WellFormed i ∧ encode i = w

/-- 30_encoding R111, R113, R114, R117: the words that decode are exactly the legal ones. -/
def Obligations.LegalWordsDecode : Prop := ∀ w : Command, (∃ i, decode w = .ok i) ↔ LegalWord w

/-- 30_encoding R121: the formula of a command word and its five examples, read back. -/
def Obligations.CommandWords : Prop :=
  (∀ i : Instr, (encode i).toNat = i.unit.toNat * 2 ^ 28 + i.op.toNat * 2 ^ 24 + i.imm.toNat) ∧
    decode 0x1200000C = .ok (.bswWrbits 12) ∧ decode 0x14000000 = .ok .bswClose ∧ decode 0xD0000013 = .ok (.rgeInit true 3) ∧
      decode 0x86000000 = .ok .rcdDecode ∧ decode 0x02000007 = .ok (.sysUstate 7)

/-! ### Steps, the host and reset -/

/-- 40_system R150: a write of `CMD` that decodes to a command runs that command on the state with the word in `CMD`; an answer or
an acceptance runs the waiting command again (20_memory R83, R84); and `withFetchWord` places a word so. -/
def Obligations.StepRunsTheCommand : Prop :=
  (∀ (s : State) (v : Word64) (rest : List HostMove) (i : Instr), s.waiting = none → s.host = .write 0 v :: rest →
    decode (v.setWidth 32) = .ok i → step s = exec i { s with host := rest, cmd := v.setWidth 32 }) ∧
  (∀ (s : State) (p : Port) (a : SourceAnswer) (rest : List HostMove) (i : Instr), s.waiting = some p →
    s.host = .answer a :: rest → decode s.cmd = .ok i →
      step s = exec i { s with host := rest, source := s.source ++ [a] }) ∧
  (∀ (s : State) (p : Port) (n : Nat) (rest : List HostMove) (i : Instr), s.waiting = some p →
    s.host = .accept n :: rest → decode s.cmd = .ok i →
      step s = exec i { s with host := rest, sinkRoom := s.sinkRoom + n }) ∧
  (∀ (s : State) (w : Nat) (i : Instr), w < 2 ^ 32 → decode (BitVec.ofNat 32 w) = .ok i →
    step (s.withFetchWord 32 w) = exec i { s with waiting := none, sent := 0, taken := [], cmd := BitVec.ofNat 32 w })

/-- 30_encoding R111: an illegal word changes no state but `STATUS` (and `CMD`, which the host writes). -/
def Obligations.IllegalWordChangesStatusOnly : Prop :=
  ∀ (s : State) (v : Word64) (rest : List HostMove), Settled s → s.host = .write 0 v :: rest → ¬LegalWord (v.setWidth 32) →
    step s = .next { s with
      host := rest
      cmd := v.setWidth 32
      status := statusOf (v.extractLsb' 24 4) (v.extractLsb' 28 4)
        (if statusFirst s.status = 0 then 0x01 else statusFirst s.status) 0x01 }

/-- 20_memory R82 to R84, 70_reset_and_hazards R441, R452: what each host move does. What a read of the write-only `CMD` returns,
and that writes of `RES` and `STATUS` do nothing, is the model's choice (log 12). -/
def Obligations.HostMoves : Prop :=
  (∀ s : State, s.host = [] → step s = .next s) ∧
  (∀ (s : State) (p : Port) (m : HostMove) (rest : List HostMove), s.waiting = some p → s.host = m :: rest →
    ((∃ o, m = .read o) ∨ ∃ o v, m = .write o v) → step s = .next s) ∧
  (∀ (s : State) (a : SourceAnswer) (rest : List HostMove), s.waiting = none → s.host = .answer a :: rest →
    step s = .next { s with host := rest, source := s.source ++ [a] }) ∧
  (∀ (s : State) (n : Nat) (rest : List HostMove), s.waiting = none → s.host = .accept n :: rest →
    step s = .next { s with host := rest, sinkRoom := s.sinkRoom + n }) ∧
  (∀ (s : State) (o : Nat) (rest : List HostMove), s.waiting = none → s.host = .read o :: rest →
    (o = 0x08 → step s = .next { s with host := rest, hostRead := s.arg0 }) ∧
    (o = 0x10 → step s = .next { s with host := rest, hostRead := s.arg1.setWidth 64 }) ∧
    (o = 0x14 → step s = .next { s with host := rest, hostRead := s.arg2.setWidth 64 }) ∧
    (o = 0x18 → step s = .next { s with host := rest, hostRead := s.arg3.setWidth 64 }) ∧
    (o = 0x20 → step s = .next { s with host := rest, hostRead := s.res }) ∧
    (o = 0x28 → step s = .next { s with host := rest, hostRead := s.status.setWidth 64 }) ∧
    (0x30 ≤ o → o ≤ 0xFFFF → step s = .next { s with host := rest, hostRead := 0 }) ∧
    (0x10000 ≤ o → o < 0x10000 + s.params.dataSize →
      step s = .next { s with host := rest, hostRead := (dataByte s (o - 0x10000)).setWidth 64 }) ∧
    (o = 0x00 → ∃ v, step s = .next { s with host := rest, hostRead := v, freeCount := s.freeCount + 1 })) ∧
  (∀ (s : State) (o : Nat) (v : Word64) (rest : List HostMove), s.waiting = none → s.host = .write o v :: rest →
    (o = 0x08 → step s = .next { s with host := rest, arg0 := v }) ∧
    (o = 0x10 → step s = .next { s with host := rest, arg1 := v.setWidth 32 }) ∧
    (o = 0x14 → step s = .next { s with host := rest, arg2 := v.setWidth 32 }) ∧
    (o = 0x18 → step s = .next { s with host := rest, arg3 := v.setWidth 32 }) ∧
    ((o = 0x20 ∨ o = 0x28 ∨ (0x30 ≤ o ∧ o ≤ 0xFFFF)) → step s = .next { s with host := rest }) ∧
    (0x10000 ≤ o → o < 0x10000 + s.params.dataSize →
      step s = .next { s with host := rest, data := writeBytes s.data (o - 0x10000) [v.setWidth 8] }))

/-- The machine stops only where the host reads or writes an offset that 20_memory R82 does not list, and no command refuses. That
it stops there is the model's choice (log 13). -/
def Obligations.StepStopsOnlyOnUnlistedOffset : Prop :=
  (∀ (s : State) (r : Refusal), step s ≠ .refused r) ∧
  (∀ s : State, (∃ f, step s = .fault f) ↔
    s.waiting = none ∧ ∃ m rest o, s.host = m :: rest ∧ (m = .read o ∨ ∃ v, m = .write o v) ∧ ¬ListedOffset s.params o)

/-- 70_reset_and_hazards R440, 40_system R152: the hardware reset, also while a command waits, and `SYS.SRESET` give every register
and unit its reset value, and leave DATA and the answers not taken; SRESET then reports itself in `STATUS`. The rules say nothing of
the model's own fields, and that a reset keeps them is the model's choice: the room at SINK (`sinkRoom`, log 3), what SINK was handed
(`sink`, log 20), what the host last read (`hostRead`, log 12) and the count of free values (`freeCount`, log 7). -/
def Obligations.ResetEffect : Prop :=
  (∀ (s : State) (rest : List HostMove), s.host = .reset :: rest →
    step s = .next { State.reset with
      params := s.params, data := s.data, sink := s.sink, sinkRoom := s.sinkRoom, source := s.source, host := rest,
      hostRead := s.hostRead, freeCount := s.freeCount }) ∧
  (∀ s : State, Settled s →
    exec .sysSreset s = .next { State.reset with
      params := s.params, data := s.data, sink := s.sink, sinkRoom := s.sinkRoom, source := s.source, host := s.host,
      hostRead := s.hostRead, freeCount := s.freeCount, status := statusOf 1 0 0 0 })

/-- 10_state R52: the reset values, each register and unit; a reset clears neither DATA nor what SOURCE has still to give. -/
def Obligations.ResetValues : Prop :=
  let r := State.reset
  (r.cmd = 0 ∧ r.arg0 = 0 ∧ r.arg1 = 0 ∧ r.arg2 = 0 ∧ r.arg3 = 0 ∧ r.res = 0 ∧ r.status = 0) ∧
  (r.bsw = { ustate := .uninit, bits := [], written := 0, delivered := 0, closed := false }) ∧
  (r.bsr = { ustate := .uninit, bytes := [], read := 0, ended := false, closed := false }) ∧
  (∀ p ∈ [r.bee.pred, r.bed.pred, r.fpe.pred, r.fpd.pred], p.ctx = 1 ∧ ∀ c < 512, p.n0.get c 1 = 0 ∧ p.n1.get c 1 = 0) ∧
  (∀ e ∈ [r.bee, r.fpe], e.ustate = .uninit ∧ e.low = 0 ∧ e.high = 0xFFFFFFFF ∧ e.kind = 0) ∧
  (∀ d ∈ [r.bed, r.fpd],
    d.ustate = .uninit ∧ d.low = 0 ∧ d.high = 0xFFFFFFFF ∧ d.current = 0 ∧ d.seeded = false ∧ d.kind = 0) ∧
  (r.rce.ustate = .uninit ∧ r.rce.low = 0 ∧ r.rce.range.toNat = 2 ^ 56 - 1 ∧ r.rce.chunkSize = 65536) ∧
  (r.rcd.ustate = .uninit ∧ r.rcd.low = 0 ∧ r.rcd.range.toNat = 2 ^ 56 - 1 ∧ r.rcd.code = 0 ∧ r.rcd.seeded = false ∧
    r.rcd.chunkSize = 65536) ∧
  (∀ v ≤ 257, freqAt r.rce.freq v = v ∧ freqAt r.rcd.freq v = v) ∧
  (∀ h ∈ [r.hfe, r.hfd], h.ustate = .uninit ∧ ∀ sym < 256, h.sizes.get sym 1 = 0 ∧ h.codes.get sym 1 = 0) ∧
  (∀ g ∈ [r.ege, r.egd], g.ustate = .uninit ∧ g.signed = false) ∧
  (∀ g ∈ [r.rge, r.rgd], g.ustate = .uninit ∧ g.signed = false ∧ g.logBase = 1) ∧
  (r.waiting = none ∧ r.sent = 0 ∧ r.taken = []) ∧
  (∀ (s : State) (rest : List HostMove), s.host = .reset :: rest → ∃ t, step s = .next t ∧ t.data = s.data ∧ t.source = s.source) ∧
  (∀ s : State, Settled s → ∃ t, exec .sysSreset s = .next t ∧ t.data = s.data ∧ t.source = s.source)

/-! ### Status and faults -/

/-- 10_state R32, 40_system R150, 60_exceptions R401: what a command that ends has written to `STATUS` and `RES`, for every command
and state; a command that waits has written neither (log 5). -/
def Obligations.StatusAfterACommand : Prop :=
  (∀ (u o : BitVec 4) (v : Word64) (s : State),
    complete u o v s = { s with res := v, status := statusOf o u (statusFirst s.status) 0, sent := 0 }) ∧
  (∀ (u o : BitVec 4) (c : FaultCode) (s : State),
    raiseFault u o c s = { s with
      status := statusOf o u (if statusFirst s.status = 0 then c.code else statusFirst s.status) c.code, sent := 0 }) ∧
  (∀ (i : Instr) (s t : State), exec i s = .next t → t.waiting = none →
    ∃ first code : BitVec 8, t.status = statusOf i.op i.unit first code ∧ code.toNat ≤ 9 ∧
      (i = .sysSreset → first = 0 ∧ code = 0) ∧
      (i ≠ .sysSreset → first = if code = 0 ∨ statusFirst s.status ≠ 0 then statusFirst s.status else code) ∧
      (code ≠ 0 → ¬IsArray i → t.res = s.res)) ∧
  (∀ (i : Instr) (s t : State), exec i s = .next t → t.waiting ≠ none → t.status = s.status ∧ t.res = s.res)

/-- 10_state R32, 60_exceptions R400: every step keeps `STATUS` legal. -/
def Obligations.StatusStaysLegal : Prop := ∀ s t : State, StatusLegal s → step s = .next t → StatusLegal t

/-- 10_state R32, 60_exceptions R408: once a fault is in `STATUS.FIRST`, only a reset or `SYS.SRESET` takes it out. -/
def Obligations.FirstFaultIsSticky : Prop :=
  ∀ s t : State, step s = .next t → statusFirst s.status ≠ 0 →
    statusFirst t.status = statusFirst s.status ∨
      (statusFirst t.status = 0 ∧
        ((∃ rest, s.host = .reset :: rest) ∨ ∃ w, nextCommand s = some w ∧ decode w = .ok .sysSreset))

/-- 40_system R155: a command other than INIT to an UNINIT unit. An array command also reports that no element completed
(60_exceptions R404, log 15). -/
def Obligations.UninitializedUnit : Prop :=
  ∀ (i : Instr) (s : State), Settled s → i.unit ≠ 0 → i.op ≠ 0 → unitState s i.unit.toNat = 0 →
    exec i s = .next (raiseFault i.unit i.op .notInitialized { s with res := if IsArray i then 0 else s.res })

/-- 40_system R156: DISPOSE on a DISPOSED coder completes with no effect, and every command but INIT and DISPOSE faults; an array
command then reports that no element completed (60_exceptions R404, log 15). -/
def Obligations.DisposedCoder : Prop :=
  ∀ (i : Instr) (s : State), Settled s → 3 ≤ i.unit.toNat → i.op ≠ 0 → unitState s i.unit.toNat = 2 →
    (i.op = 7 → exec i s = .next (complete i.unit i.op 0 s)) ∧
    (i.op ≠ 7 →
      exec i s = .next (raiseFault i.unit i.op .coderDisposed { s with res := if IsArray i then 0 else s.res }))

/-- 40_system R157: every command but INIT to a FAILED coder faults; an array command then reports that no element completed
(60_exceptions R404, log 15). -/
def Obligations.FailedCoder : Prop :=
  ∀ (i : Instr) (s : State), Settled s → 3 ≤ i.unit.toNat → i.op ≠ 0 → unitState s i.unit.toNat = 3 →
    exec i s = .next (raiseFault i.unit i.op .coderFailed { s with res := if IsArray i then 0 else s.res })

/-! ### SYS -/

/-- 40_system R151: `RES <- 0`. -/
def Obligations.NopCommand : Prop := ∀ s : State, Settled s → exec .sysNop s = .next (complete 0 0 0 s)

/-- 40_system R153, 10_state R33: the state of each unit, 0 for U = 0 and U = 15, and nothing changes. -/
def Obligations.UnitStateReport : Prop :=
  ∀ s : State, Settled s →
    (∀ u, u = 0 ∨ u = 15 → exec (.sysUstate u) s = .next (complete 0 2 0 s)) ∧
    (∀ p ∈ [(1, s.bsw.ustate), (2, s.bsr.ustate)], ∀ v : Word64,
      (p.2 = .uninit → v = 0) → (p.2 = .opened → v = 1) → (p.2 = .closed → v = 2) →
        exec (.sysUstate p.1) s = .next (complete 0 2 v s)) ∧
    (∀ p ∈ [(3, s.bee.ustate), (4, s.bed.ustate), (5, s.fpe.ustate), (6, s.fpd.ustate), (7, s.rce.ustate), (8, s.rcd.ustate),
        (9, s.hfe.ustate), (10, s.hfd.ustate), (11, s.ege.ustate), (12, s.egd.ustate), (13, s.rge.ustate), (14, s.rgd.ustate)],
      ∀ v : Word64, (p.2 = .uninit → v = 0) → (p.2 = .ready → v = 1) → (p.2 = .disposed → v = 2) → (p.2 = .failed → v = 3) →
        exec (.sysUstate p.1) s = .next (complete 0 2 v s))

/-! ### The writer -/

/-- 41_bitstream R181, R189. -/
def Obligations.WriterInitAndCount : Prop :=
  ∀ s : State, Settled s →
    exec .bswInit s = .next (complete 1 0 0
      { s with bsw := { ustate := .opened, bits := [], written := 0, delivered := 0, closed := false } }) ∧
    (s.bsw.ustate ≠ .uninit → exec .bswWritten s = .next (complete 1 5 s.bsw.written s)) ∧
    (s.bsw.ustate = .uninit → exec .bswWritten s = .next (raiseFault 1 5 .notInitialized s))

/-- 41_bitstream R184, R185 (with R190's hand-off in `appended`): the field's bits, most significant first, join the writer's; or
the first fault that applies. -/
def Obligations.WriteFields : Prop :=
  ∀ s : State, Settled s →
    (CanWrite s [s.arg0.getLsbD 0] → exec .bswWrbit s = .next (complete 1 1 1 (appended s [s.arg0.getLsbD 0]))) ∧
    (∀ n, 1 ≤ n → n ≤ 64 → CanWrite s (bitsOf s.arg0.toNat n) →
      exec (.bswWrbits n) s = .next (complete 1 2 (BitVec.ofNat 64 n) (appended s (bitsOf s.arg0.toNat n)))) ∧
    (s.bsw.ustate = .uninit → exec .bswWrbit s = .next (raiseFault 1 1 .notInitialized s) ∧
      ∀ n, exec (.bswWrbits n) s = .next (raiseFault 1 2 .notInitialized s)) ∧
    (s.bsw.ustate ≠ .uninit → s.bsw.closed = true → exec .bswWrbit s = .next (raiseFault 1 1 .streamClosed s) ∧
      ∀ n, exec (.bswWrbits n) s = .next (raiseFault 1 2 .streamClosed s)) ∧
    (s.bsw.ustate ≠ .uninit → s.bsw.closed = false → ∀ n, n < 1 ∨ 64 < n →
      exec (.bswWrbits n) s = .next (raiseFault 1 2 .invalidArgument s))

/-- 41_bitstream R186: the complete bytes go to SINK; a partial byte is kept. -/
def Obligations.FlushWriter : Prop :=
  ∀ s : State, Settled s →
    (WriterOpen s → s.bsw.delivered ≤ s.bsw.bits.length / 8 → SinkTakes s (s.bsw.bits.length / 8 - s.bsw.delivered) →
      exec .bswFlush s = .next (complete 1 3 0
        { s with
          sink := s.sink ++ outBytes s.bsw.bits s.bsw.delivered (s.bsw.bits.length / 8 - s.bsw.delivered)
          sinkRoom := s.sinkRoom - (s.bsw.bits.length / 8 - s.bsw.delivered)
          bsw.delivered := s.bsw.bits.length / 8 })) ∧
    (s.bsw.ustate ≠ .uninit → s.bsw.closed = true → exec .bswFlush s = .next (complete 1 3 0 s)) ∧
    (s.bsw.ustate = .uninit → exec .bswFlush s = .next (raiseFault 1 3 .notInitialized s))

/-- 41_bitstream R188: the partial byte is completed with 0 bits, 0xFF bytes pad to a multiple of eight, and all of it goes to
SINK; a second CLOSE does nothing. -/
def Obligations.CloseWriter : Prop :=
  ∀ s : State, Settled s →
    (∀ nbytes pad, nbytes = (s.bsw.bits.length + 7) / 8 → pad = (8 - nbytes % 8) % 8 → WriterOpen s →
      s.bsw.delivered ≤ nbytes → SinkTakes s (nbytes - s.bsw.delivered + pad) →
        exec .bswClose s = .next (complete 1 4 0
          { s with
            sink := s.sink ++ outBytes s.bsw.bits s.bsw.delivered (nbytes - s.bsw.delivered) ++ List.replicate pad 0xFF
            sinkRoom := s.sinkRoom - (nbytes - s.bsw.delivered + pad)
            bsw.delivered := nbytes + pad
            bsw.closed := true
            bsw.ustate := .closed })) ∧
    (s.bsw.ustate ≠ .uninit → s.bsw.closed = true → exec .bswClose s = .next (complete 1 4 0 s)) ∧
    (s.bsw.ustate = .uninit → exec .bswClose s = .next (raiseFault 1 4 .notInitialized s))

/-- 41_bitstream R183, R188, 20_memory R85: which bit each bit of the output is, and how long the output is. -/
def Obligations.OutputBytes : Prop :=
  (∀ (w : List Bool) (a n k : Nat), k < n → (outBytes w a n)[k]? = some (outByte w (a + k))) ∧
  (∀ (w : List Bool) (k j : Nat), j < 8 → (outByte w k).getLsbD (7 - j) = w.getD (8 * k + j) false) ∧
  (∀ b : Writer, b.closed = false → (writerOutput b).length = (b.bits.length + 7) / 8) ∧
  (∀ b : Writer, b.closed = true →
    (writerOutput b).length % 8 = 0 ∧ (writerOutput b).length < (b.bits.length + 7) / 8 + 8 ∧
      ∀ x ∈ (writerOutput b).drop ((b.bits.length + 7) / 8), x = 0xFF) ∧
  (∀ b : Writer, b.bits <+: bytesBits (writerOutput b))

/-- 41_bitstream R191, 20_memory R83, 70_reset_and_hazards R453: every byte that a command hands over is one that the host accepts;
where the host accepts too few a FLUSH or a WRBITS waits, with what it took handed over and everything else as at the command's start
(log 5); and a command that waits at SINK, run again with room for `m` bytes more, does what it would have done with that room at its
start. -/
def Obligations.SinkStall : Prop :=
  (∀ (i : Instr) (s t : State), exec i s = .next t →
    (∃ bs, t.sink = s.sink ++ bs ∧ bs.length + t.sinkRoom = s.sinkRoom) ∧ (t.waiting = some .sink → t.sinkRoom = 0)) ∧
  (∀ s : State, Settled s → WriterOpen s →
    (∀ bs, bs = outBytes s.bsw.bits s.bsw.delivered (s.bsw.bits.length / 8 - s.bsw.delivered) → s.sinkRoom < bs.length →
      exec .bswFlush s = .next { s with
        sink := s.sink ++ bs.take s.sinkRoom, sinkRoom := 0, waiting := some .sink, sent := s.sinkRoom } ∧
      ∀ m, bs.length - s.sinkRoom ≤ m →
        exec .bswFlush
            { s with sink := s.sink ++ bs.take s.sinkRoom, sinkRoom := m, waiting := some .sink, sent := s.sinkRoom } =
          .next (complete 1 3 0 { s with
            sink := s.sink ++ bs, sinkRoom := m - (bs.length - s.sinkRoom), bsw.delivered := s.bsw.delivered + bs.length })) ∧
    (∀ n bs, 1 ≤ n → n ≤ 64 → s.bsw.bits.length + n < 2 ^ 64 →
      bs = outBytes (s.bsw.bits ++ bitsOf s.arg0.toNat n) s.bsw.delivered (fullBuffers s (s.bsw.bits.length + n)) →
        s.sinkRoom < bs.length →
          exec (.bswWrbits n) s = .next { s with
            sink := s.sink ++ bs.take s.sinkRoom, sinkRoom := 0, waiting := some .sink, sent := s.sinkRoom })) ∧
  (∀ (i : Instr) (s t : State) (m : Nat), Settled s → exec i s = .next t → t.waiting = some .sink →
    exec i { t with sinkRoom := m } = exec i { s with sinkRoom := s.sinkRoom + m })

/-! ### The reader -/

/-- 41_bitstream R195, R199, and the pseudocode of R198. That a CLOSE leaves the bytes not consumed in `bsr.R`, where R198 says that
they are dropped, is the model's choice (log 16): no command can read them any more. -/
def Obligations.ReaderInitCloseAndCount : Prop :=
  ∀ s : State, Settled s →
    exec .bsrInit s = .next (complete 2 0 0
      { s with bsr := { ustate := .opened, bytes := [], read := 0, ended := false, closed := false } }) ∧
    (s.bsr.ustate ≠ .uninit →
      exec .bsrClose s = .next (complete 2 4 0 { s with bsr.closed := true, bsr.ustate := .closed }) ∧
      exec .bsrRead s = .next (complete 2 5 s.bsr.read s)) ∧
    (s.bsr.ustate = .uninit →
      exec .bsrClose s = .next (raiseFault 2 4 .notInitialized s) ∧
      exec .bsrRead s = .next (raiseFault 2 5 .notInitialized s))

/-- 41_bitstream R196, R197: a field of the reader's next bits; END, after which no bit is consumed but the bytes before it are
taken; or the first fault that applies. -/
def Obligations.ReadFields : Prop :=
  ∀ s : State, Settled s →
    (∀ b, CanRead s [b] → exec .bsrRdbit s = .next (complete 2 1 (if b then 1 else 0) (consumed s 1))) ∧
    (∀ w, 1 ≤ w.length → w.length ≤ 64 → CanRead s w →
      exec (.bsrRdbits w.length) s = .next (complete 2 2 (BitVec.ofNat 64 (bitsValue w)) (consumed s w.length))) ∧
    (ReaderOpen s → (s.bsr.ended = true ∨ .finish ∈ s.source) →
      ((unread s).length < 1 → exec .bsrRdbit s = .next (raiseFault 2 1 .endOfStream (metEnd s))) ∧
      ∀ n, 1 ≤ n → n ≤ 64 → (unread s).length < n →
        exec (.bsrRdbits n) s = .next (raiseFault 2 2 .endOfStream (metEnd s))) ∧
    (s.bsr.ustate = .uninit → exec .bsrRdbit s = .next (raiseFault 2 1 .notInitialized s) ∧
      ∀ n, exec (.bsrRdbits n) s = .next (raiseFault 2 2 .notInitialized s)) ∧
    (s.bsr.ustate ≠ .uninit → s.bsr.closed = true → exec .bsrRdbit s = .next (raiseFault 2 1 .streamClosed s) ∧
      ∀ n, exec (.bsrRdbits n) s = .next (raiseFault 2 2 .streamClosed s)) ∧
    (s.bsr.ustate ≠ .uninit → s.bsr.closed = false → ∀ n, n < 1 ∨ 64 < n →
      exec (.bsrRdbits n) s = .next (raiseFault 2 2 .invalidArgument s))

/-- 20_memory R84, 70_reset_and_hazards R453. A read that needs more bytes than the host has answered waits, with every register as
at its start (log 5). Of every command, in any state with none in progress: where it waits on SOURCE, the host has answered no END, all
its answers are set aside, every register is as at the start, and with more answers it does what it would have done with all of them
there at once; where it does not wait, it does the same with any later answers behind, which stay; and where it would meet END behind
the answers, it waits for as long as the END is not there. -/
def Obligations.ReadWaits : Prop :=
  (∀ s : State, Settled s → ReaderOpen s → s.bsr.ended = false → .finish ∉ s.source →
    ((unread s).length < 1 →
      exec .bsrRdbit s = .next { s with waiting := some .source, source := [], taken := s.source }) ∧
    ∀ n, 1 ≤ n → n ≤ 64 → (unread s).length < n →
      exec (.bsrRdbits n) s = .next { s with waiting := some .source, source := [], taken := s.source } ∧
      ∀ more, exec (.bsrRdbits n) { s with waiting := some .source, source := more, taken := s.source } =
        exec (.bsrRdbits n) { s with source := s.source ++ more }) ∧
  (∀ (i : Instr) (s t : State), Settled s → exec i s = .next t → t.waiting = some .source →
    s.bsr.ended = false ∧ .finish ∉ s.source ∧
    t = { s with waiting := some .source, source := [], taken := s.source, data := t.data } ∧ (¬IsDecode i → t.data = s.data) ∧
    ∀ more, exec i { t with source := more } = exec i { s with source := s.source ++ more }) ∧
  (∀ (i : Instr) (s t : State) (more : List SourceAnswer), Settled s → exec i s = .next t → t.waiting ≠ some .source →
    exec i { s with source := s.source ++ more } = .next { t with source := t.source ++ more }) ∧
  (∀ (i : Instr) (s t : State), Settled s → s.bsr.ended = false → .finish ∉ s.source →
    exec i { s with source := s.source ++ [.finish] } = .next t → t.bsr.ended = true →
      exec i s = .next { s with waiting := some .source, source := [], taken := s.source, data := t.data })

/-- 41_bitstream R201: the reader of a closed writer's output gives back each field at the bit position where it was written. -/
def Obligations.FieldsComeBack : Prop :=
  ∀ (s : State) (b : Writer) (v n : Nat) (before behind : List Bool), Settled s → ReaderOpen s → 1 ≤ n → n ≤ 64 →
    b.closed = true → b.bits = before ++ bitsOf v n ++ behind → incoming s = writerOutput b →
      s.bsr.read.toNat = before.length → before.length + n < 2 ^ 64 →
        exec (.bsrRdbits n) s = .next (complete 2 2 (BitVec.ofNat 64 (v % 2 ^ n)) (consumed s n))

/-! ### INIT, DISPOSE and descriptors -/

/-- 40_system R154 (42_binary_coder R226, R235; 43_fpaq R261, R265; 44_range_coder R291, R295; 45_huffman R320; 46_golomb R364,
R370): in any unit state, an INIT with legal parameters sets every register of its unit and nothing else; with an illegal one it
faults and changes nothing. -/
def Obligations.CoderInit : Prop :=
  ∀ s : State, Settled s →
    (let p : Predictor := { ctx := 1, n0 := Table.fill 512 0, n1 := Table.fill 512 0 }
     let e : BinaryEncoder := { ustate := .ready, low := 0, high := 0xFFFFFFFF, pred := p, kind := 0 }
     let d : BinaryDecoder :=
       { ustate := .ready, low := 0, high := 0xFFFFFFFF, current := 0, seeded := false, pred := p, kind := 0 }
     exec (.beeInit 0) s = .next (complete 3 0 0 { s with bee := e }) ∧
     exec (.bedInit 0) s = .next (complete 4 0 0 { s with bed := d }) ∧
     exec (.fpeInit 0) s = .next (complete 5 0 0 { s with fpe := e }) ∧
     exec (.fpdInit 0) s = .next (complete 6 0 0 { s with fpd := d })) ∧
    (∀ k, k ≠ 0 →
      exec (.beeInit k) s = .next (raiseFault 3 0 .invalidArgument s) ∧
      exec (.bedInit k) s = .next (raiseFault 4 0 .invalidArgument s) ∧
      exec (.fpeInit k) s = .next (raiseFault 5 0 .invalidArgument s) ∧
      exec (.fpdInit k) s = .next (raiseFault 6 0 .invalidArgument s)) ∧
    (∀ c : BitVec 32, c = s.arg0.setWidth 32 →
      (c = 0 ∨ (1024 ≤ c.toInt ∧ c.toInt ≤ 2 ^ 30) →
        exec .rceInit s = .next (complete 7 0 0 { s with rce :=
          { ustate := .ready, low := 0, range := BitVec.ofNat 56 (2 ^ 56 - 1), freq := Table.ofFn 258 (BitVec.ofNat 64),
            chunkSize := c } }) ∧
        exec .rcdInit s = .next (complete 8 0 0 { s with rcd :=
          { ustate := .ready, low := 0, range := BitVec.ofNat 56 (2 ^ 56 - 1), code := 0, seeded := false,
            freq := Table.ofFn 258 (BitVec.ofNat 64), chunkSize := c } })) ∧
      (¬(c = 0 ∨ (1024 ≤ c.toInt ∧ c.toInt ≤ 2 ^ 30)) →
        exec .rceInit s = .next (raiseFault 7 0 .invalidArgument s) ∧
        exec .rcdInit s = .next (raiseFault 8 0 .invalidArgument s))) ∧
    (let h : Huffman := { ustate := .ready, sizes := Table.fill 256 0, codes := Table.fill 256 0 }
     exec .hfeInit s = .next (complete 9 0 0 { s with hfe := h }) ∧
     exec .hfdInit s = .next (complete 10 0 0 { s with hfd := h })) ∧
    (∀ g : Bool,
      exec (.egeInit g) s = .next (complete 11 0 0 { s with ege := { ustate := .ready, signed := g } }) ∧
      exec (.egdInit g) s = .next (complete 12 0 0 { s with egd := { ustate := .ready, signed := g } }) ∧
      (∀ l, 1 ≤ l → l ≤ 7 →
        exec (.rgeInit g l) s =
          .next (complete 13 0 0 { s with rge := { ustate := .ready, signed := g, logBase := BitVec.ofNat 3 l } }) ∧
        exec (.rgdInit g l) s =
          .next (complete 14 0 0 { s with rgd := { ustate := .ready, signed := g, logBase := BitVec.ofNat 3 l } })) ∧
      (∀ l, l < 1 ∨ 7 < l →
        exec (.rgeInit g l) s = .next (raiseFault 13 0 .invalidArgument s) ∧
        exec (.rgdInit g l) s = .next (raiseFault 14 0 .invalidArgument s)))

/-- 40_system R164, 42_binary_coder R232, 43_fpaq R264, 44_range_coder R290: a READY coder's DISPOSE. Nine coders write nothing;
BEE and FPE write their end and flush the writer; RCE writes its seven bytes and does not flush. Where a write of the flush faults
the coder stays as it was. -/
def Obligations.DisposeCommands : Prop :=
  ∀ s : State, Settled s →
    (s.bed.ustate = .ready → exec .bedDispose s = .next (complete 4 7 0 { s with bed.ustate := .disposed })) ∧
    (s.fpd.ustate = .ready → exec .fpdDispose s = .next (complete 6 7 0 { s with fpd.ustate := .disposed })) ∧
    (s.rcd.ustate = .ready → exec .rcdDispose s = .next (complete 8 7 0 { s with rcd.ustate := .disposed })) ∧
    (s.hfe.ustate = .ready → exec .hfeDispose s = .next (complete 9 7 0 { s with hfe.ustate := .disposed })) ∧
    (s.hfd.ustate = .ready → exec .hfdDispose s = .next (complete 10 7 0 { s with hfd.ustate := .disposed })) ∧
    (s.ege.ustate = .ready → exec .egeDispose s = .next (complete 11 7 0 { s with ege.ustate := .disposed })) ∧
    (s.egd.ustate = .ready → exec .egdDispose s = .next (complete 12 7 0 { s with egd.ustate := .disposed })) ∧
    (s.rge.ustate = .ready → exec .rgeDispose s = .next (complete 13 7 0 { s with rge.ustate := .disposed })) ∧
    (s.rgd.ustate = .ready → exec .rgdDispose s = .next (complete 14 7 0 { s with rgd.ustate := .disposed })) ∧
    (s.bee.ustate = .ready →
      (CanWriteAndFlush s (flushBits s.bee.low) →
        exec .beeDispose s =
          .next (complete 3 7 0 { flushed (appended s (flushBits s.bee.low)) with bee.ustate := .disposed })) ∧
      (s.bsw.ustate = .uninit → exec .beeDispose s = .next (raiseFault 3 7 .notInitialized s)) ∧
      (s.bsw.ustate ≠ .uninit → s.bsw.closed = true → exec .beeDispose s = .next (raiseFault 3 7 .streamClosed s))) ∧
    (s.fpe.ustate = .ready →
      (∀ out e', CodedBits s.fpe [true] out e' → CanWriteAndFlush s (bytesBits out ++ flushBits e'.low) →
        exec .fpeDispose s =
          .next (complete 5 7 0
            { flushed (appended s (bytesBits out ++ flushBits e'.low)) with fpe := { e' with ustate := .disposed } })) ∧
      (s.bsw.ustate = .uninit → exec .fpeDispose s = .next (raiseFault 5 7 .notInitialized s)) ∧
      (s.bsw.ustate ≠ .uninit → s.bsw.closed = true → exec .fpeDispose s = .next (raiseFault 5 7 .streamClosed s))) ∧
    (s.rce.ustate = .ready →
      (CanWrite s (bytesBits (registerBytes56 s.rce.low)) →
        exec .rceDispose s =
          .next (complete 7 7 0 { appended s (bytesBits (registerBytes56 s.rce.low)) with rce.ustate := .disposed })) ∧
      (s.bsw.ustate = .uninit → exec .rceDispose s = .next (raiseFault 7 7 .notInitialized s)) ∧
      (s.bsw.ustate ≠ .uninit → s.bsw.closed = true → exec .rceDispose s = .next (raiseFault 7 7 .streamClosed s)))

/-- 40_system R159: an ENCODE or DECODE with a descriptor that fails a check answers -1 and changes nothing else. -/
def Obligations.InvalidDescriptor : Prop :=
  ∀ (i : Instr) (s : State), Settled s → IsArray i → unitState s i.unit.toNat = 1 →
    (s.arg1.toInt < 0 ∨ s.arg2.toInt < 0 ∨ s.arg3.toInt < 0 ∨ s.arg1.toInt < s.arg2.toInt + s.arg3.toInt ∨
      (s.params.dataSize : Int) < ((s.arg0.setWidth 32).toNat : Int) + s.arg1.toInt) →
        exec i s = .next (complete i.unit i.op (BitVec.ofInt 64 (-1)) s)

/-! ### The binary coders -/

/-- 42_binary_coder R223, R224: the probability, and what `update` makes of the context and of every counter. -/
def Obligations.PredictorStep : Prop :=
  ∀ (p : Predictor) (bit : Bool) (c n0 n1 a0 a1 : Nat) (halve : Bool), PredictorLegal p →
    c = p.ctx.toNat → n0 = (p.n0.get c 0).toNat → n1 = (p.n1.get c 0).toNat →
      a0 = (if bit then n0 else n0 + 1) → a1 = (if bit then n1 + 1 else n1) →
        (halve = true ↔ (bit = true ∧ 2000 < a1) ∨ (bit = false ∧ 2000 < a0)) →
          p.probability = (n1 + 1) * 2 ^ 12 / (n0 + n1 + 2) ∧
          ((p.update bit).n0.get c 0).toNat = (if halve then a0 / 2 else a0) ∧
          ((p.update bit).n1.get c 0).toNat = (if halve then a1 / 2 else a1) ∧
          (∀ x, x ≠ c → (p.update bit).n0.get x 0 = p.n0.get x 0 ∧ (p.update bit).n1.get x 0 = p.n1.get x 0) ∧
          (p.update bit).ctx.toNat =
            (if 512 ≤ 2 * c + (if bit then 1 else 0) then 1 else 2 * c + (if bit then 1 else 0))

/-- 42_binary_coder R225, R227: the bounds of the probability, and the exact split point inside the interval. -/
def Obligations.SplitPointInside : Prop :=
  (∀ p : Predictor, PredictorLegal p → 2 ≤ p.probability ∧ p.probability ≤ 4093) ∧
  (∀ (low high : BitVec 32) (p : Nat), low.toNat < high.toNat → p ≤ 4095 →
    (splitPoint low high p).toNat = low.toNat + (high.toNat - low.toNat) / 2 ^ 12 * p ∧
      low.toNat ≤ (splitPoint low high p).toNat ∧ (splitPoint low high p).toNat < high.toNat)

/-- 42_binary_coder R229 to R231, 43_fpaq R262, R263: ENCBIT, ENCBYTE and ENCODE of BEE and FPE write the bytes that leave the
interval, and leave the coder at the end of its steps; every bit sequence has such steps, at most four bytes a bit (R228). Where the
writer is not open (40_system R158), the first element that writes a byte raises the writer's fault and is undone whole
(60_exceptions R402): the elements before it, which wrote nothing, stay, and the `RES` of an ENCODE is their number (R404). -/
def Obligations.BinaryEncode : Prop :=
  (∀ (e : BinaryEncoder) (bits : List Bool), ∃ out e', CodedBits e bits out e' ∧ out.length ≤ 4 * bits.length) ∧
  (∀ (s : State) (out : List Byte) (e' : BinaryEncoder), Settled s → s.bee.ustate = .ready → CanWrite s (bytesBits out) →
    (CodedBits s.bee [s.arg0.getLsbD 0] out e' →
      exec .beeEncbit s = .next (complete 3 1 0 { appended s (bytesBits out) with bee := e' })) ∧
    (CodedBits s.bee (byteBits (s.arg0.setWidth 8)) out e' →
      exec .beeEncbyte s = .next (complete 3 2 0 { appended s (bytesBits out) with bee := e' })) ∧
    (descriptorValid s → CodedBits s.bee (bytesBits (arrayBytes s (arrayStart s) (arrayLength s))) out e' →
      exec .beeEncode s =
        .next (complete 3 6 (BitVec.ofNat 64 (arrayLength s)) { appended s (bytesBits out) with bee := e' }))) ∧
  (∀ (s : State) (out : List Byte) (e' : BinaryEncoder), Settled s → s.fpe.ustate = .ready → CanWrite s (bytesBits out) →
    (CodedBits s.fpe (continuedBits [s.arg0.setWidth 8]) out e' →
      exec .fpeEncbyte s = .next (complete 5 2 0 { appended s (bytesBits out) with fpe := e' })) ∧
    (descriptorValid s → CodedBits s.fpe (continuedBits (arrayBytes s (arrayStart s) (arrayLength s))) out e' →
      exec .fpeEncode s =
        .next (complete 5 6 (BitVec.ofNat 64 (arrayLength s)) { appended s (bytesBits out) with fpe := e' }))) ∧
  (∀ (s : State) (c : FaultCode) (out : List Byte) (e e' : BinaryEncoder), Settled s → WriterFault s c → out ≠ [] →
    (s.bee.ustate = .ready →
      (CodedBits s.bee [s.arg0.getLsbD 0] out e' → exec .beeEncbit s = .next (raiseFault 3 1 c s)) ∧
      (CodedBits s.bee (byteBits (s.arg0.setWidth 8)) out e' → exec .beeEncbyte s = .next (raiseFault 3 2 c s)) ∧
      (∀ before b behind, descriptorValid s → arrayBytes s (arrayStart s) (arrayLength s) = before ++ b :: behind →
        CodedBits s.bee (bytesBits before) [] e → CodedBits e (byteBits b) out e' →
          exec .beeEncode s =
            .next (raiseFault 3 6 c { s with bee := e, res := BitVec.ofNat 64 before.length }))) ∧
    (s.fpe.ustate = .ready →
      (CodedBits s.fpe (continuedBits [s.arg0.setWidth 8]) out e' → exec .fpeEncbyte s = .next (raiseFault 5 2 c s)) ∧
      (∀ before b behind, descriptorValid s → arrayBytes s (arrayStart s) (arrayLength s) = before ++ b :: behind →
        CodedBits s.fpe (continuedBits before) [] e → CodedBits e (continuedBits [b]) out e' →
          exec .fpeEncode s =
            .next (raiseFault 5 6 c { s with fpe := e, res := BitVec.ofNat 64 before.length }))))

/-- 42_binary_coder R236 to R240, 43_fpaq R266, R267, R270: DECBIT, DECBYTE and DECODE of BED and FPD read the bytes that their
steps read, and answer or store what they decode. FPD.DECODE ends at the end marker, or, with `len` bytes stored, behind one more
continue bit. -/
def Obligations.BinaryDecode : Prop :=
  (∀ (s : State) (used : List Byte) (d' : BinaryDecoder), Settled s → s.bed.ustate = .ready → CanRead s (bytesBits used) →
    (∀ b, DecodedBits s.bed used [b] d' →
      exec .bedDecbit s =
        .next (complete 4 1 (if b then 1 else 0) { consumed s (8 * used.length) with bed := d' })) ∧
    (∀ b, DecodedBits s.bed used (byteBits b) d' →
      exec .bedDecbyte s = .next (complete 4 2 (b.setWidth 64) { consumed s (8 * used.length) with bed := d' })) ∧
    (∀ bs, descriptorValid s → bs.length = arrayLength s → DecodedBits s.bed used (bytesBits bs) d' →
      exec .bedDecode s =
        .next (complete 4 6 (BitVec.ofNat 64 bs.length)
          { consumed s (8 * used.length) with bed := d', data := writeBytes s.data (arrayStart s) bs }))) ∧
  (∀ (s : State) (used : List Byte) (d' : BinaryDecoder), Settled s → s.fpd.ustate = .ready → CanRead s (bytesBits used) →
    (∀ b, DecodedBits s.fpd used [b] d' →
      exec .fpdDecbit s =
        .next (complete 6 1 (if b then 1 else 0) { consumed s (8 * used.length) with fpd := d' })) ∧
    (∀ b, DecodedBits s.fpd used (byteBits b) d' →
      exec .fpdDecbyte s = .next (complete 6 2 (b.setWidth 64) { consumed s (8 * used.length) with fpd := d' })) ∧
    (∀ bs last, descriptorValid s →
      ((last = true ∧ bs.length ≤ arrayLength s) ∨ (last = false ∧ bs.length = arrayLength s)) →
        DecodedBits s.fpd used (continuedBits bs ++ [last]) d' →
          exec .fpdDecode s =
            .next (complete 6 6 (BitVec.ofNat 64 bs.length)
              { consumed s (8 * used.length) with fpd := d', data := writeBytes s.data (arrayStart s) bs })))

/-- 40_system R163, 60_exceptions R405: a BED.DECODE whose stream ends after fewer bytes than asked for completes, with the number
of bytes it wrote in `RES`; the element that met END has no effect but the bytes it took (20_memory R84, 41_bitstream R197). That
the END itself stays remembered in `bsr.ended` after the undone element is the model's choice (log 8). The other decoders' ends are in
`DecodersMeetEnd`. -/
def Obligations.DecodeShortCount : Prop :=
  ∀ (s : State) (used bs : List Byte) (d' : BinaryDecoder), Settled s → s.bed.ustate = .ready → descriptorValid s →
    ReaderOpen s → 8 * used.length + s.bsr.read.toNat + 320 < 2 ^ 64 → bytesBits used <+: unread s →
      (s.bsr.ended = true ∨ .finish ∈ s.source) → DecodedBits s.bed used (bytesBits bs) d' → bs.length < arrayLength s →
        (∀ b used' d'', DecodedBits d' used' (byteBits b) d'' → ¬bytesBits used' <+: unread (consumed s (8 * used.length))) →
          exec .bedDecode s =
            .next (complete 4 6 (BitVec.ofNat 64 bs.length)
              { metEnd (consumed s (8 * used.length)) with bed := d', data := writeBytes s.data (arrayStart s) bs })

/-- 42_binary_coder R242, R243: a decoder in step with the encoder, fed what the encoder wrote and the four bytes of its `low`,
decodes the same bits and ends in step with it; 24 bits of the flush stay unread. -/
def Obligations.BinaryRoundTrip : Prop :=
  ∀ (e e' : BinaryEncoder) (bits : List Bool) (out : List Byte) (d : BinaryDecoder), e.low.toNat < e.high.toNat → bits ≠ [] →
    CodedBits e bits out e' → d.seeded = false → d.low = e.low → d.high = e.high → d.pred = e.pred →
      DecodedBits d (out ++ registerBytes e'.low) bits
        { d with low := e'.low, high := e'.high, current := e'.low, seeded := true, pred := e'.pred }

/-- 10_state R37, R41, R42: every step keeps the intervals and predictors of BEE, BED, FPE and FPD legal. -/
def Obligations.BinaryCodersStayLegal : Prop := ∀ s t : State, BinaryLegal s → step s = .next t → BinaryLegal t

/-! ### The range coders -/

/-- 44_range_coder R284 to R287, R289: ENCBYTE and ENCODE of RCE write the bytes that leave `low`, and leave the coder at the end of
its steps, the table made flat at each chunk start of an ENCODE. Where the writer is not open (40_system R158), the first element that
shifts a byte raises the writer's fault and is undone whole (60_exceptions R402): the elements before it, which wrote nothing, and the
chunk start's flat table stay, and the `RES` of an ENCODE is their number (R404). -/
def Obligations.RangeEncode : Prop :=
  (∀ (s : State) (out : List Byte) (e' : RangeEncoder), Settled s → s.rce.ustate = .ready → CanWrite s (bytesBits out) →
    (RangeCoded s.params.clamp none 0 s.rce [(s.arg0.setWidth 8 : Byte).toNat] out e' →
      exec .rceEncbyte s = .next (complete 7 2 0 { appended s (bytesBits out) with rce := e' })) ∧
    (descriptorValid s →
      RangeCoded s.params.clamp (chunkLength s.rce.chunkSize (arrayLength s)) 0 s.rce
          ((arrayBytes s (arrayStart s) (arrayLength s)).map BitVec.toNat) out e' →
        exec .rceEncode s =
          .next (complete 7 6 (BitVec.ofNat 64 (arrayLength s)) { appended s (bytesBits out) with rce := e' }))) ∧
  (∀ (s : State) (c : FaultCode), Settled s → s.rce.ustate = .ready → WriterFault s c →
    (∀ sym, sym = (s.arg0.setWidth 8 : Byte).toNat → stepWidth s.rce.range s.rce.freq ≠ 0 →
      RangeShifts s.params.clamp (stepLow56 s.rce.low s.rce.range s.rce.freq sym) (stepRange56 s.rce.range s.rce.freq sym) →
        exec .rceEncbyte s = .next (raiseFault 7 2 c s)) ∧
    (∀ before b behind sz e t, descriptorValid s → arrayBytes s (arrayStart s) (arrayLength s) = before ++ b :: behind →
      sz = chunkLength s.rce.chunkSize (arrayLength s) →
        RangeCoded s.params.clamp sz 0 s.rce (before.map BitVec.toNat) [] e → t = tableAt sz before.length e.freq →
          stepWidth e.range t ≠ 0 →
            RangeShifts s.params.clamp (stepLow56 e.low e.range t b.toNat) (stepRange56 e.range t b.toNat) →
              exec .rceEncode s =
                .next (raiseFault 7 6 c
                  { s with rce := { e with freq := t }, res := BitVec.ofNat 64 before.length })))

/-- 44_range_coder R296 to R298: DECBYTE and DECODE of RCD read the bytes that their steps read, and answer or store the symbols;
the EOF symbol 256 is answered by DECBYTE and ends a DECODE. A count without a symbol is `INVALID_STREAM`, of a DECBYTE or of an
element of a DECODE, seeded or not: the element is undone, the seed with it, and the `RES` of a DECODE is the number of elements before
it (60_exceptions R402, R404). That the bytes of the seed stay in `bsr.R` then is the model's reading (log 17). -/
def Obligations.RangeDecode : Prop :=
  (∀ (s : State) (used : List Byte) (d' : RangeDecoder), Settled s → s.rcd.ustate = .ready → CanRead s (bytesBits used) →
    (∀ sym, RangeDecoded s.params.clamp none 0 s.rcd used [sym] d' →
      exec .rcdDecbyte s =
        .next (complete 8 2 (BitVec.ofNat 64 sym) { consumed s (8 * used.length) with rcd := d' })) ∧
    (∀ bs : List Byte, descriptorValid s →
      ((bs.length = arrayLength s ∧
          RangeDecoded s.params.clamp (chunkLength s.rcd.chunkSize (arrayLength s)) 0 s.rcd used (bs.map BitVec.toNat) d') ∨
        (bs.length < arrayLength s ∧
          RangeDecoded s.params.clamp (chunkLength s.rcd.chunkSize (arrayLength s)) 0 s.rcd used
            (bs.map BitVec.toNat ++ [256]) d')) →
        exec .rcdDecode s =
          .next (complete 8 6 (BitVec.ofNat 64 bs.length)
            { consumed s (8 * used.length) with rcd := d', data := writeBytes s.data (arrayStart s) bs }))) ∧
  (∀ (s : State) (seed : List Byte) (d : RangeDecoder), Settled s → s.rcd.ustate = .ready → RangeSeeds s.rcd seed d →
    CanRead s (bytesBits seed) → stepWidth d.range d.freq ≠ 0 → freqAt d.freq 257 ≤ stepCount d d.freq →
      exec .rcdDecbyte s = .next (raiseFault 8 2 .invalidStream (takenBack s (8 * seed.length)))) ∧
  (∀ (s : State) (bs used seed : List Byte) (sz : Option Nat) (d d' : RangeDecoder) (t : FreqTable), Settled s →
    s.rcd.ustate = .ready → descriptorValid s → bs.length < arrayLength s →
      sz = chunkLength s.rcd.chunkSize (arrayLength s) →
        RangeDecoded s.params.clamp sz 0 s.rcd used (bs.map BitVec.toNat) d → t = tableAt sz bs.length d.freq →
          RangeSeeds d seed d' → CanRead s (bytesBits (used ++ seed)) → stepWidth d'.range t ≠ 0 →
            freqAt t 257 ≤ stepCount d' t →
              exec .rcdDecode s =
                .next (raiseFault 8 6 .invalidStream
                  { takenBack (consumed s (8 * used.length)) (8 * seed.length) with
                    rcd := { d with freq := t }, data := writeBytes s.data (arrayStart s) bs,
                    res := BitVec.ofNat 64 bs.length }))

/-- 44_range_coder R288, 60_exceptions R402, R404. A step of width 0 makes the unit FAILED and is undone otherwise, also inside an
ENCODE or DECODE, where the elements before it, their number in `RES` and a chunk start's flat table stay; an unseeded decoder's seed
is undone too (log 18), but for the bytes it took (log 17). Where the clamp gives 0 the unit is FAILED, what the element wrote or read
before stays, and `low`, `range` and `freq`, and the decoder's `code`, are left open (log 7). -/
def Obligations.DegenerateRange : Prop :=
  (∀ s : State, Settled s → s.rce.ustate = .ready →
    (stepWidth s.rce.range s.rce.freq = 0 →
      exec .rceEncbyte s = .next (raiseFault 7 2 .rangeDegenerate { s with rce.ustate := .failed })) ∧
    (∀ sym out, sym = (s.arg0.setWidth 8 : Byte).toNat → stepWidth s.rce.range s.rce.freq ≠ 0 →
      RangeSticks s.params.clamp (stepLow56 s.rce.low s.rce.range s.rce.freq sym) (stepRange56 s.rce.range s.rce.freq sym) out →
        CanWrite s (bytesBits out) →
          ∃ low range freq,
            exec .rceEncbyte s = .next (raiseFault 7 2 .rangeDegenerate
              { appended s (bytesBits out) with
                freeCount := s.freeCount + 1
                rce := { ustate := .failed, low := low, range := range, freq := freq, chunkSize := s.rce.chunkSize } })) ∧
    (∀ before b behind out sz e t, descriptorValid s →
      arrayBytes s (arrayStart s) (arrayLength s) = before ++ b :: behind →
        sz = chunkLength s.rce.chunkSize (arrayLength s) →
          RangeCoded s.params.clamp sz 0 s.rce (before.map BitVec.toNat) out e → t = tableAt sz before.length e.freq →
            (stepWidth e.range t = 0 → CanWrite s (bytesBits out) →
              exec .rceEncode s = .next (raiseFault 7 6 .rangeDegenerate
                { appended s (bytesBits out) with
                  rce := { e with freq := t, ustate := .failed }, res := BitVec.ofNat 64 before.length })) ∧
            (∀ out', stepWidth e.range t ≠ 0 →
              RangeSticks s.params.clamp (stepLow56 e.low e.range t b.toNat) (stepRange56 e.range t b.toNat) out' →
                CanWrite s (bytesBits (out ++ out')) →
                  ∃ low range freq,
                    exec .rceEncode s = .next (raiseFault 7 6 .rangeDegenerate
                      { appended s (bytesBits (out ++ out')) with
                        freeCount := s.freeCount + 1
                        rce := { ustate := .failed, low := low, range := range, freq := freq, chunkSize := s.rce.chunkSize }
                        res := BitVec.ofNat 64 before.length })))) ∧
  (∀ s : State, Settled s → s.rcd.ustate = .ready →
    (∀ seed d, RangeSeeds s.rcd seed d →
      (stepWidth d.range d.freq = 0 → CanRead s (bytesBits seed) →
        exec .rcdDecbyte s = .next (raiseFault 8 2 .rangeDegenerate
          { takenBack s (8 * seed.length) with rcd.ustate := .failed })) ∧
      (∀ sym out used, stepWidth d.range d.freq ≠ 0 → SymbolOf d.freq (stepCount d d.freq) sym → sym ≤ 256 →
        RangeSticks s.params.clamp (stepLow56 d.low d.range d.freq sym) (stepRange56 d.range d.freq sym) out →
          used.length = out.length → CanRead s (bytesBits (seed ++ used)) →
            ∃ low range code freq,
              exec .rcdDecbyte s = .next (raiseFault 8 2 .rangeDegenerate
                { consumed s (8 * (seed ++ used).length) with
                  freeCount := s.freeCount + 1
                  rcd :=
                    { ustate := .failed, low := low, range := range, code := code, seeded := true, freq := freq,
                      chunkSize := s.rcd.chunkSize } }))) ∧
    (∀ bs used seed sz d d' t, descriptorValid s → bs.length < arrayLength s →
      sz = chunkLength s.rcd.chunkSize (arrayLength s) →
        RangeDecoded s.params.clamp sz 0 s.rcd used (bs.map BitVec.toNat) d → t = tableAt sz bs.length d.freq →
          RangeSeeds d seed d' →
            (stepWidth d'.range t = 0 → CanRead s (bytesBits (used ++ seed)) →
              exec .rcdDecode s = .next (raiseFault 8 6 .rangeDegenerate
                { takenBack (consumed s (8 * used.length)) (8 * seed.length) with
                  rcd := { d with freq := t, ustate := .failed }, data := writeBytes s.data (arrayStart s) bs
                  res := BitVec.ofNat 64 bs.length })) ∧
            (∀ sym out used', stepWidth d'.range t ≠ 0 → SymbolOf t (stepCount d' t) sym → sym ≤ 256 →
              RangeSticks s.params.clamp (stepLow56 d'.low d'.range t sym) (stepRange56 d'.range t sym) out →
                used'.length = out.length → CanRead s (bytesBits (used ++ seed ++ used')) →
                  ∃ low range code freq,
                    exec .rcdDecode s = .next (raiseFault 8 6 .rangeDegenerate
                      { consumed s (8 * (used ++ seed ++ used').length) with
                        freeCount := s.freeCount + 1
                        rcd :=
                          { ustate := .failed, low := low, range := range, code := code, seeded := true, freq := freq,
                            chunkSize := s.rcd.chunkSize }
                        data := writeBytes s.data (arrayStart s) bs
                        res := BitVec.ofNat 64 bs.length }))))

/-- 44_range_coder R283, R285: the flat table, and the table after a symbol. -/
def Obligations.FrequencyTables : Prop :=
  (∀ v ≤ 257, freqAt flatTable v = v) ∧
  (∀ (t : FreqTable) (sym v : Nat), v ≤ 257 → freqAt t v < 2 ^ 64 - 1 →
    freqAt (countSymbol t sym) v = if sym + 1 ≤ v then freqAt t v + 1 else freqAt t v)

/-- 44_range_coder R300, R301: a decoder in step with the encoder, fed what the encoder wrote and the seven bytes of its `low`,
decodes the same symbols, with the same chunks, and ends in step with it; it reads the stream to its last bit. -/
def Obligations.RangeRoundTrip : Prop :=
  ∀ (clamp : ClampMask) (sz : Option Nat) (i : Nat) (e e' : RangeEncoder) (syms : List Nat) (out : List Byte) (d : RangeDecoder),
    RangeLegal e.low e.range e.freq → syms ≠ [] → (∀ sym ∈ syms, sym ≤ 256) → RangeCoded clamp sz i e syms out e' →
      d.seeded = false → d.low = e.low → d.range = e.range → d.freq = e.freq →
        RangeDecoded clamp sz i d (out ++ registerBytes56 e'.low) syms
          { d with low := e'.low, range := e'.range, code := e'.low, seeded := true, freq := e'.freq }

/-- 10_state R45, 44_range_coder R284: every step keeps the registers and tables of RCE and RCD legal, unless they are FAILED. -/
def Obligations.RangeCodersStayLegal : Prop := ∀ s t : State, RangesLegal s → step s = .next t → RangesLegal t

/-! ### The Huffman coders -/

/-- 45_huffman R328 to R330: ENCODE writes the header of its lengths, at the least width that holds them, then the code words of
the bytes, and keeps the tables. Where the writer is not open (40_system R158) the header element raises the writer's fault: the tables
stay as they were and `RES` is 0 (R330, 60_exceptions R402, R404). -/
def Obligations.HuffmanEncode : Prop :=
  (∀ (s : State) (xs : List Byte) (sizes : Table (BitVec 8) 256) (w : Nat) (bits : List Bool),
    Settled s → s.hfe.ustate = .ready → descriptorValid s → xs = arrayBytes s (arrayStart s) (arrayLength s) →
      sizes = buildSizes xs → (∀ sym < 256, sizeAt sizes sym < 2 ^ w) →
        (∀ w', (∀ sym < 256, sizeAt sizes sym < 2 ^ w') → w ≤ w') →
          bits = headerBits w (lengthsOf sizes) ++ codeWords sizes (canonicalCodes sizes) xs → CanWrite s bits →
            exec .hfeEncode s =
              .next (complete 9 6 (BitVec.ofNat 64 (arrayLength s))
                { appended s bits with hfe.sizes := sizes, hfe.codes := canonicalCodes sizes })) ∧
  (∀ (s : State) (c : FaultCode), Settled s → s.hfe.ustate = .ready → descriptorValid s → WriterFault s c →
    exec .hfeEncode s = .next (raiseFault 9 6 c { s with res := 0 }))

/-- 45_huffman R340 to R343: DECODE reads a header that R342 allows, rebuilds the codes, and stores the bytes whose code words
follow. `INVALID_STREAM` is raised, with the header undone and `RES` 0, by a header of any other lengths, those above 255 among them,
by one of no symbol with bytes to decode (that the header is undone then is the model's choice, log 9), and by a canonical flag of 0;
and, with the symbols before it stored and counted, by the bit 1 where a one-symbol table has only the code word 0. That the bytes an
undone element took stay in `bsr.R` is the model's choice (log 17). -/
def Obligations.HuffmanDecode : Prop :=
  (∀ (s : State) (sizes : Table (BitVec 8) 256) (w : Nat) (xs : List Byte) (bits : List Bool), Settled s →
    s.hfd.ustate = .ready → descriptorValid s → w < 32 → (∀ sym < 256, sizeAt sizes sym < 2 ^ w) →
      LengthsAllowed (lengthsOf sizes) → Uniquely sizes (canonicalCodes sizes) → (∀ b ∈ xs, sizeAt sizes b.toNat ≠ 0) →
        bits = headerBits w (lengthsOf sizes) ++ codeWords sizes (canonicalCodes sizes) xs →
          (xs.length = arrayLength s → CanRead s bits →
            exec .hfdDecode s =
              .next (complete 10 6 (BitVec.ofNat 64 xs.length)
                { consumed s bits.length with
                  hfd.sizes := sizes, hfd.codes := canonicalCodes sizes, data := writeBytes s.data (arrayStart s) xs })) ∧
          (∀ b : Byte, xs.length < arrayLength s → (∀ sym < 256, sizeAt sizes sym ≠ 0 ↔ sym = b.toNat) →
            CanRead s (bits ++ [true]) →
              exec .hfdDecode s =
                .next (raiseFault 10 6 .invalidStream
                  { takenBack (consumed s bits.length) 1 with
                    hfd.sizes := sizes, hfd.codes := canonicalCodes sizes, data := writeBytes s.data (arrayStart s) xs,
                    res := BitVec.ofNat 64 xs.length }))) ∧
  (∀ (s : State) (w : Nat) (lengths : List Nat), Settled s → s.hfd.ustate = .ready → descriptorValid s → w < 32 →
    lengths.length = 256 → (∀ l ∈ lengths, l < 2 ^ w) →
      (¬LengthsAllowed lengths ∨ (0 < arrayLength s ∧ ∀ l ∈ lengths, l = 0)) → CanRead s (headerBits w lengths) →
        exec .hfdDecode s =
          .next (raiseFault 10 6 .invalidStream { takenBack s (headerBits w lengths).length with res := 0 })) ∧
  (∀ s : State, Settled s → s.hfd.ustate = .ready → descriptorValid s → CanRead s [false] →
    exec .hfdDecode s = .next (raiseFault 10 6 .invalidStream { takenBack s 1 with res := 0 }))

/-- 45_huffman R321 to R323: the leaves are the present symbols with their counts, in ascending order of count and then symbol, and
the tree is the one the two-queue merge of them ends in. With two or more of them, the length of a symbol is the depth of its leaf in
that tree (R324). -/
def Obligations.HuffmanTreeBuild : Prop :=
  (∀ (xs : List Byte) (f sym : Nat), (f, HuffmanTree.leaf sym) ∈ sortedLeaves xs ↔
    sym < 256 ∧ f = xs.countP (fun b => b.toNat = sym) ∧ f ≠ 0) ∧
  (∀ xs : List Byte, (sortedLeaves xs).Pairwise fun a b =>
    ∃ x y, a.2 = .leaf x ∧ b.2 = .leaf y ∧ (a.1 < b.1 ∨ (a.1 = b.1 ∧ x < y))) ∧
  (∀ (leaves : List WeightedTree) (tree : HuffmanTree), leaves ≠ [] →
    (mergeQueues leaves.length leaves [] = some tree ↔ Merges leaves [] tree)) ∧
  (∀ (xs : List Byte) (tree : HuffmanTree) (sym d : Nat), 2 ≤ (sortedLeaves xs).length → Merges (sortedLeaves xs) [] tree →
    (LeafAt tree sym d ↔ sym < 256 ∧ d ≠ 0 ∧ sizeAt (buildSizes xs) sym = d))

/-- 45_huffman R324, R327: a symbol has a length exactly when it occurs; one present symbol has length 1; and with two or more the
Kraft sum is 1. -/
def Obligations.KraftEquality : Prop :=
  ∀ xs : List Byte,
    (∀ b : Byte, sizeAt (buildSizes xs) b.toNat ≠ 0 ↔ b ∈ xs) ∧
    (∀ b : Byte, xs ≠ [] → (∀ x ∈ xs, x = b) → sizeAt (buildSizes xs) b.toNat = 1) ∧
    ((∃ a ∈ xs, ∃ b ∈ xs, a ≠ b) →
      (((List.range 256).filter fun sym => sizeAt (buildSizes xs) sym ≠ 0).map fun sym =>
        ((1 : ℚ) / 2) ^ sizeAt (buildSizes xs) sym).sum = 1)

/-- 45_huffman R326, R327: for lengths that R342 allows, every canonical code fits its length and no code word begins another. -/
def Obligations.CanonicalCodesAreUnique : Prop :=
  ∀ sizes : Table (BitVec 8) 256, LengthsAllowed (lengthsOf sizes) → Uniquely sizes (canonicalCodes sizes)

/-- 45_huffman R326: which code each present symbol gets, the longest codes first and symbols in order: the place of the symbol's
code word among all, counted in words of the longest length `m`; absent symbols have code 0. -/
def Obligations.CanonicalCodeValues : Prop :=
  ∀ (sizes : Table (BitVec 8) 256) (m : Nat), LengthsAllowed (lengthsOf sizes) → (∀ sym < 256, sizeAt sizes sym ≤ m) →
    (∀ sym < 256, sizeAt sizes sym = 0 → codeAt (canonicalCodes sizes) sym = 0) ∧
    (∀ sym < 256, sizeAt sizes sym ≠ 0 →
      codeAt (canonicalCodes sizes) sym =
        (((List.range 256).filter fun t =>
            sizeAt sizes t ≠ 0 ∧ (sizeAt sizes sym < sizeAt sizes t ∨ (sizeAt sizes t = sizeAt sizes sym ∧ t < sym))).map
          fun t => 2 ^ (m - sizeAt sizes t)).sum / 2 ^ (m - sizeAt sizes sym))

/-! ### The Golomb coders -/

/-- 46_golomb R360, R363, R365, R367, R373, R374, R377: ENCBYTE and ENCODE of EGE and RGE write the codes of the bytes' magnitudes
and signs. Where the writer is not open (40_system R158) the first byte raises the writer's fault, and `RES` of an ENCODE is 0
(60_exceptions R402, R404). -/
def Obligations.GolombEncode : Prop :=
  (∀ (s : State) (code : Byte → List Bool), Settled s →
    (s.ege.ustate = .ready →
      (∀ v : Byte, code v =
        if s.ege.signed then expGolombBits true v.toInt.natAbs (v.toInt < 0) else expGolombBits false v.toNat false) →
        (CanWrite s (code (s.arg0.setWidth 8)) →
          exec .egeEncbyte s = .next (complete 11 2 0 (appended s (code (s.arg0.setWidth 8))))) ∧
        (∀ xs, xs = arrayBytes s (arrayStart s) (arrayLength s) → descriptorValid s → CanWrite s (xs.flatMap code) →
          exec .egeEncode s = .next (complete 11 6 (BitVec.ofNat 64 (arrayLength s)) (appended s (xs.flatMap code))))) ∧
    (s.rge.ustate = .ready → s.rge.logBase ≠ 0 →
      (∀ v : Byte, code v =
        if s.rge.signed then riceBits true s.rge.logBase.toNat v.toInt.natAbs (v.toInt < 0)
        else riceBits false s.rge.logBase.toNat v.toNat false) →
        (CanWrite s (code (s.arg0.setWidth 8)) →
          exec .rgeEncbyte s = .next (complete 13 2 0 (appended s (code (s.arg0.setWidth 8))))) ∧
        (∀ xs, xs = arrayBytes s (arrayStart s) (arrayLength s) → descriptorValid s → CanWrite s (xs.flatMap code) →
          exec .rgeEncode s = .next (complete 13 6 (BitVec.ofNat 64 (arrayLength s)) (appended s (xs.flatMap code)))))) ∧
  (∀ (s : State) (c : FaultCode), Settled s → WriterFault s c →
    (s.ege.ustate = .ready →
      exec .egeEncbyte s = .next (raiseFault 11 2 c s) ∧
      (descriptorValid s → 0 < arrayLength s → exec .egeEncode s = .next (raiseFault 11 6 c { s with res := 0 }))) ∧
    (s.rge.ustate = .ready →
      exec .rgeEncbyte s = .next (raiseFault 13 2 c s) ∧
      (descriptorValid s → 0 < arrayLength s → exec .rgeEncode s = .next (raiseFault 13 6 c { s with res := 0 }))))

/-- 46_golomb R362, R366, R367, R376, R377: DECBYTE and DECODE of EGD and RGD read the code of a magnitude, however large, and its
sign, and answer or store the byte. -/
def Obligations.GolombDecode : Prop :=
  ∀ s : State, Settled s →
    (s.egd.ustate = .ready →
      (∀ m neg w, w = expGolombBits s.egd.signed m neg → CanRead s w →
        exec .egdDecbyte s =
          .next (complete 12 2 ((golombByte s.egd.signed m neg).setWidth 64) (consumed s w.length))) ∧
      (∀ (ms : List (Nat × Bool)) (w : List Bool) (bs : List Byte), descriptorValid s → ms.length = arrayLength s →
        w = ms.flatMap (fun x => expGolombBits s.egd.signed x.1 x.2) →
          bs = ms.map (fun x => golombByte s.egd.signed x.1 x.2) → CanRead s w →
            exec .egdDecode s =
              .next (complete 12 6 (BitVec.ofNat 64 bs.length)
                { consumed s w.length with data := writeBytes s.data (arrayStart s) bs }))) ∧
    (s.rgd.ustate = .ready →
      (∀ m neg w, w = riceBits s.rgd.signed s.rgd.logBase.toNat m neg → CanRead s w →
        exec .rgdDecbyte s =
          .next (complete 14 2 ((golombByte s.rgd.signed m neg).setWidth 64) (consumed s w.length))) ∧
      (∀ (ms : List (Nat × Bool)) (w : List Bool) (bs : List Byte), descriptorValid s → ms.length = arrayLength s →
        w = ms.flatMap (fun x => riceBits s.rgd.signed s.rgd.logBase.toNat x.1 x.2) →
          bs = ms.map (fun x => golombByte s.rgd.signed x.1 x.2) → CanRead s w →
            exec .rgdDecode s =
              .next (complete 14 6 (BitVec.ofNat 64 bs.length)
                { consumed s w.length with data := writeBytes s.data (arrayStart s) bs })))

/-- 46_golomb R380: a byte comes back from its magnitude and sign in both modes, and every code delimits itself: codes that begin
the same bits decode to the same byte and leave the same rest. -/
def Obligations.GolombCodesComeBack : Prop :=
  (∀ (signed : Bool) (v : Byte), golombByte signed (magnitude signed v) (isNegative signed v) = v) ∧
  (∀ (signed : Bool) (m m' : Nat) (neg neg' : Bool) (rest rest' : List Bool),
    expGolombBits signed m neg ++ rest = expGolombBits signed m' neg' ++ rest' →
      golombByte signed m neg = golombByte signed m' neg' ∧ rest = rest') ∧
  (∀ (signed : Bool) (k m m' : Nat) (neg neg' : Bool) (rest rest' : List Bool),
    riceBits signed k m neg ++ rest = riceBits signed k m' neg' ++ rest' →
      golombByte signed m neg = golombByte signed m' neg' ∧ rest = rest')

/-! ### Frames and whole-machine rules -/

/-- 10_state R30, R38, 20_memory R81, 40_system R158: whatever a command but SRESET does, it does to its own unit, the encoders'
writer or the decoders' reader, and, for a DECODE, the bytes of its array; no command writes `CMD` or an `ARG` register. -/
def Obligations.CommandFrame : Prop :=
  (∀ (m : Memory) (a : Nat) (bs : List Byte) (x : Nat), Memory.lookup (writeBytes m a bs) x =
    if a ≤ x ∧ x < a + bs.length then bs[x - a]? else Memory.lookup m x) ∧
  (∀ (i : Instr) (s t : State), exec i s = .next t → i ≠ .sysSreset →
    (t.params = s.params ∧ t.cmd = s.cmd ∧ t.arg0 = s.arg0 ∧ t.arg1 = s.arg1 ∧ t.arg2 = s.arg2 ∧ t.arg3 = s.arg3 ∧
      t.host = s.host ∧ t.hostRead = s.hostRead) ∧
    (i.unit ≠ 3 → t.bee = s.bee) ∧ (i.unit ≠ 4 → t.bed = s.bed) ∧ (i.unit ≠ 5 → t.fpe = s.fpe) ∧ (i.unit ≠ 6 → t.fpd = s.fpd) ∧
    (i.unit ≠ 7 → t.rce = s.rce) ∧ (i.unit ≠ 8 → t.rcd = s.rcd) ∧ (i.unit ≠ 9 → t.hfe = s.hfe) ∧
    (i.unit ≠ 10 → t.hfd = s.hfd) ∧ (i.unit ≠ 11 → t.ege = s.ege) ∧ (i.unit ≠ 12 → t.egd = s.egd) ∧
    (i.unit ≠ 13 → t.rge = s.rge) ∧ (i.unit ≠ 14 → t.rgd = s.rgd) ∧
    (i.unit.toNat % 2 = 0 → t.bsw = s.bsw ∧ t.sink = s.sink ∧ t.sinkRoom = s.sinkRoom) ∧
    (i.unit.toNat % 2 = 1 ∨ i.unit = 0 → t.bsr = s.bsr ∧ t.source = s.taken ++ s.source) ∧
    (¬IsDecode i → t.data = s.data) ∧
    (∀ a, ¬(arrayStart s ≤ a ∧ a < arrayStart s + arrayLength s) → dataByte t a = dataByte s a))

/-- 20_memory R80: every step keeps DATA in its canonical form and inside `DATA_SIZE`. -/
def Obligations.DataStaysLegal : Prop := ∀ s t : State, DataLegal s → step s = .next t → DataLegal t

/-- 20_memory R83, 41_bitstream R183, R190: every step keeps what SINK was handed since `BSW.INIT` the beginning of the writer's
output; while a command waits at SINK, of the output it began with and the bytes it has handed over (log 5). -/
def Obligations.SinkCarriesTheOutput : Prop := ∀ s t : State, SinkCarriesOutput s → step s = .next t → SinkCarriesOutput t

/-- 10_state R33, R36, 41_bitstream R200: every step keeps the streams' flags in agreement with their unit states, keeps the bytes
of every bit read in the reader, and lets only the range coders fail. -/
def Obligations.UnitsStayLegal : Prop := ∀ s t : State, UnitsLegal s → step s = .next t → UnitsLegal t

/-- The invariants above hold of the reset state (10_state R52), with its ports as the model has them (log 3). -/
def Obligations.ResetMeetsTheInvariants : Prop :=
  StatusLegal State.reset ∧ BinaryLegal State.reset ∧ RangesLegal State.reset ∧ DataLegal State.reset ∧
    SinkCarriesOutput State.reset ∧ UnitsLegal State.reset ∧ Settled State.reset

/-! ### Decoders whose stream ends, or is not there -/

/-- 40_system R163, 60_exceptions R405, 42_binary_coder R238 to R240, 43_fpaq R270, 44_range_coder R296, R298, 45_huffman R340,
46_golomb R366, R367, R376, R377: where the stream ends inside an element, a DECBIT or DECBYTE raises `END_OF_STREAM` with the element
undone, and a DECODE completes with the number of bytes it wrote; FPD's continue bit before an undone byte stays consumed, RCD's flat
table of a chunk start stays, and END in the header of HFD gives 0. The bytes before the END are taken (20_memory R84). That the END
stays remembered in `bsr.ended` is the model's choice (log 8). -/
def Obligations.DecodersMeetEnd : Prop :=
  (∀ (s : State) (d' : BinaryDecoder) (used : List Byte) (b : Bool), Settled s → EndsInside s [] (bytesBits used) →
    (s.bed.ustate = .ready → DecodedBits s.bed used [b] d' →
      exec .bedDecbit s = .next (raiseFault 4 1 .endOfStream (metEnd s))) ∧
    (s.fpd.ustate = .ready → DecodedBits s.fpd used [b] d' →
      exec .fpdDecbit s = .next (raiseFault 6 1 .endOfStream (metEnd s)))) ∧
  (∀ (s : State) (d' : BinaryDecoder) (used : List Byte) (b : Byte), Settled s → EndsInside s [] (bytesBits used) →
    (s.bed.ustate = .ready → DecodedBits s.bed used (byteBits b) d' →
      exec .bedDecbyte s = .next (raiseFault 4 2 .endOfStream (metEnd s))) ∧
    (s.fpd.ustate = .ready → DecodedBits s.fpd used (byteBits b) d' →
      exec .fpdDecbyte s = .next (raiseFault 6 2 .endOfStream (metEnd s)))) ∧
  (∀ (s : State) (d d' : BinaryDecoder) (bs used used' : List Byte) (stored : List Bool), Settled s → s.fpd.ustate = .ready →
    descriptorValid s → EndsInside s (bytesBits used) (bytesBits used') → DecodedBits s.fpd used stored d →
      ((stored = continuedBits bs ∧ bs.length ≤ arrayLength s ∧ ∃ c, DecodedBits d used' [c] d') ∨
        (stored = continuedBits bs ++ [false] ∧ bs.length < arrayLength s ∧ ∃ b, DecodedBits d used' (byteBits b) d')) →
          exec .fpdDecode s =
            .next (complete 6 6 (BitVec.ofNat 64 bs.length)
              { metEnd (consumed s (8 * used.length)) with fpd := d, data := writeBytes s.data (arrayStart s) bs })) ∧
  (∀ (s : State) (d d' : RangeDecoder) (bs used used' : List Byte) (sym : Nat) (sz : Option Nat), Settled s →
    s.rcd.ustate = .ready →
      (EndsInside s [] (bytesBits used') → RangeDecoded s.params.clamp none 0 s.rcd used' [sym] d' →
        exec .rcdDecbyte s = .next (raiseFault 8 2 .endOfStream (metEnd s))) ∧
      (descriptorValid s → bs.length < arrayLength s → sz = chunkLength s.rcd.chunkSize (arrayLength s) →
        EndsInside s (bytesBits used) (bytesBits used') →
          RangeDecoded s.params.clamp sz 0 s.rcd used (bs.map BitVec.toNat) d →
            RangeDecoded s.params.clamp sz bs.length d used' [sym] d' →
              exec .rcdDecode s =
                .next (complete 8 6 (BitVec.ofNat 64 bs.length)
                  { metEnd (consumed s (8 * used.length)) with
                    rcd := { d with freq := tableAt sz bs.length d.freq }, data := writeBytes s.data (arrayStart s) bs }))) ∧
  (∀ (s : State) (w : Nat), Settled s → s.hfd.ustate = .ready → descriptorValid s → w < 32 →
    (∀ lengths : List Nat, lengths.length = 256 → (∀ l ∈ lengths, l < 2 ^ w) → EndsInside s [] (headerBits w lengths) →
      exec .hfdDecode s = .next (complete 10 6 0 (metEnd s))) ∧
    (∀ (sizes : Table (BitVec 8) 256) (xs : List Byte) (b : Byte) (bits : List Bool), (∀ sym < 256, sizeAt sizes sym < 2 ^ w) →
      LengthsAllowed (lengthsOf sizes) → Uniquely sizes (canonicalCodes sizes) → xs.length < arrayLength s →
        (∀ x ∈ b :: xs, sizeAt sizes x.toNat ≠ 0) →
          bits = headerBits w (lengthsOf sizes) ++ codeWords sizes (canonicalCodes sizes) xs →
            EndsInside s bits (codeWord sizes (canonicalCodes sizes) b.toNat) →
              exec .hfdDecode s =
                .next (complete 10 6 (BitVec.ofNat 64 xs.length)
                  { metEnd (consumed s bits.length) with
                    hfd.sizes := sizes, hfd.codes := canonicalCodes sizes, data := writeBytes s.data (arrayStart s) xs }))) ∧
  (∀ (s : State) (ms : List (Nat × Bool)) (m : Nat) (neg : Bool) (bs : List Byte), Settled s → ms.length = bs.length →
    (∀ code : Nat × Bool → List Bool, s.egd.ustate = .ready → code = (fun x => expGolombBits s.egd.signed x.1 x.2) →
      (EndsInside s [] (code (m, neg)) → exec .egdDecbyte s = .next (raiseFault 12 2 .endOfStream (metEnd s))) ∧
      (descriptorValid s → bs.length < arrayLength s → bs = ms.map (fun x => golombByte s.egd.signed x.1 x.2) →
        EndsInside s (ms.flatMap code) (code (m, neg)) →
          exec .egdDecode s =
            .next (complete 12 6 (BitVec.ofNat 64 bs.length)
              { metEnd (consumed s (ms.flatMap code).length) with data := writeBytes s.data (arrayStart s) bs }))) ∧
    (∀ code : Nat × Bool → List Bool, s.rgd.ustate = .ready →
      code = (fun x => riceBits s.rgd.signed s.rgd.logBase.toNat x.1 x.2) →
        (EndsInside s [] (code (m, neg)) → exec .rgdDecbyte s = .next (raiseFault 14 2 .endOfStream (metEnd s))) ∧
        (descriptorValid s → bs.length < arrayLength s → bs = ms.map (fun x => golombByte s.rgd.signed x.1 x.2) →
          EndsInside s (ms.flatMap code) (code (m, neg)) →
            exec .rgdDecode s =
              .next (complete 14 6 (BitVec.ofNat 64 bs.length)
                { metEnd (consumed s (ms.flatMap code).length) with data := writeBytes s.data (arrayStart s) bs }))))

/-- 40_system R158, 60_exceptions R402, R404: where the reader is not open, the first element that reads a byte raises the reader's
fault and is undone whole; the elements before it, which read nothing, stay, and the `RES` of a DECODE is the number of bytes they
stored. -/
def Obligations.DecodersWithoutAReader : Prop :=
  (∀ (s : State) (c : FaultCode) (d d' : BinaryDecoder) (used bs : List Byte), Settled s → ReaderFault s c → used ≠ [] →
    (∀ b : Bool,
      (s.bed.ustate = .ready → DecodedBits s.bed used [b] d' → exec .bedDecbit s = .next (raiseFault 4 1 c s)) ∧
      (s.fpd.ustate = .ready → DecodedBits s.fpd used [b] d' → exec .fpdDecbit s = .next (raiseFault 6 1 c s))) ∧
    (∀ b : Byte,
      (s.bed.ustate = .ready → DecodedBits s.bed used (byteBits b) d' → exec .bedDecbyte s = .next (raiseFault 4 2 c s)) ∧
      (s.fpd.ustate = .ready → DecodedBits s.fpd used (byteBits b) d' → exec .fpdDecbyte s = .next (raiseFault 6 2 c s)) ∧
      (s.bed.ustate = .ready → descriptorValid s → bs.length < arrayLength s → DecodedBits s.bed [] (bytesBits bs) d →
        DecodedBits d used (byteBits b) d' →
          exec .bedDecode s =
            .next (raiseFault 4 6 c
              { s with
                bed := d, data := writeBytes s.data (arrayStart s) bs, res := BitVec.ofNat 64 bs.length }))) ∧
    (∀ stored, s.fpd.ustate = .ready → descriptorValid s → DecodedBits s.fpd [] stored d →
      ((stored = continuedBits bs ∧ bs.length ≤ arrayLength s ∧ ∃ b, DecodedBits d used [b] d') ∨
        (stored = continuedBits bs ++ [false] ∧ bs.length < arrayLength s ∧ ∃ b, DecodedBits d used (byteBits b) d')) →
          exec .fpdDecode s =
            .next (raiseFault 6 6 c
              { s with
                fpd := d, data := writeBytes s.data (arrayStart s) bs, res := BitVec.ofNat 64 bs.length }))) ∧
  (∀ (s : State) (c : FaultCode) (d d' : RangeDecoder) (used bs : List Byte) (sym : Nat) (sz : Option Nat), Settled s →
    ReaderFault s c → used ≠ [] → s.rcd.ustate = .ready →
      (RangeDecoded s.params.clamp none 0 s.rcd used [sym] d' → exec .rcdDecbyte s = .next (raiseFault 8 2 c s)) ∧
      (descriptorValid s → bs.length < arrayLength s → sz = chunkLength s.rcd.chunkSize (arrayLength s) →
        RangeDecoded s.params.clamp sz 0 s.rcd [] (bs.map BitVec.toNat) d →
          RangeDecoded s.params.clamp sz bs.length d used [sym] d' →
            exec .rcdDecode s =
              .next (raiseFault 8 6 c
                { s with
                  rcd := { d with freq := tableAt sz bs.length d.freq }, data := writeBytes s.data (arrayStart s) bs
                  res := BitVec.ofNat 64 bs.length }))) ∧
  (∀ (s : State) (c : FaultCode), Settled s → ReaderFault s c →
    (s.hfd.ustate = .ready → descriptorValid s → exec .hfdDecode s = .next (raiseFault 10 6 c { s with res := 0 })) ∧
    (s.egd.ustate = .ready →
      exec .egdDecbyte s = .next (raiseFault 12 2 c s) ∧
      (descriptorValid s → 0 < arrayLength s → exec .egdDecode s = .next (raiseFault 12 6 c { s with res := 0 }))) ∧
    (s.rgd.ustate = .ready →
      exec .rgdDecbyte s = .next (raiseFault 14 2 c s) ∧
      (descriptorValid s → 0 < arrayLength s → exec .rgdDecode s = .next (raiseFault 14 6 c { s with res := 0 }))))
end

