-- ==== Sys2Proof/Laws/Run.lean ====
section
/-! SUPPORT. What the combinators of Ops.lean do: sequencing, the unit-state checks, elements, and the end of a command. -/

namespace Sys2Proof.Machine

variable {α β : Type} {s t : State}

/-! ### Sequencing -/

@[simp] theorem pure_run (v : α) (s : State) : (pure v : M α) s = .ok v s := rfl

theorem bind_run (x : M α) (f : α → M β) (s : State) :
    (x >>= f) s = match x s with
      | .ok v t => f v t
      | .error e t => .error e t := by
  cases h : x s <;> simp [bind, EStateM.bind, h]

theorem bind_ok {x : M α} {v : α} (h : x s = .ok v t) (f : α → M β) : (x >>= f) s = f v t := by rw [bind_run, h]

theorem bind_error {x : M α} {e : Stop} (h : x s = .error e t) (f : α → M β) : (x >>= f) s = .error e t := by rw [bind_run, h]

/-- Where a sequence answers, both parts did. -/
theorem bind_eq_ok {x : M α} {f : α → M β} {v : β} : (x >>= f) s = .ok v t ↔ ∃ u r, x s = .ok u r ∧ f u r = .ok v t := by
  rw [bind_run]; cases h : x s <;> simp

/-- Where a sequence stops, its first part did, or it answered and the second did. -/
theorem bind_eq_error {x : M α} {f : α → M β} {e : Stop} :
    (x >>= f) s = .error e t ↔ x s = .error e t ∨ ∃ u r, x s = .ok u r ∧ f u r = .error e t := by
  rw [bind_run]; cases h : x s <;> simp

@[simp] theorem map_run (g : α → β) (x : M α) (s : State) :
    (g <$> x) s = match x s with
      | .ok v t => .ok (g v) t
      | .error e t => .error e t := by
  cases h : x s <;> simp [Functor.map, EStateM.map, h]

@[simp] theorem raise_run (c : FaultCode) (s : State) : (raise c : M α) s = .error (.fault c) s := rfl

@[simp] theorem look_run (f : State → M α) (s : State) : look f s = f s s := rfl

@[simp] theorem update_run (f : State → State) (s : State) : update f s = .ok () (f s) := rfl

@[simp] theorem memRead_run (a : Nat) (s : State) : memRead a s = .ok (dataByte s a) s := rfl

@[simp] theorem memWrite_run (a : Nat) (v : Byte) (s : State) :
    memWrite a v s = .ok () { s with data := Memory.insert s.data a v } := rfl

/-! ### Unit-state checks -/

@[simp] theorem onReady_ready (body : M α) : onReady .ready body = body := rfl

@[simp] theorem onReady_uninit (body : M α) : onReady .uninit body = raise .notInitialized := rfl

@[simp] theorem onReady_disposed (body : M α) : onReady .disposed body = raise .coderDisposed := rfl

@[simp] theorem onReady_failed (body : M α) : onReady .failed body = raise .coderFailed := rfl

@[simp] theorem onStream_uninit (body : M α) : onStream .uninit body = raise .notInitialized := rfl

theorem onStream_bound {u : StreamState} (h : u ≠ .uninit) (body : M α) : onStream u body = body := by simp [onStream, h]

/-! ### Elements -/

theorem element_ok {body : M α} {v : α} (h : body s = .ok v t) : element body s = .ok v t := by simp [element, h]

theorem element_fault {body : M α} {c : FaultCode} (h : body s = .error (.fault c) t) :
    element body s = .error (.fault c) (undo s t) := by simp [element, h]

theorem element_clamped {body : M α} (h : body s = .error .clamped t) : element body s = .error .clamped t := by
  simp [element, h]

theorem element_wait {body : M α} {p : Port} (h : body s = .error (.wait p) t) : element body s = .error (.wait p) t := by
  simp [element, h]

theorem elementAt_ok {body : M α} {v : α} (n : Nat) (h : body s = .ok v t) : elementAt n body s = .ok v t := by
  simp [elementAt, element_ok h]

theorem elementAt_fault {body : M α} {c : FaultCode} (n : Nat) (h : body s = .error (.fault c) t) :
    elementAt n body s = .error (.fault c) { undo s t with res := BitVec.ofNat 64 n } := by
  simp [elementAt, element_fault h]

theorem elementOrEnd_ok {body : M α} {v : α} (n : Nat) (h : body s = .ok v t) : elementOrEnd n body s = .ok (some v) t := by
  simp [elementOrEnd, elementAt_ok n h]

theorem elementOrEnd_end {body : M α} (n : Nat) (h : body s = .error (.fault .endOfStream) t) :
    elementOrEnd n body s = .ok none { undo s t with res := BitVec.ofNat 64 n } := by
  simp [elementOrEnd, elementAt_fault n h]

theorem elementOrEnd_fault {body : M α} {c : FaultCode} (n : Nat) (h : body s = .error (.fault c) t) (hc : c ≠ .endOfStream) :
    elementOrEnd n body s = .error (.fault c) { undo s t with res := BitVec.ofNat 64 n } := by
  rw [elementOrEnd, elementAt_fault n h]
  cases c <;> first | rfl | exact absurd rfl hc

/-- An element that stopped before it changed anything leaves what it found. -/
@[simp] theorem undo_self (s : State) : undo s s = s := rfl

/-- An array command of a READY coder with a valid descriptor runs its body. -/
theorem onArray_ready (body : Nat → Nat → M Word64) (h : descriptorValid s) :
    onArray .ready body s = body (arrayStart s) (arrayLength s) s := by
  rw [onArray, bind_ok (elementAt_ok 0 (by rfl : onReady .ready (pure () : M Unit) s = .ok () s)), look_run, if_pos h]

/-- An array command of a READY coder with an invalid descriptor answers -1. -/
theorem onArray_invalid (body : Nat → Nat → M Word64) (h : ¬descriptorValid s) :
    onArray .ready body s = .ok (BitVec.ofInt 64 (-1)) s := by
  rw [onArray, bind_ok (elementAt_ok 0 (by rfl : onReady .ready (pure () : M Unit) s = .ok () s)), look_run, if_neg h]; rfl

/-! ### The end of a command -/

/-- With no command in progress there is nothing to resume. -/
theorem resume_settled (h : Settled s) : resume s = s := by
  obtain ⟨h1, -, h3⟩ := h
  cases s
  simp_all [resume]

theorem command_ok {i : Instr} {body : M Word64} {v : Word64} (hs : Settled s) (h : body s = .ok v t) :
    command i body s = .next (complete i.unit i.op v t) := by
  simp [command, resume_settled hs, h, finish]

/-- A fault other than `RANGE_DEGENERATE` writes `STATUS` alone. -/
theorem command_fault {i : Instr} {body : M Word64} {c : FaultCode} (hs : Settled s) (hc : c ≠ .rangeDegenerate)
    (h : body s = .error (.fault c) t) : command i body s = .next (raiseFault i.unit i.op c t) := by
  simp [command, resume_settled hs, h, finish, hc]

theorem command_wait {i : Instr} {body : M Word64} {p : Port} (hs : Settled s) (h : body s = .error (.wait p) t) :
    command i body s = .next (suspend p s t) := by
  simp [command, resume_settled hs, h, finish]

theorem command_clamped {i : Instr} {body : M Word64} (hs : Settled s) (h : body s = .error .clamped t) :
    command i body s = .next (raiseFault i.unit i.op .rangeDegenerate (scrambleRange i.unit (markFailed i.unit t))) := by
  simp [command, resume_settled hs, h, finish]

end Sys2Proof.Machine
end

