-- ==== Sys2Proof/Laws/Arrays.lean ====
section
/-! SUPPORT. What the loops of the array commands do (40_system R160 to R163), said once: each is its elements in order. -/

namespace Sys2Proof.Machine

variable {s t : State}

/-! ### Memory -/

@[simp] theorem writeBytes_nil (m : Memory) (a : Nat) : writeBytes m a [] = m := rfl

@[simp] theorem writeBytes_cons (m : Memory) (a : Nat) (b : Byte) (bs : List Byte) :
    writeBytes m a (b :: bs) = writeBytes (Memory.insert m a b) (a + 1) bs := rfl

@[simp] theorem length_arrayBytes (s : State) (a n : Nat) : (arrayBytes s a n).length = n := by simp [arrayBytes]

theorem arrayBytes_succ (s : State) (a n : Nat) : arrayBytes s a (n + 1) = dataByte s a :: arrayBytes s (a + 1) n := by
  simp [arrayBytes, List.range_succ_eq_map, Function.comp_def, Nat.add_assoc, Nat.add_comm 1]

/-- Bytes of DATA do not change where DATA does not. -/
theorem dataByte_congr (h : t.data = s.data) (a : Nat) : dataByte t a = dataByte s a := by rw [dataByte, dataByte, h]

theorem arrayBytes_congr (h : t.data = s.data) (a n : Nat) : arrayBytes t a n = arrayBytes s a n := by
  simp [arrayBytes, dataByte_congr h]

/-! ### The loops -/

@[simp] theorem encodeFrom_zero (before : Nat → M Unit) (code : Byte → M Unit) (start i : Nat) (s : State) :
    encodeFrom before code start 0 i s = .ok () s := rfl

/-- An element that completes, and the rest of the loop. -/
theorem encodeFrom_succ {before : Nat → M Unit} {code : Byte → M Unit} {start n i : Nat} {r : State}
    (hb : before i s = .ok () r) (hc : code (dataByte r (start + i)) r = .ok () t) :
    encodeFrom before code start (n + 1) i s = encodeFrom before code start n (i + 1) t := by
  have he : elementAt i (do let v ← memRead (start + i); code v) r = .ok () t := elementAt_ok i hc
  rw [encodeFrom, bind_ok hb, bind_ok he]

/-- An element that faults ends the loop, undone, with the number of elements before it in `RES` (60_exceptions R402, R404). -/
theorem encodeFrom_fault {before : Nat → M Unit} {code : Byte → M Unit} {start n i : Nat} {r : State} {c : FaultCode}
    (hb : before i s = .ok () r) (hc : code (dataByte r (start + i)) r = .error (.fault c) t) :
    encodeFrom before code start (n + 1) i s = .error (.fault c) { undo r t with res := BitVec.ofNat 64 i } := by
  have he : elementAt i (do let v ← memRead (start + i); code v) r =
      .error (.fault c) { undo r t with res := BitVec.ofNat 64 i } := elementAt_fault i hc
  rw [encodeFrom, bind_ok hb, bind_error he]

theorem encodeAll_ok {before : Nat → M Unit} {code : Byte → M Unit} {start n : Nat}
    (h : encodeFrom before code start n 0 s = .ok () t) :
    encodeAll before code start n s = .ok (BitVec.ofNat 64 n) t := by
  rw [encodeAll, bind_ok h, pure_run]

@[simp] theorem decodeFrom_zero (before : Nat → M Unit) (code : M (Option Byte)) (start i : Nat) (s : State) :
    decodeFrom before code start 0 i s = .ok i s := rfl

/-- An element that gives a byte, which is stored, and the rest of the loop. -/
theorem decodeFrom_succ {before : Nat → M Unit} {code : M (Option Byte)} {start n i : Nat} {r : State} {v : Byte}
    (hb : before i s = .ok () r) (hc : code r = .ok (some v) t) :
    decodeFrom before code start (n + 1) i s =
      decodeFrom before code start n (i + 1) { t with data := Memory.insert t.data (start + i) v } := by
  rw [decodeFrom, bind_ok hb, bind_ok (elementOrEnd_ok i hc)]
  exact bind_ok (memWrite_run _ _ _) _

/-- An element that gives no byte ends the loop. -/
theorem decodeFrom_none {before : Nat → M Unit} {code : M (Option Byte)} {start n i : Nat} {r : State}
    (hb : before i s = .ok () r) (hc : code r = .ok none t) :
    decodeFrom before code start (n + 1) i s = .ok i t := by
  rw [decodeFrom, bind_ok hb, bind_ok (elementOrEnd_ok i hc)]; rfl

/-- An element that meets end of stream ends the loop (40_system R163). -/
theorem decodeFrom_end {before : Nat → M Unit} {code : M (Option Byte)} {start n i : Nat} {r : State}
    (hb : before i s = .ok () r) (hc : code r = .error (.fault .endOfStream) t) :
    decodeFrom before code start (n + 1) i s = .ok i { undo r t with res := BitVec.ofNat 64 i } := by
  rw [decodeFrom, bind_ok hb, bind_ok (elementOrEnd_end i hc)]; rfl

/-- An element that raises another fault ends the loop, undone, with the number of elements before it in `RES`. -/
theorem decodeFrom_fault {before : Nat → M Unit} {code : M (Option Byte)} {start n i : Nat} {r : State} {c : FaultCode}
    (hb : before i s = .ok () r) (hc : code r = .error (.fault c) t) (hne : c ≠ .endOfStream) :
    decodeFrom before code start (n + 1) i s = .error (.fault c) { undo r t with res := BitVec.ofNat 64 i } := by
  rw [decodeFrom, bind_ok hb, bind_error (elementOrEnd_fault i hc hne)]

theorem decodeAll_ok {before : Nat → M Unit} {code : M (Option Byte)} {start n k : Nat}
    (h : decodeFrom before code start n 0 s = .ok k t) :
    decodeAll before code start n s = .ok (BitVec.ofNat 64 k) t := by
  rw [decodeAll, bind_ok h, pure_run]

@[simp] theorem noChunk_run (i : Nat) (s : State) : noChunk i s = .ok () s := rfl

end Sys2Proof.Machine
end

