-- ==== Sys2Proof/Laws/Bits.lean ====
section
/-! SUPPORT. Bit sequences, the numbers they stand for, and the bytes they fill (20_memory R85, R87; 41_bitstream R183). -/

namespace Sys2Proof.Machine

@[simp] theorem length_bitsOf (v n : Nat) : (bitsOf v n).length = n := by simp [bitsOf]

@[simp] theorem bitsOf_zero (v : Nat) : bitsOf v 0 = [] := rfl

theorem bitsOf_eq_nil {v n : Nat} : bitsOf v n = [] ↔ n = 0 := by
  rw [← List.length_eq_zero_iff, length_bitsOf]

theorem getElem?_bitsOf (v n i : Nat) : (bitsOf v n)[i]? = if i < n then some (v.testBit (n - 1 - i)) else none := by
  by_cases h : i < n <;> simp [bitsOf, h]

/-- The most significant bit comes first. -/
theorem bitsOf_succ (v n : Nat) : bitsOf v (n + 1) = v.testBit n :: bitsOf v n := by
  apply List.ext_getElem?
  intro i
  cases i with
  | zero => rw [getElem?_bitsOf]; simp
  | succ i =>
    simp only [getElem?_bitsOf, List.getElem?_cons_succ, Nat.add_lt_add_iff_right]
    congr 2
    simp [Nat.sub_sub, Nat.add_comm]

/-- A field splits into its high and its low bits. -/
theorem bitsOf_add (v m n : Nat) : bitsOf v (m + n) = bitsOf (v / 2 ^ n) m ++ bitsOf v n := by
  induction m with
  | zero => simp
  | succ m ih =>
    rw [Nat.add_right_comm, bitsOf_succ, ih, bitsOf_succ, List.cons_append, Nat.testBit_div_two_pow]

theorem bitsOf_mod (v n : Nat) : bitsOf (v % 2 ^ n) n = bitsOf v n := by
  apply List.ext_getElem?
  intro i
  simp only [getElem?_bitsOf, Nat.testBit_mod_two_pow]
  split
  · simp; omega
  · rfl

theorem foldl_bits (bs : List Bool) (a : Nat) :
    bs.foldl (fun v b => 2 * v + b.toNat) a = a * 2 ^ bs.length + bitsValue bs := by
  induction bs generalizing a with
  | nil => simp [bitsValue]
  | cons b bs ih =>
    simp only [bitsValue, List.foldl_cons, List.length_cons]
    rw [ih, ih (2 * 0 + b.toNat)]
    ring

@[simp] theorem bitsValue_nil : bitsValue [] = 0 := rfl

theorem bitsValue_cons (b : Bool) (bs : List Bool) : bitsValue (b :: bs) = b.toNat * 2 ^ bs.length + bitsValue bs := by
  rw [bitsValue, List.foldl_cons, foldl_bits]; simp

theorem bitsValue_append (as bs : List Bool) : bitsValue (as ++ bs) = bitsValue as * 2 ^ bs.length + bitsValue bs := by
  rw [bitsValue, List.foldl_append, foldl_bits]; rfl

theorem bitsValue_lt (bs : List Bool) : bitsValue bs < 2 ^ bs.length := by
  induction bs with
  | nil => simp
  | cons b bs ih =>
    rw [bitsValue_cons, List.length_cons, pow_succ]
    cases b <;> simp <;> omega

/-- The bits of a field stand for its low part. -/
theorem bitsValue_bitsOf (v n : Nat) : bitsValue (bitsOf v n) = v % 2 ^ n := by
  induction n with
  | zero => simp [Nat.mod_one]
  | succ n ih =>
    rw [bitsOf_succ, bitsValue_cons, ih, length_bitsOf, Nat.testBit_eq_decide_div_mod_eq, Nat.pow_succ, Nat.mod_mul]
    rcases Nat.mod_two_eq_zero_or_one (v / 2 ^ n) with h | h <;> (simp only [h]; simp; try omega)

/-- A bit sequence is the field of its own value. -/
theorem bitsOf_bitsValue (bs : List Bool) : bitsOf (bitsValue bs) bs.length = bs := by
  induction bs with
  | nil => rfl
  | cons b bs ih =>
    have hlt := bitsValue_lt bs
    rw [List.length_cons, bitsOf_succ, bitsValue_cons]
    congr 1
    · rw [Nat.testBit_eq_decide_div_mod_eq, Nat.add_comm, Nat.add_mul_div_right _ _ (by positivity), Nat.div_eq_of_lt hlt]
      cases b <;> simp
    · rw [← bitsOf_mod, Nat.add_comm, Nat.add_mul_mod_self_right, Nat.mod_eq_of_lt hlt, ih]

theorem bitsValue_inj {as bs : List Bool} (hl : as.length = bs.length) (h : bitsValue as = bitsValue bs) : as = bs := by
  rw [← bitsOf_bitsValue as, ← bitsOf_bitsValue bs, hl, h]

/-! ### Bytes -/

@[simp] theorem length_byteBits (b : Byte) : (byteBits b).length = 8 := by simp [byteBits]

theorem bitsValue_byteBits (b : Byte) : bitsValue (byteBits b) = b.toNat := by
  rw [byteBits, bitsValue_bitsOf, Nat.mod_eq_of_lt b.isLt]

@[simp] theorem bytesBits_nil : bytesBits [] = [] := rfl

@[simp] theorem bytesBits_cons (b : Byte) (bs : List Byte) : bytesBits (b :: bs) = byteBits b ++ bytesBits bs := rfl

@[simp] theorem bytesBits_append (as bs : List Byte) : bytesBits (as ++ bs) = bytesBits as ++ bytesBits bs := by
  simp [bytesBits]

@[simp] theorem length_bytesBits (bs : List Byte) : (bytesBits bs).length = 8 * bs.length := by
  induction bs with
  | nil => rfl
  | cons b bs ih => simp [ih]; omega

theorem bytesBits_eq_nil {bs : List Byte} : bytesBits bs = [] ↔ bs = [] := by
  rw [← List.length_eq_zero_iff, length_bytesBits, ← List.length_eq_zero_iff]; omega

/-- Bit `i` of a byte, bit 7 first. -/
theorem getElem?_byteBits (b : Byte) (i : Nat) : (byteBits b)[i]? = if i < 8 then some (b.getLsbD (7 - i)) else none := by
  rw [byteBits, getElem?_bitsOf]
  split
  · rw [BitVec.getLsbD]
  · rfl

/-- Bit `i` of a byte sequence. -/
theorem getElem?_bytesBits (bs : List Byte) (i : Nat) (h : i < 8 * bs.length) : (bytesBits bs)[i]? = some (streamBit bs i) := by
  induction bs generalizing i with
  | nil => simp at h
  | cons b bs ih =>
    rw [bytesBits_cons]
    by_cases hi : i < 8
    · rw [List.getElem?_append_left (by simpa using hi), getElem?_byteBits, if_pos hi, streamBit]
      simp [Nat.div_eq_of_lt hi, Nat.mod_eq_of_lt hi]
    · simp only [List.length_cons] at h
      rw [List.getElem?_append_right (by simpa using hi), length_byteBits, ih (i - 8) (by omega)]
      have h1 : i / 8 = (i - 8) / 8 + 1 := by omega
      have h2 : i % 8 = (i - 8) % 8 := by omega
      simp [streamBit, h1, h2]

/-- The field that starts at bit `start` of a byte sequence. -/
theorem streamField_eq (bs : List Byte) (start n : Nat) (h : start + n ≤ 8 * bs.length) :
    streamField bs start n = bitsValue (((bytesBits bs).drop start).take n) := by
  rw [streamField]
  congr 1
  apply List.ext_getElem?
  intro i
  by_cases hi : i < n
  · rw [List.getElem?_map, List.getElem?_range hi, List.getElem?_take_of_lt hi, List.getElem?_drop,
      getElem?_bytesBits _ _ (by omega)]
    rfl
  · rw [List.getElem?_eq_none (by simpa using hi), List.getElem?_eq_none]
    simp; omega

/-- A register read as a byte sequence (20_memory R87). -/
theorem toNat_append_byte {n : Nat} (v : BitVec n) (b : Byte) : (v ++ b).toNat = v.toNat * 256 + b.toNat := by
  rw [BitVec.toNat_append, ← Nat.shiftLeft_add_eq_or_of_lt b.isLt, Nat.shiftLeft_eq]

/-! ### The writer's bytes -/

@[simp] theorem length_outBytes (w : List Bool) (a n : Nat) : (outBytes w a n).length = n := by simp [outBytes]

theorem outBytes_add (w : List Bool) (a m n : Nat) : outBytes w a (m + n) = outBytes w a m ++ outBytes w (a + m) n := by
  simp [outBytes, List.range_add, Function.comp_def, Nat.add_assoc]

@[simp] theorem outBytes_zero (w : List Bool) (a : Nat) : outBytes w a 0 = [] := rfl

/-- A byte that `w` fills does not change as more bits are appended. -/
theorem outByte_append (w v : List Bool) (k : Nat) (h : 8 * k + 8 ≤ w.length) : outByte (w ++ v) k = outByte w k := by
  have : ∀ j ∈ List.range 8, (w ++ v).getD (8 * k + j) false = w.getD (8 * k + j) false := by
    intro j hj
    have := List.mem_range.1 hj
    simp [List.getD_eq_getElem?_getD, List.getElem?_append_left (show 8 * k + j < w.length by omega)]
  rw [outByte, outByte, List.map_congr_left this]

theorem outBytes_append (w v : List Bool) (a n : Nat) (h : 8 * (a + n) ≤ w.length) : outBytes (w ++ v) a n = outBytes w a n := by
  rw [outBytes, outBytes]
  apply List.map_congr_left
  intro j hj
  have := List.mem_range.1 hj
  exact outByte_append _ _ _ (by omega)

end Sys2Proof.Machine
end

