-- ==== Sys2Proof/Laws/Reader.lean ====
section
/-! SUPPORT. What the reader's operations do (41_bitstream R197), said once: bytes taken from SOURCE, and `GetBits` as `consumed`,
`metEnd` or a wait. -/

namespace Sys2Proof.Machine

variable {s t : State}

/-! ### Taking bytes -/

/-- `s` after one byte was taken. -/
def tookByte (s : State) (b : Byte) (rest : List SourceAnswer) : State :=
  { s with source := rest, bsr.bytes := s.bsr.bytes ++ [b] }

theorem takeBytes_byte {k : Nat} {b : Byte} {rest : List SourceAnswer} (he : s.bsr.ended = false)
    (hs : s.source = .byte b :: rest) : takeBytes (k + 1) s = takeBytes k (tookByte s b rest) := by
  simp [takeBytes, he, hs, tookByte]

theorem takeBytes_ended {k : Nat} (he : s.bsr.ended = true) : takeBytes (k + 1) s = .error (.fault .endOfStream) s := by
  simp [takeBytes, he]

theorem takeBytes_finish {k : Nat} {rest : List SourceAnswer} (he : s.bsr.ended = false) (hs : s.source = .finish :: rest) :
    takeBytes (k + 1) s = .error (.fault .endOfStream) { s with source := rest, bsr.ended := true } := by
  simp [takeBytes, he, hs]

theorem takeBytes_nil {k : Nat} (he : s.bsr.ended = false) (hs : s.source = []) :
    takeBytes (k + 1) s = .error (.wait .source) s := by
  simp [takeBytes, he, hs]

@[simp] theorem tookByte_ended (s : State) (b : Byte) (rest : List SourceAnswer) :
    (tookByte s b rest).bsr.ended = s.bsr.ended := rfl

@[simp] theorem tookByte_source (s : State) (b : Byte) (rest : List SourceAnswer) : (tookByte s b rest).source = rest := rfl

/-- The host has answered `k` bytes that the reader can take: they are taken. -/
theorem takeBytes_ok {k : Nat} (he : s.bsr.ended = false ∨ k = 0) (hk : k ≤ (answeredBytes s.source).length) :
    takeBytes k s = .ok ()
      { s with source := s.source.drop k, bsr.bytes := s.bsr.bytes ++ (answeredBytes s.source).take k } := by
  induction k generalizing s with
  | zero =>
    cases s with
    | _ params cmd arg0 arg1 arg2 arg3 res status bsw bsr => cases bsr; simp [takeBytes]
  | succ k ih =>
    have he : s.bsr.ended = false := by simpa using he
    cases hsrc : s.source with
    | nil => simp [hsrc, answeredBytes] at hk
    | cons a rest =>
      cases a with
      | finish => simp [hsrc, answeredBytes] at hk
      | byte b =>
        have hk' : k ≤ (answeredBytes rest).length := by simpa [hsrc, answeredBytes] using hk
        rw [takeBytes_byte he hsrc, ih (s := tookByte s b rest) (.inl he) hk']
        simp [answeredBytes, tookByte]

/-- The host has answered END before `k` more bytes: the bytes before it are taken and the read ends. -/
theorem takeBytes_end {k : Nat} (hk : (incoming s).length < s.bsr.bytes.length + k)
    (he : s.bsr.ended = true ∨ .finish ∈ s.source) : takeBytes k s = .error (.fault .endOfStream) (metEnd s) := by
  induction k generalizing s with
  | zero => simp [incoming] at hk
  | succ k ih =>
    cases hend : s.bsr.ended with
    | true => rw [takeBytes_ended hend, metEnd, if_pos hend]
    | false =>
      cases hsrc : s.source with
      | nil => simp [hsrc, hend] at he
      | cons a rest =>
        cases a with
        | finish => rw [takeBytes_finish hend hsrc]; simp [metEnd, hend, hsrc, incoming, answeredBytes, afterEnd]
        | byte b =>
          rw [takeBytes_byte hend hsrc, ih]
          · simp [metEnd, hend, hsrc, incoming, answeredBytes, afterEnd, tookByte]
          · simp [incoming, hend, hsrc, answeredBytes, tookByte] at hk ⊢; omega
          · right; simpa [hend, hsrc] using he

/-- The host has answered fewer than `k` bytes and no END: the command waits. -/
theorem takeBytes_wait {k : Nat} (hk : s.source.length < k) (hend : s.bsr.ended = false) (he : .finish ∉ s.source) :
    takeBytes k s = .error (.wait .source)
      { s with source := [], bsr.bytes := s.bsr.bytes ++ answeredBytes s.source } := by
  induction k generalizing s with
  | zero => simp at hk
  | succ k ih =>
    cases hsrc : s.source with
    | nil =>
      rw [takeBytes_nil hend hsrc]
      cases s with
      | _ params cmd arg0 arg1 arg2 arg3 res status bsw bsr => cases bsr; simp_all [answeredBytes]
    | cons a rest =>
      cases a with
      | finish => simp [hsrc] at he
      | byte b =>
        rw [takeBytes_byte hend hsrc, ih]
        · simp [answeredBytes, tookByte]
        · simpa [hsrc] using hk
        · exact hend
        · simpa [hsrc] using he

/-- Without an END every answer is a byte. -/
theorem length_answeredBytes {l : List SourceAnswer} (h : .finish ∉ l) : (answeredBytes l).length = l.length := by
  induction l with
  | nil => rfl
  | cons a l ih => cases a <;> simp_all [answeredBytes]

theorem length_answeredBytes_le (l : List SourceAnswer) : (answeredBytes l).length ≤ l.length := by
  induction l with
  | nil => rfl
  | cons a l ih => cases a <;> simp [answeredBytes]; omega

/-- Behind `k` bytes the answers are those left. -/
theorem answeredBytes_drop {l : List SourceAnswer} {k : Nat} (h : k ≤ (answeredBytes l).length) :
    answeredBytes (l.drop k) = (answeredBytes l).drop k := by
  induction l generalizing k with
  | nil => simp [answeredBytes]
  | cons a l ih =>
    cases k with
    | zero => simp
    | succ k => cases a <;> simp_all [answeredBytes]

/-! ### GetBits -/

@[simp] theorem consumed_zero (s : State) : consumed s 0 = s := by simp [consumed]

theorem consumed_of_ne {n : Nat} (h : n ≠ 0) :
    consumed s n =
      { s with
        source := s.source.drop ((s.bsr.read.toNat + n + 7) / 8 - s.bsr.bytes.length)
        bsr.bytes := s.bsr.bytes ++ (answeredBytes s.source).take ((s.bsr.read.toNat + n + 7) / 8 - s.bsr.bytes.length)
        bsr.read := s.bsr.read + BitVec.ofNat 64 n } := by simp [consumed, h]

/-- The bytes needed for bits that can be read are there. -/
theorem bytesNeeded_le {w : List Bool} (hw : w ≠ []) (h : w <+: unread s) :
    (s.bsr.read.toNat + w.length + 7) / 8 ≤ (incoming s).length := by
  have h1 := h.length_le
  have h2 : 0 < w.length := List.length_pos_iff.2 hw
  rw [unread, List.length_drop, length_bytesBits] at h1
  omega

/-- `GetBits` of bits that can be read (41_bitstream R197). -/
theorem getBits_ok {n : Nat} {w : List Bool} (hn : w.length = n) (h0 : w ≠ []) (h : CanRead s w) :
    getBits n s = .ok (bitsValue w) (consumed s n) := by
  obtain ⟨⟨h1, h2⟩, h3, h4⟩ := h.resolve_left h0
  have hle := bytesNeeded_le h0 h4
  rw [hn] at hle h3
  have hn0 : n ≠ 0 := by rw [← hn]; simpa using h0
  rw [getBits, look_run, if_neg (by simp [h1]), if_neg (by simp [h2])]
  have hk : bytesNeeded s.bsr n - s.bsr.bytes.length ≤ (answeredBytes s.source).length := by
    rw [bytesNeeded]
    rw [incoming] at hle
    split at hle <;> simp at hle <;> omega
  have hz : s.bsr.ended = false ∨ bytesNeeded s.bsr n - s.bsr.bytes.length = 0 := by
    cases he : s.bsr.ended with
    | false => exact .inl rfl
    | true => right; simp [incoming, he] at hle; rw [bytesNeeded]; omega
  rw [bind_ok (takeBytes_ok hz hk), bind_ok (update_run _ _), look_run, consumed_of_ne hn0]
  have hval : streamField (s.bsr.bytes ++ (answeredBytes s.source).take (bytesNeeded s.bsr n - s.bsr.bytes.length))
      s.bsr.read.toNat n = bitsValue w := by
    have hlen : (s.bsr.read.toNat + n + 7) / 8 ≤
        (s.bsr.bytes ++ (answeredBytes s.source).take (bytesNeeded s.bsr n - s.bsr.bytes.length)).length := by
      rw [List.length_append, List.length_take, Nat.min_eq_left hk, bytesNeeded]; omega
    have hpre : s.bsr.bytes ++ (answeredBytes s.source).take (bytesNeeded s.bsr n - s.bsr.bytes.length) <+: incoming s := by
      rw [incoming]
      rcases hz with he | he
      · rw [he]; simp only [Bool.false_eq_true, if_false, List.prefix_append_right_inj]; exact List.take_prefix _ _
      · rw [he]; simp
    rw [streamField_eq _ _ _ (by omega)]
    congr 1
    obtain ⟨r, hr⟩ := hpre
    obtain ⟨v, hv⟩ := h4
    rw [unread, ← hr, bytesBits_append, List.drop_append_of_le_length (by rw [length_bytesBits]; omega)] at hv
    have := congrArg (List.take n) hv
    rw [List.take_append_of_le_length (by omega), List.take_of_length_le (by omega),
      List.take_append_of_le_length (by rw [List.length_drop, length_bytesBits]; omega)] at this
    exact this.symm
  simp only [pure_run]
  rw [hval]
  rfl

@[simp] theorem consumed_sent (s : State) (n : Nat) : (consumed s n).sent = s.sent := by
  by_cases h : n = 0 <;> simp [consumed, h]

@[simp] theorem consumed_params (s : State) (n : Nat) : (consumed s n).params = s.params := by
  by_cases h : n = 0 <;> simp [consumed, h]

@[simp] theorem consumed_data (s : State) (n : Nat) : (consumed s n).data = s.data := by
  by_cases h : n = 0 <;> simp [consumed, h]

@[simp] theorem consumed_ustate (s : State) (n : Nat) : (consumed s n).bsr.ustate = s.bsr.ustate := by
  by_cases h : n = 0 <;> simp [consumed, h]

@[simp] theorem consumed_closed (s : State) (n : Nat) : (consumed s n).bsr.closed = s.bsr.closed := by
  by_cases h : n = 0 <;> simp [consumed, h]

@[simp] theorem consumed_ended (s : State) (n : Nat) : (consumed s n).bsr.ended = s.bsr.ended := by
  by_cases h : n = 0 <;> simp [consumed, h]

theorem consumed_read {n : Nat} (h : s.bsr.read.toNat + n < 2 ^ 64) :
    (consumed s n).bsr.read.toNat = s.bsr.read.toNat + n := by
  by_cases hn : n = 0
  · simp [hn]
  · rw [consumed_of_ne hn, BitVec.toNat_add, BitVec.toNat_ofNat, Nat.add_mod_mod, Nat.mod_eq_of_lt h]

/-- Reading does not change what the reader holds or can take. -/
theorem incoming_consumed {w : List Bool} (hw : w ≠ []) (h : w <+: unread s) :
    incoming (consumed s w.length) = incoming s := by
  have hle := bytesNeeded_le hw h
  rw [incoming] at hle
  rw [consumed_of_ne (by simpa using hw), incoming, incoming]
  cases he : s.bsr.ended with
  | true =>
    simp only [he, if_true, List.append_nil] at hle ⊢
    rw [Nat.sub_eq_zero_of_le hle, List.take_zero, List.append_nil]
  | false =>
    simp only [he, Bool.false_eq_true, if_false, List.length_append] at hle ⊢
    rw [answeredBytes_drop (by omega), List.append_assoc, List.take_append_drop]

theorem unread_consumed {w : List Bool} (h3 : s.bsr.read.toNat + w.length < 2 ^ 64) (h : w <+: unread s) :
    unread (consumed s w.length) = (unread s).drop w.length := by
  by_cases hw : w = []
  · simp [hw]
  · rw [unread, incoming_consumed hw h, consumed_read h3, unread, List.drop_drop]

theorem canRead_left {v w : List Bool} (h : CanRead s (v ++ w)) : CanRead s v := by
  by_cases hv : v = []
  · exact .inl hv
  · obtain ⟨h1, h2, h3⟩ := h.resolve_left (by simp [hv])
    rw [List.length_append] at h2
    exact .inr ⟨h1, by omega, (List.prefix_append v w).trans h3⟩

theorem canRead_right {v w : List Bool} (h : CanRead s (v ++ w)) : CanRead (consumed s v.length) w := by
  by_cases hv : v = []
  · simpa [hv] using h
  by_cases hw : w = []
  · exact .inl hw
  obtain ⟨⟨h1, h2⟩, h3, h4⟩ := h.resolve_left (by simp [hv])
  rw [List.length_append] at h3
  have hv' : v <+: unread s := (List.prefix_append v w).trans h4
  refine .inr ⟨⟨by simpa using h1, by simpa using h2⟩, by rw [consumed_read (by omega)]; omega, ?_⟩
  rw [unread_consumed (by omega) hv']
  obtain ⟨r, hr⟩ := h4
  exact ⟨r, by rw [← hr, List.append_assoc, List.drop_left]⟩

/-- Reading in two steps is reading at once. -/
theorem consumed_consumed {v w : List Bool} (h : CanRead s (v ++ w)) :
    consumed (consumed s v.length) w.length = consumed s (v ++ w).length := by
  by_cases hv : v = []
  · simp [hv]
  by_cases hw : w = []
  · simp [hw]
  obtain ⟨⟨h1, h2⟩, h3, h4⟩ := h.resolve_left (by simp [hv])
  have h5 := bytesNeeded_le (by simp [hv]) h4
  rw [List.length_append] at h3 h5 ⊢
  have hr := consumed_read (s := s) (n := v.length) (by omega)
  rw [consumed_of_ne (by simpa using hw), hr, consumed_of_ne (by simpa using hv),
    consumed_of_ne (by have := List.length_pos_iff.2 hv; omega : v.length + w.length ≠ 0)]
  have hav : (s.bsr.read.toNat + (v.length + w.length) + 7) / 8 - s.bsr.bytes.length ≤ (answeredBytes s.source).length := by
    rw [incoming] at h5
    split at h5 <;> simp at h5 <;> omega
  rw [answeredBytes_drop (by omega)]
  have e : (s.bsr.read.toNat + v.length + 7) / 8 - s.bsr.bytes.length +
      ((s.bsr.read.toNat + v.length + w.length + 7) / 8 -
        (s.bsr.bytes ++ (answeredBytes s.source).take ((s.bsr.read.toNat + v.length + 7) / 8 - s.bsr.bytes.length)).length) =
      (s.bsr.read.toNat + (v.length + w.length) + 7) / 8 - s.bsr.bytes.length := by
    rw [List.length_append, List.length_take]; omega
  simp only [List.drop_drop, List.append_assoc, e, ← List.take_add, BitVec.add_assoc, BitVec.ofNat_add]

/-- `GetBits` past an END (41_bitstream R197): the bytes before it are taken, and no bit is consumed. -/
theorem getBits_end {n : Nat} (h : ReaderOpen s) (hn : (unread s).length < n)
    (he : s.bsr.ended = true ∨ .finish ∈ s.source) :
    getBits n s = .error (.fault .endOfStream) (metEnd s) := by
  obtain ⟨h1, h2⟩ := h
  rw [getBits, look_run, if_neg (by simp [h1]), if_neg (by simp [h2])]
  refine bind_error (takeBytes_end ?_ he) _
  rw [unread, List.length_drop, length_bytesBits] at hn
  have : s.bsr.bytes.length ≤ (incoming s).length := by simp [incoming]
  rw [bytesNeeded]; omega

/-- `GetBits` of a reader that is not open raises the reader's fault and changes nothing (41_bitstream R197). -/
theorem getBits_fault {c : FaultCode} (n : Nat) (h : ReaderFault s c) : getBits n s = .error (.fault c) s := by
  rcases h with ⟨h1, rfl⟩ | ⟨h1, h2, rfl⟩
  · rw [getBits, look_run, if_pos h1, raise_run]
  · rw [getBits, look_run, if_neg h1, if_pos h2, raise_run]

theorem mem_finish_drop {l : List SourceAnswer} {k : Nat} (h : .finish ∈ l) (hk : k ≤ (answeredBytes l).length) :
    .finish ∈ l.drop k := by
  induction l generalizing k with
  | nil => simp at h
  | cons a l ih =>
    cases k with
    | zero => simpa using h
    | succ k => cases a <;> simp_all [answeredBytes]

theorem afterEnd_drop {l : List SourceAnswer} {k : Nat} (hk : k ≤ (answeredBytes l).length) :
    afterEnd (l.drop k) = afterEnd l := by
  induction l generalizing k with
  | nil => simp
  | cons a l ih =>
    cases k with
    | zero => rfl
    | succ k => cases a <;> simp_all [answeredBytes, afterEnd]

/-- Bits before an END can be read. -/
theorem BeforeEnd.canRead {v : List Bool} (h : BeforeEnd s) (hv : v <+: unread s) : CanRead s v := by
  obtain ⟨h1, -, h3⟩ := h
  have := hv.length_le
  exact .inr ⟨h1, by omega, hv⟩

/-- The bytes that a read before an END takes are answers before it. -/
theorem BeforeEnd.taken_le {v : List Bool} (hv : v <+: unread s) (h0 : v ≠ []) :
    (s.bsr.ended = true → (s.bsr.read.toNat + v.length + 7) / 8 - s.bsr.bytes.length = 0) ∧
      (s.bsr.ended = false → (s.bsr.read.toNat + v.length + 7) / 8 - s.bsr.bytes.length ≤ (answeredBytes s.source).length) := by
  have hle := bytesNeeded_le h0 hv
  rw [incoming] at hle
  constructor <;> intro he <;> simp [he] at hle <;> omega

/-- Behind a read the END still stands. -/
theorem BeforeEnd.consumed {v : List Bool} (h : BeforeEnd s) (hv : v <+: unread s) : BeforeEnd (consumed s v.length) := by
  by_cases h0 : v = []
  · simpa [h0] using h
  obtain ⟨⟨h1, h2⟩, he, h3⟩ := h
  have hl := hv.length_le
  obtain ⟨t1, t2⟩ := BeforeEnd.taken_le hv h0
  refine ⟨⟨by simpa using h1, by simpa using h2⟩, ?_, ?_⟩
  · rw [consumed_ended]
    cases hb : s.bsr.ended with
    | true => exact .inl rfl
    | false =>
      rw [hb] at he
      have he := he.resolve_left (by simp)
      right
      rw [consumed_of_ne (by simpa using h0)]
      exact mem_finish_drop he (t2 hb)
  · rw [unread_consumed (by omega) hv, consumed_read (by omega), List.length_drop]; omega

/-- A stream that ends inside two parts ends inside the first, or the first can be read and it ends inside the second. -/
theorem EndsInside.split {v w : List Bool} (h : EndsInside s [] (v ++ w)) :
    EndsInside s [] v ∨ (CanRead s v ∧ EndsInside (consumed s v.length) [] w) := by
  obtain ⟨hb, -, hp, hl⟩ := h
  simp only [List.nil_append, List.length_nil, Nat.zero_add] at hp hl
  rcases Nat.lt_or_ge (unread s).length v.length with hlt | hge
  · exact .inl ⟨hb, List.nil_prefix, by
      rw [List.nil_append]; exact List.prefix_of_prefix_length_le hp (List.prefix_append v w) (by omega), by simpa using hlt⟩
  · right
    have hv : v <+: unread s := List.prefix_of_prefix_length_le (List.prefix_append v w) hp hge
    have hu := unread_consumed (s := s) (w := v) (by have := hb.2.2; omega) hv
    refine ⟨hb.canRead hv, hb.consumed hv, List.nil_prefix, ?_, ?_⟩
    · obtain ⟨r, hr⟩ := hp
      rw [hu, List.nil_append]
      refine ⟨r, ?_⟩
      have := congrArg (List.drop v.length) hr
      rwa [List.drop_append_of_le_length hge, List.drop_left] at this
    · rw [hu, List.length_drop]
      rw [List.length_append] at hl
      simp only [List.length_nil]; omega

/-- What is behind the bits that can be read ends there too. -/
theorem EndsInside.right {v w : List Bool} (h : EndsInside s v w) : CanRead s v ∧ EndsInside (consumed s v.length) [] w := by
  obtain ⟨hb, hv, hp, hl⟩ := h
  rcases EndsInside.split (s := s) (v := v) (w := w) ⟨hb, List.nil_prefix, by simpa using hp, by simpa using hl⟩ with h | h
  · have h1 := h.2.2.2
    have := hv.length_le
    simp at h1; omega
  · exact h

/-- `GetBits` of a field in which the stream ends (41_bitstream R197). -/
theorem getBits_endsInside {n : Nat} {w : List Bool} (hn : w.length = n) (h : EndsInside s [] w) :
    getBits n s = .error (.fault .endOfStream) (metEnd s) := by
  obtain ⟨⟨h1, h2, -⟩, -, -, h4⟩ := h
  exact getBits_end h1 (by simpa [hn] using h4) h2

/-- An element that met END behind some bits, undone: the bytes before the END are taken, and no more (60_exceptions R402). -/
theorem undo_metEnd {v : List Bool} (h : BeforeEnd s) (hv : v <+: unread s) : undo s (metEnd (consumed s v.length)) = metEnd s := by
  by_cases h0 : v = []
  · subst h0
    rw [List.length_nil, consumed_zero, undo, metEnd]
    split <;> rfl
  obtain ⟨t1, t2⟩ := BeforeEnd.taken_le hv h0
  rw [metEnd, consumed_ended, metEnd]
  cases hb : s.bsr.ended with
  | true =>
    rw [if_pos rfl, if_pos rfl, undo, consumed_of_ne (by simpa using h0), t1 hb]
    cases s with
    | _ params cmd arg0 arg1 arg2 arg3 res status bsw bsr => cases bsr; simp at hb; simp [hb]
  | false =>
    rw [if_neg (by simp), if_neg (by simp), undo, incoming_consumed h0 hv, consumed_of_ne (by simpa using h0)]
    simp only [afterEnd_drop (t2 hb)]

/-- `GetBits` beyond what the host has answered, with no END (20_memory R84): the command waits. -/
theorem getBits_wait {n : Nat} (h : ReaderOpen s) (hn : (unread s).length < n) (hend : s.bsr.ended = false)
    (he : .finish ∉ s.source) :
    getBits n s = .error (.wait .source) { s with source := [], bsr.bytes := s.bsr.bytes ++ answeredBytes s.source } := by
  obtain ⟨h1, h2⟩ := h
  rw [getBits, look_run, if_neg (by simp [h1]), if_neg (by simp [h2])]
  refine bind_error (takeBytes_wait ?_ hend he) _
  rw [unread, List.length_drop, length_bytesBits, incoming] at hn
  simp only [hend, Bool.false_eq_true, if_false, List.length_append, length_answeredBytes he] at hn
  rw [bytesNeeded]; omega

end Sys2Proof.Machine
end

