-- ==== Sys2Proof/Laws/Writer.lean ====
section
/-! SUPPORT. What the writer's operations do (41_bitstream R185 to R191), said once: `PutBits` and a flush, as `appended` and
`flushed`. -/

namespace Sys2Proof.Machine

variable {s t : State}

/-! ### Hand-offs -/

/-- With no byte of the command accepted before, a hand-off that SINK takes appends its bytes. -/
theorem handOff_ok {bs : List Byte} (hs : s.sent = 0) (h : SinkTakes s bs.length) : handOff bs s = .ok () (handed s bs) := by
  simp [handOff, handed, hs, h]

/-- Where SINK does not take the bytes the command waits, having handed over what it took. -/
theorem handOff_wait {bs : List Byte} (hs : s.sent = 0) (h : s.sinkRoom < bs.length) :
    handOff bs s = .error (.wait .sink)
      { s with sink := s.sink ++ bs.take s.sinkRoom, sinkRoom := 0, bsw.delivered := s.bsw.delivered + bs.length } := by
  simp [handOff, hs, Nat.not_le.2 h]

@[simp] theorem handed_nil (s : State) : handed s [] = s := by
  cases s with
  | _ params cmd arg0 arg1 arg2 arg3 res status bsw => cases bsw; simp [handed]

theorem handed_handed (s : State) (as bs : List Byte) : handed (handed s as) bs = handed s (as ++ bs) := by
  simp [handed, Nat.add_assoc, Nat.sub_sub]

/-! ### Appending -/

@[simp] theorem appended_nil (s : State) : appended s [] = s := by simp [appended]

theorem appended_of_ne {w : List Bool} (h : w ≠ []) :
    appended s w =
      handed { s with bsw.bits := s.bsw.bits ++ w, bsw.written := s.bsw.written + BitVec.ofNat 64 w.length }
        (outBytes (s.bsw.bits ++ w) s.bsw.delivered (fullBuffers s (s.bsw.bits.length + w.length))) := by
  simp [appended, h]

/-- `PutBits` of at least one bit (41_bitstream R185). -/
theorem putBits_ok {v n : Nat} (hn : n ≠ 0) (hs : s.sent = 0) (h : CanWrite s (bitsOf v n)) :
    putBits v n s = .ok () (appended s (bitsOf v n)) := by
  have hw : bitsOf v n ≠ [] := by simpa [bitsOf_eq_nil] using hn
  obtain ⟨⟨h1, h2, h3⟩, h4, h5⟩ := h.resolve_left hw
  simp only [length_bitsOf] at h4 h5
  have hc : (s.bsw.written + BitVec.ofNat 64 n).toNat = s.bsw.bits.length + n := by
    rw [BitVec.toNat_add, BitVec.toNat_ofNat, h3, Nat.add_mod_mod, Nat.mod_eq_of_lt h4]
  rw [putBits, look_run, if_neg (by simp [h1]), if_neg (by simp [h2]), bind_ok (update_run _ _), deliver, look_run,
    appended_of_ne hw]
  simp only [completeBytes, hc, length_bitsOf]
  split
  · next h0 => rw [fullBuffers, h0, outBytes_zero, handed_nil]; rfl
  · exact handOff_ok (by exact hs) (by simpa [SinkTakes, fullBuffers] using h5)

/-- `PutBits` of a writer that is not open raises the writer's fault and changes nothing (41_bitstream R182, R185). -/
theorem putBits_fault {c : FaultCode} (v n : Nat) (h : WriterFault s c) : putBits v n s = .error (.fault c) s := by
  rcases h with ⟨h1, rfl⟩ | ⟨h1, h2, rfl⟩
  · rw [putBits, look_run, if_pos h1, raise_run]
  · rw [putBits, look_run, if_neg h1, if_pos h2, raise_run]

/-- The bytes that fill up in two steps are those that fill up in one (41_bitstream R190). -/
theorem rounds_add {c1 c2 d b : Nat} (h : c1 ≤ c2) :
    (c2 - (d + (c1 - d) / b * b)) / b * b + (c1 - d) / b * b = (c2 - d) / b * b := by
  have hle : (c1 - d) / b * b ≤ c1 - d := Nat.div_mul_le_self _ _
  by_cases hb : b = 0
  · simp [hb]
  · have e : c2 - d = (c2 - (d + (c1 - d) / b * b)) + b * ((c1 - d) / b) := by
      rw [Nat.mul_comm b]; omega
    rw [e, Nat.add_mul_div_left _ _ (Nat.pos_of_ne_zero hb), Nat.add_mul]

@[simp] theorem appended_sent (s : State) (w : List Bool) : (appended s w).sent = s.sent := by
  by_cases h : w = [] <;> simp [appended, h, handed]

@[simp] theorem appended_params (s : State) (w : List Bool) : (appended s w).params = s.params := by
  by_cases h : w = [] <;> simp [appended, h, handed]

@[simp] theorem appended_data (s : State) (w : List Bool) : (appended s w).data = s.data := by
  by_cases h : w = [] <;> simp [appended, h, handed]

@[simp] theorem appended_bits (s : State) (w : List Bool) : (appended s w).bsw.bits = s.bsw.bits ++ w := by
  by_cases h : w = [] <;> simp [appended, h, handed]

@[simp] theorem appended_ustate (s : State) (w : List Bool) : (appended s w).bsw.ustate = s.bsw.ustate := by
  by_cases h : w = [] <;> simp [appended, h, handed]

@[simp] theorem appended_closed (s : State) (w : List Bool) : (appended s w).bsw.closed = s.bsw.closed := by
  by_cases h : w = [] <;> simp [appended, h, handed]

theorem appended_written (s : State) (w : List Bool) :
    (appended s w).bsw.written = s.bsw.written + BitVec.ofNat 64 w.length := by
  by_cases h : w = [] <;> simp [appended, h, handed]

/-- The count stays exact while it does not run over. -/
theorem countsBits_appended {w : List Bool} (h : CountsBits s) (hw : s.bsw.bits.length + w.length < 2 ^ 64) :
    CountsBits (appended s w) := by
  rw [CountsBits, appended_written, appended_bits, BitVec.toNat_add, BitVec.toNat_ofNat, h, Nat.add_mod_mod,
    List.length_append, Nat.mod_eq_of_lt hw]

theorem fullBuffers_mono (s : State) {m n : Nat} (h : m ≤ n) : fullBuffers s m ≤ fullBuffers s n :=
  Nat.mul_le_mul_right _ (Nat.div_le_div_right (Nat.sub_le_sub_right (Nat.div_le_div_right h) _))

/-- What can be written can be written in two parts, the first being what it is. -/
theorem canWrite_left {v w : List Bool} (h : CanWrite s (v ++ w)) : CanWrite s v := by
  by_cases hv : v = []
  · exact .inl hv
  · obtain ⟨h1, h2, h3⟩ := h.resolve_left (by simp [hv])
    rw [List.length_append] at h2 h3
    exact .inr ⟨h1, by omega, (fullBuffers_mono s (by omega)).trans h3⟩

theorem fullBuffers_appended {v : List Bool} (hv : v ≠ []) (n : Nat) (h : s.bsw.bits.length + v.length ≤ n) :
    fullBuffers (appended s v) n + fullBuffers s (s.bsw.bits.length + v.length) = fullBuffers s n := by
  simp only [fullBuffers, appended_of_ne hv, handed, length_outBytes]
  exact rounds_add (Nat.div_le_div_right h)

theorem canWrite_right {v w : List Bool} (h : CanWrite s (v ++ w)) : CanWrite (appended s v) w := by
  by_cases hv : v = []
  · simpa [hv] using h
  by_cases hw : w = []
  · exact .inl hw
  obtain ⟨⟨h1, h2, h3⟩, h4, h5⟩ := h.resolve_left (by simp [hv])
  rw [List.length_append] at h4 h5
  refine .inr ⟨⟨by simpa using h1, by simpa using h2, countsBits_appended h3 (by omega)⟩, by simp; omega, ?_⟩
  have hf := fullBuffers_appended (s := s) hv (s.bsw.bits.length + (v.length + w.length)) (by omega)
  have hr : (appended s v).sinkRoom = s.sinkRoom - fullBuffers s (s.bsw.bits.length + v.length) := by
    rw [appended_of_ne hv, handed, length_outBytes]
  simp only [SinkTakes, appended_bits, List.length_append, Nat.add_assoc, hr] at *
  omega

/-- Appending in two steps is appending at once. -/
theorem appended_appended {v w : List Bool} (h : CanWrite s (v ++ w)) : appended (appended s v) w = appended s (v ++ w) := by
  by_cases hv : v = []
  · simp [hv]
  by_cases hw : w = []
  · simp [hw]
  obtain ⟨⟨h1, h2, h3⟩, h4, h5⟩ := h.resolve_left (by simp [hv])
  have hf := fullBuffers_appended (s := s) hv (s.bsw.bits.length + (v.length + w.length)) (by omega)
  rw [appended_of_ne (by simp [hv] : v ++ w ≠ []), appended_of_ne hw, appended_bits]
  rw [List.length_append, List.length_append, Nat.add_assoc, ← hf, Nat.add_comm (fullBuffers (appended s v) _), outBytes_add]
  rw [appended_of_ne hv] at *
  have hd : 8 * (s.bsw.delivered + fullBuffers s (s.bsw.bits.length + v.length)) ≤ (s.bsw.bits ++ v).length ∨
      fullBuffers s (s.bsw.bits.length + v.length) = 0 := by
    by_cases h0 : fullBuffers s (s.bsw.bits.length + v.length) = 0
    · exact .inr h0
    · left
      have : fullBuffers s (s.bsw.bits.length + v.length) ≤ (s.bsw.bits.length + v.length) / 8 - s.bsw.delivered :=
        Nat.div_mul_le_self _ _
      rw [List.length_append]; omega
  have ho : outBytes (s.bsw.bits ++ (v ++ w)) s.bsw.delivered (fullBuffers s (s.bsw.bits.length + v.length)) =
      outBytes (s.bsw.bits ++ v) s.bsw.delivered (fullBuffers s (s.bsw.bits.length + v.length)) := by
    rcases hd with hd | hd
    · rw [← List.append_assoc, outBytes_append _ _ _ _ hd]
    · simp [hd]
  rw [ho]
  simp [handed, Nat.add_assoc, Nat.sub_sub, BitVec.add_assoc, BitVec.ofNat_add]

/-! ### Flushing -/

/-- What FLUSH does to an open writer (41_bitstream R186). -/
theorem flushWriter_ok (hs : s.sent = 0) (hc : s.bsw.closed = false) (hw : CountsBits s)
    (h : SinkTakes s (s.bsw.bits.length / 8 - s.bsw.delivered)) : flushWriter s = .ok () (flushed s) := by
  rw [flushWriter, look_run, if_neg (by simp [hc]), completeBytes, hw]
  exact handOff_ok hs (by simpa [SinkTakes] using h)

end Sys2Proof.Machine
end

