-- ==== Sys2Proof/Laws/Binary.lean ====
section
/-! SUPPORT. What the steps of the binary coder do (42_binary_coder R227 to R239), said once over `CodedBits` and `DecodedBits`. -/

namespace Sys2Proof.Machine

variable {s : State}

/-! ### The shift loops -/

theorem topAgrees_iff {low high : BitVec 32} : topAgrees low high = true ↔ (low ^^^ high) &&& 0xFF000000 = 0 := by
  simp [topAgrees]

theorem topAgrees_false {low high : BitVec 32} : topAgrees low high = false ↔ (low ^^^ high) &&& 0xFF000000 ≠ 0 := by
  rw [← Bool.not_eq_true, topAgrees_iff]

/-- `n` shifts of the interval (42_binary_coder R228). -/
def shiftLow (low : BitVec 32) : Nat → BitVec 32
  | 0 => low
  | n + 1 => shiftLow (low <<< 8) n

def shiftHigh (high : BitVec 32) : Nat → BitVec 32
  | 0 => high
  | n + 1 => shiftHigh ((high <<< 8) ||| 0xFF) n

/-- Four shifts leave 0 and 0xFFFFFFFF, whose top bytes differ (42_binary_coder R228). -/
theorem four_shifts (low high : BitVec 32) : (shiftLow low 4 ^^^ shiftHigh high 4) &&& 0xFF000000 ≠ 0 := by
  intro h
  have := congrArg (fun v : BitVec 32 => v.getLsbD 31) h
  simp [shiftLow, shiftHigh] at this

/-- The interval before each shift of the loop agrees in its top byte. -/
theorem Settles.agrees {low high low' high' : BitVec 32} {out : List Byte} (h : Settles low high out low' high') (n : Nat)
    (hn : n < out.length) : (shiftLow low n ^^^ shiftHigh high n) &&& 0xFF000000 = 0 := by
  induction h generalizing n with
  | done => simp at hn
  | shift low high out low' high' h _ ih =>
    cases n with
    | zero => exact h
    | succ n => exact ih n (by simpa using hn)

/-- The loop runs at most four times (42_binary_coder R228). -/
theorem Settles.length_le {low high low' high' : BitVec 32} {out : List Byte} (h : Settles low high out low' high') :
    out.length ≤ 4 := by
  by_contra hc
  exact four_shifts low high (h.agrees 4 (by omega))

theorem Refills.length_le {low high cur low' high' cur' : BitVec 32} {used : List Byte}
    (h : Refills low high cur used low' high' cur') : used.length ≤ 4 := by
  have : ∃ out, out.length = used.length ∧ Settles low high out low' high' := by
    induction h with
    | done low high cur h => exact ⟨[], rfl, .done _ _ h⟩
    | shift low high cur b used low' high' cur' h _ ih =>
      obtain ⟨out, ho, hs⟩ := ih
      exact ⟨_ :: out, by simp [ho], .shift _ _ _ _ _ h hs⟩
  obtain ⟨out, ho, hs⟩ := this
  rw [← ho]; exact hs.length_le

/-- A byte's bits are those of any number it is the low part of. -/
theorem bitsOf_eight (v : BitVec 32) : bitsOf v.toNat 8 = byteBits (v.setWidth 8) := by
  rw [byteBits, BitVec.toNat_setWidth, bitsOf_mod]

/-- The encoder's loop writes the bytes that leave the interval. -/
theorem renormalize_out {low high low' high' : BitVec 32} {out : List Byte} (h : Settles low high out low' high') {k : Nat}
    (hk : out.length ≤ k) (hs : s.sent = 0) (hw : CanWrite s (bytesBits out)) :
    renormalize shiftOut k low high () s = .ok (low', high', ()) (appended s (bytesBits out)) := by
  induction h generalizing s k with
  | done low high h =>
    cases k with
    | zero => simp [renormalize]
    | succ k => simp [renormalize, topAgrees_false.2 h]
  | shift low high out low' high' h _ ih =>
    cases k with
    | zero => simp at hk
    | succ k =>
      rw [bytesBits_cons] at hw ⊢
      rw [← bitsOf_eight] at hw ⊢
      have hp : shiftOut high () s = _ := putBits_ok (by decide) hs (canWrite_left hw)
      rw [renormalize, if_pos (topAgrees_iff.2 h), bind_ok hp, ih (by simpa using hk) (by simpa using hs) (canWrite_right hw),
        appended_appended hw]

/-- The decoder's loop reads the bytes it shifts in. -/
theorem renormalize_in {low high cur low' high' cur' : BitVec 32} {used : List Byte}
    (h : Refills low high cur used low' high' cur') {k : Nat} (hk : used.length ≤ k) (hr : CanRead s (bytesBits used)) :
    renormalize shiftIn k low high cur s = .ok (low', high', cur') (consumed s (bytesBits used).length) := by
  induction h generalizing s k with
  | done low high cur h =>
    cases k with
    | zero => simp [renormalize]
    | succ k => simp [renormalize, topAgrees_false.2 h]
  | shift low high cur b used low' high' cur' h _ ih =>
    cases k with
    | zero => simp at hk
    | succ k =>
      rw [bytesBits_cons] at hr ⊢
      have hb : getBits 8 s = _ := getBits_ok (length_byteBits b) (by simp [byteBits, bitsOf_eq_nil]) (canRead_left hr)
      have hsh : shiftIn high cur s = .ok ((cur <<< 8) ||| b.setWidth 32) (consumed s (byteBits b).length) := by
        rw [shiftIn, bind_ok hb, bitsValue_byteBits, length_byteBits, BitVec.ofNat_toNat]; rfl
      rw [renormalize, if_pos (topAgrees_iff.2 h), bind_ok hsh, ih (by simpa using hk) (canRead_right hr), consumed_consumed hr]

/-! ### The coders' steps -/

/-- The encoder's steps for a bit sequence (42_binary_coder R229). -/
theorem encodeBits_ok {e e' : BinaryEncoder} {bits : List Bool} {out : List Byte} (h : CodedBits e bits out e')
    (hs : s.sent = 0) (hw : CanWrite s (bytesBits out)) : encodeBits e bits s = .ok e' (appended s (bytesBits out)) := by
  induction h generalizing s with
  | nil e => simp [encodeBits]
  | zero e e' bits out out' low high hset _ ih =>
    rw [bytesBits_append] at hw ⊢
    have hr := renormalize_out hset hset.length_le hs (canWrite_left hw)
    have hb : encodeBit e false s = .ok { e with low := low, high := high, pred := e.pred.update false }
        (appended s (bytesBits out)) := by
      rw [encodeBit]; exact bind_ok hr _
    rw [encodeBits, bind_ok hb, ih (by simpa using hs) (canWrite_right hw), appended_appended hw]
  | one e e' bits out out' low high hset _ ih =>
    rw [bytesBits_append] at hw ⊢
    have hr := renormalize_out hset hset.length_le hs (canWrite_left hw)
    have hb : encodeBit e true s = .ok { e with low := low, high := high, pred := e.pred.update true }
        (appended s (bytesBits out)) := by
      rw [encodeBit]; exact bind_ok hr _
    rw [encodeBits, bind_ok hb, ih (by simpa using hs) (canWrite_right hw), appended_appended hw]

theorem encodeBits_append (e : BinaryEncoder) (as bs : List Bool) (s : State) :
    encodeBits e (as ++ bs) s = (encodeBits e as >>= fun e => encodeBits e bs) s := by
  induction as generalizing e s with
  | nil => rfl
  | cons a as ih =>
    rw [List.cons_append, encodeBits, encodeBits, bind_run, bind_run, bind_run]
    cases encodeBit e a s with
    | ok e t => simp only [ih]; rw [bind_run]
    | error c t => rfl

/-- The lazy seed (42_binary_coder R236). -/
theorem seed_ok {d : BinaryDecoder} {b3 b2 b1 b0 : Byte} (hd : d.seeded = false)
    (hr : CanRead s (bytesBits [b3, b2, b1, b0])) :
    seedDecoder d s = .ok { d with current := b3 ++ b2 ++ b1 ++ b0, seeded := true } (consumed s 32) := by
  have hb : getBits 32 s = _ := getBits_ok (n := 32) (by simp) (by rw [ne_eq, bytesBits_eq_nil]; simp) hr
  rw [seedDecoder, if_neg (by simp [hd]), bind_ok hb, pure_run]
  congr 2
  simp only [bytesBits_cons, bytesBits_nil, bitsValue_append, bitsValue_byteBits, List.length_append, length_byteBits,
    List.append_nil]
  apply BitVec.eq_of_toNat_eq
  simp only [BitVec.toNat_ofNat, toNat_append_byte]
  have h3 := b3.isLt; have h2 := b2.isLt; have h1 := b1.isLt; have h0 := b0.isLt
  rw [Nat.mod_eq_of_lt (by omega)]
  ring

theorem seedDecoder_seeded {d : BinaryDecoder} (hd : d.seeded = true) (s : State) : seedDecoder d s = .ok d s := by
  simp [seedDecoder, hd]

/-- A step of an unseeded decoder is a step of the seeded one, later (42_binary_coder R236). -/
theorem decodeBit_seed {d d1 : BinaryDecoder} {t : State} (h : seedDecoder d s = .ok d1 t) (h1 : d1.seeded = true) :
    decodeBit d s = decodeBit d1 t := by
  rw [decodeBit, decodeBit, bind_ok h, bind_ok (seedDecoder_seeded h1 t)]

theorem decodeBits_seed {d d1 : BinaryDecoder} {t : State} (h : seedDecoder d s = .ok d1 t) (h1 : d1.seeded = true) (n v : Nat) :
    decodeBits d (n + 1) v s = decodeBits d1 (n + 1) v t := by
  rw [decodeBits, decodeBits, bind_run, bind_run, decodeBit_seed h h1]

/-- The decoder's step for the bit 0 (42_binary_coder R238). -/
theorem decodeBit_zero {d : BinaryDecoder} {used : List Byte} {low high current : BitVec 32} (hs : d.seeded = true)
    (hlt : (splitPoint d.low d.high d.pred.probability).toNat < d.current.toNat)
    (h : Refills (splitPoint d.low d.high d.pred.probability + 1) d.high d.current used low high current)
    (hr : CanRead s (bytesBits used)) :
    decodeBit d s = .ok (false, { d with low := low, high := high, current := current, pred := d.pred.update false })
      (consumed s (bytesBits used).length) := by
  have hb : decide (d.current ≤ splitPoint d.low d.high d.pred.probability) = false := by
    rw [decide_eq_false_iff_not, BitVec.not_le]; exact hlt
  rw [decodeBit, bind_ok (seedDecoder_seeded hs s)]
  simp only [hb]
  exact bind_ok (renormalize_in h h.length_le hr) _

/-- The decoder's step for the bit 1 (42_binary_coder R238). -/
theorem decodeBit_one {d : BinaryDecoder} {used : List Byte} {low high current : BitVec 32} (hs : d.seeded = true)
    (hle : d.current.toNat ≤ (splitPoint d.low d.high d.pred.probability).toNat)
    (h : Refills d.low (splitPoint d.low d.high d.pred.probability) d.current used low high current)
    (hr : CanRead s (bytesBits used)) :
    decodeBit d s = .ok (true, { d with low := low, high := high, current := current, pred := d.pred.update true })
      (consumed s (bytesBits used).length) := by
  have hb : decide (d.current ≤ splitPoint d.low d.high d.pred.probability) = true := by
    rw [decide_eq_true_iff]; exact hle
  rw [decodeBit, bind_ok (seedDecoder_seeded hs s)]
  simp only [hb]
  exact bind_ok (renormalize_in h h.length_le hr) _

/-- The decoder's steps for a bit sequence (42_binary_coder R238, R239). -/
theorem decodeBits_ok {d d' : BinaryDecoder} {used : List Byte} {bits : List Bool} (h : DecodedBits d used bits d') (v : Nat)
    (hr : CanRead s (bytesBits used)) :
    decodeBits d bits.length v s = .ok (v * 2 ^ bits.length + bitsValue bits, d') (consumed s (bytesBits used).length) := by
  induction h generalizing s v with
  | nil d => simp [decodeBits]
  | seed d d' b3 b2 b1 b0 used bit bits hd _ ih =>
    have e : b3 :: b2 :: b1 :: b0 :: used = [b3, b2, b1, b0] ++ used := rfl
    rw [e, bytesBits_append] at hr ⊢
    rw [List.length_cons, decodeBits_seed (seed_ok hd (canRead_left hr)) rfl, ← List.length_cons (a := bit),
      ← consumed_consumed hr]
    exact ih v (canRead_right hr)
  | zero d d' used used' bits low high current hs hlt hre _ ih =>
    rw [bytesBits_append] at hr ⊢
    rw [List.length_cons, decodeBits, bind_ok (decodeBit_zero hs hlt hre (canRead_left hr))]
    simp only
    rw [ih _ (canRead_right hr), consumed_consumed hr, bitsValue_cons, pow_succ]
    congr 2
    simp; ring
  | one d d' used used' bits low high current hs hle hre _ ih =>
    rw [bytesBits_append] at hr ⊢
    rw [List.length_cons, decodeBits, bind_ok (decodeBit_one hs hle hre (canRead_left hr))]
    simp only
    rw [ih _ (canRead_right hr), consumed_consumed hr, bitsValue_cons, pow_succ]
    congr 2
    simp; ring

/-! ### Steps in a row -/

/-- The steps for two bit sequences in a row. -/
theorem CodedBits.split {e e' : BinaryEncoder} {as bs : List Bool} {out : List Byte} (h : CodedBits e (as ++ bs) out e') :
    ∃ o1 e1 o2, CodedBits e as o1 e1 ∧ CodedBits e1 bs o2 e' ∧ out = o1 ++ o2 := by
  induction as generalizing e out with
  | nil => exact ⟨[], e, out, .nil e, h, rfl⟩
  | cons a as ih =>
    cases h with
    | zero _ _ _ o o' low high hs h =>
      obtain ⟨o1, e1, o2, h1, h2, rfl⟩ := ih h
      exact ⟨o ++ o1, e1, o2, .zero _ _ _ _ _ _ _ hs h1, h2, by simp⟩
    | one _ _ _ o o' low high hs h =>
      obtain ⟨o1, e1, o2, h1, h2, rfl⟩ := ih h
      exact ⟨o ++ o1, e1, o2, .one _ _ _ _ _ _ _ hs h1, h2, by simp⟩

/-- The decoder's steps for two bit sequences in a row. -/
theorem DecodedBits.split {d d' : BinaryDecoder} {as bs : List Bool} {used : List Byte} (h : DecodedBits d used (as ++ bs) d') :
    ∃ u1 d1 u2, DecodedBits d u1 as d1 ∧ DecodedBits d1 u2 bs d' ∧ used = u1 ++ u2 := by
  generalize hb : as ++ bs = all at h
  induction h generalizing as with
  | nil d =>
    obtain ⟨rfl, rfl⟩ := List.append_eq_nil_iff.1 hb
    exact ⟨[], d, [], .nil d, .nil d, rfl⟩
  | seed d d' b3 b2 b1 b0 used bit bits hd h ih =>
    cases as with
    | nil => exact ⟨[], d, _, .nil d, by simp at hb; rw [hb]; exact .seed _ _ _ _ _ _ _ _ _ hd h, rfl⟩
    | cons a as =>
      obtain ⟨u1, d1, u2, h1, h2, rfl⟩ := ih hb
      simp only [List.cons_append, List.cons.injEq] at hb
      obtain ⟨rfl, -⟩ := hb
      exact ⟨b3 :: b2 :: b1 :: b0 :: u1, d1, u2, .seed _ _ _ _ _ _ _ _ _ hd h1, h2, rfl⟩
  | zero d d' used used' bits low high cur hs hlt hr h ih =>
    cases as with
    | nil => exact ⟨[], d, _, .nil d, by simp at hb; rw [hb]; exact .zero _ _ _ _ _ _ _ _ hs hlt hr h, rfl⟩
    | cons a as =>
      simp only [List.cons_append, List.cons.injEq] at hb
      obtain ⟨rfl, hb⟩ := hb
      obtain ⟨u1, d1, u2, h1, h2, rfl⟩ := ih hb
      exact ⟨used ++ u1, d1, u2, .zero _ _ _ _ _ _ _ _ hs hlt hr h1, h2, by simp⟩
  | one d d' used used' bits low high cur hs hlt hr h ih =>
    cases as with
    | nil => exact ⟨[], d, _, .nil d, by simp at hb; rw [hb]; exact .one _ _ _ _ _ _ _ _ hs hlt hr h, rfl⟩
    | cons a as =>
      simp only [List.cons_append, List.cons.injEq] at hb
      obtain ⟨rfl, hb⟩ := hb
      obtain ⟨u1, d1, u2, h1, h2, rfl⟩ := ih hb
      exact ⟨used ++ u1, d1, u2, .one _ _ _ _ _ _ _ _ hs hlt hr h1, h2, by simp⟩

end Sys2Proof.Machine
end

