-- ==== Sys2Proof/Laws/Golomb.lean ====
section
/-! SUPPORT. What the Golomb coders' operations do (46_golomb R361 to R376), said once: each writes or reads the bits of a code. -/

namespace Sys2Proof.Machine

variable {α β : Type} {s t : State}

/-! ### Sequences of writes and reads -/

/-- Two writes in order write both bit sequences. -/
theorem write_then {x : M Unit} {f : Unit → M β} {v w : List Bool} {b : β} (h : CanWrite s (v ++ w))
    (hx : x s = .ok () (appended s v)) (hf : f () (appended s v) = .ok b (appended (appended s v) w)) :
    (x >>= f) s = .ok b (appended s (v ++ w)) := by
  rw [bind_ok hx, hf, appended_appended h]

/-- Two reads in order read both bit sequences. -/
theorem read_then {x : M α} {f : α → M β} {v w : List Bool} {a : α} {b : β} (h : CanRead s (v ++ w))
    (hx : x s = .ok a (consumed s v.length)) (hf : f a (consumed s v.length) = .ok b (consumed (consumed s v.length) w.length)) :
    (x >>= f) s = .ok b (consumed s (v ++ w).length) := by
  rw [bind_ok hx, hf, consumed_consumed h]

theorem bitsOf_one (b : Bool) : bitsOf b.toNat 1 = [b] := by cases b <;> decide

theorem bitsValue_one (b : Bool) : bitsValue [b] = b.toNat := by cases b <;> rfl

/-! ### The encoders -/

/-- One bit read. -/
theorem getBit_ok {b : Bool} (h : CanRead s [b]) : getBits 1 s = .ok b.toNat (consumed s 1) := by
  have := getBits_ok (n := 1) (w := [b]) rfl (by simp) h
  rwa [bitsValue_one] at this

theorem putZeros_ok {n : Nat} (hs : s.sent = 0) (h : CanWrite s (List.replicate n false)) :
    putZeros n s = .ok () (appended s (List.replicate n false)) := by
  induction n generalizing s with
  | zero => simp [putZeros]
  | succ n ih =>
    rw [show List.replicate (n + 1) false = [false] ++ List.replicate n false from rfl] at h ⊢
    rw [putZeros]
    exact write_then h (putBits_ok (by decide) hs (canWrite_left h)) (ih (by simpa using hs) (canWrite_right h))

/-- The sign bit is written after a magnitude that is not 0, in signed mode (46_golomb R361). -/
theorem putSign_ok {signed neg : Bool} {m : Nat} (hs : s.sent = 0) (h : CanWrite s (signBits signed m neg)) :
    putSign signed m neg s = .ok () (appended s (signBits signed m neg)) := by
  by_cases hc : signed = true ∧ m ≠ 0
  · rw [signBits, if_pos hc] at h ⊢
    rw [putSign, if_pos (by simp [hc]), putBits_ok (by decide) hs (by rw [bitsOf_one]; exact h), bitsOf_one]
  · rw [signBits, if_neg hc] at h ⊢
    rw [putSign, if_neg (by simpa using hc)]
    simp

/-- `egCode` (46_golomb R363) writes the exp-Golomb code. -/
theorem putExpGolomb_ok {signed neg : Bool} {m : Nat} (hs : s.sent = 0) (h : CanWrite s (expGolombBits signed m neg)) :
    putExpGolomb signed m neg s = .ok () (appended s (expGolombBits signed m neg)) := by
  rw [expGolombBits, List.append_assoc] at h ⊢
  refine write_then h (putZeros_ok hs (canWrite_left h)) ?_
  have h2 := canWrite_right h
  exact write_then h2 (putBits_ok (by omega) (by simpa using hs) (canWrite_left h2))
    (putSign_ok (by simpa using hs) (canWrite_right h2))

/-- `rgCode` (46_golomb R373) writes the Rice code, for a `logBase` that is not 0. -/
theorem putRice_ok {signed neg : Bool} {k m : Nat} (hk : k ≠ 0) (hs : s.sent = 0) (h : CanWrite s (riceBits signed k m neg)) :
    putRice signed k m neg s = .ok () (appended s (riceBits signed k m neg)) := by
  have e : riceBits signed k m neg =
      List.replicate (m / 2 ^ k) false ++ ([true] ++ (bitsOf (m % 2 ^ k) k ++ signBits signed m neg)) := by simp [riceBits]
  rw [e] at h ⊢
  rw [putRice, Nat.shiftRight_eq_div_pow]
  refine write_then h (putZeros_ok hs (canWrite_left h)) ?_
  have h2 := canWrite_right h
  refine write_then h2 (putBits_ok (by decide) (by simpa using hs) (canWrite_left h2)) ?_
  have h3 := canWrite_right h2
  exact write_then h3 (putBits_ok hk (by simpa using hs) (canWrite_left h3)) (putSign_ok (by simpa using hs) (canWrite_right h3))

/-! ### The decoders -/

/-- The zero bits before a one bit are counted, whatever bound is above their number (46_golomb R366, R376). -/
theorem countZeros_ok {n k i : Nat} (hk : n < k) (h : CanRead s (List.replicate n false ++ [true])) :
    countZeros k i s = .ok (i + n) (consumed s (n + 1)) := by
  induction n generalizing s k i with
  | zero =>
    obtain ⟨k, rfl⟩ := Nat.exists_eq_succ_of_ne_zero (by omega : k ≠ 0)
    rw [countZeros, bind_ok (getBit_ok h)]
    rfl
  | succ n ih =>
    obtain ⟨k, rfl⟩ := Nat.exists_eq_succ_of_ne_zero (by omega : k ≠ 0)
    rw [show List.replicate (n + 1) false ++ [true] = [false] ++ (List.replicate n false ++ [true]) from rfl] at h
    have hl : n + 1 + 1 = ([false] ++ (List.replicate n false ++ [true])).length := by simp
    rw [countZeros, hl]
    refine read_then h (getBits_ok rfl (by simp) (canRead_left h)) ?_
    have h2 := canRead_right h
    rw [if_pos (by rfl), ih (by omega) h2]
    simp [Nat.add_assoc, Nat.add_comm 1]

/-- The reader cannot give more bits than it holds and has been answered. -/
theorem length_lt_bitsInReach {w : List Bool} (hw : w ≠ []) (h : CanRead s w) : w.length < bitsInReach s := by
  obtain ⟨-, -, h⟩ := h.resolve_left hw
  have h1 := h.length_le
  have h2 := length_answeredBytes_le s.source
  have h3 : (incoming s).length ≤ s.bsr.bytes.length + s.source.length := by
    rw [incoming]; split <;> simp [h2]
  rw [unread, List.length_drop, length_bytesBits] at h1
  rw [bitsInReach]
  omega

theorem unaryZeros_ok {n : Nat} (h : CanRead s (List.replicate n false ++ [true])) :
    unaryZeros s = .ok n (consumed s (n + 1)) := by
  have hl := length_lt_bitsInReach (by simp) h
  rw [unaryZeros, look_run, countZeros_ok (by simp at hl; omega) h, Nat.zero_add]

theorem appendBits_ok {x : Nat} {w : List Bool} (h : CanRead s w) :
    appendBits w.length x s = .ok (x * 2 ^ w.length + bitsValue w) (consumed s w.length) := by
  induction w generalizing s x with
  | nil => simp [appendBits, bitsValue, consumed]
  | cons b w ih =>
    rw [show b :: w = [b] ++ w from rfl] at h
    rw [show b :: w = [b] ++ w from rfl, show ([b] ++ w).length = w.length + 1 by simp, appendBits]
    have := read_then (f := fun b => appendBits w.length (2 * x + b)) h (getBit_ok (canRead_left h))
      (ih (x := 2 * x + b.toNat) (canRead_right h))
    rw [show ([b] ++ w).length = w.length + 1 by simp] at this
    rw [this, List.singleton_append, bitsValue_cons]
    congr 1
    ring

theorem getSign_ok {signed neg : Bool} {m : Nat} (h : CanRead s (signBits signed m neg)) :
    getSign signed m s = .ok (decide (signed = true ∧ m ≠ 0 ∧ neg = true)) (consumed s (signBits signed m neg).length) := by
  by_cases hc : signed = true ∧ m ≠ 0
  · rw [signBits, if_pos hc] at h ⊢
    rw [getSign, if_pos (by simp [hc]), bind_ok (getBit_ok h), pure_run]
    cases neg <;> simp [hc]
  · rw [signBits, if_neg hc]
    rw [getSign, if_neg (by simpa using hc)]
    have : ¬(signed = true ∧ m ≠ 0 ∧ neg = true) := fun h => hc ⟨h.1, h.2.1⟩
    simp [this, consumed]

theorem signedByte_eq (signed neg : Bool) (m : Nat) :
    signedByte (decide (signed = true ∧ m ≠ 0 ∧ neg = true)) m = golombByte signed m neg := by
  rw [signedByte, golombByte]
  by_cases h : signed = true ∧ m ≠ 0 ∧ neg = true
  · rw [if_pos (by simpa using h), if_pos h, BitVec.ofInt_neg, BitVec.ofInt_natCast]
  · rw [if_neg (by simpa using h), if_neg h]

/-- The bits of a number behind its leading one. -/
theorem bitsOf_leading (m : Nat) : bitsOf (m + 1) (Nat.log2 (m + 1) + 1) = true :: bitsOf (m + 1) (Nat.log2 (m + 1)) := by
  rw [bitsOf_succ]
  congr 1
  rw [Nat.testBit_eq_decide_div_mod_eq]
  have h1 := Nat.log2_self_le (n := m + 1) (by omega)
  have h2 : m + 1 < 2 ^ (Nat.log2 (m + 1) + 1) := Nat.lt_log2_self
  have : (m + 1) / 2 ^ Nat.log2 (m + 1) = 1 := by
    apply Nat.div_eq_of_lt_le <;> rw [pow_succ] at * <;> omega
  simp [this]

/-- `egDecode` reads a whole code (46_golomb R366). -/
theorem egdElement_ok {m : Nat} {neg : Bool} (h : CanRead s (expGolombBits s.egd.signed m neg)) :
    egdElement s = .ok (golombByte s.egd.signed m neg) (consumed s (expGolombBits s.egd.signed m neg).length) := by
  have e : expGolombBits s.egd.signed m neg = (List.replicate (Nat.log2 (m + 1)) false ++ [true]) ++
      (bitsOf (m + 1) (Nat.log2 (m + 1)) ++ signBits s.egd.signed m neg) := by
    rw [expGolombBits, bitsOf_leading]; simp
  rw [e] at h ⊢
  rw [egdElement, look_run]
  have hv : 1 * 2 ^ (bitsOf (m + 1) (Nat.log2 (m + 1))).length + bitsValue (bitsOf (m + 1) (Nat.log2 (m + 1))) = m + 1 := by
    rw [length_bitsOf, bitsValue_bitsOf]
    have h1 := Nat.log2_self_le (n := m + 1) (by omega)
    have h2 : m + 1 < 2 ^ (Nat.log2 (m + 1) + 1) := Nat.lt_log2_self
    rw [pow_succ] at h2
    rw [Nat.mod_eq_sub_mod h1, Nat.mod_eq_of_lt (by omega)]
    omega
  refine read_then h (a := Nat.log2 (m + 1)) ?_ ?_
  · have := unaryZeros_ok (canRead_left h)
    simpa using this
  · have h2 := canRead_right h
    refine read_then h2 (a := m + 1) ?_ ?_
    · have := appendBits_ok (x := 1) (canRead_left h2)
      rw [hv] at this
      simpa using this
    · have h3 := canRead_right h2
      rw [Nat.add_sub_cancel]
      rw [bind_ok (getSign_ok h3), pure_run, signedByte_eq]

/-- Reading no bit behind a read changes nothing. -/
theorem getBits_zero (h1 : s.bsr.ustate ≠ .uninit) (h2 : s.bsr.closed = false)
    (h3 : (s.bsr.read.toNat + 7) / 8 ≤ s.bsr.bytes.length) : getBits 0 s = .ok 0 s := by
  rw [getBits, look_run, if_neg h1, if_neg (by simp [h2])]
  have : bytesNeeded s.bsr 0 - s.bsr.bytes.length = 0 := by rw [bytesNeeded]; omega
  rw [this]
  cases s with
  | _ params cmd arg0 arg1 arg2 arg3 res status bsw bsr =>
    cases bsr
    simp [takeBytes, bind_run, streamField, bitsValue]

/-- A read leaves the bytes it read from in the reader. -/
theorem consumed_bytes {w : List Bool} (hw : w ≠ []) (h : CanRead s w) :
    ((consumed s w.length).bsr.read.toNat + 7) / 8 ≤ (consumed s w.length).bsr.bytes.length := by
  obtain ⟨-, h3, h4⟩ := h.resolve_left hw
  have hle := bytesNeeded_le hw h4
  rw [consumed_read h3]
  rw [consumed_of_ne (by simpa using hw), List.length_append, List.length_take]
  rw [incoming] at hle
  split at hle <;> simp at hle <;> omega

/-- `rgDecode` reads a whole code (46_golomb R376). -/
theorem rgdElement_ok {m : Nat} {neg : Bool} (h : CanRead s (riceBits s.rgd.signed s.rgd.logBase.toNat m neg)) :
    rgdElement s = .ok (golombByte s.rgd.signed m neg)
      (consumed s (riceBits s.rgd.signed s.rgd.logBase.toNat m neg).length) := by
  generalize hk : s.rgd.logBase.toNat = k at h ⊢
  have e : riceBits s.rgd.signed k m neg = (List.replicate (m / 2 ^ k) false ++ [true]) ++
      (bitsOf (m % 2 ^ k) k ++ signBits s.rgd.signed m neg) := by simp [riceBits]
  rw [e] at h ⊢
  rw [rgdElement, look_run, hk]
  refine read_then h (a := m / 2 ^ k) ?_ ?_
  · have := unaryZeros_ok (canRead_left h)
    simpa using this
  · have h2 := canRead_right h
    refine read_then h2 (a := m % 2 ^ k) ?_ ?_
    · by_cases h0 : k = 0
      · subst h0
        have hc := canRead_left h
        obtain ⟨⟨h5, h6⟩, -, -⟩ := hc.resolve_left (by simp)
        rw [getBits_zero (by rw [consumed_ustate, h5]; decide) (by rw [consumed_closed, h6]) (consumed_bytes (by simp) hc)]
        simp [Nat.mod_one, consumed]
      · have := getBits_ok (length_bitsOf _ _) (by simpa [bitsOf_eq_nil] using h0) (canRead_left h2)
        rw [bitsValue_bitsOf, Nat.mod_mod] at this
        simpa using this
    · have h3 := canRead_right h2
      simp only [Nat.div_add_mod']
      rw [bind_ok (getSign_ok h3), pure_run, signedByte_eq]

end Sys2Proof.Machine
end

