-- ==== Sys2Proof/Laws/Table.lean ====
section
/-! SUPPORT. What a table reads after each operation on it. -/

namespace Sys2Proof.Machine

variable {α : Type} {n : Nat}

/-- Two tables with the same cells are equal. -/
theorem Table.ext_cells {t u : Table α n} (h : t.cells = u.cells) : t = u := by
  cases t; cases u; cases h; rfl

theorem Table.get_set_self (t : Table α n) {i : Nat} (h : i < n) (x d : α) : (t.set i x).get i d = x := by
  have hl : i < t.cells.length := by rw [t.size]; exact h
  simp [Table.get, Table.set, List.getD_eq_getElem?_getD, hl]

theorem Table.get_set_other (t : Table α n) {i j : Nat} (h : i ≠ j) (x d : α) : (t.set i x).get j d = t.get j d := by
  simp [Table.get, Table.set, List.getD_eq_getElem?_getD, List.getElem?_set_ne h]

theorem Table.get_ofFn (f : Nat → α) {i : Nat} (h : i < n) (d : α) : (Table.ofFn n f).get i d = f i := by
  simp [Table.get, Table.ofFn, List.getD_eq_getElem?_getD, h]

theorem Table.get_fill (x : α) {i : Nat} (h : i < n) (d : α) : (Table.fill n x).get i d = x := by
  simp [Table.get, Table.fill, List.getD_eq_getElem?_getD, h]

/-- Past the end a table reads as the fallback. -/
theorem Table.get_past (t : Table α n) {i : Nat} (h : n ≤ i) (d : α) : t.get i d = d := by
  have hl : t.cells.length ≤ i := by rw [t.size]; exact h
  simp [Table.get, List.getD_eq_getElem?_getD, List.getElem?_eq_none hl]

theorem getD_mapFrom (f : α → α) (k : Nat) (xs : List α) (i : Nat) (d : α) (h : i < xs.length) :
    (mapFrom f k xs).getD i d = if k ≤ i then f (xs.getD i d) else xs.getD i d := by
  induction xs generalizing k i with
  | nil => simp at h
  | cons x xs ih =>
    cases k <;> cases i <;> simp_all [mapFrom, List.getD_eq_getElem?_getD]

/-- Entry `i` of a table updated from `k` on. -/
theorem Table.get_updateFrom (t : Table α n) (k : Nat) (f : α → α) {i : Nat} (h : i < n) (d : α) :
    (t.updateFrom k f).get i d = if k ≤ i then f (t.get i d) else t.get i d :=
  getD_mapFrom f k t.cells i d (by rw [t.size]; exact h)

end Sys2Proof.Machine
end

