-- ==== Sys2Proof/Laws/Huffman.lean ====
section
/-! SUPPORT. What the Huffman coders' operations do (45_huffman R328, R329, R341, R342), said once: header and code words are
bits written or read in order. -/

namespace Sys2Proof.Machine

variable {s t : State}

/-! ### The encoder -/

theorem putFields_ok {w : Nat} {vs : List Nat} (hw : w ≠ 0) (hs : s.sent = 0) (h : CanWrite s (vs.flatMap fun v => bitsOf v w)) :
    putFields w vs s = .ok () (appended s (vs.flatMap fun v => bitsOf v w)) := by
  induction vs generalizing s with
  | nil => simp [putFields]
  | cons v vs ih =>
    rw [List.flatMap_cons] at h ⊢
    exact write_then h (putBits_ok hw hs (canWrite_left h)) (ih (by simpa using hs) (canWrite_right h))

/-- The header's length field width is the width of its bits (45_huffman R328). -/
theorem writeHeader_ok {sizes : Table (BitVec 8) 256} (hs : s.sent = 0)
    (h : CanWrite s (headerBits (lengthWidth sizes) (lengthsOf sizes))) :
    writeHeader sizes s = .ok () (appended s (headerBits (lengthWidth sizes) (lengthsOf sizes))) := by
  have e : headerBits (lengthWidth sizes) (lengthsOf sizes) = [true] ++ (bitsOf (lengthWidth sizes) 5 ++
      (if lengthWidth sizes = 0 then [] else (lengthsOf sizes).flatMap fun l => bitsOf l (lengthWidth sizes))) := by
    simp [headerBits]
  rw [e] at h ⊢
  rw [writeHeader]
  refine write_then h (putBits_ok (by decide) hs (canWrite_left h)) ?_
  have h2 := canWrite_right h
  refine write_then h2 (putBits_ok (by decide) (by simpa using hs) (canWrite_left h2)) ?_
  have h3 := canWrite_right h2
  by_cases hw : lengthWidth sizes = 0
  · rw [if_pos hw, if_pos hw]; simp
  · rw [if_neg hw] at h3 ⊢
    rw [if_neg hw]
    exact putFields_ok hw (by simpa using hs) h3

/-- The longest code is at least as long as each. -/
theorem sizeAt_le_longest (sizes : Table (BitVec 8) 256) {sym : Nat} (h : sym < 256) : sizeAt sizes sym ≤ longestCode sizes := by
  by_cases h0 : sizeAt sizes sym = 0
  · omega
  have hm : sym ∈ presentSymbols sizes := by simp [presentSymbols, h, h0]
  have key : ∀ (l : List Nat) (m : Nat), m ≤ l.foldl (fun m sym => max m (sizeAt sizes sym)) m ∧
      ∀ x ∈ l, sizeAt sizes x ≤ l.foldl (fun m sym => max m (sizeAt sizes sym)) m := by
    intro l
    induction l with
    | nil => simp
    | cons y l ih =>
      intro m
      have := ih (max m (sizeAt sizes y))
      refine ⟨(le_max_left _ _).trans this.1, fun x hx => ?_⟩
      rcases List.mem_cons.1 hx with rfl | hx
      · exact (le_max_right _ _).trans this.1
      · exact this.2 x hx
  exact (key _ 0).2 sym hm

/-- The width of the length fields is the least one that holds every length (45_huffman R328). -/
theorem lengthWidth_least (sizes : Table (BitVec 8) 256) :
    (∀ sym < 256, sizeAt sizes sym < 2 ^ lengthWidth sizes) ∧
      ∀ w, (∀ sym < 256, sizeAt sizes sym < 2 ^ w) → lengthWidth sizes ≤ w := by
  have hmem : longestCode sizes = 0 ∨ ∃ sym < 256, sizeAt sizes sym = longestCode sizes := by
    have key : ∀ (l : List Nat) (m : Nat), l.foldl (fun m sym => max m (sizeAt sizes sym)) m = m ∨
        ∃ x ∈ l, sizeAt sizes x = l.foldl (fun m sym => max m (sizeAt sizes sym)) m := by
      intro l
      induction l with
      | nil => simp
      | cons y l ih =>
        intro m
        rw [List.foldl_cons]
        rcases ih (max m (sizeAt sizes y)) with h | ⟨x, hx, h⟩
        · rw [h]
          rcases le_total m (sizeAt sizes y) with h' | h'
          · exact .inr ⟨y, by simp, by omega⟩
          · exact .inl (by omega)
        · exact .inr ⟨x, by simp [hx], h⟩
    rcases key (presentSymbols sizes) 0 with h | ⟨x, hx, h⟩
    · exact .inl h
    · exact .inr ⟨x, by simp [presentSymbols] at hx; exact hx.1, h⟩
  rw [lengthWidth]
  split
  · next h0 =>
    refine ⟨fun sym h => ?_, fun w _ => by omega⟩
    have := sizeAt_le_longest sizes h
    simp; omega
  · next h0 =>
    refine ⟨fun sym h => (sizeAt_le_longest sizes h).trans_lt Nat.lt_log2_self, fun w h => ?_⟩
    obtain ⟨sym, hs, he⟩ := hmem.resolve_left h0
    have := h sym hs
    rw [he] at this
    exact (Nat.log2_lt h0).2 this

/-- The code words of the bytes of an array, in order (45_huffman R329). -/
theorem hfe_encodeFrom_ok {start n i : Nat} (hs : s.sent = 0) (hsz : ∀ b ∈ arrayBytes s (start + i) n, sizeAt s.hfe.sizes b.toNat ≠ 0)
    (h : CanWrite s (codeWords s.hfe.sizes s.hfe.codes (arrayBytes s (start + i) n))) :
    encodeFrom noChunk hfeElement start n i s =
      .ok () (appended s (codeWords s.hfe.sizes s.hfe.codes (arrayBytes s (start + i) n))) := by
  induction n generalizing s i with
  | zero => simp [codeWords, arrayBytes]
  | succ n ih =>
    rw [arrayBytes_succ] at h hsz ⊢
    have e : codeWords s.hfe.sizes s.hfe.codes (dataByte s (start + i) :: arrayBytes s (start + i + 1) n) =
        codeWord s.hfe.sizes s.hfe.codes (dataByte s (start + i)).toNat ++
          codeWords s.hfe.sizes s.hfe.codes (arrayBytes s (start + i + 1) n) := by simp [codeWords]
    rw [e] at h ⊢
    have hel : hfeElement (dataByte s (start + i)) s =
        .ok () (appended s (codeWord s.hfe.sizes s.hfe.codes (dataByte s (start + i)).toNat)) := by
      rw [hfeElement, look_run]
      exact putBits_ok (hsz _ (by simp)) hs (canWrite_left h)
    have hh : ∀ w, (appended s w).hfe = s.hfe := fun w => by by_cases h : w = [] <;> simp [appended, h, handed]
    have ha : ∀ w, arrayBytes (appended s w) (start + (i + 1)) n = arrayBytes s (start + i + 1) n := fun w => by
      rw [arrayBytes_congr (s := s) (appended_data s w), Nat.add_assoc]
    have := ih (s := appended s (codeWord s.hfe.sizes s.hfe.codes (dataByte s (start + i)).toNat)) (i := i + 1)
      (by simpa using hs) (by rw [ha, hh]; exact fun b hb => hsz b (by simp [hb])) (by rw [ha, hh]; exact canWrite_right h)
    rw [encodeFrom_succ (noChunk_run _ _) hel, this, ha, hh, appended_appended h]

/-! ### The decoder -/

theorem getFields_ok {w : Nat} {vs : List Nat} (hw : w ≠ 0) (hv : ∀ v ∈ vs, v < 2 ^ w)
    (h : CanRead s (vs.flatMap fun v => bitsOf v w)) :
    getFields w vs.length s = .ok vs (consumed s (vs.flatMap fun v => bitsOf v w).length) := by
  induction vs generalizing s with
  | nil => simp [getFields, consumed]
  | cons v vs ih =>
    rw [List.flatMap_cons] at h ⊢
    rw [List.length_cons, getFields]
    have h1 := getBits_ok (length_bitsOf v w) (by simpa [bitsOf_eq_nil] using hw) (canRead_left h)
    rw [bitsValue_bitsOf, Nat.mod_eq_of_lt (hv v (by simp))] at h1
    refine read_then h (by simpa using h1) ?_
    rw [bind_ok (ih (fun x hx => hv x (by simp [hx])) (canRead_right h)), pure_run]

theorem kraftSum_eq (lengths : List Nat) :
    kraftSum lengths = ((lengths.filter (· ≠ 0)).map fun l => 2 ^ (64 - l)).sum := by
  rw [kraftSum]
  induction lengths with
  | nil => rfl
  | cons l ls ih =>
    rw [List.map_cons, List.sum_cons, ih]
    by_cases h : l = 0 <;> simp [h]

/-- The header's validation is 45_huffman R342's. -/
theorem headerValid_iff (lengths : List Nat) : headerValid lengths = true ↔ LengthsAllowed lengths := by
  have e : lengths.filter (fun l => l != 0) = lengths.filter (fun l => decide (l ≠ 0)) := by
    congr 1; funext l; by_cases h : l = 0 <;> simp [h]
  rw [headerValid, LengthsAllowed, kraftSum_eq, e]
  generalize lengths.filter (fun l => decide (l ≠ 0)) = present
  simp only [Bool.and_eq_true, List.all_eq_true, decide_eq_true_eq]
  refine and_congr_right fun _ => ?_
  by_cases h1 : present.length = 1
  · simp [h1]
  · by_cases h2 : 2 ≤ present.length
    · simp [h1, h2]
    · simp [h1, h2]

theorem length_lengthsOf (sizes : Table (BitVec 8) 256) : (lengthsOf sizes).length = 256 := by simp [lengthsOf]

/-- The table whose lengths are those of `sizes` is `sizes`. -/
theorem ofFn_lengthsOf (sizes : Table (BitVec 8) 256) :
    (Table.ofFn 256 fun sym => BitVec.ofNat 8 ((lengthsOf sizes).getD sym 0)) = sizes := by
  apply Table.ext_cells
  apply List.ext_getElem
  · rw [Table.size, Table.size]
  · intro i h1 h2
    rw [Table.size] at h1
    have : (lengthsOf sizes).getD i 0 = sizeAt sizes i := by simp [lengthsOf, List.getD_eq_getElem?_getD, h1]
    simp only [Table.ofFn, List.getElem_map, List.getElem_range, this, sizeAt, Table.get]
    rw [BitVec.ofNat_toNat, BitVec.setWidth_eq, List.getD_eq_getElem?_getD, List.getElem?_eq_getElem h2, Option.getD_some]

/-- A header that holds the lengths of `sizes` (45_huffman R342): it answers them, or `INVALID_STREAM` where they are not
allowed. -/
theorem readHeader_run {sizes : Table (BitVec 8) 256} {w : Nat} (hw : w < 32) (hl : ∀ sym < 256, sizeAt sizes sym < 2 ^ w)
    (h : CanRead s (headerBits w (lengthsOf sizes))) :
    readHeader s =
      if headerValid (lengthsOf sizes) then .ok sizes (consumed s (headerBits w (lengthsOf sizes)).length)
      else .error (.fault .invalidStream) (consumed s (headerBits w (lengthsOf sizes)).length) := by
  have e : headerBits w (lengthsOf sizes) = [true] ++ (bitsOf w 5 ++
      (if w = 0 then [] else (lengthsOf sizes).flatMap fun l => bitsOf l w)) := by simp [headerBits]
  rw [e] at h ⊢
  have h2 := canRead_right h
  have h3 := canRead_right h2
  have hb := getBits_ok (length_bitsOf w 5) (by simp [bitsOf_eq_nil]) (canRead_left h2)
  rw [bitsValue_bitsOf, Nat.mod_eq_of_lt (by omega)] at hb
  rw [readHeader, bind_ok (getBit_ok (canRead_left h)), if_neg (by simp)]
  have hf : ∀ K : List Nat → M (Table (BitVec 8) 256),
      (if w = 0 then pure (List.replicate 256 0) >>= K else getFields w 256 >>= K : M _) (consumed (consumed s 1) 5) =
        K (lengthsOf sizes)
          (consumed s ([true] ++ (bitsOf w 5 ++ (if w = 0 then [] else (lengthsOf sizes).flatMap fun l => bitsOf l w))).length) := by
    intro K
    have ec := consumed_consumed h
    rw [← consumed_consumed h2] at ec
    rw [← ec]
    simp only [length_bitsOf, List.length_singleton]
    by_cases h0 : w = 0
    · subst h0
      have hz : lengthsOf sizes = List.replicate 256 0 := by
        refine List.eq_replicate_iff.2 ⟨length_lengthsOf _, fun b hb => ?_⟩
        simp only [lengthsOf, List.mem_map, List.mem_range] at hb
        obtain ⟨sym, hs, rfl⟩ := hb
        have := hl sym hs
        omega
      rw [if_pos rfl, if_pos rfl, hz]
      rfl
    · rw [if_neg h0] at h3 ⊢
      rw [if_neg h0]
      have := getFields_ok h0 (vs := lengthsOf sizes) (fun v hv => by
        simp only [lengthsOf, List.mem_map, List.mem_range] at hv
        obtain ⟨sym, hs, rfl⟩ := hv
        exact hl sym hs) h3
      rw [length_lengthsOf] at this
      simp only [length_bitsOf, List.length_singleton] at this
      exact bind_ok this K
  have hb' : getBits 5 (consumed s 1) = .ok w (consumed (consumed s 1) 5) := hb
  rw [bind_ok hb']
  refine (hf _).trans ?_
  by_cases hv : headerValid (lengthsOf sizes) = true
  · simp only [if_pos hv, ofFn_lengthsOf, pure_run]
  · simp only [if_neg hv, raise_run]

/-- The symbol whose code word has been read is found, and no other: codes are unique (45_huffman R341). -/
theorem matchCode_eq {h : Huffman} {sym l v : Nat} (hu : Uniquely h.sizes h.codes) (hs : sym < 256) (h0 : sizeAt h.sizes sym ≠ 0)
    {w : List Bool} (hp : w <+: codeWord h.sizes h.codes sym) (hl : w.length = l) (hv : bitsValue w = v) :
    matchCode h v l = if l = sizeAt h.sizes sym then some sym else none := by
  have hlen : (codeWord h.sizes h.codes sym).length = sizeAt h.sizes sym := length_bitsOf _ _
  have key : ∀ x ∈ presentSymbols h.sizes, (sizeAt h.sizes x == l && codeAt h.codes x == v) = true → x = sym := by
    intro x hx hm
    simp only [presentSymbols, List.mem_filter, List.mem_range, bne_iff_ne] at hx
    simp only [Bool.and_eq_true, beq_iff_eq] at hm
    refine hu.2 x hx.1 sym hs hx.2 h0 ?_
    have : codeWord h.sizes h.codes x = w := by
      apply bitsValue_inj
      · rw [codeWord, length_bitsOf, hl, hm.1]
      · rw [codeWord, bitsValue_bitsOf, Nat.mod_eq_of_lt (hu.1 x hx.1 hx.2), hv, hm.2]
    rw [this]; exact hp
  rw [matchCode]
  split
  · next hls =>
    have hw : w = codeWord h.sizes h.codes sym := hp.eq_of_length (by rw [hl, hls, hlen])
    have hcv : codeAt h.codes sym = v := by
      rw [← hv, hw, codeWord, bitsValue_bitsOf, Nat.mod_eq_of_lt (hu.1 sym hs h0)]
    cases hf : (presentSymbols h.sizes).find? fun x => sizeAt h.sizes x == l && codeAt h.codes x == v with
    | none =>
      have := List.find?_eq_none.1 hf sym (by simp [presentSymbols, hs, h0])
      simp [hls, hcv] at this
    | some x =>
      have hb := List.find?_some (p := fun x => sizeAt h.sizes x == l && codeAt h.codes x == v) hf
      rw [key x (List.mem_of_find?_eq_some hf) hb]
  · next hls =>
    rw [List.find?_eq_none]
    intro x hx hm
    have := key x hx hm
    subst this
    simp only [Bool.and_eq_true, beq_iff_eq] at hm
    exact hls hm.1.symm

/-- The descent through the rest `w` of a code word of which `p` has been read (45_huffman R341). -/
theorem descend_ok {h : Huffman} {sym n : Nat} {p w : List Bool} (hu : Uniquely h.sizes h.codes) (hs : sym < 256)
    (h0 : sizeAt h.sizes sym ≠ 0) (hw : w ≠ []) (hc : codeWord h.sizes h.codes sym = p ++ w) (hn : w.length ≤ n)
    (hr : CanRead s w) : descend h n (bitsValue p) p.length s = .ok (BitVec.ofNat 8 sym) (consumed s w.length) := by
  induction w generalizing s p n with
  | nil => exact absurd rfl hw
  | cons b w ih =>
    obtain ⟨n, rfl⟩ := Nat.exists_eq_succ_of_ne_zero (by simp at hn; omega : n ≠ 0)
    rw [show b :: w = [b] ++ w from rfl] at hr
    have hlen : (codeWord h.sizes h.codes sym).length = sizeAt h.sizes sym := length_bitsOf _ _
    have hv : bitsValue (p ++ [b]) = 2 * bitsValue p + b.toNat := by
      rw [bitsValue_append, bitsValue_one]; simp [Nat.mul_comm]
    have hm := matchCode_eq (h := h) (l := p.length + 1) (v := 2 * bitsValue p + b.toNat) hu hs h0 (w := p ++ [b])
      (by rw [hc]; exact ⟨w, by simp⟩) (by simp) hv
    rw [descend, bind_ok (getBit_ok (canRead_left hr)), hm]
    rw [hc] at hlen
    simp only [List.length_append, List.length_cons] at hlen
    by_cases hnil : w = []
    · subst hnil
      rw [if_pos (by simp at hlen; omega)]
      rfl
    · have : w.length ≠ 0 := by simpa using hnil
      rw [if_neg (by omega)]
      have := ih (s := consumed s 1) (p := p ++ [b]) (n := n) hnil (by rw [hc]; simp) (by simp at hn; omega) (canRead_right hr)
      rw [hv, List.length_append, List.length_singleton] at this
      have hcc := consumed_consumed hr
      rw [List.length_singleton] at hcc
      simp only
      rw [this, hcc, List.singleton_append]

/-- `decodeSymbol` reads the code word of a present symbol (45_huffman R341). -/
theorem hfdElement_ok {sym : Nat} (hu : Uniquely s.hfd.sizes s.hfd.codes) (hs : sym < 256) (h0 : sizeAt s.hfd.sizes sym ≠ 0)
    (hr : CanRead s (codeWord s.hfd.sizes s.hfd.codes sym)) :
    hfdElement s = .ok (BitVec.ofNat 8 sym) (consumed s (codeWord s.hfd.sizes s.hfd.codes sym).length) := by
  rw [hfdElement, look_run]
  have hlen : (codeWord s.hfd.sizes s.hfd.codes sym).length = sizeAt s.hfd.sizes sym := length_bitsOf _ _
  exact descend_ok (p := []) hu hs h0 (by rw [← List.length_pos_iff, hlen]; omega) rfl
    (by rw [hlen]; exact (sizeAt_le_longest _ hs).trans (le_max_right _ _)) hr

end Sys2Proof.Machine
end

