-- ==== Sys2Proof/Laws/Memory.lean ====
section
/-! SUPPORT. Reading after a write, and that every memory operation keeps the canonical form. -/

namespace Sys2Proof.Machine

theorem Memory.wf_nil : Memory.wf [] := ⟨List.Pairwise.nil, by simp⟩

/-- A read of the address just written gives the byte written. -/
theorem Memory.lookup_insert_self (m : Memory) (a : Nat) (v : Byte) : Memory.lookup (Memory.insert m a v) a = some v := by
  induction m with
  | nil => simp [Memory.insert, Memory.lookup]
  | cons c rest ih =>
    unfold Memory.insert
    split
    · simp [Memory.lookup]
    · split
      · simp [Memory.lookup]
      · rename_i h1 h2
        simp [Memory.lookup, Ne.symm h2, ih]

/-- A write leaves every other address as it was. -/
theorem Memory.lookup_insert_other (m : Memory) {a b : Nat} (h : a ≠ b) (v : Byte) :
    Memory.lookup (Memory.insert m a v) b = Memory.lookup m b := by
  induction m with
  | nil => simp [Memory.insert, Memory.lookup, h]
  | cons c rest ih =>
    unfold Memory.insert
    split
    · simp [Memory.lookup, h]
    · split
      · rename_i h1 h2
        simp [Memory.lookup, h, ← h2]
      · simp [Memory.lookup, ih]

/-- The addresses listed after a write. -/
theorem Memory.mem_insert {m : Memory} {a : Nat} {v : Byte} {c : Host.Cell} (h : c ∈ Memory.insert m a v) :
    c = (a, v) ∨ c ∈ m := by
  induction m with
  | nil => simpa [Memory.insert] using h
  | cons d rest ih =>
    unfold Memory.insert at h
    split at h
    · simpa using h
    · split at h
      · rcases List.mem_cons.1 h with h | h
        · exact .inl h
        · exact .inr (List.mem_cons_of_mem _ h)
      · rcases List.mem_cons.1 h with h | h
        · exact .inr (by simp [h])
        · rcases ih h with h | h
          · exact .inl h
          · exact .inr (List.mem_cons_of_mem _ h)

/-- A write keeps the canonical form. -/
theorem Memory.wf_insert {m : Memory} (h : Memory.wf m) (a : Nat) (v : Byte) : Memory.wf (Memory.insert m a v) := by
  refine ⟨?_, by simp⟩
  induction m with
  | nil => simp [Memory.insert]
  | cons c rest ih =>
    obtain ⟨hp, -⟩ := h
    obtain ⟨hc, hr⟩ := List.pairwise_cons.1 hp
    unfold Memory.insert
    split
    · rename_i hlt
      refine List.pairwise_cons.2 ⟨fun d hd => ?_, hp⟩
      rcases List.mem_cons.1 hd with hd | hd
      · exact hd ▸ hlt
      · exact Nat.lt_trans hlt (hc d hd)
    · split
      · rename_i h1 h2
        exact List.pairwise_cons.2 ⟨fun d hd => h2 ▸ hc d hd, hr⟩
      · rename_i h1 h2
        refine List.pairwise_cons.2 ⟨fun d hd => ?_, ih ⟨hr, by simp⟩⟩
        rcases Memory.mem_insert hd with hd | hd
        · rw [hd]; exact by omega
        · exact hc d hd

end Sys2Proof.Machine
end

