-- ==== Sys2Proof/Laws/PerInstr.lean ====
section
/-! SUPPORT. Facts about each command as it is written: the fields of its word (30_encoding R110, R113, R114, R117). -/

namespace Sys2Proof.Laws.EncodedFields

/-- The fields of the command word of `i` are its `UNIT`, `OP` and `IMM`, with `RSV` zero, and the word decodes to `i`. -/
def Statement (i : Instr) : Prop :=
  WellFormed i → unitField (encode i) = i.unit ∧ opField (encode i) = i.op ∧ rsvField (encode i) = 0 ∧
    immField (encode i) = i.imm ∧ decode (encode i) = .ok i

theorem sysNop : Statement .sysNop := fun _ => ⟨rfl, rfl, rfl, rfl, rfl⟩

theorem sysSreset : Statement .sysSreset := fun _ => ⟨rfl, rfl, rfl, rfl, rfl⟩

theorem sysUstate (u : Nat) : Statement (.sysUstate u) := by
  intro h
  have hl : u < 16 := by simpa [WellFormed, wellFormed] using h
  clear h
  revert u
  decide +kernel

theorem bswInit : Statement .bswInit := fun _ => ⟨rfl, rfl, rfl, rfl, rfl⟩

theorem bswWrbit : Statement .bswWrbit := fun _ => ⟨rfl, rfl, rfl, rfl, rfl⟩

theorem bswWrbits (n : Nat) : Statement (.bswWrbits n) := by
  intro h
  have hl : n < 128 := by simpa [WellFormed, wellFormed] using h
  clear h
  revert n
  decide +kernel

theorem bswFlush : Statement .bswFlush := fun _ => ⟨rfl, rfl, rfl, rfl, rfl⟩

theorem bswClose : Statement .bswClose := fun _ => ⟨rfl, rfl, rfl, rfl, rfl⟩

theorem bswWritten : Statement .bswWritten := fun _ => ⟨rfl, rfl, rfl, rfl, rfl⟩

theorem bsrInit : Statement .bsrInit := fun _ => ⟨rfl, rfl, rfl, rfl, rfl⟩

theorem bsrRdbit : Statement .bsrRdbit := fun _ => ⟨rfl, rfl, rfl, rfl, rfl⟩

theorem bsrRdbits (n : Nat) : Statement (.bsrRdbits n) := by
  intro h
  have hl : n < 128 := by simpa [WellFormed, wellFormed] using h
  clear h
  revert n
  decide +kernel

theorem bsrClose : Statement .bsrClose := fun _ => ⟨rfl, rfl, rfl, rfl, rfl⟩

theorem bsrRead : Statement .bsrRead := fun _ => ⟨rfl, rfl, rfl, rfl, rfl⟩

theorem beeInit (k : Nat) : Statement (.beeInit k) := by
  intro h
  have hl : k < 16 := by simpa [WellFormed, wellFormed] using h
  clear h
  revert k
  decide +kernel

theorem beeEncbit : Statement .beeEncbit := fun _ => ⟨rfl, rfl, rfl, rfl, rfl⟩

theorem beeEncbyte : Statement .beeEncbyte := fun _ => ⟨rfl, rfl, rfl, rfl, rfl⟩

theorem beeEncode : Statement .beeEncode := fun _ => ⟨rfl, rfl, rfl, rfl, rfl⟩

theorem beeDispose : Statement .beeDispose := fun _ => ⟨rfl, rfl, rfl, rfl, rfl⟩

theorem bedInit (k : Nat) : Statement (.bedInit k) := by
  intro h
  have hl : k < 16 := by simpa [WellFormed, wellFormed] using h
  clear h
  revert k
  decide +kernel

theorem bedDecbit : Statement .bedDecbit := fun _ => ⟨rfl, rfl, rfl, rfl, rfl⟩

theorem bedDecbyte : Statement .bedDecbyte := fun _ => ⟨rfl, rfl, rfl, rfl, rfl⟩

theorem bedDecode : Statement .bedDecode := fun _ => ⟨rfl, rfl, rfl, rfl, rfl⟩

theorem bedDispose : Statement .bedDispose := fun _ => ⟨rfl, rfl, rfl, rfl, rfl⟩

theorem fpeInit (k : Nat) : Statement (.fpeInit k) := by
  intro h
  have hl : k < 16 := by simpa [WellFormed, wellFormed] using h
  clear h
  revert k
  decide +kernel

theorem fpeEncbyte : Statement .fpeEncbyte := fun _ => ⟨rfl, rfl, rfl, rfl, rfl⟩

theorem fpeEncode : Statement .fpeEncode := fun _ => ⟨rfl, rfl, rfl, rfl, rfl⟩

theorem fpeDispose : Statement .fpeDispose := fun _ => ⟨rfl, rfl, rfl, rfl, rfl⟩

theorem fpdInit (k : Nat) : Statement (.fpdInit k) := by
  intro h
  have hl : k < 16 := by simpa [WellFormed, wellFormed] using h
  clear h
  revert k
  decide +kernel

theorem fpdDecbit : Statement .fpdDecbit := fun _ => ⟨rfl, rfl, rfl, rfl, rfl⟩

theorem fpdDecbyte : Statement .fpdDecbyte := fun _ => ⟨rfl, rfl, rfl, rfl, rfl⟩

theorem fpdDecode : Statement .fpdDecode := fun _ => ⟨rfl, rfl, rfl, rfl, rfl⟩

theorem fpdDispose : Statement .fpdDispose := fun _ => ⟨rfl, rfl, rfl, rfl, rfl⟩

theorem rceInit : Statement .rceInit := fun _ => ⟨rfl, rfl, rfl, rfl, rfl⟩

theorem rceEncbyte : Statement .rceEncbyte := fun _ => ⟨rfl, rfl, rfl, rfl, rfl⟩

theorem rceEncode : Statement .rceEncode := fun _ => ⟨rfl, rfl, rfl, rfl, rfl⟩

theorem rceDispose : Statement .rceDispose := fun _ => ⟨rfl, rfl, rfl, rfl, rfl⟩

theorem rcdInit : Statement .rcdInit := fun _ => ⟨rfl, rfl, rfl, rfl, rfl⟩

theorem rcdDecbyte : Statement .rcdDecbyte := fun _ => ⟨rfl, rfl, rfl, rfl, rfl⟩

theorem rcdDecode : Statement .rcdDecode := fun _ => ⟨rfl, rfl, rfl, rfl, rfl⟩

theorem rcdDispose : Statement .rcdDispose := fun _ => ⟨rfl, rfl, rfl, rfl, rfl⟩

theorem hfeInit : Statement .hfeInit := fun _ => ⟨rfl, rfl, rfl, rfl, rfl⟩

theorem hfeEncode : Statement .hfeEncode := fun _ => ⟨rfl, rfl, rfl, rfl, rfl⟩

theorem hfeDispose : Statement .hfeDispose := fun _ => ⟨rfl, rfl, rfl, rfl, rfl⟩

theorem hfdInit : Statement .hfdInit := fun _ => ⟨rfl, rfl, rfl, rfl, rfl⟩

theorem hfdDecode : Statement .hfdDecode := fun _ => ⟨rfl, rfl, rfl, rfl, rfl⟩

theorem hfdDispose : Statement .hfdDispose := fun _ => ⟨rfl, rfl, rfl, rfl, rfl⟩

theorem egeInit (signed : Bool) : Statement (.egeInit signed) :=
  fun _ => by cases signed <;> exact ⟨rfl, rfl, rfl, rfl, rfl⟩

theorem egeEncbyte : Statement .egeEncbyte := fun _ => ⟨rfl, rfl, rfl, rfl, rfl⟩

theorem egeEncode : Statement .egeEncode := fun _ => ⟨rfl, rfl, rfl, rfl, rfl⟩

theorem egeDispose : Statement .egeDispose := fun _ => ⟨rfl, rfl, rfl, rfl, rfl⟩

theorem egdInit (signed : Bool) : Statement (.egdInit signed) :=
  fun _ => by cases signed <;> exact ⟨rfl, rfl, rfl, rfl, rfl⟩

theorem egdDecbyte : Statement .egdDecbyte := fun _ => ⟨rfl, rfl, rfl, rfl, rfl⟩

theorem egdDecode : Statement .egdDecode := fun _ => ⟨rfl, rfl, rfl, rfl, rfl⟩

theorem egdDispose : Statement .egdDispose := fun _ => ⟨rfl, rfl, rfl, rfl, rfl⟩

theorem rgeInit (signed : Bool) (l : Nat) : Statement (.rgeInit signed l) := by
  intro h
  have hl : l < 16 := by simpa [WellFormed, wellFormed] using h
  clear h
  revert l
  revert signed
  decide +kernel

theorem rgeEncbyte : Statement .rgeEncbyte := fun _ => ⟨rfl, rfl, rfl, rfl, rfl⟩

theorem rgeEncode : Statement .rgeEncode := fun _ => ⟨rfl, rfl, rfl, rfl, rfl⟩

theorem rgeDispose : Statement .rgeDispose := fun _ => ⟨rfl, rfl, rfl, rfl, rfl⟩

theorem rgdInit (signed : Bool) (l : Nat) : Statement (.rgdInit signed l) := by
  intro h
  have hl : l < 16 := by simpa [WellFormed, wellFormed] using h
  clear h
  revert l
  revert signed
  decide +kernel

theorem rgdDecbyte : Statement .rgdDecbyte := fun _ => ⟨rfl, rfl, rfl, rfl, rfl⟩

theorem rgdDecode : Statement .rgdDecode := fun _ => ⟨rfl, rfl, rfl, rfl, rfl⟩

theorem rgdDispose : Statement .rgdDispose := fun _ => ⟨rfl, rfl, rfl, rfl, rfl⟩

end Sys2Proof.Laws.EncodedFields
end

