-- ==== Sys2Proof/Laws/Range.lean ====
section
/-! SUPPORT. What the steps of the range coder do (44_range_coder R284 to R296), said once over `RangeSettles`, `RangeSticks` and
`RangeRefills`, and that the model's bound on the renormalization loop is never the one that ends it (log 10). -/

namespace Sys2Proof.Machine

variable {s : State} {clamp : ClampMask}

/-! ### One turn of the loop -/

theorem straddleRange_none {low range : Word56} (h : ¬TopSettled low range) (hr : 2 ^ 40 - 1 ≤ range.toNat) :
    straddleRange clamp low range = none := by
  rw [straddleRange, if_neg (by simpa [rangeTop] using h), if_neg (by simpa [rangeBottom] using hr)]

theorem straddleRange_settled {low range : Word56} (h : TopSettled low range) :
    straddleRange clamp low range = some range.toNat := by
  rw [straddleRange, if_pos (by simpa [rangeTop] using h)]

theorem straddleRange_straddle {low range : Word56} (h : ¬TopSettled low range) (hr : range.toNat < 2 ^ 40 - 1) :
    straddleRange clamp low range = some (clampedRange clamp low) := by
  rw [straddleRange, if_neg (by simpa [rangeTop] using h), if_pos (by simpa [rangeBottom] using hr)]
  cases clamp <;> rfl

theorem clampedToZero_settled {low range : Word56} (h : TopSettled low range) (n : Nat) : clampedToZero low range n = false := by
  have h' : ¬rangeTop ≤ (low.toNat ^^^ (low.toNat + range.toNat)) % 2 ^ 56 := Nat.not_le.2 h
  rw [clampedToZero, decide_eq_false h', Bool.false_and]

theorem clampedToZero_straddle {low range : Word56} (h : ¬TopSettled low range) (n : Nat) :
    clampedToZero low range n = (n == 0) := by
  have h' : rangeTop ≤ (low.toNat ^^^ (low.toNat + range.toNat)) % 2 ^ 56 := Nat.not_lt.1 h
  rw [clampedToZero, decide_eq_true h', Bool.true_and]

/-! ### The bound of the loop -/

/-- `n` shifts of a 56-bit register. -/
def shiftWord (v : Word56) (n : Nat) : Word56 := v <<< (8 * n)

theorem shiftWord_succ (v : Word56) (n : Nat) : shiftWord v n <<< 8 = shiftWord v (n + 1) := by
  rw [shiftWord, shiftWord, ← BitVec.shiftLeft_add, Nat.mul_succ]

/-- Seven shifts leave 0. -/
theorem shiftWord_seven (v : Word56) : shiftWord v 7 = 0 := BitVec.shiftLeft_eq_zero (by decide)

/-- With `low` at 0 the top bytes agree exactly while `range` is below `TOP`. -/
theorem topSettled_zero {range : Word56} : TopSettled 0 range ↔ range.toNat < 2 ^ 48 := by
  have := range.isLt
  have h0 : (0 : Word56).toNat = 0 := rfl
  rw [TopSettled, h0, Nat.zero_add, Nat.zero_xor, Nat.mod_eq_of_lt this]

/-- An empty range at `low` = 0 is shifted for ever. -/
theorem RangeSettles.ne_zero {low range low' range' : Word56} {out : List Byte}
    (h : RangeSettles clamp low range out low' range') (h0 : low = 0) : range.toNat ≠ 0 := by
  induction h with
  | done low range _ hr => omega
  | settled low range out low' range' hset _ ih =>
    intro hr
    have hz : range = 0 := BitVec.eq_of_toNat_eq (by simpa using hr)
    exact ih (by simp [h0]) (by simp [hz])
  | straddle low range out low' range' hset hr _ _ _ => subst h0; rw [topSettled_zero] at hset; omega

/-- From `low` = 0 the loop runs at most six times. -/
theorem RangeSettles.length_le_zero {low range low' range' : Word56} {out : List Byte}
    (h : RangeSettles clamp low range out low' range') (h0 : low = 0) (n : Nat) (hn : 2 ^ (8 * n) ≤ range.toNat) :
    out.length + n ≤ 6 := by
  induction h generalizing n with
  | done low range _ hr =>
    have := range.isLt
    have : 8 * n < 56 := (Nat.pow_lt_pow_iff_right (by decide : 1 < 2)).1 (by omega)
    simp only [List.length_nil]; omega
  | settled low range out low' range' hset _ ih =>
    subst h0
    rw [topSettled_zero] at hset
    have hrt : (range <<< 8).toNat = range.toNat * 2 ^ 8 := by
      rw [BitVec.toNat_shiftLeft, Nat.shiftLeft_eq, Nat.mod_eq_of_lt (by omega)]
    have := ih (by simp) (n + 1) (by rw [hrt, Nat.mul_succ, Nat.pow_add]; exact Nat.mul_le_mul_right _ hn)
    simp only [List.length_cons]; omega
  | straddle low range out low' range' hset hr _ _ _ => subst h0; rw [topSettled_zero] at hset; omega

/-- The loop runs at most thirteen times from any registers (log 10). -/
theorem RangeSettles.length_le {low range low' range' : Word56} {out : List Byte}
    (h : RangeSettles clamp low range out low' range') : out.length ≤ 13 := by
  have key : ∀ v k, k ≤ 7 → low = shiftWord v k → out.length + k ≤ 13 := by
    induction h with
    | done low range _ hr => intro v k hk _; simp only [List.length_nil]; omega
    | settled low range out low' range' hset h ih =>
      intro v k hk hl
      by_cases h7 : k = 7
      · subst h7
        rw [shiftWord_seven] at hl
        have h' := RangeSettles.settled low range out low' range' hset h
        have hne := h'.ne_zero hl
        have := h'.length_le_zero hl 0 (by simp; omega)
        omega
      · have := ih v (k + 1) (by omega) (by rw [hl, shiftWord_succ])
        simp only [List.length_cons]; omega
    | straddle low range out low' range' hset hr _ h ih =>
      intro v k hk hl
      by_cases h7 : k = 7
      · subst h7; rw [shiftWord_seven] at hl; subst hl; rw [topSettled_zero] at hset; omega
      · have := ih v (k + 1) (by omega) (by rw [hl, shiftWord_succ])
        simp only [List.length_cons]; omega
  exact key low 0 (by omega) (by simp [shiftWord])

/-- From `low` = 0 the clamp is never reached with a small range. -/
theorem RangeSticks.low_ne_zero {low range : Word56} {out : List Byte} (h : RangeSticks clamp low range out) : low ≠ 0 := by
  induction h with
  | zero low range hset hr _ => rintro rfl; rw [topSettled_zero] at hset; omega
  | settled low range out hset h ih => rintro rfl; exact ih (by simp)
  | straddle low range out hset hr _ h ih => rintro rfl; rw [topSettled_zero] at hset; omega

/-- Before its clamp gives 0 the loop runs at most seven times. -/
theorem RangeSticks.length_le {low range : Word56} {out : List Byte} (h : RangeSticks clamp low range out) :
    out.length ≤ 13 := by
  have key : ∀ v k, k ≤ 7 → low = shiftWord v k → out.length + k ≤ 7 := by
    induction h with
    | zero low range hset hr _ => intro v k hk _; simp only [List.length_nil]; omega
    | settled low range out hset h ih =>
      intro v k hk hl
      by_cases h7 : k = 7
      · subst h7; rw [shiftWord_seven] at hl; exact absurd hl (RangeSticks.settled low range out hset h).low_ne_zero
      · have := ih v (k + 1) (by omega) (by rw [hl, shiftWord_succ])
        simp only [List.length_cons]; omega
    | straddle low range out hset hr _ h ih =>
      intro v k hk hl
      by_cases h7 : k = 7
      · subst h7; rw [shiftWord_seven] at hl; subst hl; rw [topSettled_zero] at hset; omega
      · have := ih v (k + 1) (by omega) (by rw [hl, shiftWord_succ])
        simp only [List.length_cons]; omega
  have := key low 0 (by omega) (by simp [shiftWord])
  omega

/-! ### The loop -/

theorem renormRange_none {α : Type} {shift : Word56 → α → M α} {low range : Word56} (h : straddleRange clamp low range = none)
    (k : Nat) (a : α) : renormRange clamp shift k low range a = pure (low, range, a) := by
  cases k <;> simp [renormRange, h]

theorem renormRange_some {α : Type} {shift : Word56 → α → M α} {low range : Word56} {next : Nat}
    (h : straddleRange clamp low range = some next) (hz : clampedToZero low range next = false) (k : Nat) (a : α) :
    renormRange clamp shift (k + 1) low range a =
      shift low a >>= fun a => renormRange clamp shift k (low <<< 8) (BitVec.ofNat 56 next <<< 8) a := by
  simp [renormRange, h, hz]

theorem renormRange_stick {α : Type} {shift : Word56 → α → M α} {low range : Word56} {next : Nat}
    (h : straddleRange clamp low range = some next) (hz : clampedToZero low range next = true) (k : Nat) (a : α) :
    renormRange clamp shift (k + 1) low range a = stick := by
  simp [renormRange, h, hz]

theorem bitsOf_top (low : Word56) : bitsOf (low >>> 48).toNat 8 = byteBits ((low >>> 48).setWidth 8) := by
  rw [byteBits, BitVec.toNat_setWidth, bitsOf_mod]

/-- The encoder's loop writes the bytes that leave `low`. -/
theorem renormRange_out {low range low' range' : Word56} {out : List Byte}
    (h : RangeSettles clamp low range out low' range') {k : Nat} (hk : out.length < k) (hs : s.sent = 0)
    (hw : CanWrite s (bytesBits out)) :
    renormRange clamp rangeShiftOut k low range () s = .ok (low', range', ()) (appended s (bytesBits out)) := by
  induction h generalizing s k with
  | done low range hset hr =>
    rw [renormRange_none (straddleRange_none hset hr)]; simp
  | settled low range out low' range' hset _ ih =>
    cases k with
    | zero => simp at hk
    | succ k =>
      rw [bytesBits_cons, ← bitsOf_top] at hw ⊢
      have hp : rangeShiftOut low () s = _ := putBits_ok (by decide) hs (canWrite_left hw)
      rw [renormRange_some (straddleRange_settled hset) (clampedToZero_settled hset _), bind_ok hp, BitVec.ofNat_toNat, BitVec.setWidth_eq, ih (by simpa using hk) (by simpa using hs) (canWrite_right hw),
        appended_appended hw]
  | straddle low range out low' range' hset hr hc _ ih =>
    cases k with
    | zero => simp at hk
    | succ k =>
      rw [bytesBits_cons, ← bitsOf_top] at hw ⊢
      have hp : rangeShiftOut low () s = _ := putBits_ok (by decide) hs (canWrite_left hw)
      have h0 : (clampedRange clamp low == 0) = false := by simpa using hc
      rw [renormRange_some (straddleRange_straddle hset hr) (by rw [clampedToZero_straddle hset, h0]), bind_ok hp, ih (by simpa using hk) (by simpa using hs) (canWrite_right hw), appended_appended hw]

/-- Where the clamp gives 0 the encoder's loop stops, the bytes before it written. -/
theorem renormRange_sticks {low range : Word56} {out : List Byte} (h : RangeSticks clamp low range out) {k : Nat}
    (hk : out.length < k) (hs : s.sent = 0) (hw : CanWrite s (bytesBits out)) :
    renormRange clamp rangeShiftOut k low range () s = .error .clamped (appended s (bytesBits out)) := by
  induction h generalizing s k with
  | zero low range hset hr hc =>
    cases k with
    | zero => simp at hk
    | succ k =>
      rw [renormRange_stick (straddleRange_straddle hset hr) (by rw [clampedToZero_straddle hset, hc]; rfl)]
      simp [stick]
  | settled low range out hset _ ih =>
    cases k with
    | zero => simp at hk
    | succ k =>
      rw [bytesBits_cons, ← bitsOf_top] at hw ⊢
      have hp : rangeShiftOut low () s = _ := putBits_ok (by decide) hs (canWrite_left hw)
      rw [renormRange_some (straddleRange_settled hset) (clampedToZero_settled hset _), bind_ok hp, BitVec.ofNat_toNat, BitVec.setWidth_eq, ih (by simpa using hk) (by simpa using hs) (canWrite_right hw),
        appended_appended hw]
  | straddle low range out hset hr hc _ ih =>
    cases k with
    | zero => simp at hk
    | succ k =>
      rw [bytesBits_cons, ← bitsOf_top] at hw ⊢
      have hp : rangeShiftOut low () s = _ := putBits_ok (by decide) hs (canWrite_left hw)
      have h0 : (clampedRange clamp low == 0) = false := by simpa using hc
      rw [renormRange_some (straddleRange_straddle hset hr) (by rw [clampedToZero_straddle hset, h0]), bind_ok hp, ih (by simpa using hk) (by simpa using hs) (canWrite_right hw), appended_appended hw]

theorem RangeRefills.settles {low range code low' range' code' : Word56} {used : List Byte}
    (h : RangeRefills clamp low range code used low' range' code') :
    ∃ out, out.length = used.length ∧ RangeSettles clamp low range out low' range' := by
  induction h with
  | done low range code hset hr => exact ⟨[], rfl, .done _ _ hset hr⟩
  | settled low range code b used low' range' code' hset _ ih =>
    obtain ⟨out, ho, h⟩ := ih
    exact ⟨_ :: out, by simp [ho], .settled _ _ _ _ _ hset h⟩
  | straddle low range code b used low' range' code' hset hr hc _ ih =>
    obtain ⟨out, ho, h⟩ := ih
    exact ⟨_ :: out, by simp [ho], .straddle _ _ _ _ _ hset hr hc h⟩

/-- The decoder's shift reads a byte into `code`. -/
theorem rangeShiftIn_ok {code : Word56} {b : Byte} (low : Word56) (hr : CanRead s (byteBits b)) :
    rangeShiftIn low code s = .ok ((code <<< 8) ||| b.setWidth 56) (consumed s 8) := by
  have hb : getBits 8 s = _ := getBits_ok (length_byteBits b) (by simp [byteBits, bitsOf_eq_nil]) hr
  rw [rangeShiftIn, bind_ok hb, bitsValue_byteBits, BitVec.ofNat_toNat]; rfl

/-- The decoder's loop reads the bytes it shifts in. -/
theorem renormRange_in {low range code low' range' code' : Word56} {used : List Byte}
    (h : RangeRefills clamp low range code used low' range' code') {k : Nat} (hk : used.length < k)
    (hr : CanRead s (bytesBits used)) :
    renormRange clamp rangeShiftIn k low range code s = .ok (low', range', code') (consumed s (8 * used.length)) := by
  induction h generalizing s k with
  | done low range code hset hrng => rw [renormRange_none (straddleRange_none hset hrng)]; simp
  | settled low range code b used low' range' code' hset _ ih =>
    cases k with
    | zero => simp at hk
    | succ k =>
      rw [← length_bytesBits, bytesBits_cons] at *
      rw [renormRange_some (straddleRange_settled hset) (clampedToZero_settled hset _)]
      have hc := canRead_right hr
      rw [length_byteBits] at hc
      rw [bind_ok (rangeShiftIn_ok low (canRead_left hr)), BitVec.ofNat_toNat, BitVec.setWidth_eq, ih (by simpa using hk) hc,
        ← consumed_consumed hr, length_byteBits, length_bytesBits]
  | straddle low range code b used low' range' code' hset hrng hc _ ih =>
    cases k with
    | zero => simp at hk
    | succ k =>
      rw [← length_bytesBits, bytesBits_cons] at *
      have h0 : (clampedRange clamp low == 0) = false := by simpa using hc
      rw [renormRange_some (straddleRange_straddle hset hrng) (by rw [clampedToZero_straddle hset, h0])]
      have hc := canRead_right hr
      rw [length_byteBits] at hc
      rw [bind_ok (rangeShiftIn_ok low (canRead_left hr)), ih (by simpa using hk) hc, ← consumed_consumed hr,
        length_byteBits, length_bytesBits]

/-! ### The coders' steps -/

/-- The encoder's step for one symbol (44_range_coder R286, R287). -/
theorem encodeSymbol_ok {e : RangeEncoder} {sym : Nat} {out : List Byte} {low range : Word56}
    (hr : stepWidth e.range e.freq ≠ 0)
    (h : RangeSettles s.params.clamp (stepLow56 e.low e.range e.freq sym) (stepRange56 e.range e.freq sym) out low range)
    (hs : s.sent = 0) (hw : CanWrite s (bytesBits out)) :
    encodeSymbol e sym s = .ok { e with low := low, range := range, freq := countSymbol e.freq sym }
      (appended s (bytesBits out)) := by
  have hl := h.length_le
  have ho := renormRange_out h (k := renormLimit) (by rw [renormLimit]; omega) hs hw
  have hr' : unitWidth e.range e.freq ≠ 0 := hr
  rw [encodeSymbol, look_run, if_neg hr']
  exact bind_ok ho _

/-- A step of width 0 stops before it changes anything (44_range_coder R288 (b)). -/
theorem encodeSymbol_zero {e : RangeEncoder} (sym : Nat) (hr : stepWidth e.range e.freq = 0) :
    encodeSymbol e sym s = .error (.fault .rangeDegenerate) s := by
  have hr' : unitWidth e.range e.freq = 0 := hr
  rw [encodeSymbol, look_run, if_pos hr', raise_run]

/-- Where the clamp gives 0 the step stops, what it wrote staying (44_range_coder R288 (a)). -/
theorem encodeSymbol_sticks {e : RangeEncoder} {sym : Nat} {out : List Byte} (hr : stepWidth e.range e.freq ≠ 0)
    (h : RangeSticks s.params.clamp (stepLow56 e.low e.range e.freq sym) (stepRange56 e.range e.freq sym) out)
    (hs : s.sent = 0) (hw : CanWrite s (bytesBits out)) :
    encodeSymbol e sym s = .error .clamped (appended s (bytesBits out)) := by
  have hl := h.length_le
  have ho := renormRange_sticks h (k := renormLimit) (by rw [renormLimit]; omega) hs hw
  have hr' : unitWidth e.range e.freq ≠ 0 := hr
  rw [encodeSymbol, look_run, if_neg hr']
  exact bind_error ho _

/-- The search finds the symbol of a count (44_range_coder R296). -/
theorem findSymbol_eq {t : FreqTable} {count sym : Nat} (h : SymbolOf t count sym) (hs : sym ≤ 256) :
    findSymbol t count = some sym := by
  rw [findSymbol, List.find?_range_eq_some]
  refine ⟨?_, List.mem_range.2 (by omega), fun v hv => ?_⟩
  · simpa using (h.2 sym hs).2 rfl
  · have := mt (h.2 v (by omega)).1 (by omega)
    simp only [Bool.not_eq_true', Bool.and_eq_false_iff, decide_eq_false_iff_not]
    omega

/-- The lazy seed (44_range_coder R296). -/
theorem seedRange_ok {d : RangeDecoder} {b6 b5 b4 b3 b2 b1 b0 : Byte} (hd : d.seeded = false)
    (hr : CanRead s (bytesBits [b6, b5, b4, b3, b2, b1, b0])) :
    seedRange d s = .ok { d with code := b6 ++ b5 ++ b4 ++ b3 ++ b2 ++ b1 ++ b0, seeded := true } (consumed s 56) := by
  have hb : getBits 56 s = _ := getBits_ok (n := 56) (by simp) (by rw [ne_eq, bytesBits_eq_nil]; simp) hr
  rw [seedRange, if_neg (by simp [hd]), bind_ok hb, pure_run]
  congr 2
  simp only [bytesBits_cons, bytesBits_nil, bitsValue_append, bitsValue_byteBits, List.length_append, length_byteBits,
    List.append_nil]
  apply BitVec.eq_of_toNat_eq
  simp only [BitVec.toNat_ofNat, toNat_append_byte]
  have h6 := b6.isLt; have h5 := b5.isLt; have h4 := b4.isLt; have h3 := b3.isLt; have h2 := b2.isLt; have h1 := b1.isLt
  have h0 := b0.isLt
  rw [Nat.mod_eq_of_lt (by omega)]
  ring

theorem seedRange_seeded {d : RangeDecoder} (hd : d.seeded = true) (s : State) : seedRange d s = .ok d s := by
  simp [seedRange, hd]

/-- A step of an unseeded decoder is a step of the seeded one, later. -/
theorem decodeSymbol_seed {d d1 : RangeDecoder} {t : State} (h : seedRange d s = .ok d1 t) (h1 : d1.seeded = true)
    (hp : t.params = s.params) : decodeSymbol d s = decodeSymbol d1 t := by
  rw [decodeSymbol, decodeSymbol, look_run, look_run, bind_ok h, bind_ok (seedRange_seeded h1 t), hp]

theorem count_eq (d : RangeDecoder) : (d.code - d.low).toNat / unitWidth d.range d.freq = stepCount d d.freq := by
  rw [stepCount, BitVec.toNat_sub]
  have := d.low.isLt
  congr 2
  omega

/-- The decoder's step for one symbol (44_range_coder R296). -/
theorem decodeSymbol_ok {d : RangeDecoder} {sym : Nat} {used : List Byte} {low range code : Word56} (hd : d.seeded = true)
    (hr : stepWidth d.range d.freq ≠ 0) (hsym : SymbolOf d.freq (stepCount d d.freq) sym) (h256 : sym ≤ 256)
    (h : RangeRefills s.params.clamp (stepLow56 d.low d.range d.freq sym) (stepRange56 d.range d.freq sym) d.code used low range
      code)
    (hc : CanRead s (bytesBits used)) :
    decodeSymbol d s = .ok (sym, { d with low := low, range := range, code := code, freq := countSymbol d.freq sym })
      (consumed s (8 * used.length)) := by
  obtain ⟨out, ho, hset⟩ := h.settles
  have hl := hset.length_le
  have hin := renormRange_in h (k := renormLimit) (by rw [renormLimit]; omega) hc
  rw [decodeSymbol, look_run, bind_ok (seedRange_seeded hd s)]
  simp only []
  have hr' : unitWidth d.range d.freq ≠ 0 := hr
  rw [if_neg hr', count_eq, if_pos hsym.1, findSymbol_eq hsym h256]
  exact bind_ok hin _

/-- A count without a symbol (44_range_coder R297). -/
theorem decodeSymbol_invalid {d : RangeDecoder} (hd : d.seeded = true) (hr : stepWidth d.range d.freq ≠ 0)
    (hc : freqAt d.freq 257 ≤ stepCount d d.freq) : decodeSymbol d s = .error (.fault .invalidStream) s := by
  rw [decodeSymbol, look_run, bind_ok (seedRange_seeded hd s)]
  simp only []
  have hr' : unitWidth d.range d.freq ≠ 0 := hr
  rw [if_neg hr', count_eq, if_neg (by omega)]
  rfl

/-- A step of width 0 stops before it changes anything (44_range_coder R288 (b)). -/
theorem decodeSymbol_zero {d : RangeDecoder} (hd : d.seeded = true) (hr : stepWidth d.range d.freq = 0) :
    decodeSymbol d s = .error (.fault .rangeDegenerate) s := by
  rw [decodeSymbol, look_run, bind_ok (seedRange_seeded hd s)]
  simp only []
  have hr' : unitWidth d.range d.freq = 0 := hr
  rw [if_pos hr']; rfl

end Sys2Proof.Machine
end

