-- ==== Sys2Proof/Laws/State.lean ====
section
/-! SUPPORT. What each update of the state leaves in each field, true by definition, so that no proof unfolds a record update. -/

namespace Sys2Proof.Machine

@[simp] theorem complete_params (u o : BitVec 4) (v : Word64) (s : State) :
    (complete u o v s).params = s.params := rfl

@[simp] theorem complete_cmd (u o : BitVec 4) (v : Word64) (s : State) :
    (complete u o v s).cmd = s.cmd := rfl

@[simp] theorem complete_arg0 (u o : BitVec 4) (v : Word64) (s : State) :
    (complete u o v s).arg0 = s.arg0 := rfl

@[simp] theorem complete_arg1 (u o : BitVec 4) (v : Word64) (s : State) :
    (complete u o v s).arg1 = s.arg1 := rfl

@[simp] theorem complete_arg2 (u o : BitVec 4) (v : Word64) (s : State) :
    (complete u o v s).arg2 = s.arg2 := rfl

@[simp] theorem complete_arg3 (u o : BitVec 4) (v : Word64) (s : State) :
    (complete u o v s).arg3 = s.arg3 := rfl

@[simp] theorem complete_res (u o : BitVec 4) (v : Word64) (s : State) :
    (complete u o v s).res = v := rfl

@[simp] theorem complete_status (u o : BitVec 4) (v : Word64) (s : State) :
    (complete u o v s).status = statusWord o u (statusFirst s.status) 0 := rfl

@[simp] theorem complete_bsw (u o : BitVec 4) (v : Word64) (s : State) :
    (complete u o v s).bsw = s.bsw := rfl

@[simp] theorem complete_bsr (u o : BitVec 4) (v : Word64) (s : State) :
    (complete u o v s).bsr = s.bsr := rfl

@[simp] theorem complete_bee (u o : BitVec 4) (v : Word64) (s : State) :
    (complete u o v s).bee = s.bee := rfl

@[simp] theorem complete_bed (u o : BitVec 4) (v : Word64) (s : State) :
    (complete u o v s).bed = s.bed := rfl

@[simp] theorem complete_fpe (u o : BitVec 4) (v : Word64) (s : State) :
    (complete u o v s).fpe = s.fpe := rfl

@[simp] theorem complete_fpd (u o : BitVec 4) (v : Word64) (s : State) :
    (complete u o v s).fpd = s.fpd := rfl

@[simp] theorem complete_rce (u o : BitVec 4) (v : Word64) (s : State) :
    (complete u o v s).rce = s.rce := rfl

@[simp] theorem complete_rcd (u o : BitVec 4) (v : Word64) (s : State) :
    (complete u o v s).rcd = s.rcd := rfl

@[simp] theorem complete_hfe (u o : BitVec 4) (v : Word64) (s : State) :
    (complete u o v s).hfe = s.hfe := rfl

@[simp] theorem complete_hfd (u o : BitVec 4) (v : Word64) (s : State) :
    (complete u o v s).hfd = s.hfd := rfl

@[simp] theorem complete_ege (u o : BitVec 4) (v : Word64) (s : State) :
    (complete u o v s).ege = s.ege := rfl

@[simp] theorem complete_egd (u o : BitVec 4) (v : Word64) (s : State) :
    (complete u o v s).egd = s.egd := rfl

@[simp] theorem complete_rge (u o : BitVec 4) (v : Word64) (s : State) :
    (complete u o v s).rge = s.rge := rfl

@[simp] theorem complete_rgd (u o : BitVec 4) (v : Word64) (s : State) :
    (complete u o v s).rgd = s.rgd := rfl

@[simp] theorem complete_data (u o : BitVec 4) (v : Word64) (s : State) :
    (complete u o v s).data = s.data := rfl

@[simp] theorem complete_sink (u o : BitVec 4) (v : Word64) (s : State) :
    (complete u o v s).sink = s.sink := rfl

@[simp] theorem complete_sinkRoom (u o : BitVec 4) (v : Word64) (s : State) :
    (complete u o v s).sinkRoom = s.sinkRoom := rfl

@[simp] theorem complete_source (u o : BitVec 4) (v : Word64) (s : State) :
    (complete u o v s).source = s.source := rfl

@[simp] theorem complete_waiting (u o : BitVec 4) (v : Word64) (s : State) :
    (complete u o v s).waiting = s.waiting := rfl

@[simp] theorem complete_sent (u o : BitVec 4) (v : Word64) (s : State) :
    (complete u o v s).sent = 0 := rfl

@[simp] theorem complete_taken (u o : BitVec 4) (v : Word64) (s : State) :
    (complete u o v s).taken = s.taken := rfl

@[simp] theorem complete_host (u o : BitVec 4) (v : Word64) (s : State) :
    (complete u o v s).host = s.host := rfl

@[simp] theorem complete_hostRead (u o : BitVec 4) (v : Word64) (s : State) :
    (complete u o v s).hostRead = s.hostRead := rfl

@[simp] theorem complete_freeCount (u o : BitVec 4) (v : Word64) (s : State) :
    (complete u o v s).freeCount = s.freeCount := rfl

@[simp] theorem raiseFault_params (u o : BitVec 4) (c : FaultCode) (s : State) :
    (raiseFault u o c s).params = s.params := rfl

@[simp] theorem raiseFault_cmd (u o : BitVec 4) (c : FaultCode) (s : State) :
    (raiseFault u o c s).cmd = s.cmd := rfl

@[simp] theorem raiseFault_arg0 (u o : BitVec 4) (c : FaultCode) (s : State) :
    (raiseFault u o c s).arg0 = s.arg0 := rfl

@[simp] theorem raiseFault_arg1 (u o : BitVec 4) (c : FaultCode) (s : State) :
    (raiseFault u o c s).arg1 = s.arg1 := rfl

@[simp] theorem raiseFault_arg2 (u o : BitVec 4) (c : FaultCode) (s : State) :
    (raiseFault u o c s).arg2 = s.arg2 := rfl

@[simp] theorem raiseFault_arg3 (u o : BitVec 4) (c : FaultCode) (s : State) :
    (raiseFault u o c s).arg3 = s.arg3 := rfl

@[simp] theorem raiseFault_res (u o : BitVec 4) (c : FaultCode) (s : State) :
    (raiseFault u o c s).res = s.res := rfl

@[simp] theorem raiseFault_status (u o : BitVec 4) (c : FaultCode) (s : State) :
    (raiseFault u o c s).status = statusWord o u (firstFault (statusFirst s.status) c) c.code := rfl

@[simp] theorem raiseFault_bsw (u o : BitVec 4) (c : FaultCode) (s : State) :
    (raiseFault u o c s).bsw = s.bsw := rfl

@[simp] theorem raiseFault_bsr (u o : BitVec 4) (c : FaultCode) (s : State) :
    (raiseFault u o c s).bsr = s.bsr := rfl

@[simp] theorem raiseFault_bee (u o : BitVec 4) (c : FaultCode) (s : State) :
    (raiseFault u o c s).bee = s.bee := rfl

@[simp] theorem raiseFault_bed (u o : BitVec 4) (c : FaultCode) (s : State) :
    (raiseFault u o c s).bed = s.bed := rfl

@[simp] theorem raiseFault_fpe (u o : BitVec 4) (c : FaultCode) (s : State) :
    (raiseFault u o c s).fpe = s.fpe := rfl

@[simp] theorem raiseFault_fpd (u o : BitVec 4) (c : FaultCode) (s : State) :
    (raiseFault u o c s).fpd = s.fpd := rfl

@[simp] theorem raiseFault_rce (u o : BitVec 4) (c : FaultCode) (s : State) :
    (raiseFault u o c s).rce = s.rce := rfl

@[simp] theorem raiseFault_rcd (u o : BitVec 4) (c : FaultCode) (s : State) :
    (raiseFault u o c s).rcd = s.rcd := rfl

@[simp] theorem raiseFault_hfe (u o : BitVec 4) (c : FaultCode) (s : State) :
    (raiseFault u o c s).hfe = s.hfe := rfl

@[simp] theorem raiseFault_hfd (u o : BitVec 4) (c : FaultCode) (s : State) :
    (raiseFault u o c s).hfd = s.hfd := rfl

@[simp] theorem raiseFault_ege (u o : BitVec 4) (c : FaultCode) (s : State) :
    (raiseFault u o c s).ege = s.ege := rfl

@[simp] theorem raiseFault_egd (u o : BitVec 4) (c : FaultCode) (s : State) :
    (raiseFault u o c s).egd = s.egd := rfl

@[simp] theorem raiseFault_rge (u o : BitVec 4) (c : FaultCode) (s : State) :
    (raiseFault u o c s).rge = s.rge := rfl

@[simp] theorem raiseFault_rgd (u o : BitVec 4) (c : FaultCode) (s : State) :
    (raiseFault u o c s).rgd = s.rgd := rfl

@[simp] theorem raiseFault_data (u o : BitVec 4) (c : FaultCode) (s : State) :
    (raiseFault u o c s).data = s.data := rfl

@[simp] theorem raiseFault_sink (u o : BitVec 4) (c : FaultCode) (s : State) :
    (raiseFault u o c s).sink = s.sink := rfl

@[simp] theorem raiseFault_sinkRoom (u o : BitVec 4) (c : FaultCode) (s : State) :
    (raiseFault u o c s).sinkRoom = s.sinkRoom := rfl

@[simp] theorem raiseFault_source (u o : BitVec 4) (c : FaultCode) (s : State) :
    (raiseFault u o c s).source = s.source := rfl

@[simp] theorem raiseFault_waiting (u o : BitVec 4) (c : FaultCode) (s : State) :
    (raiseFault u o c s).waiting = s.waiting := rfl

@[simp] theorem raiseFault_sent (u o : BitVec 4) (c : FaultCode) (s : State) :
    (raiseFault u o c s).sent = 0 := rfl

@[simp] theorem raiseFault_taken (u o : BitVec 4) (c : FaultCode) (s : State) :
    (raiseFault u o c s).taken = s.taken := rfl

@[simp] theorem raiseFault_host (u o : BitVec 4) (c : FaultCode) (s : State) :
    (raiseFault u o c s).host = s.host := rfl

@[simp] theorem raiseFault_hostRead (u o : BitVec 4) (c : FaultCode) (s : State) :
    (raiseFault u o c s).hostRead = s.hostRead := rfl

@[simp] theorem raiseFault_freeCount (u o : BitVec 4) (c : FaultCode) (s : State) :
    (raiseFault u o c s).freeCount = s.freeCount := rfl

@[simp] theorem undo_params (s t : State) :
    (undo s t).params = s.params := rfl

@[simp] theorem undo_cmd (s t : State) :
    (undo s t).cmd = s.cmd := rfl

@[simp] theorem undo_arg0 (s t : State) :
    (undo s t).arg0 = s.arg0 := rfl

@[simp] theorem undo_arg1 (s t : State) :
    (undo s t).arg1 = s.arg1 := rfl

@[simp] theorem undo_arg2 (s t : State) :
    (undo s t).arg2 = s.arg2 := rfl

@[simp] theorem undo_arg3 (s t : State) :
    (undo s t).arg3 = s.arg3 := rfl

@[simp] theorem undo_res (s t : State) :
    (undo s t).res = s.res := rfl

@[simp] theorem undo_status (s t : State) :
    (undo s t).status = s.status := rfl

@[simp] theorem undo_bsw (s t : State) :
    (undo s t).bsw = s.bsw := rfl

@[simp] theorem undo_bsr (s t : State) :
    (undo s t).bsr = { s.bsr with bytes := t.bsr.bytes, ended := t.bsr.ended } := rfl

@[simp] theorem undo_bee (s t : State) :
    (undo s t).bee = s.bee := rfl

@[simp] theorem undo_bed (s t : State) :
    (undo s t).bed = s.bed := rfl

@[simp] theorem undo_fpe (s t : State) :
    (undo s t).fpe = s.fpe := rfl

@[simp] theorem undo_fpd (s t : State) :
    (undo s t).fpd = s.fpd := rfl

@[simp] theorem undo_rce (s t : State) :
    (undo s t).rce = s.rce := rfl

@[simp] theorem undo_rcd (s t : State) :
    (undo s t).rcd = s.rcd := rfl

@[simp] theorem undo_hfe (s t : State) :
    (undo s t).hfe = s.hfe := rfl

@[simp] theorem undo_hfd (s t : State) :
    (undo s t).hfd = s.hfd := rfl

@[simp] theorem undo_ege (s t : State) :
    (undo s t).ege = s.ege := rfl

@[simp] theorem undo_egd (s t : State) :
    (undo s t).egd = s.egd := rfl

@[simp] theorem undo_rge (s t : State) :
    (undo s t).rge = s.rge := rfl

@[simp] theorem undo_rgd (s t : State) :
    (undo s t).rgd = s.rgd := rfl

@[simp] theorem undo_data (s t : State) :
    (undo s t).data = s.data := rfl

@[simp] theorem undo_sink (s t : State) :
    (undo s t).sink = s.sink := rfl

@[simp] theorem undo_sinkRoom (s t : State) :
    (undo s t).sinkRoom = s.sinkRoom := rfl

@[simp] theorem undo_source (s t : State) :
    (undo s t).source = t.source := rfl

@[simp] theorem undo_waiting (s t : State) :
    (undo s t).waiting = s.waiting := rfl

@[simp] theorem undo_sent (s t : State) :
    (undo s t).sent = s.sent := rfl

@[simp] theorem undo_taken (s t : State) :
    (undo s t).taken = s.taken := rfl

@[simp] theorem undo_host (s t : State) :
    (undo s t).host = s.host := rfl

@[simp] theorem undo_hostRead (s t : State) :
    (undo s t).hostRead = s.hostRead := rfl

@[simp] theorem undo_freeCount (s t : State) :
    (undo s t).freeCount = s.freeCount := rfl

@[simp] theorem resume_params (s : State) :
    (resume s).params = s.params := rfl

@[simp] theorem resume_cmd (s : State) :
    (resume s).cmd = s.cmd := rfl

@[simp] theorem resume_arg0 (s : State) :
    (resume s).arg0 = s.arg0 := rfl

@[simp] theorem resume_arg1 (s : State) :
    (resume s).arg1 = s.arg1 := rfl

@[simp] theorem resume_arg2 (s : State) :
    (resume s).arg2 = s.arg2 := rfl

@[simp] theorem resume_arg3 (s : State) :
    (resume s).arg3 = s.arg3 := rfl

@[simp] theorem resume_res (s : State) :
    (resume s).res = s.res := rfl

@[simp] theorem resume_status (s : State) :
    (resume s).status = s.status := rfl

@[simp] theorem resume_bsw (s : State) :
    (resume s).bsw = s.bsw := rfl

@[simp] theorem resume_bsr (s : State) :
    (resume s).bsr = s.bsr := rfl

@[simp] theorem resume_bee (s : State) :
    (resume s).bee = s.bee := rfl

@[simp] theorem resume_bed (s : State) :
    (resume s).bed = s.bed := rfl

@[simp] theorem resume_fpe (s : State) :
    (resume s).fpe = s.fpe := rfl

@[simp] theorem resume_fpd (s : State) :
    (resume s).fpd = s.fpd := rfl

@[simp] theorem resume_rce (s : State) :
    (resume s).rce = s.rce := rfl

@[simp] theorem resume_rcd (s : State) :
    (resume s).rcd = s.rcd := rfl

@[simp] theorem resume_hfe (s : State) :
    (resume s).hfe = s.hfe := rfl

@[simp] theorem resume_hfd (s : State) :
    (resume s).hfd = s.hfd := rfl

@[simp] theorem resume_ege (s : State) :
    (resume s).ege = s.ege := rfl

@[simp] theorem resume_egd (s : State) :
    (resume s).egd = s.egd := rfl

@[simp] theorem resume_rge (s : State) :
    (resume s).rge = s.rge := rfl

@[simp] theorem resume_rgd (s : State) :
    (resume s).rgd = s.rgd := rfl

@[simp] theorem resume_data (s : State) :
    (resume s).data = s.data := rfl

@[simp] theorem resume_sink (s : State) :
    (resume s).sink = s.sink := rfl

@[simp] theorem resume_sinkRoom (s : State) :
    (resume s).sinkRoom = s.sinkRoom := rfl

@[simp] theorem resume_source (s : State) :
    (resume s).source = s.taken ++ s.source := rfl

@[simp] theorem resume_waiting (s : State) :
    (resume s).waiting = none := rfl

@[simp] theorem resume_sent (s : State) :
    (resume s).sent = s.sent := rfl

@[simp] theorem resume_taken (s : State) :
    (resume s).taken = [] := rfl

@[simp] theorem resume_host (s : State) :
    (resume s).host = s.host := rfl

@[simp] theorem resume_hostRead (s : State) :
    (resume s).hostRead = s.hostRead := rfl

@[simp] theorem resume_freeCount (s : State) :
    (resume s).freeCount = s.freeCount := rfl

@[simp] theorem suspend_params (p : Port) (s t : State) :
    (suspend p s t).params = s.params := rfl

@[simp] theorem suspend_cmd (p : Port) (s t : State) :
    (suspend p s t).cmd = s.cmd := rfl

@[simp] theorem suspend_arg0 (p : Port) (s t : State) :
    (suspend p s t).arg0 = s.arg0 := rfl

@[simp] theorem suspend_arg1 (p : Port) (s t : State) :
    (suspend p s t).arg1 = s.arg1 := rfl

@[simp] theorem suspend_arg2 (p : Port) (s t : State) :
    (suspend p s t).arg2 = s.arg2 := rfl

@[simp] theorem suspend_arg3 (p : Port) (s t : State) :
    (suspend p s t).arg3 = s.arg3 := rfl

@[simp] theorem suspend_res (p : Port) (s t : State) :
    (suspend p s t).res = s.res := rfl

@[simp] theorem suspend_status (p : Port) (s t : State) :
    (suspend p s t).status = s.status := rfl

@[simp] theorem suspend_bsw (p : Port) (s t : State) :
    (suspend p s t).bsw = s.bsw := rfl

@[simp] theorem suspend_bsr (p : Port) (s t : State) :
    (suspend p s t).bsr = s.bsr := rfl

@[simp] theorem suspend_bee (p : Port) (s t : State) :
    (suspend p s t).bee = s.bee := rfl

@[simp] theorem suspend_bed (p : Port) (s t : State) :
    (suspend p s t).bed = s.bed := rfl

@[simp] theorem suspend_fpe (p : Port) (s t : State) :
    (suspend p s t).fpe = s.fpe := rfl

@[simp] theorem suspend_fpd (p : Port) (s t : State) :
    (suspend p s t).fpd = s.fpd := rfl

@[simp] theorem suspend_rce (p : Port) (s t : State) :
    (suspend p s t).rce = s.rce := rfl

@[simp] theorem suspend_rcd (p : Port) (s t : State) :
    (suspend p s t).rcd = s.rcd := rfl

@[simp] theorem suspend_hfe (p : Port) (s t : State) :
    (suspend p s t).hfe = s.hfe := rfl

@[simp] theorem suspend_hfd (p : Port) (s t : State) :
    (suspend p s t).hfd = s.hfd := rfl

@[simp] theorem suspend_ege (p : Port) (s t : State) :
    (suspend p s t).ege = s.ege := rfl

@[simp] theorem suspend_egd (p : Port) (s t : State) :
    (suspend p s t).egd = s.egd := rfl

@[simp] theorem suspend_rge (p : Port) (s t : State) :
    (suspend p s t).rge = s.rge := rfl

@[simp] theorem suspend_rgd (p : Port) (s t : State) :
    (suspend p s t).rgd = s.rgd := rfl

@[simp] theorem suspend_data (p : Port) (s t : State) :
    (suspend p s t).data = t.data := rfl

@[simp] theorem suspend_sink (p : Port) (s t : State) :
    (suspend p s t).sink = t.sink := rfl

@[simp] theorem suspend_sinkRoom (p : Port) (s t : State) :
    (suspend p s t).sinkRoom = t.sinkRoom := rfl

@[simp] theorem suspend_source (p : Port) (s t : State) :
    (suspend p s t).source = t.source := rfl

@[simp] theorem suspend_waiting (p : Port) (s t : State) :
    (suspend p s t).waiting = some p := rfl

@[simp] theorem suspend_sent (p : Port) (s t : State) :
    (suspend p s t).sent = s.sent + (t.sink.length - s.sink.length) := rfl

@[simp] theorem suspend_taken (p : Port) (s t : State) :
    (suspend p s t).taken = s.source.take (s.source.length - t.source.length) := rfl

@[simp] theorem suspend_host (p : Port) (s t : State) :
    (suspend p s t).host = s.host := rfl

@[simp] theorem suspend_hostRead (p : Port) (s t : State) :
    (suspend p s t).hostRead = s.hostRead := rfl

@[simp] theorem suspend_freeCount (p : Port) (s t : State) :
    (suspend p s t).freeCount = s.freeCount := rfl

@[simp] theorem resetAll_params (s : State) :
    (resetAll s).params = s.params := rfl

@[simp] theorem resetAll_cmd (s : State) :
    (resetAll s).cmd = State.reset.cmd := rfl

@[simp] theorem resetAll_arg0 (s : State) :
    (resetAll s).arg0 = State.reset.arg0 := rfl

@[simp] theorem resetAll_arg1 (s : State) :
    (resetAll s).arg1 = State.reset.arg1 := rfl

@[simp] theorem resetAll_arg2 (s : State) :
    (resetAll s).arg2 = State.reset.arg2 := rfl

@[simp] theorem resetAll_arg3 (s : State) :
    (resetAll s).arg3 = State.reset.arg3 := rfl

@[simp] theorem resetAll_res (s : State) :
    (resetAll s).res = State.reset.res := rfl

@[simp] theorem resetAll_status (s : State) :
    (resetAll s).status = State.reset.status := rfl

@[simp] theorem resetAll_bsw (s : State) :
    (resetAll s).bsw = State.reset.bsw := rfl

@[simp] theorem resetAll_bsr (s : State) :
    (resetAll s).bsr = State.reset.bsr := rfl

@[simp] theorem resetAll_bee (s : State) :
    (resetAll s).bee = State.reset.bee := rfl

@[simp] theorem resetAll_bed (s : State) :
    (resetAll s).bed = State.reset.bed := rfl

@[simp] theorem resetAll_fpe (s : State) :
    (resetAll s).fpe = State.reset.fpe := rfl

@[simp] theorem resetAll_fpd (s : State) :
    (resetAll s).fpd = State.reset.fpd := rfl

@[simp] theorem resetAll_rce (s : State) :
    (resetAll s).rce = State.reset.rce := rfl

@[simp] theorem resetAll_rcd (s : State) :
    (resetAll s).rcd = State.reset.rcd := rfl

@[simp] theorem resetAll_hfe (s : State) :
    (resetAll s).hfe = State.reset.hfe := rfl

@[simp] theorem resetAll_hfd (s : State) :
    (resetAll s).hfd = State.reset.hfd := rfl

@[simp] theorem resetAll_ege (s : State) :
    (resetAll s).ege = State.reset.ege := rfl

@[simp] theorem resetAll_egd (s : State) :
    (resetAll s).egd = State.reset.egd := rfl

@[simp] theorem resetAll_rge (s : State) :
    (resetAll s).rge = State.reset.rge := rfl

@[simp] theorem resetAll_rgd (s : State) :
    (resetAll s).rgd = State.reset.rgd := rfl

@[simp] theorem resetAll_data (s : State) :
    (resetAll s).data = s.data := rfl

@[simp] theorem resetAll_sink (s : State) :
    (resetAll s).sink = s.sink := rfl

@[simp] theorem resetAll_sinkRoom (s : State) :
    (resetAll s).sinkRoom = s.sinkRoom := rfl

@[simp] theorem resetAll_source (s : State) :
    (resetAll s).source = s.source := rfl

@[simp] theorem resetAll_waiting (s : State) :
    (resetAll s).waiting = State.reset.waiting := rfl

@[simp] theorem resetAll_sent (s : State) :
    (resetAll s).sent = State.reset.sent := rfl

@[simp] theorem resetAll_taken (s : State) :
    (resetAll s).taken = State.reset.taken := rfl

@[simp] theorem resetAll_host (s : State) :
    (resetAll s).host = s.host := rfl

@[simp] theorem resetAll_hostRead (s : State) :
    (resetAll s).hostRead = s.hostRead := rfl

@[simp] theorem resetAll_freeCount (s : State) :
    (resetAll s).freeCount = s.freeCount := rfl

end Sys2Proof.Machine
end

