-- ==== Sys2Proof/Laws/Waits.lean ====
section
/-! SUPPORT. An operation that needs no more answers than the host has given does not depend on later ones (20_memory R84), said
once for each operation and combinator of Ops.lean; and what the state after a wait at SOURCE resumes as (log 5). -/

namespace Sys2Proof.Machine

variable {α β : Type}

/-- `s` with later answers of the host behind the ones it has. -/
def behind (more : List SourceAnswer) (s : State) : State := { s with source := s.source ++ more }

@[simp] theorem behind_source (more : List SourceAnswer) (s : State) : (behind more s).source = s.source ++ more := rfl

@[simp] theorem behind_bsr (more : List SourceAnswer) (s : State) : (behind more s).bsr = s.bsr := rfl

@[simp] theorem behind_data (more : List SourceAnswer) (s : State) : (behind more s).data = s.data := rfl

/-- The result of an operation with later answers behind the ones left. -/
def behindResult (more : List SourceAnswer) : EStateM.Result Stop State α → EStateM.Result Stop State α
  | .ok v t => .ok v (behind more t)
  | .error e t => .error e (behind more t)

/-- The operation does the same with later answers behind, unless it waits at SOURCE. -/
def KeepsLater (x : M α) : Prop :=
  ∀ (s : State) (more : List SourceAnswer),
    (∃ t, x s = .error (.wait .source) t) ∨ x (behind more s) = behindResult more (x s)

theorem keepsLater_pure (v : α) : KeepsLater (pure v : M α) := fun _ _ => .inr rfl

theorem keepsLater_raise (c : FaultCode) : KeepsLater (raise c : M α) := fun _ _ => .inr rfl

theorem keepsLater_stick : KeepsLater (stick : M α) := fun _ _ => .inr rfl

theorem keepsLater_memRead (a : Nat) : KeepsLater (memRead a) := fun _ _ => .inr rfl

/-- An update that neither reads nor writes the answers. -/
theorem keepsLater_update {f : State → State} (h : ∀ s more, f (behind more s) = behind more (f s)) : KeepsLater (update f) :=
  fun s more => .inr (by simp [h, behindResult])

theorem keepsLater_memWrite (a : Nat) (v : Byte) : KeepsLater (memWrite a v) := keepsLater_update fun _ _ => rfl

/-- An operation that looks at the state, but not at the answers. -/
theorem keepsLater_look {f : State → M α} (h : ∀ s more, f (behind more s) = f s) (hf : ∀ s, KeepsLater (f s)) :
    KeepsLater (look f) := fun s more => by
  simpa only [look_run, h] using hf s s more

theorem keepsLater_bind {x : M α} {f : α → M β} (hx : KeepsLater x) (hf : ∀ v, KeepsLater (f v)) : KeepsLater (x >>= f) :=
  fun s more => by
    rcases hx s more with ⟨t, ht⟩ | hb
    · exact .inl ⟨t, bind_error ht f⟩
    · cases h : x s with
      | ok v t =>
        rw [h] at hb
        rw [bind_ok h, bind_ok hb]
        exact hf v t more
      | error e t =>
        rw [h] at hb
        rw [bind_error h, bind_error hb]
        exact .inr rfl

theorem keepsLater_map {x : M α} (g : α → β) (hx : KeepsLater x) : KeepsLater (g <$> x) := fun s more => by
  rcases hx s more with ⟨t, ht⟩ | hb
  · exact .inl ⟨t, by rw [map_run, ht]⟩
  · right
    rw [map_run, map_run, hb]
    cases x s <;> rfl

/-- A hand-off reads no answer (20_memory R83). -/
theorem keepsLater_handOff (bs : List Byte) : KeepsLater (handOff bs) := fun s more => by
  right
  simp only [handOff]
  change (if (bs.drop s.sent).length ≤ s.sinkRoom then _ else _) = _
  split <;> rfl

/-- Bytes are taken in order, whatever stands behind them (20_memory R84). -/
theorem keepsLater_takeBytes (k : Nat) : KeepsLater (takeBytes k) := by
  induction k with
  | zero => exact keepsLater_pure ()
  | succ k ih =>
    intro s more
    cases he : s.bsr.ended with
    | true => right; rw [takeBytes_ended he, takeBytes_ended (by simpa using he)]; rfl
    | false =>
      cases hs : s.source with
      | nil => exact .inl ⟨s, takeBytes_nil he hs⟩
      | cons a rest =>
        cases a with
        | byte b =>
          rw [takeBytes_byte he hs, takeBytes_byte (s := behind more s) (b := b) (rest := rest ++ more) (by simpa using he)
            (by simp [hs])]
          exact ih (tookByte s b rest) more
        | finish =>
          right
          rw [takeBytes_finish he hs,
            takeBytes_finish (s := behind more s) (rest := rest ++ more) (by simpa using he) (by simp [hs])]
          rfl

theorem keepsLater_getBits (n : Nat) : KeepsLater (getBits n) := by
  refine keepsLater_look (fun _ _ => rfl) fun s => ?_
  split
  · exact keepsLater_raise _
  split
  · exact keepsLater_raise _
  · exact keepsLater_bind (keepsLater_takeBytes _) fun _ =>
      keepsLater_bind (keepsLater_update fun _ _ => rfl) fun _ => keepsLater_look (fun _ _ => rfl) fun _ => keepsLater_pure _

/-! ### Elements and loops -/

theorem keepsLater_element {body : M α} (h : KeepsLater body) : KeepsLater (element body) := fun s more => by
  rcases h s more with ⟨t, ht⟩ | hb
  · exact .inl ⟨t, element_wait ht⟩
  · right
    simp only [element, hb]
    rcases body s with ⟨v, t⟩ | ⟨_ | _ | _, t⟩ <;> rfl

theorem keepsLater_elementAt {body : M α} (n : Nat) (h : KeepsLater body) : KeepsLater (elementAt n body) := fun s more => by
  rcases keepsLater_element h s more with ⟨t, ht⟩ | hb
  · exact .inl ⟨t, by simp [elementAt, ht]⟩
  · right
    simp only [elementAt, hb]
    rcases element body s with ⟨v, t⟩ | ⟨_ | _ | _, t⟩ <;> rfl

theorem keepsLater_elementOrEnd {body : M α} (n : Nat) (h : KeepsLater body) : KeepsLater (elementOrEnd n body) :=
  fun s more => by
    rcases keepsLater_elementAt n h s more with ⟨t, ht⟩ | hb
    · exact .inl ⟨t, by simp [elementOrEnd, ht]⟩
    · right
      simp only [elementOrEnd, hb]
      rcases elementAt n body s with ⟨v, t⟩ | ⟨c | _ | _, t⟩ <;> first | rfl | (cases c <;> rfl)

theorem keepsLater_decodeFrom {before : Nat → M Unit} {code : M (Option Byte)} (hb : ∀ i, KeepsLater (before i))
    (hc : KeepsLater code) (start n i : Nat) : KeepsLater (decodeFrom before code start n i) := by
  induction n generalizing i with
  | zero => exact keepsLater_pure i
  | succ n ih =>
    refine keepsLater_bind (hb i) fun _ => keepsLater_bind (keepsLater_elementOrEnd i hc) fun r => ?_
    rcases r with _ | _ | v
    · exact keepsLater_pure i
    · exact keepsLater_pure i
    · exact keepsLater_bind (keepsLater_memWrite _ _) fun _ => ih (i + 1)

/-! ### The end of a command -/

/-- A command that waits at SOURCE, resumed with later answers, begins again with all of them, but for the bytes of DATA it had
written (log 5). -/
theorem resume_wait {s : State} (hs : Settled s) (data : Memory) (more : List SourceAnswer) :
    resume { s with waiting := some .source, source := more, taken := s.source, data := data } =
      { behind more s with data := data } := by
  obtain ⟨h1, -, h3⟩ := hs
  simp [resume, behind, h1, h3]

end Sys2Proof.Machine
end

