-- ==== Sys2Proof/Tests/Slice0.lean ====
section
/-! SUPPORT. Tests: the well-formedness checks, a word written out for every command, one or two results of each command taken
from 95_test_vectors (or worked from the rule named), and, for each statement with hypotheses, a state that meets them. -/

namespace Sys2Proof.Tests

open Sys2Proof Sys2Proof.Machine

set_option Elab.async false

/-! ### Well-formedness: a term that each check refuses, and one at the edge that it takes -/

theorem test_wellFormed_unit_number : wellFormed (.sysUstate 16) = false ∧ wellFormed (.sysUstate 15) = true := by decide

theorem test_wellFormed_bit_count :
    (∀ i ∈ [Instr.bswWrbits 128, .bsrRdbits 128], wellFormed i = false) ∧
      ∀ i ∈ [Instr.bswWrbits 127, .bsrRdbits 127], wellFormed i = true := by decide

theorem test_wellFormed_predictor_kind :
    (∀ i ∈ [Instr.beeInit 16, .bedInit 16, .fpeInit 16, .fpdInit 16], wellFormed i = false) ∧
      ∀ i ∈ [Instr.beeInit 15, .bedInit 15, .fpeInit 15, .fpdInit 15], wellFormed i = true := by decide

theorem test_wellFormed_log_base :
    (∀ i ∈ [Instr.rgeInit true 16, .rgdInit false 16], wellFormed i = false) ∧
      ∀ i ∈ [Instr.rgeInit true 15, .rgdInit false 15], wellFormed i = true := by decide

/-! ### Decoding: words written out from 30_encoding R110 to R114 -/

/-- Unit 0, `UNIT` = 0000: NOP 0, SRESET 1, USTATE 2 with `U` in `IMM[3:0]`. -/
theorem test_decode_sys :
    decode 0x00000000 = .ok .sysNop ∧ decode 0x01000000 = .ok .sysSreset ∧ decode 0x0200000F = .ok (.sysUstate 15) := by decide

/-- Unit 1, with `N` in `IMM[6:0]`. -/
theorem test_decode_bsw :
    decode 0x10000000 = .ok .bswInit ∧ decode 0x11000000 = .ok .bswWrbit ∧ decode 0x12000040 = .ok (.bswWrbits 64) ∧
      decode 0x13000000 = .ok .bswFlush ∧ decode 0x14000000 = .ok .bswClose ∧ decode 0x15000000 = .ok .bswWritten := by decide

/-- Unit 2: operation 3 is not listed. -/
theorem test_decode_bsr :
    decode 0x20000000 = .ok .bsrInit ∧ decode 0x21000000 = .ok .bsrRdbit ∧ decode 0x2200007F = .ok (.bsrRdbits 127) ∧
      decode 0x24000000 = .ok .bsrClose ∧ decode 0x25000000 = .ok .bsrRead ∧
        decode 0x23000000 = .error .reservedOperation := by decide

/-- Units 3 and 4, with `K` in `IMM[3:0]`. -/
theorem test_decode_binary :
    decode 0x30000001 = .ok (.beeInit 1) ∧ decode 0x31000000 = .ok .beeEncbit ∧ decode 0x32000000 = .ok .beeEncbyte ∧
      decode 0x36000000 = .ok .beeEncode ∧ decode 0x37000000 = .ok .beeDispose ∧ decode 0x40000000 = .ok (.bedInit 0) ∧
        decode 0x41000000 = .ok .bedDecbit ∧ decode 0x42000000 = .ok .bedDecbyte ∧ decode 0x46000000 = .ok .bedDecode ∧
          decode 0x47000000 = .ok .bedDispose := by decide

/-- Units 5 and 6: FPE has no operation 1. -/
theorem test_decode_fpaq :
    decode 0x5000000F = .ok (.fpeInit 15) ∧ decode 0x52000000 = .ok .fpeEncbyte ∧ decode 0x56000000 = .ok .fpeEncode ∧
      decode 0x57000000 = .ok .fpeDispose ∧ decode 0x60000000 = .ok (.fpdInit 0) ∧ decode 0x61000000 = .ok .fpdDecbit ∧
        decode 0x62000000 = .ok .fpdDecbyte ∧ decode 0x66000000 = .ok .fpdDecode ∧ decode 0x67000000 = .ok .fpdDispose ∧
          decode 0x51000000 = .error .reservedOperation := by decide

/-- Units 7 and 8. -/
theorem test_decode_range :
    decode 0x70000000 = .ok .rceInit ∧ decode 0x72000000 = .ok .rceEncbyte ∧ decode 0x76000000 = .ok .rceEncode ∧
      decode 0x77000000 = .ok .rceDispose ∧ decode 0x80000000 = .ok .rcdInit ∧ decode 0x82000000 = .ok .rcdDecbyte ∧
        decode 0x86000000 = .ok .rcdDecode ∧ decode 0x87000000 = .ok .rcdDispose := by decide

/-- Units 9 and 10: no operation 2. -/
theorem test_decode_huffman :
    decode 0x90000000 = .ok .hfeInit ∧ decode 0x96000000 = .ok .hfeEncode ∧ decode 0x97000000 = .ok .hfeDispose ∧
      decode 0xA0000000 = .ok .hfdInit ∧ decode 0xA6000000 = .ok .hfdDecode ∧ decode 0xA7000000 = .ok .hfdDispose ∧
        decode 0x92000000 = .error .reservedOperation := by decide

/-- Units 11 and 12, with `S` in `IMM[4]`. -/
theorem test_decode_expGolomb :
    decode 0xB0000010 = .ok (.egeInit true) ∧ decode 0xB2000000 = .ok .egeEncbyte ∧ decode 0xB6000000 = .ok .egeEncode ∧
      decode 0xB7000000 = .ok .egeDispose ∧ decode 0xC0000000 = .ok (.egdInit false) ∧ decode 0xC2000000 = .ok .egdDecbyte ∧
        decode 0xC6000000 = .ok .egdDecode ∧ decode 0xC7000000 = .ok .egdDispose := by decide

/-- Units 13 and 14, with `S` in `IMM[4]` and `L` in `IMM[3:0]`. -/
theorem test_decode_riceGolomb :
    decode 0xD0000013 = .ok (.rgeInit true 3) ∧ decode 0xD2000000 = .ok .rgeEncbyte ∧ decode 0xD6000000 = .ok .rgeEncode ∧
      decode 0xD7000000 = .ok .rgeDispose ∧ decode 0xE0000008 = .ok (.rgdInit false 8) ∧ decode 0xE2000000 = .ok .rgdDecbyte ∧
        decode 0xE6000000 = .ok .rgdDecode ∧ decode 0xE7000000 = .ok .rgdDispose := by decide

/-- V-BS-6 and V-GR-2: the illegal words, each by the check that refuses it. -/
theorem test_decode_illegal :
    decode 0x12010008 = .error .reservedBits ∧ decode 0x12000080 = .error .strayImmediate ∧
      decode 0xF0000000 = .error .reservedOperation ∧ decode 0x18000000 = .error .reservedOperation ∧
        decode 0xB0000020 = .error .strayImmediate ∧ decode 0xD0000020 = .error .strayImmediate := by decide

/-! ### States -/

/-- Reset, with both streams bound and a host that accepts 4096 bytes. -/
def opened : State := { State.reset with bsw := writerFresh .opened, bsr := readerFresh .opened, sinkRoom := 4096 }

/-- Both streams bound and every coder READY, the Rice coders with `logBase` = 3. -/
def ready : State :=
  { opened with
    bee := binaryEncoderFresh .ready, bed := binaryDecoderFresh .ready
    fpe := binaryEncoderFresh .ready, fpd := binaryDecoderFresh .ready
    rce := rangeEncoderFresh .ready 0, rcd := rangeDecoderFresh .ready 0
    hfe := huffmanFresh .ready, hfd := huffmanFresh .ready
    ege := { ustate := .ready, signed := true }, egd := { ustate := .ready, signed := true }
    rge := { ustate := .ready, signed := false, logBase := 3 }, rgd := { ustate := .ready, signed := false, logBase := 3 } }

/-- The host answers these bytes and then END. -/
def fed (bs : List Byte) (s : State) : State := { s with source := bs.map SourceAnswer.byte ++ [.finish] }

/-- An array descriptor of `len` bytes at `base`, with the bytes `bs` there. -/
def array (base len : Nat) (bs : List Byte) (s : State) : State :=
  { s with
    arg0 := BitVec.ofNat 64 base, arg1 := BitVec.ofNat 32 len, arg2 := 0, arg3 := BitVec.ofNat 32 len
    data := writeBytes s.data base bs }

/-- The state one command leads to. -/
def after (i : Instr) (s : State) : State :=
  match exec i s with
  | .next t => t
  | _ => s

/-- The state one step leads to. -/
def afterStep (s : State) : State :=
  match step s with
  | .next t => t
  | _ => s

/-- `STATUS` and `RES`. -/
def ends (s : State) : Nat × Nat := (s.status.toNat, s.res.toNat)

/-- The bits the writer holds, as a number. -/
def held (s : State) : Nat × Nat := (s.bsw.bits.length, bitsValue s.bsw.bits)

/-- The bytes of "mississippi". -/
def mississippi : List Byte := [0x6D, 0x69, 0x73, 0x73, 0x69, 0x73, 0x73, 0x69, 0x70, 0x70, 0x69]

/-- DATA as listed, as numbers. -/
def listed (s : State) : List (Nat × Nat) := s.data.map fun c => (c.1, c.2.toNat)

/-! ### SYS -/

/-- V-SYS: NOP completes with `RES` = 0. -/
theorem test_sysNop : ends (after .sysNop { opened with res := 7 }) = (0, 0) := by decide +kernel

/-- V-SYS: SRESET clears `FIRST`, `RES` and the units. -/
theorem test_sysSreset :
    ends (after .sysSreset { opened with res := 1, status := 0x00210303 }) = (0x00100000, 0) ∧
      (after .sysSreset opened).bsw.ustate = .uninit := by decide +kernel

/-- R153, V-SYS: READY is 1, OPEN is 1, unit 15 reads as 0. -/
theorem test_sysUstate :
    ends (after (.sysUstate 8) ready) = (0x00200000, 1) ∧ ends (after (.sysUstate 1) State.reset) = (0x00200000, 0) ∧
      ends (after (.sysUstate 15) ready) = (0x00200000, 0) := by decide +kernel

/-! ### BSW -/

/-- V-BS-8: a new binding discards what was held. -/
theorem test_bswInit :
    (after .bswInit { opened with bsw := { writerFresh .closed with bits := [true], closed := true } }).bsw =
      writerFresh .opened := by decide +kernel

/-- V-BS-3: bit 0 of `ARG0` is appended. -/
theorem test_bswWrbit : held (after .bswWrbit { opened with arg0 := 3 }) = (1, 1) ∧
    ends (after .bswWrbit { opened with arg0 := 3 }) = (0x00110000, 1) := by decide +kernel

/-- V-BS-1, V-BS-5: 64 bits; 65 is INVALID_ARGUMENT; a closed writer comes first. -/
theorem test_bswWrbits :
    held (after (.bswWrbits 64) { opened with arg0 := 0x0123456789ABCDEF }) = (64, 0x0123456789ABCDEF) ∧
      ends (after (.bswWrbits 65) opened) = (0x00210303, 0) ∧
        ends (after (.bswWrbits 65) { opened with bsw.closed := true, bsw.ustate := .closed, status := 0x300 }) =
          (0x00210305, 0) := by decide +kernel

/-- V-BS-7: the eighth byte makes a full buffer, which is handed over. -/
theorem test_bswWrbits_fullBuffer :
    (after (.bswWrbits 64) { opened with arg0 := 0x0102030405060708, params.bufBytes := 8 }).sink = [1, 2, 3, 4, 5, 6, 7, 8] := by
  decide +kernel

/-- The writer of V-BS-3, which holds 13 bits. -/
def thirteenBits : State := { opened with bsw.bits := bitsOf 0x1579 13, bsw.written := 13 }

/-- V-BS-3: one complete byte, AB. -/
theorem test_bswFlush : (after .bswFlush thirteenBits).sink = [0xAB] ∧ (after .bswFlush thirteenBits).bsw.delivered = 1 := by
  decide +kernel

/-- V-BS-3: the partial byte and six bytes of padding. -/
theorem test_bswClose :
    (after .bswClose { thirteenBits with bsw.delivered := 1 }).sink = [0xC8, 0xFF, 0xFF, 0xFF, 0xFF, 0xFF, 0xFF] ∧
      (after .bswClose thirteenBits).bsw.ustate = .closed ∧ (after .bswClose opened).sink = [] := by decide +kernel

/-- V-BS-5: allowed on a closed writer. -/
theorem test_bswWritten :
    ends (after .bswWritten { thirteenBits with bsw.closed := true, bsw.ustate := .closed }) = (0x00510000, 13) ∧
      ends (after .bswWritten State.reset) = (0x00510202, 0) := by decide +kernel

/-! ### BSR -/

/-- V-BS-11: a new binding drops the unread bits and an END. -/
theorem test_bsrInit :
    (after .bsrInit { opened with bsr := { readerFresh .opened with bytes := [0xFF], read := 4, ended := true } }).bsr =
      readerFresh .opened := by decide +kernel

/-- R196: the most significant bit first. -/
theorem test_bsrRdbit :
    ends (after .bsrRdbit (fed [0xA5] opened)) = (0x00120000, 1) ∧
      ends (after .bsrRdbit { opened with bsr.closed := true, bsr.ustate := .closed }) = (0x00120505, 0) := by decide +kernel

/-- V-BS-9: three bits of A5 are 5. -/
theorem test_bsrRdbits :
    ends (after (.bsrRdbits 3) (fed [0xA5] opened)) = (0x00220000, 5) ∧
      (after (.bsrRdbits 3) (fed [0xA5] opened)).bsr.read = 3 := by decide +kernel

/-- V-BS-9: six more bits meet END; nothing is consumed, and END stays met. -/
theorem test_bsrRdbits_end :
    let s := { opened with bsr.bytes := [0xA5], bsr.read := 3, res := 5, source := [.finish] }
    ends (after (.bsrRdbits 6) s) = (0x00220404, 5) ∧ (after (.bsrRdbits 6) s).bsr.read = 3 ∧
      (after (.bsrRdbits 6) s).bsr.ended = true := by decide +kernel

/-- V-BS-10: twice. -/
theorem test_bsrClose :
    (after .bsrClose opened).bsr.ustate = .closed ∧ (after .bsrClose opened).bsr.closed = true ∧
      ends (after .bsrClose { opened with bsr.closed := true, bsr.ustate := .closed }) = (0x00420000, 0) := by decide +kernel

/-- V-BS-10: allowed on a closed reader. -/
theorem test_bsrRead :
    ends (after .bsrRead { opened with bsr.closed := true, bsr.ustate := .closed, bsr.read := 65 }) = (0x00520000, 65) := by
  decide +kernel

/-! ### BEE and BED -/

/-- V-BEE-5: K = 1 is INVALID_ARGUMENT and leaves the unit DISPOSED. -/
theorem test_beeInit :
    ends (after (.beeInit 0) State.reset) = (0x00030000, 0) ∧ (after (.beeInit 0) State.reset).bee.ustate = .ready ∧
      ends (after (.beeInit 1) State.reset) = (0x00030303, 0) ∧
        (after (.beeInit 1) { ready with bee.ustate := .disposed }).bee.ustate = .disposed := by decide +kernel

/-- T-BEE-1: the first bit of 6D. -/
theorem test_beeEncbit :
    let t := after .beeEncbit ready
    t.bee.low = 0x7FFFF801 ∧ t.bee.high = 0xFFFFFFFF ∧ t.bee.pred.ctx = 2 ∧ t.bee.pred.n0.get 1 0 = 1 := by decide +kernel

/-- T-BEE-1: all of 6D, with no byte out. -/
theorem test_beeEncbyte :
    let t := after .beeEncbyte { ready with arg0 := 0x6D }
    t.bee.low = 0x91FFF003 ∧ t.bee.high = 0x92FFE803 ∧ held t = (0, 0) ∧ ends t = (0x00230000, 0) := by decide +kernel

/-- V-BEE-3: ten bytes leave for "mississippi". -/
theorem test_beeEncode :
    let t := after .beeEncode (array 0 11 mississippi ready)
    held t = (80, 0x928EF27A73ECABF48493) ∧ t.bee.low = 0x838DB47B ∧ ends t = (0x00630000, 11) := by decide +kernel

/-- V-DESC: a descriptor that leaves its array. -/
theorem test_beeEncode_descriptor :
    let t := after .beeEncode { ready with params.dataSize := 256, arg1 := 16, arg2 := 8, arg3 := 9 }
    ends t = (0x00630000, 0xFFFFFFFFFFFFFFFF) ∧ held t = (0, 0) := by decide +kernel

/-- V-BEE-2: 56 bits, `low << 24`, all handed to SINK. -/
theorem test_beeDispose :
    let t := after .beeDispose { ready with bee.low := 0x91FFF003, bee.high := 0x92FFE803 }
    t.sink = [0x91, 0xFF, 0xF0, 0x03, 0, 0, 0] ∧ t.bee.ustate = .disposed ∧ ends t = (0x00730000, 0) := by decide +kernel

/-- R449: a DISPOSE after the writer's CLOSE leaves the coder READY. -/
theorem test_beeDispose_closed :
    let t := after .beeDispose { ready with bsw.closed := true, bsw.ustate := .closed }
    ends t = (0x00730505, 0) ∧ t.bee.ustate = .ready := by decide +kernel

theorem test_bedInit : (after (.bedInit 0) State.reset).bed.ustate = .ready ∧
    ends (after (.bedInit 15) State.reset) = (0x00040303, 0) := by decide +kernel

/-- V-BEE-2: the first of eight bits seeds the decoder. -/
theorem test_bedDecbit :
    let t := after .bedDecbit (fed [0x91, 0xFF, 0xF0, 0x03, 0, 0, 0, 0xFF] ready)
    ends t = (0x00140000, 0) ∧ t.bsr.read = 32 ∧ t.bed.current = 0x91FFF003 ∧ t.bed.seeded = true := by decide +kernel

/-- V-BEE-5: three bytes are too few to seed it. -/
theorem test_bedDecbit_end :
    let t := after .bedDecbit (fed [1, 2, 3] ready)
    ends t = (0x00140404, 0) ∧ t.bsr.read = 0 ∧ t.bed.seeded = false := by decide +kernel

/-- V-BEE-2. -/
theorem test_bedDecbyte :
    let t := after .bedDecbyte (fed [0x91, 0xFF, 0xF0, 0x03, 0, 0, 0, 0xFF] ready)
    ends t = (0x00240000, 0x6D) ∧ t.bsr.read = 32 := by decide +kernel

/-- V-BEE-3: "mississippi" back, 112 bits read. -/
theorem test_bedDecode :
    let t := after .bedDecode (array 0x100 11 [] (fed [0x92, 0x8E, 0xF2, 0x7A, 0x73, 0xEC, 0xAB, 0xF4, 0x84, 0x93, 0x83, 0x8D,
      0xB4, 0x7B, 0, 0, 0, 0xFF, 0xFF, 0xFF, 0xFF, 0xFF, 0xFF, 0xFF] ready))
    t.data = writeBytes [] 0x100 mississippi ∧ ends t = (0x00640000, 11) ∧ t.bsr.read = 112 := by decide +kernel

/-- R163: the stream ends behind the seed's four bytes, before the first byte is out. -/
theorem test_bedDecode_short :
    let t := after .bedDecode (array 0x100 2 [] (fed [0, 0, 0] ready))
    t.data = [] ∧ ends t = (0x00640000, 0) ∧ t.bsr.read = 0 := by decide +kernel

theorem test_bedDispose : (after .bedDispose ready).bed.ustate = .disposed ∧ ends (after .bedDispose State.reset) =
    (0x00740202, 0) := by decide +kernel

/-! ### FPE and FPD -/

theorem test_fpeInit : (after (.fpeInit 0) State.reset).fpe.ustate = .ready ∧
    ends (after (.fpeInit 3) State.reset) = (0x00050303, 0) := by decide +kernel

/-- V-FP-2: after "m", `low` holds C8FFF004 once the end marker is written; one DISPOSE from there. -/
theorem test_fpeEncbyte_dispose :
    (after .fpeDispose (after .fpeEncbyte { ready with arg0 := 0x6D })).sink = [0xC8, 0xFF, 0xF0, 0x04, 0, 0, 0] := by
  decide +kernel

/-- V-FP-3: seven bytes leave for "mississippi". -/
theorem test_fpeEncode :
    let t := after .fpeEncode (array 0 11 mississippi ready)
    held t = (56, 0xC9594266FA4D9E) ∧ ends t = (0x00650000, 11) := by decide +kernel

/-- V-FP-1: a DISPOSE right after INIT. -/
theorem test_fpeDispose :
    let t := after .fpeDispose ready
    t.sink = [0, 0, 0, 0, 0, 0, 0] ∧ t.fpe.ustate = .disposed := by decide +kernel

theorem test_fpdInit : (after (.fpdInit 0) State.reset).fpd.ustate = .ready ∧
    ends (after (.fpdInit 3) State.reset) = (0x00060303, 0) := by decide +kernel

/-- V-FP-2: the continue bit of "m", then its byte. -/
theorem test_fpdDecbit_decbyte :
    let t := after .fpdDecbit (fed [0xC8, 0xFF, 0xF0, 0x04, 0, 0, 0, 0xFF] ready)
    ends t = (0x00160000, 0) ∧ ends (after .fpdDecbyte t) = (0x00260000, 0x6D) := by decide +kernel

/-- V-FP-3 (E5): asked for 20 bytes, the end marker stops it after 11. -/
theorem test_fpdDecode :
    let t := after .fpdDecode (array 0x100 20 [] (fed [0xC9, 0x59, 0x42, 0x66, 0xFA, 0x4D, 0x9E, 0x85, 0xBC, 0x9F, 0, 0, 0, 0,
      0xFF, 0xFF] ready))
    t.data = writeBytes [] 0x100 mississippi ∧ ends t = (0x00660000, 11) ∧ t.bsr.read = 88 := by decide +kernel

/-- V-FP-2: asked for no byte, it still reads one continue bit. -/
theorem test_fpdDecode_none :
    let t := after .fpdDecode (array 0x100 0 [] (fed [0xC8, 0xFF, 0xF0, 0x04, 0, 0, 0, 0xFF] ready))
    t.data = [] ∧ ends t = (0x00660000, 0) ∧ t.bsr.read = 32 := by decide +kernel

theorem test_fpdDispose : (after .fpdDispose ready).fpd.ustate = .disposed ∧
    ends (after .fpdDecbit { ready with fpd.ustate := .disposed }) = (0x00160707, 0) := by decide +kernel

/-! ### RCE and RCD -/

/-- V-RC-6: 1023 is refused, 2^30 is taken. -/
theorem test_rceInit :
    ends (after .rceInit { opened with arg0 := 0x3FF }) = (0x00070303, 0) ∧
      (after .rceInit { opened with arg0 := 0x140000000 }).rce.chunkSize = 0x40000000 := by decide +kernel

/-- V-RC-2. -/
theorem test_rceEncbyte :
    let t := after .rceEncbyte { ready with arg0 := 0x6D }
    t.rce.low = 0x6C936C936C9300 ∧ t.rce.range = 0xFF00FF00FF00 ∧ held t = (0, 0) ∧ freqAt t.rce.freq 109 = 109 ∧
      freqAt t.rce.freq 110 = 111 ∧ freqAt t.rce.freq 257 = 258 := by decide +kernel

/-- V-RC-9: the clamp gives 0; the coder fails. -/
theorem test_rceEncbyte_clamped :
    let t := after .rceEncbyte { ready with rce.low := 0x12FFFFFFFFFFFF, rce.range := 514 }
    ends t = (0x00270808, 0) ∧ t.rce.ustate = .failed ∧ held t = (0, 0) := by decide +kernel

/-- V-RC-5: two bytes leave for 255, 0, 1, through a straddle. -/
theorem test_rceEncode :
    let t := after .rceEncode (array 0 3 [255, 0, 1] ready)
    held t = (16, 0xFE01) ∧ t.rce.low = 0xFFF62F4F528A00 ∧ ends t = (0x00670000, 3) := by decide +kernel

/-- V-RC-2: seven bytes, which stay in the writer. -/
theorem test_rceDispose :
    let t := after .rceDispose { ready with rce.low := 0x6C936C936C9300 }
    held t = (56, 0x6C936C936C9300) ∧ t.sink = [] ∧ t.rce.ustate = .disposed := by decide +kernel

theorem test_rcdInit :
    ends (after .rcdInit { opened with arg0 := 0xFFFFFFFF }) = (0x00080303, 0) ∧
      (after .rcdInit { opened with arg0 := 0x400 }).rcd.chunkSize = 1024 := by decide +kernel

/-- V-RC-4: the EOF symbol is 256. -/
theorem test_rcdDecbyte :
    let t := after .rcdDecbyte (fed [0xFF, 0, 0xFF, 0, 0xFF, 0, 0, 0, 0, 0, 0, 0, 0, 0, 0] ready)
    ends t = (0x00280000, 256) ∧ t.bsr.read = 64 := by decide +kernel

/-- V-RC-4: a count past the total. -/
theorem test_rcdDecbyte_invalid :
    let t := after .rcdDecbyte (fed [0xFF, 0xFF, 0xFF, 0xFF, 0xFF, 0xFF, 0xFF] ready)
    ends t = (0x00280606, 0) ∧ t.bsr.read = 0 ∧ t.rcd.seeded = false := by decide +kernel

/-- V-RC-5: 255, 0, 1 back. -/
theorem test_rcdDecode :
    let t := after .rcdDecode (array 0x100 3 [] (fed [0xFE, 0x01, 0xFF, 0xF6, 0x2F, 0x4F, 0x52, 0x8A, 0, 0xFF] ready))
    t.data = writeBytes [] 0x100 [255, 0, 1] ∧ ends t = (0x00680000, 3) ∧ t.bsr.read = 72 := by decide +kernel

theorem test_rcdDispose : (after .rcdDispose ready).rcd.ustate = .disposed ∧
    ends (after .rcdDispose { ready with rcd.ustate := .failed }) = (0x00780909, 0) := by decide +kernel

/-! ### HFE and HFD -/

/-- The stream of "aaa" (V-HF-2): the header with a 1 in field 61, and three 0 bits. -/
def threeLetters : List Byte := 0x84 :: List.replicate 11 0 ++ 1 :: List.replicate 20 0 ++ [0]

theorem test_hfeInit : (after .hfeInit State.reset).hfe.ustate = .ready := by decide +kernel

/-- V-HF-2: 265 bits for "aaa", three of them 1: the flag, the width's last bit and field 61. -/
theorem test_hfeEncode :
    let t := after .hfeEncode (array 0 3 [0x61, 0x61, 0x61] ready)
    held t = (265, 2 ^ 264 + 2 ^ 259 + 2 ^ 161) ∧ ends t = (0x00690000, 3) := by decide +kernel

/-- V-HF-1: the lengths and codes of "mississippi". -/
theorem test_hfe_codes :
    let sizes := buildSizes mississippi
    [0x69, 0x6D, 0x70, 0x73].map (sizeAt sizes) = [2, 3, 3, 1] ∧
      [0x69, 0x6D, 0x70, 0x73].map (codeAt (canonicalCodes sizes)) = [1, 0, 1, 1] := by decide +kernel

theorem test_hfeDispose : (after .hfeDispose ready).hfe.ustate = .disposed := by decide +kernel

theorem test_hfdInit : (after .hfdInit State.reset).hfd.ustate = .ready := by decide +kernel

/-- V-HF-2: "aaa" back, 265 bits read. -/
theorem test_hfdDecode :
    let t := after .hfdDecode (array 0x100 3 [] (fed threeLetters ready))
    t.data = writeBytes [] 0x100 [0x61, 0x61, 0x61] ∧ ends t = (0x006A0000, 3) ∧ t.bsr.read = 265 := by decide +kernel

/-- V-HF-5: a canonical flag of 0. -/
theorem test_hfdDecode_flag :
    let t := after .hfdDecode (array 0x100 1 [] (fed [0] ready))
    ends t = (0x006A0606, 0) ∧ t.bsr.read = 0 := by decide +kernel

theorem test_hfdDispose : (after .hfdDispose ready).hfd.ustate = .disposed := by decide +kernel

/-! ### The Golomb coders -/

/-- R364, R370, V-GR-2: the INIT commands. -/
theorem test_golombInit :
    (after (.egeInit true) State.reset).ege.signed = true ∧ (after (.egdInit false) State.reset).egd.ustate = .ready ∧
      (after (.rgeInit true 7) State.reset).rge.logBase = 7 ∧ ends (after (.rgeInit false 8) State.reset) = (0x000D0303, 0) ∧
        (after (.rgdInit false 1) State.reset).rgd.logBase = 1 ∧ ends (after (.rgdInit false 0) State.reset) = (0x000E0303, 0) := by
  decide +kernel

/-- V-GR-1, the signed column: 80 is -128, 16 bits; 0 has no sign bit. -/
theorem test_egeEncbyte :
    held (after .egeEncbyte { ready with arg0 := 0x80 }) = (16, 0x0103) ∧ held (after .egeEncbyte ready) = (1, 1) := by
  decide +kernel

/-- V-GR-1, the signed column: FE is 0111, then 01 is 0100. -/
theorem test_egeEncode :
    let t := after .egeEncode (array 0 2 [0xFE, 0x01] ready)
    held t = (8, 0x74) ∧ ends t = (0x006B0000, 2) := by decide +kernel

/-- V-GR-4: the magnitude 300 with sign 1 is D4. -/
theorem test_egdDecbyte :
    let t := after .egdDecbyte (fed [0x00, 0x96, 0xC0] ready)
    ends t = (0x002C0000, 0xD4) ∧ t.bsr.read = 18 := by decide +kernel

/-- V-GR-1, V-GR-5: FE and 01 back; an empty stream is a short count. -/
theorem test_egdDecode :
    let t := after .egdDecode (array 0x100 2 [] (fed [0x74] ready))
    listed t = [(0x100, 0xFE), (0x101, 0x01)] ∧ ends t = (0x006C0000, 2) ∧
      ends (after .egdDecode (array 0 4 [] (fed [] ready))) = (0x006C0000, 0) := by decide +kernel

/-- V-GR-1, k = 3 unsigned: 80 is sixteen 0 bits and 1000. -/
theorem test_rgeEncbyte : held (after .rgeEncbyte { ready with arg0 := 0x80 }) = (20, 8) := by decide +kernel

/-- V-GR-1, k = 3 unsigned: 06 is 1110, 07 is 1111. -/
theorem test_rgeEncode :
    let t := after .rgeEncode (array 0 2 [6, 7] ready)
    held t = (8, 0xEF) ∧ ends t = (0x006D0000, 2) := by decide +kernel

/-- V-GR-1, k = 3 unsigned: 7F is fifteen 0 bits and 1111. -/
theorem test_rgdDecbyte :
    let t := after .rgdDecbyte (fed [0x00, 0x01, 0xE0] ready)
    ends t = (0x002E0000, 0x7F) ∧ t.bsr.read = 19 := by decide +kernel

/-- V-GR-1, k = 3 unsigned: 06 and 07 back. -/
theorem test_rgdDecode :
    let t := after .rgdDecode (array 0x100 2 [] (fed [0xEF] ready))
    listed t = [(0x100, 6), (0x101, 7)] ∧ ends t = (0x006E0000, 2) := by decide +kernel

theorem test_golombDispose :
    (after .egeDispose ready).ege.ustate = .disposed ∧ (after .egdDispose ready).egd.ustate = .disposed ∧
      (after .rgeDispose ready).rge.ustate = .disposed ∧ (after .rgdDispose ready).rgd.ustate = .disposed ∧
        (after .rgdDispose ready).rge.ustate = .ready := by decide +kernel

/-! ### Steps -/

/-- R111, V-BS-6: an illegal word after a first fault. -/
theorem test_step_illegal :
    ends (afterStep ({ opened with status := 0x00110202 }.withFetchWord 32 0x12010008)) = (0x00210201, 0) := by decide +kernel

/-- R150: the word written to `CMD` runs. -/
theorem test_step_command :
    let t := afterStep { opened with arg0 := 5, host := [.write 0 0x12000003, .read 0x20] }
    ends t = (0x00210000, 3) ∧ held t = (3, 5) ∧ t.cmd = 0x12000003 ∧ t.host = [.read 0x20] := by decide +kernel

/-- R82: DATA behind 0x10000, one byte; an offset that is not listed stops the machine (log 13). -/
theorem test_step_window :
    listed (afterStep { opened with host := [.write 0x10010 0x1FF] }) = [(0x10, 0xFF)] ∧
      (afterStep { opened with res := 9, host := [.read 0x20] }).hostRead = 9 ∧
        intake { opened with host := [.read 0x2C] } = .noSuchOffset := by decide +kernel

/-! ### Witnesses: for each statement with hypotheses, a state and operands that meet all of them -/

theorem witness_words :
    WellFormed (.bswWrbits 127) ∧ WellFormed (.rgdInit true 15) ∧ decode 0x12000040 = .ok (.bswWrbits 64) ∧
      LegalWord 0xE000001F ∧ ¬LegalWord 0x23000000 ∧ ¬LegalWord 0x00000001 := by decide +kernel

/-- A new command, and a waiting one that an answer or an acceptance lets go on. -/
theorem witness_StepRunsTheCommand :
    (∃ s : State, s.waiting = none ∧ s.host = .write 0 0x12000040 :: [] ∧
      decode ((0x12000040 : Word64).setWidth 32) = .ok (.bswWrbits 64)) ∧
    (∃ s : State, s.waiting = some .source ∧ s.host = .answer .finish :: [] ∧ decode s.cmd = .ok .bsrRdbit) ∧
    (∃ s : State, s.waiting = some .sink ∧ s.host = .accept 1 :: [] ∧ decode s.cmd = .ok .bswFlush) ∧
    (0x13000000 < 2 ^ 32 ∧ decode (BitVec.ofNat 32 0x13000000) = .ok .bswFlush) :=
  ⟨⟨{ opened with host := [.write 0 0x12000040] }, by decide +kernel⟩,
    ⟨{ opened with cmd := 0x21000000, waiting := some .source, host := [.answer .finish] }, by decide +kernel⟩,
    ⟨{ opened with cmd := 0x13000000, waiting := some .sink, host := [.accept 1] }, by decide +kernel⟩, by decide +kernel⟩

theorem witness_IllegalWordChangesStatusOnly :
    let s := { opened with host := [.write 0 0x12010008] }
    Settled s ∧ s.host = .write 0 0x12010008 :: [] ∧ ¬LegalWord ((0x12010008 : Word64).setWidth 32) := by decide +kernel

/-- Every kind of move, at the edges of the window's ranges. -/
theorem witness_HostMoves :
    (∃ s : State, s.host = []) ∧ (∃ s : State, s.waiting = some .sink ∧ s.host = .read 0x20 :: []) ∧
    (∃ s : State, s.waiting = none ∧ s.host = .answer (.byte 1) :: []) ∧ (∃ s : State, s.waiting = none ∧ s.host = .accept 3 :: []) ∧
    (∀ o, ∃ s : State, s.waiting = none ∧ s.host = .read o :: [] ∧ s.params.dataSize = 2 ^ 20) ∧
    (∀ o v, ∃ s : State, s.waiting = none ∧ s.host = .write o v :: [] ∧ s.params.dataSize = 2 ^ 20) ∧
    (0x30 ≤ 0x30 ∧ 0xFFFF ≤ 0xFFFF ∧ 0x10000 ≤ 0x10000 + (2 ^ 20 - 1) ∧ 0x10000 + (2 ^ 20 - 1) < 0x10000 + 2 ^ 20) :=
  ⟨⟨opened, rfl⟩, ⟨{ opened with waiting := some .sink, host := [.read 0x20] }, rfl, rfl⟩,
    ⟨{ opened with host := [.answer (.byte 1)] }, rfl, rfl⟩, ⟨{ opened with host := [.accept 3] }, rfl, rfl⟩,
    fun o => ⟨{ opened with host := [.read o] }, rfl, rfl, rfl⟩, fun o v => ⟨{ opened with host := [.write o v] }, rfl, rfl, rfl⟩,
    by decide⟩

/-- Two offsets that the window does not list, and its first and last bytes of DATA, which it does. -/
theorem witness_StepStopsOnlyOnUnlistedOffset :
    (let s := { opened with host := [.read 0x04] }
     s.waiting = none ∧ s.host = .read 0x04 :: [] ∧ ¬ListedOffset s.params 0x04) ∧
    ¬ListedOffset opened.params (0x10000 + 2 ^ 20) ∧ ListedOffset opened.params 0x10000 ∧
      ListedOffset opened.params (0x10000 + 2 ^ 20 - 1) := by decide +kernel

theorem witness_ResetEffect :
    (let s := { ready with waiting := some .source, host := [.reset] }
     s.host = .reset :: []) ∧ Settled ready := by decide +kernel

/-- A command that completes, one that faults and one that waits. -/
theorem witness_StatusAfterACommand :
    (after .sysNop opened).waiting = none ∧ exec .sysNop opened = .next (after .sysNop opened) ∧
    exec .bswInit State.reset = .next (after .bswInit State.reset) ∧
    exec .bsrRdbit opened = .next (after .bsrRdbit opened) ∧ (after .bsrRdbit opened).waiting ≠ none ∧
    exec .bswFlush State.reset = .next (after .bswFlush State.reset) ∧ (after .bswFlush State.reset).waiting = none ∧
      statusCode (after .bswFlush State.reset).status ≠ 0 ∧ ¬IsArray .bswFlush :=
  ⟨by decide +kernel, rfl, rfl, rfl, by decide +kernel, rfl, by decide +kernel, by decide +kernel, by decide⟩

/-- A host write of `CMD` that faults, in a state without a fault and in one with a first fault. -/
theorem witness_status_steps :
    let s := { State.reset with host := [.write 0 0x13000000] }
    let t := { State.reset with status := 0x00210303, host := [.write 0 0x01000000] }
    StatusLegal s ∧ step s = .next (afterStep s) ∧ StatusLegal t ∧ step t = .next (afterStep t) ∧ statusFirst t.status ≠ 0 :=
  ⟨by decide +kernel, rfl, by decide +kernel, rfl, by decide +kernel⟩

theorem witness_unit_states :
    (Settled State.reset ∧ (Instr.beeEncode).unit ≠ 0 ∧ (Instr.beeEncode).op ≠ 0 ∧ unitState State.reset 3 = 0) ∧
    (let s := { ready with rce.ustate := .disposed }
     Settled s ∧ 3 ≤ (Instr.rceDispose).unit.toNat ∧ (Instr.rceDispose).op ≠ 0 ∧
       unitState s (Instr.rceDispose).unit.toNat = 2 ∧ (Instr.rceDispose).op = 7 ∧ (Instr.rceEncode).op ≠ 7) ∧
    (let s := { ready with rcd.ustate := .failed }
     Settled s ∧ 3 ≤ (Instr.rcdDecode).unit.toNat ∧ (Instr.rcdDecode).op ≠ 0 ∧ unitState s (Instr.rcdDecode).unit.toNat = 3) := by
  decide +kernel

/-- NOP, USTATE, WRITTEN, the INIT commands and the DISPOSE commands: every unit READY, and every stream bound. -/
theorem witness_settled_units :
    Settled ready ∧ ready.bsw.ustate ≠ .uninit ∧ ready.bsr.ustate ≠ .uninit ∧ Settled State.reset ∧
      State.reset.bsw.ustate = .uninit ∧ State.reset.bsr.ustate = .uninit ∧ ready.bed.ustate = .ready ∧ ready.fpd.ustate = .ready ∧
        ready.rcd.ustate = .ready ∧ ready.hfe.ustate = .ready ∧ ready.hfd.ustate = .ready ∧ ready.ege.ustate = .ready ∧
          ready.egd.ustate = .ready ∧ ready.rge.ustate = .ready ∧ ready.rgd.ustate = .ready ∧ ready.bee.ustate = .ready ∧
            ready.fpe.ustate = .ready ∧ ready.rce.ustate = .ready ∧ ready.rge.logBase ≠ 0 := by decide +kernel

/-- One bit, and a field of 64; a closed writer; and a field of 65 bits. -/
theorem witness_WriteFields :
    Settled thirteenBits ∧ CanWrite thirteenBits [thirteenBits.arg0.getLsbD 0] ∧
      CanWrite thirteenBits (bitsOf thirteenBits.arg0.toNat 64) ∧ thirteenBits.bsw.closed = false ∧
        (let s := { thirteenBits with bsw.closed := true, bsw.ustate := .closed }
         Settled s ∧ s.bsw.ustate ≠ .uninit ∧ s.bsw.closed = true) :=
  ⟨by decide +kernel, by decide +kernel,
    by decide +kernel, rfl, by decide +kernel⟩

/-- SINK takes exactly what the FLUSH and the CLOSE hand over. -/
theorem witness_FlushWriter_CloseWriter :
    (let s := { thirteenBits with sinkRoom := 1 }
     Settled s ∧ WriterOpen s ∧ s.bsw.delivered ≤ s.bsw.bits.length / 8) ∧
    SinkTakes { thirteenBits with sinkRoom := 1 } (thirteenBits.bsw.bits.length / 8 - thirteenBits.bsw.delivered) ∧
    (2 = (thirteenBits.bsw.bits.length + 7) / 8 ∧ 6 = (8 - 2 % 8) % 8 ∧ thirteenBits.bsw.delivered ≤ 2) ∧
    SinkTakes { thirteenBits with sinkRoom := 8 } (2 - thirteenBits.bsw.delivered + 6) :=
  ⟨by decide +kernel, by decide +kernel, by decide +kernel, by decide +kernel⟩

theorem witness_OutputBytes :
    (0 < 1 ∧ 7 < 8) ∧ (writerFresh .opened).closed = false ∧
      (after .bswClose thirteenBits).bsw.closed = true := by decide +kernel

/-- The complete byte of a FLUSH, and the full buffer of a WRBITS, with no room; then room for it. -/
theorem witness_SinkStall :
    (let s := { thirteenBits with sinkRoom := 0 }
     Settled s ∧ WriterOpen s ∧
       0 < (outBytes s.bsw.bits s.bsw.delivered (s.bsw.bits.length / 8 - s.bsw.delivered)).length ∧
         (outBytes s.bsw.bits s.bsw.delivered (s.bsw.bits.length / 8 - s.bsw.delivered)).length - 0 ≤ 1 ∧
           (after .bswFlush s).waiting = some .sink) ∧
    exec .bswFlush { thirteenBits with sinkRoom := 0 } = .next (after .bswFlush { thirteenBits with sinkRoom := 0 }) ∧
    (let s := { opened with sinkRoom := 7, params.bufBytes := 8 }
     Settled s ∧ WriterOpen s ∧ s.bsw.bits.length + 64 < 2 ^ 64 ∧
       7 < (outBytes (s.bsw.bits ++ bitsOf s.arg0.toNat 64) s.bsw.delivered (fullBuffers s (s.bsw.bits.length + 64))).length) :=
  ⟨by decide +kernel, rfl, by decide +kernel⟩

/-- A reader with one byte and END behind it. -/
def oneByte : State := fed [0xA5] opened

/-- The first bit, all eight bits, and nine, where END stands; a closed reader. -/
theorem witness_ReadFields :
    Settled oneByte ∧ CanRead oneByte [true] ∧ CanRead oneByte (byteBits 0xA5) ∧ (byteBits 0xA5).length ≤ 64 ∧
      ReaderOpen oneByte ∧ .finish ∈ oneByte.source ∧ (unread oneByte).length < 9 ∧ (unread (fed [] opened)).length < 1 ∧
        (let s := { oneByte with bsr.closed := true, bsr.ustate := .closed }
         Settled s ∧ s.bsr.ustate ≠ .uninit ∧ s.bsr.closed = true) := by decide +kernel

/-- Every command answers a next state, which is `after`. -/
theorem exec_after (i : Instr) (s : State) : exec i s = .next (after i s) := by cases i <;> rfl

/-- What ReadWaits asks of a command that waits on SOURCE, and of the same command with END behind the answers. -/
abbrev waitsThere (i : Instr) (s : State) : Prop :=
  Settled s ∧ s.bsr.ended = false ∧ .finish ∉ s.source ∧ (after i s).waiting = some .source ∧
    (after i { s with source := s.source ++ [.finish] }).bsr.ended = true

/-- A bit of no byte and nine bits of one; a DECBIT, a DECBYTE or a DECODE of each decoder, with too few bytes of a seed, of a
header or of a code; and a command that has all it needs. -/
theorem witness_ReadWaits :
    (let s := { opened with source := [.byte 0xA5] }
     Settled s ∧ ReaderOpen s ∧ s.bsr.ended = false ∧ .finish ∉ s.source ∧ (unread s).length < 9 ∧ 9 ≤ 64 ∧
       (unread opened).length < 1 ∧ .finish ∉ opened.source) ∧
    (∀ i ∈ [Instr.bsrRdbits 64, .bedDecbit, .bedDecbyte, .bedDecode, .fpdDecbit, .fpdDecbyte, .fpdDecode, .rcdDecbyte, .rcdDecode,
        .hfdDecode, .egdDecode, .rgdDecode], waitsThere i (array 0x100 30 [] { ready with source := [.byte 0x91, .byte 0xFF] })) ∧
    (∀ i ∈ [Instr.bsrRdbit, .egdDecbyte, .rgdDecbyte], waitsThere i ready) ∧
    (let s := { opened with source := [.byte 0xA5] }
     Settled s ∧ (after (.bsrRdbits 8) s).waiting ≠ some .source) ∧
    ∀ i s, exec i s = .next (after i s) :=
  ⟨by decide +kernel, by decide +kernel, by decide +kernel, by decide +kernel, exec_after⟩

/-- The 13 bits of V-BS-3, the last of them alone, read back from the closed writer's bytes. -/
theorem witness_FieldsComeBack :
    let b := (after .bswClose thirteenBits).bsw
    let s := { fed (writerOutput b) opened with bsr.read := 12, bsr.bytes := [0xAB, 0xC8], source := (List.replicate 6 (.byte 0xFF)) }
    Settled s ∧ ReaderOpen s ∧ b.closed = true ∧ b.bits = bitsOf 0xABC 12 ++ bitsOf 1 1 ++ [] ∧ incoming s = writerOutput b ∧
      s.bsr.read.toNat = (bitsOf 0xABC 12).length ∧ (bitsOf 0xABC 12).length + 1 < 2 ^ 64 := by decide +kernel

/-- Chunk sizes at the edges of the legal range, and outside it; log bases likewise. -/
theorem witness_CoderInit :
    (let c : BitVec 32 := ({ ready with arg0 := 1024 } : State).arg0.setWidth 32
     c = 0 ∨ (1024 ≤ c.toInt ∧ c.toInt ≤ 2 ^ 30)) ∧
    (let c : BitVec 32 := ({ ready with arg0 := 2 ^ 30 } : State).arg0.setWidth 32
     c = 0 ∨ (1024 ≤ c.toInt ∧ c.toInt ≤ 2 ^ 30)) ∧
    (let c : BitVec 32 := ({ ready with arg0 := 2 ^ 30 + 1 } : State).arg0.setWidth 32
     ¬(c = 0 ∨ (1024 ≤ c.toInt ∧ c.toInt ≤ 2 ^ 30))) ∧
    (1 ≤ 1 ∧ 1 ≤ 7 ∧ 1 ≤ 7 ∧ 7 ≤ 7 ∧ (0 < 1 ∨ 7 < 0) ∧ (8 < 1 ∨ 7 < 8) ∧ (1 : Nat) ≠ 0) := by decide +kernel

/-- The flushes of BEE, FPE and RCE can be written; and the writer closed. -/
theorem witness_DisposeCommands :
    CanWriteAndFlush ready (flushBits ready.bee.low) ∧
    (∃ out e', CodedBits ready.fpe [true] out e' ∧ CanWriteAndFlush ready (bytesBits out ++ flushBits e'.low)) ∧
    CanWrite ready (bytesBits (registerBytes56 ready.rce.low)) ∧
    (let s := { ready with bsw.closed := true, bsw.ustate := .closed }
     Settled s ∧ s.bee.ustate = .ready ∧ s.bsw.ustate ≠ .uninit ∧ s.bsw.closed = true) ∧
    (let s := { ready with bsw := writerFresh .uninit }
     Settled s ∧ s.bee.ustate = .ready ∧ s.bsw.ustate = .uninit) :=
  ⟨⟨by decide +kernel, by decide +kernel, by decide +kernel⟩,
    ⟨_, _, .one _ _ _ _ _ _ _ (.done _ _ (by decide +kernel)) (.nil _), by decide +kernel, by decide +kernel, by decide +kernel⟩,
    by decide +kernel, by decide +kernel, by decide +kernel⟩

/-- Each check of V-DESC. -/
theorem witness_InvalidDescriptor :
    (∀ d ∈ [((0, -1, 0, 0) : Int × Int × Int × Int), (0, 16, -1, 1), (0, 16, 0, -1), (0, 16, 8, 9), (250, 16, 0, 1)],
      let s := { ready with
        params.dataSize := 256, arg0 := BitVec.ofInt 64 d.1, arg1 := BitVec.ofInt 32 d.2.1, arg2 := BitVec.ofInt 32 d.2.2.1,
        arg3 := BitVec.ofInt 32 d.2.2.2 }
      Settled s ∧ IsArray .beeEncode ∧ unitState s (Instr.beeEncode).unit.toNat = 1 ∧
        (s.arg1.toInt < 0 ∨ s.arg2.toInt < 0 ∨ s.arg3.toInt < 0 ∨ s.arg1.toInt < s.arg2.toInt + s.arg3.toInt ∨
          (s.params.dataSize : Int) < ((s.arg0.setWidth 32).toNat : Int) + s.arg1.toInt)) := by decide +kernel

theorem predictorLegal_fresh : PredictorLegal predictorFresh := by
  refine ⟨by decide, by decide, fun c hc => ?_⟩
  simp [predictorFresh, Table.get_fill _ hc]

/-- A fresh predictor, and the counters of V-PR-4, which its update halves. -/
theorem witness_PredictorStep :
    PredictorLegal predictorFresh ∧
      (let p : Predictor := { predictorFresh with n0 := predictorFresh.n0.set 1 2000, n1 := predictorFresh.n1.set 1 5 }
       (p.n0.get p.ctx.toNat 0).toNat = 2000 ∧ (p.n1.get p.ctx.toNat 0).toNat = 5 ∧
         ((p.update false).n0.get 1 0).toNat = 1000 ∧ ((p.update false).n1.get 1 0).toNat = 2 ∧ (p.update false).ctx = 2) :=
  ⟨predictorLegal_fresh, by decide +kernel⟩

/-- The widest interval with the largest `p`, and the narrowest with 0. -/
theorem witness_SplitPointInside :
    (0 : BitVec 32).toNat < (0xFFFFFFFF : BitVec 32).toNat ∧ 4095 ≤ 4095 ∧ (7 : BitVec 32).toNat < (8 : BitVec 32).toNat := by
  decide

/-- A bit 1 after which no byte leaves. -/
theorem coded_one {e e' : BinaryEncoder} {bits : List Bool} {out : List Byte}
    (h : (e.low ^^^ splitPoint e.low e.high e.pred.probability) &&& 0xFF000000 ≠ 0)
    (rest : CodedBits { e with high := splitPoint e.low e.high e.pred.probability, pred := e.pred.update true } bits out e') :
    CodedBits e (true :: bits) out e' :=
  .one _ _ _ [] out _ _ (.done _ _ h) rest

/-- One bit 1 of an encoder fresh from INIT, which leaves no byte; the eight bits of FF leave one (V-BEE-4). -/
theorem witness_coded_bits :
    (∃ e', CodedBits (binaryEncoderFresh .ready) [true] [] e') ∧
      byteBits 0xFF = [true, true, true, true, true, true, true, true] ∧
        ∃ e', CodedBits (binaryEncoderFresh .ready) [true, true, true, true, true, true, true, true] [0x00] e' :=
  ⟨⟨_, coded_one (by decide +kernel) (.nil _)⟩, by decide +kernel,
    ⟨_, coded_one (by decide +kernel) (coded_one (by decide +kernel) (coded_one (by decide +kernel) (coded_one (by decide +kernel)
      (coded_one (by decide +kernel) (coded_one (by decide +kernel) (coded_one (by decide +kernel)
        (.one _ _ _ [0x00] [] _ _ (.shift _ _ [] _ _ (by decide +kernel) (.done _ _ (by decide +kernel))) (.nil _))))))))⟩⟩

/-- A bit 0 after which no byte leaves. -/
theorem coded_zero {e e' : BinaryEncoder} {bits : List Bool} {out : List Byte}
    (h : ((splitPoint e.low e.high e.pred.probability + 1) ^^^ e.high) &&& 0xFF000000 ≠ 0)
    (rest : CodedBits { e with low := splitPoint e.low e.high e.pred.probability + 1, pred := e.pred.update false } bits out e') :
    CodedBits e (false :: bits) out e' :=
  .zero _ _ _ [] out _ _ (.done _ _ h) rest

/-- The continue bit and the eight bits of FF: nine steps and no byte. -/
theorem witness_continued_bits :
    continuedBits [0xFF] = [false, true, true, true, true, true, true, true, true] ∧
      ∃ e', CodedBits (binaryEncoderFresh .ready) [false, true, true, true, true, true, true, true, true] [] e' :=
  ⟨by decide +kernel, ⟨_, coded_zero (by decide +kernel) (coded_one (by decide +kernel) (coded_one (by decide +kernel)
    (coded_one (by decide +kernel) (coded_one (by decide +kernel) (coded_one (by decide +kernel) (coded_one (by decide +kernel)
      (coded_one (by decide +kernel) (coded_one (by decide +kernel) (.nil _)))))))))⟩⟩

/-- ENCBIT, ENCBYTE and ENCODE of BEE and FPE on FF. -/
theorem witness_BinaryEncode :
    let s := array 0 1 [0xFF] ready
    let t := { ready with arg0 := 0xFF }
    (Settled s ∧ s.bee.ustate = .ready ∧ s.fpe.ustate = .ready ∧ descriptorValid s ∧ Settled t ∧ t.bee.ustate = .ready ∧
      t.fpe.ustate = .ready) ∧
    (CanWrite s (bytesBits [0x00]) ∧ CanWrite t (bytesBits [0x00]) ∧ CanWrite s (bytesBits []) ∧ CanWrite t (bytesBits [])) ∧
    (∃ e', CodedBits t.bee [t.arg0.getLsbD 0] [] e') ∧
    (∃ e', CodedBits t.bee (byteBits (t.arg0.setWidth 8)) [0x00] e') ∧
    (∃ e', CodedBits s.bee (bytesBits (arrayBytes s (arrayStart s) (arrayLength s))) [0x00] e') ∧
    (∃ e', CodedBits t.fpe (continuedBits [t.arg0.setWidth 8]) [] e') ∧
    ∃ e', CodedBits s.fpe (continuedBits (arrayBytes s (arrayStart s) (arrayLength s))) [] e' := by
  intro s t
  have hb : byteBits (t.arg0.setWidth 8) = byteBits 0xFF := by decide +kernel
  have hs : bytesBits (arrayBytes s (arrayStart s) (arrayLength s)) = byteBits 0xFF := by decide +kernel
  have hc : continuedBits [t.arg0.setWidth 8] = continuedBits [0xFF] := by decide +kernel
  have hd : continuedBits (arrayBytes s (arrayStart s) (arrayLength s)) = continuedBits [0xFF] := by decide +kernel
  have h0 : t.arg0.getLsbD 0 = true := by decide +kernel
  rw [h0, hb, hs, hc, hd, witness_coded_bits.2.1, witness_continued_bits.1]
  exact ⟨⟨by decide +kernel, rfl, rfl, by decide +kernel, by decide +kernel, rfl, rfl⟩,
    ⟨by decide +kernel, by decide +kernel,
      .inl rfl, .inl rfl⟩,
    witness_coded_bits.1, witness_coded_bits.2.2, witness_coded_bits.2.2, witness_continued_bits.2, witness_continued_bits.2⟩

/-- Both streams closed. -/
def closedStreams (s : State) : State :=
  { s with bsw.closed := true, bsw.ustate := .closed, bsr.closed := true, bsr.ustate := .closed }

/-- An encoder READY with this upper end of its interval. -/
def encoderBelow (high : BitVec 32) : BinaryEncoder := { binaryEncoderFresh .ready with high := high }

/-- A bit 1 below 01FFFFFF, and a continue bit and FF below 00FFFFFF: one byte leaves. -/
theorem coded_shift :
    (∃ e', CodedBits (encoderBelow 0x01FFFFFF) [true] [0x00] e') ∧
      ∃ e', CodedBits (encoderBelow 0x00FFFFFF) [false, true, true, true, true, true, true, true, true] [0x00] e' :=
  ⟨⟨_, .one _ _ _ [0x00] [] _ _ (.shift _ _ [] _ _ (by decide +kernel) (.done _ _ (by decide +kernel))) (.nil _)⟩,
    ⟨_, .zero _ _ _ [0x00] [] _ _ (.shift _ _ [] _ _ (by decide +kernel) (.done _ _ (by decide +kernel)))
      (coded_one (by decide +kernel) (coded_one (by decide +kernel) (coded_one (by decide +kernel) (coded_one (by decide +kernel)
        (coded_one (by decide +kernel) (coded_one (by decide +kernel) (coded_one (by decide +kernel)
          (coded_one (by decide +kernel) (.nil _)))))))))⟩⟩

/-- A closed writer, and a bit, a byte and a sequence that write: ENCBIT and FPE from intervals about to shift. -/
theorem witness_BinaryEncode_writer :
    let s := closedStreams (array 0 1 [0xFF] { ready with arg0 := 0xFF })
    let t := closedStreams { ready with arg0 := 0xFF, bee := encoderBelow 0x01FFFFFF }
    let u := closedStreams (array 0 1 [0xFF] { ready with fpe := encoderBelow 0x00FFFFFF })
    (Settled s ∧ WriterFault s .streamClosed ∧ descriptorValid s ∧
      arrayBytes s (arrayStart s) (arrayLength s) = [] ++ 0xFF :: [] ∧ CodedBits s.bee (bytesBits []) [] s.bee ∧
        WriterFault { s with bsw.ustate := .uninit } .notInitialized) ∧
    (∃ e', CodedBits s.bee (byteBits 0xFF) [0x00] e') ∧
    (Settled t ∧ WriterFault t .streamClosed ∧ t.arg0.getLsbD 0 = true ∧ ∃ e', CodedBits t.bee [true] [0x00] e') ∧
    (Settled u ∧ WriterFault u .streamClosed ∧ descriptorValid u ∧ CodedBits u.fpe (continuedBits []) [] u.fpe ∧
      ∃ e', CodedBits u.fpe (continuedBits [0xFF]) [0x00] e') := by
  rw [witness_coded_bits.2.1, witness_continued_bits.1]
  exact ⟨⟨by decide +kernel, by decide +kernel, by decide +kernel, by decide +kernel, .nil _, by decide +kernel⟩,
    witness_coded_bits.2.2, ⟨by decide +kernel, by decide +kernel, by decide +kernel, coded_shift.1⟩,
    by decide +kernel, by decide +kernel, by decide +kernel, .nil _, coded_shift.2⟩

/-- A decoded bit 0 that needs no further byte. -/
theorem decoded_zero {d d' : BinaryDecoder} {used : List Byte} {bits : List Bool} (hs : d.seeded = true)
    (hc : (splitPoint d.low d.high d.pred.probability).toNat < d.current.toNat)
    (h : ((splitPoint d.low d.high d.pred.probability + 1) ^^^ d.high) &&& 0xFF000000 ≠ 0)
    (rest : DecodedBits { d with low := splitPoint d.low d.high d.pred.probability + 1, pred := d.pred.update false } used bits d') :
    DecodedBits d used (false :: bits) d' :=
  .zero _ _ [] used _ _ _ _ hs hc (.done _ _ _ h) rest

/-- A decoded bit 1 that needs no further byte. -/
theorem decoded_one {d d' : BinaryDecoder} {used : List Byte} {bits : List Bool} (hs : d.seeded = true)
    (hc : d.current.toNat ≤ (splitPoint d.low d.high d.pred.probability).toNat)
    (h : (d.low ^^^ splitPoint d.low d.high d.pred.probability) &&& 0xFF000000 ≠ 0)
    (rest : DecodedBits { d with high := splitPoint d.low d.high d.pred.probability, pred := d.pred.update true } used bits d') :
    DecodedBits d used (true :: bits) d' :=
  .one _ _ [] used _ _ _ _ hs hc (.done _ _ _ h) rest

/-- V-BEE-2: the first bit of 91FFF003, and all eight of 6D. -/
theorem witness_decoded_bits :
    (∃ d', DecodedBits (binaryDecoderFresh .ready) [0x91, 0xFF, 0xF0, 0x03] [false] d') ∧
      byteBits 0x6D = [false, true, true, false, true, true, false, true] ∧
        ∃ d', DecodedBits (binaryDecoderFresh .ready) [0x91, 0xFF, 0xF0, 0x03]
          [false, true, true, false, true, true, false, true] d' :=
  ⟨⟨_, .seed _ _ _ _ _ _ [] _ _ rfl (decoded_zero rfl (by decide +kernel) (by decide +kernel) (.nil _))⟩, by decide +kernel,
    ⟨_, .seed _ _ _ _ _ _ [] _ _ rfl (decoded_zero rfl (by decide +kernel) (by decide +kernel)
      (decoded_one rfl (by decide +kernel) (by decide +kernel) (decoded_one rfl (by decide +kernel) (by decide +kernel)
        (decoded_zero rfl (by decide +kernel) (by decide +kernel) (decoded_one rfl (by decide +kernel) (by decide +kernel)
          (decoded_one rfl (by decide +kernel) (by decide +kernel) (decoded_zero rfl (by decide +kernel) (by decide +kernel)
            (decoded_one rfl (by decide +kernel) (by decide +kernel) (.nil _)))))))))⟩⟩

/-- V-FP-2: the continue bit, the bits of 6D and the end marker of C8FFF004. -/
theorem witness_continued_decode :
    continuedBits [0x6D] ++ [true] = [false, false, true, true, false, true, true, false, true, true] ∧
      ∃ d', DecodedBits (binaryDecoderFresh .ready) [0xC8, 0xFF, 0xF0, 0x04]
        [false, false, true, true, false, true, true, false, true, true] d' :=
  ⟨by decide +kernel, ⟨_, .seed _ _ _ _ _ _ [] _ _ rfl (decoded_zero rfl (by decide +kernel) (by decide +kernel)
    (decoded_zero rfl (by decide +kernel) (by decide +kernel) (decoded_one rfl (by decide +kernel) (by decide +kernel)
      (decoded_one rfl (by decide +kernel) (by decide +kernel) (decoded_zero rfl (by decide +kernel) (by decide +kernel)
        (decoded_one rfl (by decide +kernel) (by decide +kernel) (decoded_one rfl (by decide +kernel) (by decide +kernel)
          (decoded_zero rfl (by decide +kernel) (by decide +kernel) (decoded_one rfl (by decide +kernel) (by decide +kernel)
            (.one _ _ [] [] _ _ _ _ rfl (by decide +kernel) (.done _ _ _ (by decide +kernel)) (.nil _)))))))))))⟩⟩

/-- DECBIT, DECBYTE and DECODE of BED and FPD: the streams of V-BEE-2 and V-FP-2, and room for one byte. -/
theorem witness_BinaryDecode :
    let s := array 0x100 1 [] (fed [0x91, 0xFF, 0xF0, 0x03, 0, 0, 0, 0xFF] ready)
    let t := array 0x100 1 [] (fed [0xC8, 0xFF, 0xF0, 0x04, 0, 0, 0, 0xFF] ready)
    (Settled s ∧ s.bed.ustate = .ready ∧ CanRead s (bytesBits [0x91, 0xFF, 0xF0, 0x03]) ∧ descriptorValid s ∧
      ([0x6D] : List Byte).length = arrayLength s) ∧
    (∃ d', DecodedBits s.bed [0x91, 0xFF, 0xF0, 0x03] [false] d') ∧
    (∃ d', DecodedBits s.bed [0x91, 0xFF, 0xF0, 0x03] (byteBits 0x6D) d') ∧
    (∃ d', DecodedBits s.bed [0x91, 0xFF, 0xF0, 0x03] (bytesBits [0x6D]) d') ∧
    (∃ d', DecodedBits s.fpd [0x91, 0xFF, 0xF0, 0x03] [false] d') ∧
    (∃ d', DecodedBits s.fpd [0x91, 0xFF, 0xF0, 0x03] (byteBits 0x6D) d') ∧
    (Settled t ∧ t.fpd.ustate = .ready ∧ CanRead t (bytesBits [0xC8, 0xFF, 0xF0, 0x04]) ∧ descriptorValid t ∧
      ([0x6D] : List Byte).length ≤ arrayLength t) ∧
    ∃ d', DecodedBits t.fpd [0xC8, 0xFF, 0xF0, 0x04] (continuedBits [0x6D] ++ [true]) d' := by
  intro s t
  have h : bytesBits [0x6D] = byteBits 0x6D := by decide +kernel
  rw [h, witness_decoded_bits.2.1, witness_continued_decode.1]
  exact ⟨⟨by decide +kernel, rfl, by decide +kernel, by decide +kernel, by decide +kernel⟩, witness_decoded_bits.1,
    witness_decoded_bits.2.2, witness_decoded_bits.2.2, witness_decoded_bits.1, witness_decoded_bits.2.2,
    ⟨by decide +kernel, rfl, by decide +kernel, by decide +kernel, by decide +kernel⟩, witness_continued_decode.2⟩

/-- A decoder without its seed reads at least four bytes. -/
theorem seed_needs_four {d d' : BinaryDecoder} {used : List Byte} {bits : List Bool} (h : DecodedBits d used bits d')
    (hs : d.seeded = false) (hb : bits ≠ []) : 4 ≤ used.length := by
  cases h with
  | nil => exact absurd rfl hb
  | seed => simp
  | zero _ _ _ _ _ _ _ _ h => rw [hs] at h; cases h
  | one _ _ _ _ _ _ _ _ h => rw [hs] at h; cases h

/-- Three bytes and END: not even the first of two bytes. -/
theorem witness_DecodeShortCount :
    let s := array 0x100 2 [] (fed [0, 0, 0] ready)
    Settled s ∧ s.bed.ustate = .ready ∧ descriptorValid s ∧ ReaderOpen s ∧ 8 * 0 + s.bsr.read.toNat + 320 < 2 ^ 64 ∧
      bytesBits [] <+: unread s ∧ (s.bsr.ended = true ∨ .finish ∈ s.source) ∧ DecodedBits s.bed [] (bytesBits []) s.bed ∧
        0 < arrayLength s ∧
          ∀ b used' d'', DecodedBits s.bed used' (byteBits b) d'' → ¬bytesBits used' <+: unread (consumed s (8 * 0)) := by
  refine ⟨by decide +kernel, rfl, by decide +kernel, by decide +kernel, by decide +kernel, by decide +kernel, by decide +kernel,
    .nil _, by decide +kernel, ?_⟩
  intro b used' d'' h hp
  have h4 := seed_needs_four h rfl (by intro h0; have := congrArg List.length h0; simp [byteBits, bitsOf] at this)
  have hl : (bytesBits used').length = 8 * used'.length := by
    clear hp h4 h
    induction used' with
    | nil => rfl
    | cons b bs ih => simp only [bytesBits, List.flatMap_cons, List.length_append, List.length_cons] at *; rw [ih]; simp [byteBits, bitsOf]; omega
  have hu : (unread (consumed (array 0x100 2 [] (fed [0, 0, 0] ready)) (8 * 0))).length = 24 := by decide +kernel
  have := hp.length_le
  omega

/-- A round trip of one bit: the encoder and the decoder fresh from INIT. -/
theorem witness_BinaryRoundTrip :
    (binaryEncoderFresh .ready).low.toNat < (binaryEncoderFresh .ready).high.toNat ∧
      (∃ out e', CodedBits (binaryEncoderFresh .ready) [true] out e') ∧ (binaryDecoderFresh .ready).seeded = false ∧
        (binaryDecoderFresh .ready).low = (binaryEncoderFresh .ready).low ∧
          (binaryDecoderFresh .ready).high = (binaryEncoderFresh .ready).high ∧
            (binaryDecoderFresh .ready).pred = (binaryEncoderFresh .ready).pred :=
  ⟨by decide, ⟨_, witness_coded_bits.1⟩, rfl, rfl, rfl, rfl⟩

/-- The symbol 6D on the flat table (V-RC-2): no byte leaves. -/
theorem witness_range_coded (sz : Option Nat) :
    ∃ e', RangeCoded .literal sz 0 (rangeEncoderFresh .ready 0) [0x6D] [] e' :=
  ⟨_, .cons 0 _ _ flatTable 0x6D [] [] [] _ _ (by cases sz <;> simp [tableAt, rangeEncoderFresh]) (by decide +kernel)
    (.done _ _ (by decide +kernel) (by decide +kernel)) (.nil _ _)⟩

theorem witness_RangeEncode :
    let s := array 0 1 [0x6D] ready
    let t := { ready with arg0 := 0x6D }
    (Settled s ∧ s.rce.ustate = .ready ∧ CanWrite s (bytesBits []) ∧ descriptorValid s ∧ Settled t ∧ t.rce.ustate = .ready ∧
      CanWrite t (bytesBits [])) ∧
    (∃ e', RangeCoded t.params.clamp none 0 t.rce [(t.arg0.setWidth 8 : Byte).toNat] [] e') ∧
    ∃ e', RangeCoded s.params.clamp (chunkLength s.rce.chunkSize (arrayLength s)) 0 s.rce
      ((arrayBytes s (arrayStart s) (arrayLength s)).map BitVec.toNat) [] e' := by
  intro s t
  have ht : [(t.arg0.setWidth 8 : Byte).toNat] = [0x6D] := by decide +kernel
  have hs : (arrayBytes s (arrayStart s) (arrayLength s)).map BitVec.toNat = [0x6D] := by decide +kernel
  rw [ht, hs]
  exact ⟨⟨by decide +kernel, rfl, .inl rfl, by decide +kernel, by decide +kernel, rfl, .inl rfl⟩, witness_range_coded _,
    witness_range_coded _⟩

/-- A closed writer and the symbol 0 on the flat table, after which a byte leaves. -/
theorem witness_RangeEncode_writer :
    let s := closedStreams (array 0 1 [0x00] ready)
    let t := tableAt (chunkLength s.rce.chunkSize (arrayLength s)) ([] : List Byte).length s.rce.freq
    Settled s ∧ s.rce.ustate = .ready ∧ WriterFault s .streamClosed ∧ (s.arg0.setWidth 8 : Byte).toNat = 0 ∧ descriptorValid s ∧
      stepWidth s.rce.range s.rce.freq ≠ 0 ∧
        RangeShifts s.params.clamp (stepLow56 s.rce.low s.rce.range s.rce.freq 0) (stepRange56 s.rce.range s.rce.freq 0) ∧
          arrayBytes s (arrayStart s) (arrayLength s) = [] ++ 0x00 :: [] ∧ t = flatTable ∧
            RangeCoded s.params.clamp (chunkLength s.rce.chunkSize (arrayLength s)) 0 s.rce (([] : List Byte).map BitVec.toNat) []
              s.rce :=
  ⟨by decide +kernel, rfl, by decide +kernel, by decide +kernel, by decide +kernel, by decide +kernel, by decide +kernel,
    by decide +kernel, rfl, .nil _ _⟩

/-- The seven bytes of V-RC-2 and the symbol they hold. -/
theorem witness_range_decoded (sz : Option Nat) :
    ∃ d', RangeDecoded .literal sz 0 (rangeDecoderFresh .ready 0) [0x6C, 0x93, 0x6C, 0x93, 0x6C, 0x93, 0x00] [0x6D] d' :=
  ⟨_, .seed _ _ _ _ _ _ _ _ _ _ [] _ _ rfl
    (.cons 0 _ _ flatTable 0x6D [] [] [] _ _ _ rfl (by cases sz <;> simp [tableAt, rangeDecoderFresh]) (by decide +kernel)
      (by decide +kernel) (by decide) (.done _ _ _ (by decide +kernel) (by decide +kernel)) (.nil _ _))⟩

/-- The seven bytes FF00FF00FF0000, 0 and the EOF symbol (V-RC-4), on a table that starts a chunk. -/
theorem witness_range_end :
    ∃ d', RangeDecoded .literal (some 3) 0 (rangeDecoderFresh .ready 0) [0xFF, 0x00, 0xFF, 0x00, 0xFF, 0x00, 0x00, 0x00] [256] d' :=
  ⟨_, .seed _ _ _ _ _ _ _ _ _ _ [0x00] _ _ rfl
    (.cons 0 _ _ flatTable 256 [] [0x00] [] _ _ _ rfl rfl (by decide +kernel) (by decide +kernel) (by decide)
      (.settled _ _ _ 0x00 [] _ _ _ (by decide +kernel) (.done _ _ _ (by decide +kernel) (by decide +kernel))) (.nil _ _))⟩

/-- A seed of seven bytes is read by an unseeded decoder. -/
theorem seeds {d : RangeDecoder} (h : d.seeded = false) (b6 b5 b4 b3 b2 b1 b0 : Byte) :
    RangeSeeds d [b6, b5, b4, b3, b2, b1, b0] { d with code := b6 ++ b5 ++ b4 ++ b3 ++ b2 ++ b1 ++ b0, seeded := true } :=
  .read d b6 b5 b4 b3 b2 b1 b0 h

/-- DECBYTE and DECODE of one symbol, a DECODE that the EOF symbol ends, and a count past the total. -/
theorem witness_RangeDecode :
    let s := array 0x100 1 [] (fed [0x6C, 0x93, 0x6C, 0x93, 0x6C, 0x93, 0x00] ready)
    let t := array 0x100 3 [] (fed [0xFF, 0x00, 0xFF, 0x00, 0xFF, 0x00, 0x00, 0x00] ready)
    let u := array 0x100 1 [] (fed (List.replicate 7 0xFF) ready)
    let d : RangeDecoder := { u.rcd with code := BitVec.ofNat 56 (2 ^ 56 - 1), seeded := true }
    (Settled s ∧ s.rcd.ustate = .ready ∧ CanRead s (bytesBits [0x6C, 0x93, 0x6C, 0x93, 0x6C, 0x93, 0x00]) ∧ descriptorValid s ∧
      ([0x6D] : List Byte).length = arrayLength s) ∧
    (∃ d', RangeDecoded s.params.clamp none 0 s.rcd [0x6C, 0x93, 0x6C, 0x93, 0x6C, 0x93, 0x00] [0x6D] d') ∧
    (∃ d', RangeDecoded s.params.clamp (chunkLength s.rcd.chunkSize (arrayLength s)) 0 s.rcd
      [0x6C, 0x93, 0x6C, 0x93, 0x6C, 0x93, 0x00] (([0x6D] : List Byte).map BitVec.toNat) d') ∧
    (Settled t ∧ t.rcd.ustate = .ready ∧ CanRead t (bytesBits [0xFF, 0x00, 0xFF, 0x00, 0xFF, 0x00, 0x00, 0x00]) ∧
      descriptorValid t ∧ ([] : List Byte).length < arrayLength t) ∧
    (∃ d', RangeDecoded t.params.clamp (chunkLength t.rcd.chunkSize (arrayLength t)) 0 t.rcd
      [0xFF, 0x00, 0xFF, 0x00, 0xFF, 0x00, 0x00, 0x00] (([] : List Byte).map BitVec.toNat ++ [256]) d') ∧
    (Settled u ∧ u.rcd.ustate = .ready ∧ descriptorValid u ∧ ([] : List Byte).length < arrayLength u ∧
      RangeSeeds u.rcd [0xFF, 0xFF, 0xFF, 0xFF, 0xFF, 0xFF, 0xFF] d ∧ CanRead u (bytesBits (List.replicate 7 0xFF)) ∧
        tableAt (chunkLength u.rcd.chunkSize (arrayLength u)) 0 u.rcd.freq = flatTable ∧ u.rcd.freq = flatTable ∧
          stepWidth d.range flatTable ≠ 0 ∧ freqAt flatTable 257 ≤ stepCount d flatTable) ∧
    RangeSeeds { u.rcd with seeded := true } [] { u.rcd with seeded := true } := by
  intro s t u d
  have ht : chunkLength t.rcd.chunkSize (arrayLength t) = some 3 := by decide +kernel
  rw [ht]
  exact ⟨⟨by decide +kernel, rfl, by decide +kernel, by decide +kernel, by decide +kernel⟩, witness_range_decoded _,
    witness_range_decoded _, ⟨by decide +kernel, rfl, by decide +kernel, by decide +kernel, by decide +kernel⟩,
    witness_range_end, ⟨by decide +kernel, rfl, by decide +kernel, by decide +kernel, seeds rfl 0xFF 0xFF 0xFF 0xFF 0xFF 0xFF 0xFF,
      by decide +kernel, rfl, rfl, by decide +kernel, by decide +kernel⟩, .kept _ rfl⟩

/-- RCE: a step of width 0, and the clamp case of V-RC-9, as a byte and as the first of a sequence. -/
theorem witness_DegenerateRange_encoder :
    (let s := array 0 1 [0x00] { ready with rce.range := 256 }
     Settled s ∧ s.rce.ustate = .ready ∧ stepWidth s.rce.range s.rce.freq = 0 ∧ descriptorValid s ∧
       arrayBytes s (arrayStart s) (arrayLength s) = [] ++ 0x00 :: [] ∧
         tableAt (chunkLength s.rce.chunkSize (arrayLength s)) 0 s.rce.freq = s.rce.freq ∧ CanWrite s (bytesBits [])) ∧
    (let s := array 0 1 [0x00] { ready with rce.low := 0x12FFFFFFFFFFFF, rce.range := 514 }
     Settled s ∧ s.rce.ustate = .ready ∧ (s.arg0.setWidth 8 : Byte).toNat = 0 ∧ stepWidth s.rce.range s.rce.freq ≠ 0 ∧
       descriptorValid s ∧ arrayBytes s (arrayStart s) (arrayLength s) = [] ++ 0x00 :: [] ∧
         tableAt (chunkLength s.rce.chunkSize (arrayLength s)) 0 s.rce.freq = s.rce.freq ∧
           RangeCoded s.params.clamp (chunkLength s.rce.chunkSize (arrayLength s)) 0 s.rce (([] : List Byte).map BitVec.toNat) []
             s.rce ∧
             RangeSticks s.params.clamp (stepLow56 s.rce.low s.rce.range s.rce.freq 0) (stepRange56 s.rce.range s.rce.freq 0) [] ∧
               CanWrite s (bytesBits ([] ++ []))) :=
  ⟨⟨by decide +kernel, rfl, by decide +kernel, by decide +kernel, by decide +kernel, rfl, .inl rfl⟩,
    by decide +kernel, rfl, by decide +kernel, by decide +kernel, by decide +kernel, by decide +kernel, rfl, .nil _ _,
    .zero _ _ (by decide +kernel) (by decide +kernel) (by decide +kernel), .inl rfl⟩

/-- RCD, READY and unseeded, with these registers; and seeded with 12FFFFFFFFFFFF. -/
def decoderAt (low range : Word56) : RangeDecoder := { rangeDecoderFresh .ready 0 with low := low, range := range }

def decoderSeeded (low range : Word56) : RangeDecoder :=
  { decoderAt low range with code := BitVec.ofNat 56 0x12FFFFFFFFFFFF, seeded := true }

theorem decoderSeeded_seeds (low range : Word56) :
    RangeSeeds (decoderAt low range) [0x12, 0xFF, 0xFF, 0xFF, 0xFF, 0xFF, 0xFF] (decoderSeeded low range) :=
  seeds rfl 0x12 0xFF 0xFF 0xFF 0xFF 0xFF 0xFF

/-- RCD the same, from a seed of seven bytes. -/
theorem witness_DegenerateRange_decoder :
    let s := array 0x100 1 [] (fed [0x12, 0xFF, 0xFF, 0xFF, 0xFF, 0xFF, 0xFF] { ready with rcd := decoderAt 0x12FFFFFFFFFFFF 514 })
    let d := decoderSeeded 0x12FFFFFFFFFFFF 514
    (Settled s ∧ s.rcd.ustate = .ready ∧ s.rcd = decoderAt 0x12FFFFFFFFFFFF 514 ∧ descriptorValid s ∧
      ([] : List Byte).length < arrayLength s ∧ CanRead s (bytesBits [0x12, 0xFF, 0xFF, 0xFF, 0xFF, 0xFF, 0xFF])) ∧
    stepWidth (decoderSeeded 0 256).range (decoderSeeded 0 256).freq = 0 ∧
    (stepWidth d.range d.freq ≠ 0 ∧ SymbolOf d.freq (stepCount d d.freq) 0) ∧
    RangeSticks s.params.clamp (stepLow56 d.low d.range d.freq 0) (stepRange56 d.range d.freq 0) [] ∧
    tableAt (chunkLength s.rcd.chunkSize (arrayLength s)) 0 s.rcd.freq = d.freq :=
  ⟨by decide +kernel, by decide +kernel, by decide +kernel,
    .zero _ _ (by decide +kernel) (by decide +kernel) (by decide +kernel), rfl⟩

theorem witness_FrequencyTables : 257 ≤ 257 ∧ freqAt flatTable 257 < 2 ^ 64 - 1 := by decide +kernel

theorem rangeLegal_fresh : RangeLegal 0 (BitVec.ofNat 56 (2 ^ 56 - 1)) flatTable := by unfold RangeLegal; decide +kernel

/-- One symbol from encoders and decoders fresh from INIT. -/
theorem witness_RangeRoundTrip :
    let e := rangeEncoderFresh .ready 0
    let d := rangeDecoderFresh .ready 0
    RangeLegal e.low e.range e.freq ∧ (∃ out e', RangeCoded .literal (some 4) 0 e [0x6D] out e') ∧ d.seeded = false ∧
      d.low = e.low ∧ d.range = e.range ∧ d.freq = e.freq :=
  ⟨rangeLegal_fresh, ⟨_, witness_range_coded _⟩, rfl, rfl, rfl, rfl⟩

/-- A step of BEE.ENCBYTE from a state that meets every invariant. -/
theorem witness_invariant_steps :
    let s := { ready with host := [.write 0 0x32000000] }
    BinaryLegal s ∧ RangesLegal s ∧ DataLegal s ∧ SinkCarriesOutput s ∧ UnitsLegal s ∧ step s = .next (afterStep s) :=
  ⟨⟨⟨by decide +kernel, predictorLegal_fresh⟩, ⟨by decide +kernel, predictorLegal_fresh⟩,
      ⟨by decide +kernel, predictorLegal_fresh⟩, ⟨by decide +kernel, predictorLegal_fresh⟩⟩,
    ⟨fun _ => rangeLegal_fresh, fun _ => rangeLegal_fresh⟩,
    by unfold DataLegal; decide +kernel, .inl (by unfold CarriesOutput; decide +kernel), by unfold UnitsLegal; decide +kernel, rfl⟩

/-- A FLUSH that stalls behind its first byte. -/
theorem witness_SinkCarriesTheOutput :
    let u := { thirteenBits with cmd := 0x13000000, sinkRoom := 0 }
    let s := after .bswFlush u
    SinkCarriesOutput s ∧ step s = .next (afterStep s) :=
  ⟨.inr ⟨{ thirteenBits with cmd := 0x13000000, sinkRoom := 0 }, .bswFlush, by unfold CarriesOutput; decide +kernel,
    by decide +kernel, by decide +kernel, rfl, by decide +kernel⟩, rfl⟩

/-- "aaa" (V-HF-2): lengths of width 1. -/
theorem witness_HuffmanEncode :
    let s := array 0 3 [0x61, 0x61, 0x61] ready
    let xs : List Byte := [0x61, 0x61, 0x61]
    Settled s ∧ s.hfe.ustate = .ready ∧ descriptorValid s ∧ xs = arrayBytes s (arrayStart s) (arrayLength s) ∧
      (∀ sym < 256, sizeAt (buildSizes xs) sym < 2 ^ 1) ∧ (∀ w', (∀ sym < 256, sizeAt (buildSizes xs) sym < 2 ^ w') → 1 ≤ w') ∧
        CanWrite s (headerBits 1 (lengthsOf (buildSizes xs)) ++ codeWords (buildSizes xs) (canonicalCodes (buildSizes xs)) xs) := by
  refine ⟨by decide +kernel, rfl, by decide +kernel, by decide +kernel, by decide +kernel, ?_,
    by decide +kernel⟩
  intro w' h
  have h1 : sizeAt (buildSizes [0x61, 0x61, 0x61]) 0x61 = 1 := by decide +kernel
  have h2 := h 0x61 (by decide)
  rw [h1] at h2
  rcases w' with _ | w'
  · simp at h2
  · omega

/-- A closed writer, for HFE, EGE and RGE. -/
theorem witness_HuffmanEncode_GolombEncode_writer :
    let s := closedStreams (array 0 1 [0xFF] ready)
    Settled s ∧ s.hfe.ustate = .ready ∧ s.ege.ustate = .ready ∧ s.rge.ustate = .ready ∧ descriptorValid s ∧ 0 < arrayLength s ∧
      WriterFault s .streamClosed := by decide +kernel

/-- The table of "aaa", and the one that gives that letter the length 2. -/
def oneLetter (length : BitVec 8) : Table (BitVec 8) 256 := (Table.fill 256 0).set 0x61 length

theorem sizeAt_oneLetter (l : BitVec 8) {sym : Nat} (h : sym < 256) :
    sizeAt (oneLetter l) sym = if sym = 0x61 then l.toNat else 0 := by
  unfold sizeAt oneLetter
  split
  · next h' => rw [h', Table.get_set_self _ (by decide)]
  · next h' => rw [Table.get_set_other _ (Ne.symm h'), Table.get_fill _ h]; rfl

theorem lengthsAllowed_oneLetter : LengthsAllowed (lengthsOf (oneLetter 1)) := by unfold LengthsAllowed; decide +kernel

theorem uniquely_oneLetter : Uniquely (oneLetter 1) (canonicalCodes (oneLetter 1)) := by
  have h : ∀ a < 256, sizeAt (oneLetter 1) a ≠ 0 → a = 0x61 := fun a ha hs => by
    rw [sizeAt_oneLetter 1 ha] at hs
    by_contra hne
    rw [if_neg hne] at hs
    exact hs rfl
  refine ⟨fun a ha hs => ?_, fun a ha b hb ha' hb' _ => by rw [h a ha ha', h b hb hb']⟩
  rw [h a ha hs]
  decide +kernel

/-- The lengths of a header whose field 61 holds 257. -/
def longLengths : List Nat := (List.range 256).map fun sym => if sym = 0x61 then 257 else 0

/-- A good header and three bytes; the same with the bit 1 in the place of the third. -/
theorem witness_HuffmanDecode :
    (let s := array 0x100 3 [] (fed threeLetters ready)
     let bits := headerBits 1 (lengthsOf (oneLetter 1)) ++
       codeWords (oneLetter 1) (canonicalCodes (oneLetter 1)) [0x61, 0x61, 0x61]
     Settled s ∧ s.hfd.ustate = .ready ∧ descriptorValid s ∧ arrayLength s = 3 ∧ CanRead s bits) ∧
    (let bits := headerBits 1 (lengthsOf (oneLetter 1)) ++ codeWords (oneLetter 1) (canonicalCodes (oneLetter 1)) [0x61, 0x61]
     let s := array 0x100 3 [] (fed (threeLetters.take 33 ++ [0x80]) ready)
     ([0x61, 0x61] : List Byte).length < arrayLength s ∧ CanRead s (bits ++ [true])) ∧
    (∀ sym < 256, sizeAt (oneLetter 1) sym < 2 ^ 1) ∧ (∀ sym < 256, sizeAt (oneLetter 1) sym ≠ 0 ↔ sym = (0x61 : Byte).toNat) ∧
    LengthsAllowed (lengthsOf (oneLetter 1)) ∧ Uniquely (oneLetter 1) (canonicalCodes (oneLetter 1)) :=
  ⟨by decide +kernel, by decide +kernel, fun sym h => by rw [sizeAt_oneLetter 1 h]; split <;> decide,
    fun sym h => by rw [sizeAt_oneLetter 1 h]; simp, lengthsAllowed_oneLetter, uniquely_oneLetter⟩

/-- An incomplete code; a field of 257; an empty table; and a flag of 0. -/
theorem witness_HuffmanDecode_header :
    (let s := array 0x100 1 [] (fed (0x88 :: List.replicate 24 0x00 ++ 0x80 :: List.replicate 39 0x00) ready)
     Settled s ∧ s.hfd.ustate = .ready ∧ descriptorValid s ∧ CanRead s (headerBits 2 (lengthsOf (oneLetter 2)))) ∧
    ((lengthsOf (oneLetter 2)).length = 256 ∧ ∀ l ∈ lengthsOf (oneLetter 2), l < 2 ^ 2) ∧
    ¬LengthsAllowed (lengthsOf (oneLetter 2)) ∧
    CanRead (array 0x100 1 [] (fed (0xA4 :: List.replicate 108 0x00 ++ [0x01, 0x01] ++ List.replicate 178 0x00) ready)) (headerBits 9 longLengths) ∧
    (longLengths.length = 256 ∧ ∀ l ∈ longLengths, l < 2 ^ 9) ∧ ¬LengthsAllowed longLengths ∧
    (let s := array 0x100 1 [] (fed [0x80] ready)
     0 < arrayLength s ∧ CanRead s (headerBits 0 (List.replicate 256 0))) ∧
    CanRead (array 0x100 1 [] (fed [0x00] ready)) [false] := by
  unfold LengthsAllowed
  decide +kernel

/-- Two letters: their tree. -/
theorem witness_merged_tree :
    sortedLeaves [0x61, 0x62] = [(1, .leaf 0x61), (1, .leaf 0x62)] ∧
      Merges [(1, .leaf 0x61), (1, .leaf 0x62)] [] (.node (.leaf 0x61) (.leaf 0x62)) ∧
        LeafAt (.node (.leaf 0x61) (.leaf 0x62)) 0x62 1 :=
  ⟨by decide +kernel, .pair _ _ _ _ _ _ _ _ _ (.first _ _ _ (by simp)) (.first _ _ _ (by simp))
    (.root _ _ _ (.second _ _ _ (by simp))), .right _ _ _ _ (.leaf _)⟩

theorem witness_trees_and_codes :
    ([(1, HuffmanTree.leaf 3)] : List WeightedTree) ≠ [] ∧ ([0x61, 0x62] : List Byte) ≠ [] ∧
      (∃ a ∈ ([0x61, 0x62] : List Byte), ∃ b ∈ ([0x61, 0x62] : List Byte), a ≠ b) ∧
        LengthsAllowed (lengthsOf (buildSizes mississippi)) ∧ ∀ sym < 256, sizeAt (buildSizes mississippi) sym ≤ 3 := by
  unfold LengthsAllowed
  decide +kernel

/-- ENCBYTE of 80 and ENCODE of FE, 01 on EGE; of 06, 07 on RGE. -/
theorem witness_GolombEncode :
    (let s := array 0x80 2 [0xFE, 0x01] ready
     let code : Byte → List Bool := fun v =>
       if s.ege.signed then expGolombBits true v.toInt.natAbs (v.toInt < 0) else expGolombBits false v.toNat false
     Settled s ∧ s.ege.ustate = .ready ∧ CanWrite s (code (s.arg0.setWidth 8)) ∧ descriptorValid s ∧
       CanWrite s ((arrayBytes s (arrayStart s) (arrayLength s)).flatMap code)) ∧
    (let s := array 0x80 2 [0x06, 0x07] ready
     let code : Byte → List Bool := fun v =>
       if s.rge.signed then riceBits true s.rge.logBase.toNat v.toInt.natAbs (v.toInt < 0)
       else riceBits false s.rge.logBase.toNat v.toNat false
     Settled s ∧ s.rge.ustate = .ready ∧ s.rge.logBase ≠ 0 ∧ CanWrite s (code (s.arg0.setWidth 8)) ∧ descriptorValid s ∧
       CanWrite s ((arrayBytes s (arrayStart s) (arrayLength s)).flatMap code)) :=
  ⟨⟨by decide +kernel, rfl, by decide +kernel, by decide +kernel,
      by decide +kernel⟩,
    by decide +kernel, rfl, by decide +kernel, by decide +kernel, by decide +kernel,
    by decide +kernel⟩

/-- FE and 01 on EGD; 06 and 07 on RGD. -/
theorem witness_GolombDecode :
    (let s := array 0x100 2 [] (fed [0x74] ready)
     Settled s ∧ s.egd.ustate = .ready ∧ CanRead s (expGolombBits s.egd.signed 2 true) ∧ descriptorValid s ∧
       [(2, true), (1, false)].length = arrayLength s ∧
         CanRead s ([(2, true), (1, false)].flatMap fun x => expGolombBits s.egd.signed x.1 x.2)) ∧
    (let s := array 0x100 2 [] (fed [0xEF] ready)
     Settled s ∧ s.rgd.ustate = .ready ∧ CanRead s (riceBits s.rgd.signed s.rgd.logBase.toNat 6 false) ∧ descriptorValid s ∧
       [(6, false), (7, false)].length = arrayLength s ∧
         CanRead s ([(6, false), (7, false)].flatMap fun x => riceBits s.rgd.signed s.rgd.logBase.toNat x.1 x.2)) := by
  decide +kernel

theorem witness_GolombCodesComeBack :
    expGolombBits true 2 true ++ [false] = expGolombBits true 2 true ++ [false] ∧
      riceBits false 3 6 false ++ [true] = riceBits false 3 6 false ++ [true] := ⟨rfl, rfl⟩

/-- A DECODE that stores, and an encoder's command. -/
theorem witness_CommandFrame :
    exec .beeEncbyte ready = .next (after .beeEncbyte ready) ∧ Instr.beeEncbyte ≠ .sysSreset ∧ ¬IsDecode .beeEncbyte ∧
      (Instr.beeEncbyte).unit.toNat % 2 = 1 ∧
        (let s := array 0x100 2 [] (fed [0xEF] ready)
         exec .rgdDecode s = .next (after .rgdDecode s) ∧ ¬(arrayStart s ≤ 0x102 ∧ 0x102 < arrayStart s + arrayLength s)) :=
  ⟨rfl, by decide, by decide, by decide, rfl, by decide +kernel⟩

/-- BED and FPD: three bytes of a seed, then END. -/
theorem witness_DecodersMeetEnd_binary :
    let s := array 0x100 2 [] (fed [0x91, 0xFF, 0xF0] ready)
    (Settled s ∧ EndsInside s [] (bytesBits [0x91, 0xFF, 0xF0, 0x03]) ∧ s.bed.ustate = .ready ∧ s.fpd.ustate = .ready ∧
      descriptorValid s ∧ ([] : List Byte).length < arrayLength s) ∧
    (∃ d', DecodedBits s.bed [0x91, 0xFF, 0xF0, 0x03] [false] d') ∧
    (∃ d', DecodedBits s.fpd [0x91, 0xFF, 0xF0, 0x03] (byteBits 0x6D) d') ∧
    DecodedBits s.fpd [] (continuedBits []) s.fpd :=
  ⟨by decide +kernel, witness_decoded_bits.1, by rw [witness_decoded_bits.2.1]; exact witness_decoded_bits.2.2, .nil _⟩

/-- FPD: the continue bit of FFFFFFFF, and the byte 00 behind it, which needs a fifth byte. -/
theorem witness_DecodersMeetEnd_fpaq :
    let s := array 0x100 1 [] (fed [0xFF, 0xFF, 0xFF, 0xFF] ready)
    EndsInside s (bytesBits [0xFF, 0xFF, 0xFF, 0xFF]) (bytesBits [0x00]) ∧ continuedBits [] ++ [false] = [false] ∧
      byteBits 0x00 = [false, false, false, false, false, false, false, false] ∧
        ∃ d, DecodedBits s.fpd [0xFF, 0xFF, 0xFF, 0xFF] [false] d ∧
          ∃ d', DecodedBits d [0x00] [false, false, false, false, false, false, false, false] d' :=
  ⟨by decide +kernel, rfl, by decide +kernel,
    ⟨_, .seed _ _ _ _ _ _ [] _ _ rfl (decoded_zero rfl (by decide +kernel) (by decide +kernel) (.nil _)),
      ⟨_, decoded_zero rfl (by decide +kernel) (by decide +kernel) (decoded_zero rfl (by decide +kernel) (by decide +kernel)
        (decoded_zero rfl (by decide +kernel) (by decide +kernel) (decoded_zero rfl (by decide +kernel) (by decide +kernel)
          (decoded_zero rfl (by decide +kernel) (by decide +kernel) (decoded_zero rfl (by decide +kernel) (by decide +kernel)
            (decoded_zero rfl (by decide +kernel) (by decide +kernel)
              (.zero _ _ [0x00] [] _ _ _ _ rfl (by decide +kernel)
                (.shift _ _ _ 0x00 [] _ _ _ (by decide +kernel) (.done _ _ _ (by decide +kernel))) (.nil _))))))))⟩⟩⟩

/-- RCD: six bytes of a seed; HFD: no byte, and two letters of three; EGD and RGD: no byte, and a third value that is missing. -/
theorem witness_DecodersMeetEnd :
    (let s := array 0x100 1 [] (fed [0x6C, 0x93, 0x6C, 0x93, 0x6C, 0x93] ready)
     Settled s ∧ s.rcd.ustate = .ready ∧ EndsInside s [] (bytesBits [0x6C, 0x93, 0x6C, 0x93, 0x6C, 0x93, 0x00]) ∧
       descriptorValid s ∧ ([] : List Byte).length < arrayLength s) ∧
    (let s := array 0x100 3 [] (fed [] ready)
     Settled s ∧ s.hfd.ustate = .ready ∧ EndsInside s [] (headerBits 0 (List.replicate 256 0)) ∧ descriptorValid s ∧
       EndsInside s [] (expGolombBits s.egd.signed 0 false) ∧ EndsInside s [] (riceBits s.rgd.signed s.rgd.logBase.toNat 6 false)) ∧
    (let s := array 0x100 3 [] (fed (threeLetters.take 33) ready)
     EndsInside s (headerBits 1 (lengthsOf (oneLetter 1)) ++ codeWords (oneLetter 1) (canonicalCodes (oneLetter 1)) [0x61, 0x61])
       (codeWord (oneLetter 1) (canonicalCodes (oneLetter 1)) (0x61 : Byte).toNat)) ∧
    (let s := array 0x100 3 [] (fed [0x74] ready)
     s.egd.ustate = .ready ∧ EndsInside s ([(2, true), (1, false)].flatMap fun x => expGolombBits s.egd.signed x.1 x.2)
       (expGolombBits s.egd.signed 0 false) ∧ [(2, true), (1, false)].length < arrayLength s) ∧
    (let s := array 0x100 3 [] (fed [0xEF] ready)
     s.rgd.ustate = .ready ∧
       EndsInside s ([(6, false), (7, false)].flatMap fun x => riceBits s.rgd.signed s.rgd.logBase.toNat x.1 x.2)
         (riceBits s.rgd.signed s.rgd.logBase.toNat 6 false)) :=
  ⟨by decide +kernel, by decide +kernel, by decide +kernel, by decide +kernel, by decide +kernel⟩

/-- Every decoder READY behind a closed reader and an absent one. -/
theorem witness_DecodersWithoutAReader :
    let s := closedStreams (array 0x100 1 [] ready)
    (Settled s ∧ ReaderFault s .streamClosed ∧ ReaderFault { s with bsr.ustate := .uninit } .notInitialized ∧ descriptorValid s ∧
      ([] : List Byte).length < arrayLength s ∧ s.bed.ustate = .ready ∧ s.fpd.ustate = .ready ∧ s.rcd.ustate = .ready ∧
        s.hfd.ustate = .ready ∧ s.egd.ustate = .ready ∧ s.rgd.ustate = .ready) ∧
    (∃ d', DecodedBits s.bed [0x91, 0xFF, 0xF0, 0x03] [false] d') ∧
    (∃ d', DecodedBits s.fpd [0x91, 0xFF, 0xF0, 0x03] (byteBits 0x6D) d') ∧
    DecodedBits s.fpd [] (continuedBits []) s.fpd ∧
    ∃ d', RangeDecoded s.params.clamp none 0 s.rcd [0x6C, 0x93, 0x6C, 0x93, 0x6C, 0x93, 0x00] [0x6D] d' :=
  ⟨by decide +kernel, witness_decoded_bits.1, by rw [witness_decoded_bits.2.1]; exact witness_decoded_bits.2.2, .nil _,
    witness_range_decoded _⟩

end Sys2Proof.Tests
end

section
/-! SUPPORT. The reset state, row by row of the table of 10_state R52, and the two ways a reset comes about (70_reset_and_hazards
R440, 40_system R152). -/

namespace Sys2Proof.Machine

/-! ### The tables of a fresh unit -/

theorem predictorFresh_n0_get {c : Nat} (h : c < 512) (d : BitVec 11) : predictorFresh.n0.get c d = 0 :=
  Table.get_fill 0 h d

theorem predictorFresh_n1_get {c : Nat} (h : c < 512) (d : BitVec 11) : predictorFresh.n1.get c d = 0 :=
  Table.get_fill 0 h d

theorem huffmanFresh_sizes_get (u : CoderState) {sym : Nat} (h : sym < 256) (d : BitVec 8) :
    (huffmanFresh u).sizes.get sym d = 0 := Table.get_fill 0 h d

theorem huffmanFresh_codes_get (u : CoderState) {sym : Nat} (h : sym < 256) (d : Word64) :
    (huffmanFresh u).codes.get sym d = 0 := Table.get_fill 0 h d

/-- 44_range_coder R283: the entries are far below the 64-bit wrap. -/
theorem freqAt_flatTable {v : Nat} (h : v ≤ 257) : freqAt flatTable v = v := by
  have hget : flatTable.get v 0 = BitVec.ofNat 64 v := Table.get_ofFn _ (by omega) 0
  rw [freqAt, hget, BitVec.toNat_ofNat]
  omega

/-! ### Resets -/

/-- The reset move resets whether or not a command waits (70_reset_and_hazards R440). -/
theorem step_reset_move {s : State} {rest : List HostMove} (h : s.host = .reset :: rest) :
    step s = .next (resetAll { s with host := rest }) := by
  have hin : intake s = .settled (resetAll { s with host := rest }) := by
    simp only [intake, h]
    split <;> rfl
  rw [step, hin]

/-- `SYS.SRESET` completes in the reset state (40_system R152, R150). -/
theorem exec_sysSreset_of_settled {s : State} (hs : Settled s) :
    exec .sysSreset s = .next (complete 0 1 0 (resetAll s)) := by
  have hexec : exec .sysSreset s = execSysSreset s := rfl
  rw [hexec, execSysSreset]
  exact command_ok hs (bind_ok (update_run resetAll s) _)

/-! ### The table of reset values -/

/-- Settles O10. The rows over several units of one kind list one fresh record again and again, so each is proved of that record;
both ways of resetting end in `resetAll`, which keeps DATA and the answers. -/
theorem resetValues : Obligations.ResetValues := by
  refine ⟨⟨rfl, rfl, rfl, rfl, rfl, rfl, rfl⟩, rfl, rfl, ?predictors, ?binaryEncoders, ?binaryDecoders, ⟨rfl, rfl, rfl, rfl⟩,
    ⟨rfl, rfl, rfl, rfl, rfl, rfl⟩, ?frequencies, ?huffman, ?expGolomb, ?riceGolomb, ⟨rfl, rfl, rfl⟩, ?resetMove, ?sreset⟩
  case predictors =>
    have hp : predictorFresh.ctx = 1 ∧ ∀ c < 512, predictorFresh.n0.get c 1 = 0 ∧ predictorFresh.n1.get c 1 = 0 :=
      ⟨rfl, fun _ hc => ⟨predictorFresh_n0_get hc 1, predictorFresh_n1_get hc 1⟩⟩
    exact (List.forall_mem_replicate (n := 4)).2 (.inr hp)
  case binaryEncoders => exact (List.forall_mem_replicate (n := 2)).2 (.inr ⟨rfl, rfl, rfl, rfl⟩)
  case binaryDecoders => exact (List.forall_mem_replicate (n := 2)).2 (.inr ⟨rfl, rfl, rfl, rfl, rfl, rfl⟩)
  case frequencies => exact fun _ hv => ⟨freqAt_flatTable hv, freqAt_flatTable hv⟩
  case huffman =>
    have hh : ∀ sym < 256, (huffmanFresh .uninit).sizes.get sym 1 = 0 ∧ (huffmanFresh .uninit).codes.get sym 1 = 0 :=
      fun _ hs => ⟨huffmanFresh_sizes_get .uninit hs 1, huffmanFresh_codes_get .uninit hs 1⟩
    exact (List.forall_mem_replicate (n := 2)).2 (.inr ⟨rfl, hh⟩)
  case expGolomb => exact (List.forall_mem_replicate (n := 2)).2 (.inr ⟨rfl, rfl⟩)
  case riceGolomb => exact (List.forall_mem_replicate (n := 2)).2 (.inr ⟨rfl, rfl, rfl⟩)
  case resetMove =>
    intro s rest h
    exact ⟨_, step_reset_move h, by simp, by simp⟩
  case sreset =>
    intro s hs
    exact ⟨_, exec_sysSreset_of_settled hs, by simp, by simp⟩

end Sys2Proof.Machine
end

section
/-! SUPPORT. Which words decode (30_encoding R111, R113, R114, R117), and what the host's write of `CMD` comes to where the word
does not. -/

namespace Sys2Proof

/-! ### The fields of a word as numbers -/

theorem unitField_toNat (w : Command) : (unitField w).toNat = w.toNat / 2 ^ 28 := by
  rw [unitField, BitVec.extractLsb'_toNat, Nat.shiftRight_eq_div_pow]
  omega

theorem opField_toNat (w : Command) : (opField w).toNat = w.toNat / 2 ^ 24 % 2 ^ 4 := by
  rw [opField, BitVec.extractLsb'_toNat, Nat.shiftRight_eq_div_pow]

theorem rsvField_toNat (w : Command) : (rsvField w).toNat = w.toNat / 2 ^ 16 % 2 ^ 8 := by
  rw [rsvField, BitVec.extractLsb'_toNat, Nat.shiftRight_eq_div_pow]

theorem immField_toNat (w : Command) : (immField w).toNat = w.toNat % 2 ^ 16 := by
  rw [immField, BitVec.extractLsb'_toNat, Nat.shiftRight_zero]

/-! ### Stray bits of `IMM` -/

theorem imm_of_withoutImm {imm : BitVec 16} {j i : Instr} (h : withoutImm imm j = .ok i) : imm.toNat &&& 0 = imm.toNat := by
  unfold withoutImm at h
  split at h
  case isTrue h0 => rw [h0]; rfl
  case isFalse => cases h

theorem imm_of_withNumber {bits : Nat} {imm : BitVec 16} {f : Nat → Instr} {i : Instr} (h : withNumber bits imm f = .ok i) :
    imm.toNat &&& (2 ^ bits - 1) = imm.toNat := by
  unfold withNumber at h
  split at h
  case isTrue hlt => exact Nat.and_two_pow_sub_one_of_lt_two_pow hlt
  case isFalse => cases h

theorem imm_of_withSign {imm : BitVec 16} {f : Bool → Instr} {i : Instr} (h : withSign imm f = .ok i) :
    imm.toNat &&& 0x10 = imm.toNat := by
  unfold withSign at h
  split at h
  case isTrue h0 => rw [h0]; rfl
  case isFalse =>
    split at h
    case isTrue h16 => rw [h16]; rfl
    case isFalse => cases h

theorem imm_of_withSignAndBase {imm : BitVec 16} {f : Bool → Nat → Instr} {i : Instr} (h : withSignAndBase imm f = .ok i) :
    imm.toNat &&& 0x1F = imm.toNat := by
  unfold withSignAndBase at h
  split at h
  case isTrue hlt => exact Nat.and_two_pow_sub_one_of_lt_two_pow (n := 5) hlt
  case isFalse => cases h

/-! ### Words that decode are legal -/

/-- Row by row of the table: the operations that have an immediate first (30_encoding R114), then the others. -/
theorem listed_of_decodeOperation {unit op : Nat} {imm : BitVec 16} {i : Instr} (h : decodeOperation unit op imm = .ok i) :
    ∃ r ∈ operationsOf unit, r.1 = op ∧ imm.toNat &&& r.2 = imm.toNat := by
  unfold decodeOperation at h
  split at h
  case h_64 => cases h
  case h_3 | h_15 | h_20 | h_25 | h_29 => exact ⟨(_, 0x0F), by decide, rfl, imm_of_withNumber h⟩
  case h_6 | h_12 => exact ⟨(_, 0x7F), by decide, rfl, imm_of_withNumber h⟩
  case h_48 | h_52 => exact ⟨(_, 0x10), by decide, rfl, imm_of_withSign h⟩
  case h_56 | h_60 => exact ⟨(_, 0x1F), by decide, rfl, imm_of_withSignAndBase h⟩
  all_goals exact ⟨(_, 0), by decide, rfl, imm_of_withoutImm h⟩

theorem legalWord_of_decode {w : Command} {i : Instr} (h : decode w = .ok i) : LegalWord w := by
  unfold decode at h
  split at h
  case isTrue hrsv =>
    have hlisted := listed_of_decodeOperation h
    rw [unitField_toNat, opField_toNat, immField_toNat] at hlisted
    exact ⟨by rw [← rsvField_toNat, hrsv]; rfl, hlisted⟩
  case isFalse => cases h

namespace Machine

/-! ### `STATUS` after a fault -/

theorem toNat_append_eq_mul_add {m n : Nat} (x : BitVec m) (y : BitVec n) : (x ++ y).toNat = x.toNat * 2 ^ n + y.toNat := by
  rw [BitVec.toNat_append, ← Nat.shiftLeft_add_eq_or_of_lt y.isLt, Nat.shiftLeft_eq]

/-- The fields of `STATUS` side by side are their weighted sum. -/
theorem statusWord_eq_statusOf (op unit : BitVec 4) (first code : BitVec 8) :
    statusWord op unit first code = statusOf op unit first code := by
  apply BitVec.eq_of_toNat_eq
  simp only [statusWord, statusOf, toNat_append_eq_mul_add, BitVec.ofNat_eq_ofNat, BitVec.toNat_ofNat]
  omega

/-- With no command in progress a fault changes nothing but `STATUS` (60_exceptions R401). -/
theorem raiseFault_of_settled {s : State} (hs : Settled s) (u o : BitVec 4) (c : FaultCode) :
    raiseFault u o c s = { s with status := statusOf o u (firstFault (statusFirst s.status) c) c.code } := by
  obtain ⟨-, hsent, -⟩ := hs
  rw [raiseFault, statusWord_eq_statusOf, ← hsent]

/-! ### The host's write of `CMD` -/

/-- While no command waits, a write at offset 0 runs the word written (20_memory R82, 40_system R150). -/
theorem step_write_cmd {s : State} {v : Word64} {rest : List HostMove} (hw : s.waiting = none) (h : s.host = .write 0 v :: rest) :
    step s = runWord (v.setWidth 32) { s with host := rest, cmd := v.setWidth 32 } := by
  have hin : intake s = .issue (v.setWidth 32) { s with host := rest, cmd := v.setWidth 32 } := by
    simp only [intake, h, hw, if_true, takeMove, hostWrites]
  rw [step, hin]

/-- A word that is not legal raises `ILLEGAL_COMMAND` (30_encoding R111). -/
theorem runWord_of_not_legalWord {w : Command} (h : ¬LegalWord w) (s : State) : runWord w s = .next (illegalCommand w s) := by
  unfold runWord
  split
  case h_1 i hi => exact absurd (legalWord_of_decode hi) h
  case h_2 => rfl

/-- Settles O6. The word written does not decode, so it is the fault of an illegal word; `UNIT` and `OP` of the written value are
those of its low 32 bits. -/
theorem illegalWordChangesStatusOnly : Obligations.IllegalWordChangesStatusOnly := by
  intro s v rest hs hhost hw
  have hunit : unitField (v.setWidth 32) = v.extractLsb' 28 4 := BitVec.extractLsb'_setWidth_of_le (by decide)
  have hop : opField (v.setWidth 32) = v.extractLsb' 24 4 := BitVec.extractLsb'_setWidth_of_le (by decide)
  have hs' : Settled { s with host := rest, cmd := v.setWidth 32 } := hs
  rw [step_write_cmd hs.1 hhost, runWord_of_not_legalWord hw, illegalCommand, raiseFault_of_settled hs', hunit, hop]
  rfl

end Machine

end Sys2Proof
end

section
/-! SUPPORT. The commands of the SYS unit that report, the coders' INIT, and the descriptor check of the array commands (40_system
R151, R153, R154, R159). -/

namespace Sys2Proof.Machine

variable {s : State} {i : Instr}

/-! ### The SYS unit -/

/-- Settles O17. -/
theorem nopCommand : Obligations.NopCommand := by
  intro s hs
  exact command_ok hs (pure_run 0 s)

theorem exec_sysUstate_of_settled (hs : Settled s) (u : Nat) :
    exec (.sysUstate u) s = .next (complete 0 2 (unitState s u) s) :=
  command_ok hs (look_run (fun s => pure (unitState s u)) s)

/-- A value with the number of each stream state (10_state R33) is its code. -/
theorem StreamState.code_eq {u : StreamState} {v : Word64} (h0 : u = .uninit → v = 0) (h1 : u = .opened → v = 1)
    (h2 : u = .closed → v = 2) : u.code = v := by
  cases u with
  | uninit => exact (h0 rfl).symm
  | opened => exact (h1 rfl).symm
  | closed => exact (h2 rfl).symm

/-- A value with the number of each coder state (10_state R33) is its code. -/
theorem CoderState.code_eq {u : CoderState} {v : Word64} (h0 : u = .uninit → v = 0) (h1 : u = .ready → v = 1)
    (h2 : u = .disposed → v = 2) (h3 : u = .failed → v = 3) : u.code = v := by
  cases u with
  | uninit => exact (h0 rfl).symm
  | ready => exact (h1 rfl).symm
  | disposed => exact (h2 rfl).symm
  | failed => exact (h3 rfl).symm

theorem CoderState.code_eq_one {u : CoderState} : u.code = 1 ↔ u = .ready := by
  cases u <;> decide

/-- 10_state R33: the streams are the units 1 and 2. -/
theorem unitState_streams (s : State) : ∀ p ∈ [(1, s.bsw.ustate), (2, s.bsr.ustate)], unitState s p.1 = p.2.code := by
  simp only [List.forall_mem_cons]
  exact ⟨rfl, rfl, nofun⟩

/-- 10_state R33: the coders are the units 3 to 14. -/
theorem unitState_coders (s : State) :
    ∀ p ∈ [(3, s.bee.ustate), (4, s.bed.ustate), (5, s.fpe.ustate), (6, s.fpd.ustate), (7, s.rce.ustate), (8, s.rcd.ustate),
        (9, s.hfe.ustate), (10, s.hfd.ustate), (11, s.ege.ustate), (12, s.egd.ustate), (13, s.rge.ustate), (14, s.rgd.ustate)],
      unitState s p.1 = p.2.code := by
  simp only [List.forall_mem_cons]
  exact ⟨rfl, rfl, rfl, rfl, rfl, rfl, rfl, rfl, rfl, rfl, rfl, rfl, nofun⟩

/-- Settles O18. The command answers `unitState`, which is the code of the state listed beside the unit's number. -/
theorem unitStateReport : Obligations.UnitStateReport := by
  intro s hs
  refine ⟨?noUnit, ?streams, ?coders⟩
  case noUnit =>
    rintro u (rfl | rfl)
    · exact exec_sysUstate_of_settled hs 0
    · exact exec_sysUstate_of_settled hs 15
  case streams =>
    intro p hp v h0 h1 h2
    rw [exec_sysUstate_of_settled hs, unitState_streams s p hp, StreamState.code_eq h0 h1 h2]
  case coders =>
    intro p hp v h0 h1 h2 h3
    rw [exec_sysUstate_of_settled hs, unitState_coders s p hp, CoderState.code_eq h0 h1 h2 h3]

/-! ### INIT -/

/-- An INIT without a parameter to check sets its unit (40_system R154). -/
theorem command_init (hs : Settled s) (f : State → State) :
    command i (do update f; pure 0) s = .next (complete i.unit i.op 0 (f s)) :=
  command_ok hs (bind_ok (update_run f s) _)

/-- An INIT sets its unit where its parameters are legal, and faults where they are not (40_system R154). -/
theorem command_init_checked (hs : Settled s) (p : Prop) [Decidable p] (f : State → State) :
    (p → command i (if p then do update f; pure 0 else raise .invalidArgument) s = .next (complete i.unit i.op 0 (f s))) ∧
    (¬p → command i (if p then do update f; pure 0 else raise .invalidArgument) s =
      .next (raiseFault i.unit i.op .invalidArgument s)) := by
  constructor
  · intro h
    rw [if_pos h, command_init hs]
  · intro h
    rw [if_neg h]
    exact command_fault hs (by decide) (raise_run .invalidArgument s)

/-- The predictor kind of a binary coder's INIT is legal where it is 0 (42_binary_coder R226, R235; 43_fpaq R261, R265). -/
theorem command_init_kind (hs : Settled s) (k : Nat) (f : State → State) :
    (k = 0 → command i (if k ≠ 0 then raise .invalidArgument else do update f; pure 0) s =
      .next (complete i.unit i.op 0 (f s))) ∧
    (k ≠ 0 → command i (if k ≠ 0 then raise .invalidArgument else do update f; pure 0) s =
      .next (raiseFault i.unit i.op .invalidArgument s)) := by
  rw [ite_not]
  exact command_init_checked hs (k = 0) f

/-- The chunk size operand and the base address are the low half of `ARG0` (30_encoding R115, R116). -/
theorem argLow_eq (s : State) : argLow s = s.arg0.setWidth 32 := BitVec.setWidth_eq_extractLsb' (by decide) |>.symm

theorem exec_rceInit_of_settled (hs : Settled s) :
    (chunkSizeLegal (argLow s) →
      exec .rceInit s = .next (complete 7 0 0 { s with rce := rangeEncoderFresh .ready (argLow s) })) ∧
    (¬chunkSizeLegal (argLow s) → exec .rceInit s = .next (raiseFault 7 0 .invalidArgument s)) :=
  command_init_checked hs (chunkSizeLegal (argLow s)) fun t => { t with rce := rangeEncoderFresh .ready (argLow t) }

theorem exec_rcdInit_of_settled (hs : Settled s) :
    (chunkSizeLegal (argLow s) →
      exec .rcdInit s = .next (complete 8 0 0 { s with rcd := rangeDecoderFresh .ready (argLow s) })) ∧
    (¬chunkSizeLegal (argLow s) → exec .rcdInit s = .next (raiseFault 8 0 .invalidArgument s)) :=
  command_init_checked hs (chunkSizeLegal (argLow s)) fun t => { t with rcd := rangeDecoderFresh .ready (argLow t) }

theorem exec_rgeInit_of_settled (hs : Settled s) (g : Bool) (l : Nat) :
    (logBaseLegal l →
      exec (.rgeInit g l) s =
        .next (complete 13 0 0 { s with rge := { ustate := .ready, signed := g, logBase := BitVec.ofNat 3 l } })) ∧
    (¬logBaseLegal l → exec (.rgeInit g l) s = .next (raiseFault 13 0 .invalidArgument s)) :=
  command_init_checked hs (logBaseLegal l) fun t =>
    { t with rge := { ustate := .ready, signed := g, logBase := BitVec.ofNat 3 l } }

theorem exec_rgdInit_of_settled (hs : Settled s) (g : Bool) (l : Nat) :
    (logBaseLegal l →
      exec (.rgdInit g l) s =
        .next (complete 14 0 0 { s with rgd := { ustate := .ready, signed := g, logBase := BitVec.ofNat 3 l } })) ∧
    (¬logBaseLegal l → exec (.rgdInit g l) s = .next (raiseFault 14 0 .invalidArgument s)) :=
  command_init_checked hs (logBaseLegal l) fun t =>
    { t with rgd := { ustate := .ready, signed := g, logBase := BitVec.ofNat 3 l } }

/-- Settles O29. Each INIT is one of the three shapes above: the predictor kind, a checked parameter, or no check. -/
theorem coderInit : Obligations.CoderInit := by
  intro s hs
  refine ⟨?kindZero, ?otherKind, ?range, ?huffman, ?golomb⟩
  case kindZero =>
    exact ⟨(command_init_kind hs 0 _).1 rfl, (command_init_kind hs 0 _).1 rfl, (command_init_kind hs 0 _).1 rfl,
      (command_init_kind hs 0 _).1 rfl⟩
  case otherKind =>
    intro k hk
    exact ⟨(command_init_kind hs k _).2 hk, (command_init_kind hs k _).2 hk, (command_init_kind hs k _).2 hk,
      (command_init_kind hs k _).2 hk⟩
  case range =>
    intro c hc
    rw [hc, ← argLow_eq]
    obtain ⟨hrce, hrceFault⟩ := exec_rceInit_of_settled hs
    obtain ⟨hrcd, hrcdFault⟩ := exec_rcdInit_of_settled hs
    exact ⟨fun h => ⟨hrce h, hrcd h⟩, fun h => ⟨hrceFault h, hrcdFault h⟩⟩
  case huffman => exact ⟨command_init hs _, command_init hs _⟩
  case golomb =>
    intro g
    refine ⟨command_init hs _, command_init hs _, fun l h1 h7 => ?legal, fun l h => ?illegal⟩
    case legal =>
      exact ⟨(exec_rgeInit_of_settled hs g l).1 ⟨h1, h7⟩, (exec_rgdInit_of_settled hs g l).1 ⟨h1, h7⟩⟩
    case illegal =>
      have hl : ¬logBaseLegal l := by omega
      exact ⟨(exec_rgeInit_of_settled hs g l).2 hl, (exec_rgdInit_of_settled hs g l).2 hl⟩

/-! ### Descriptors -/

/-- Each check of 40_system R159 refuses a descriptor by itself. -/
theorem not_descriptorValid
    (h : s.arg1.toInt < 0 ∨ s.arg2.toInt < 0 ∨ s.arg3.toInt < 0 ∨ s.arg1.toInt < s.arg2.toInt + s.arg3.toInt ∨
      (s.params.dataSize : Int) < ((s.arg0.setWidth 32).toNat : Int) + s.arg1.toInt) : ¬descriptorValid s := by
  rw [← argLow_eq] at h
  rintro ⟨hsize, hoff, hlen, hend, hdata⟩
  omega

/-- Every ENCODE and DECODE runs its loop behind the checks of `onArray`, made on its own unit (40_system R155 to R159). -/
theorem exec_of_isArray (h : IsArray i) (s : State) :
    ∃ u body, unitState s i.unit.toNat = u.code ∧ exec i s = command i (onArray u body) s := by
  cases i
  case beeEncode | bedDecode | fpeEncode | fpdDecode | rceEncode | rcdDecode | hfeEncode | hfdDecode | egeEncode | egdDecode |
      rgeEncode | rgdDecode => exact ⟨_, _, rfl, rfl⟩
  all_goals simp [IsArray, Instr.op] at h

/-- Settles O31. The coder being READY, the descriptor check is what is left of `onArray`. -/
theorem invalidDescriptor : Obligations.InvalidDescriptor := by
  intro i s hs harray hready hbad
  obtain ⟨u, body, hu, hexec⟩ := exec_of_isArray harray s
  have hu : u = .ready := CoderState.code_eq_one.1 (hu ▸ hready)
  rw [hexec, hu]
  exact command_ok hs (onArray_invalid body (not_descriptorValid hbad))

end Sys2Proof.Machine
end

section
/-! SUPPORT. What the encoders' DISPOSE writes: a register as its bytes (20_memory R87), a write with the flush behind it
(41_bitstream R185, R186), the dispose flush of the binary coders (42_binary_coder R232) and the end marker of FPE (43_fpaq
R264). -/

namespace Sys2Proof.Machine

variable {s : State} {c : FaultCode}

/-! ### Registers as bytes -/

theorem byteBits_extractLsb' {n : Nat} (v : BitVec n) (k : Nat) : byteBits (v.extractLsb' k 8) = bitsOf (v.toNat / 2 ^ k) 8 := by
  rw [byteBits, BitVec.extractLsb'_toNat, bitsOf_mod, Nat.shiftRight_eq_div_pow]

/-- The bytes of a 32-bit register, most significant first, are its field (20_memory R87). -/
theorem bytesBits_registerBytes (v : BitVec 32) : bytesBits (registerBytes v) = bitsOf v.toNat 32 := by
  rw [bitsOf_add v.toNat 8 24, bitsOf_add v.toNat 8 16, bitsOf_add v.toNat 8 8]
  simp only [registerBytes, bytesBits_cons, bytesBits_nil, byteBits_extractLsb', List.append_nil, Nat.pow_zero, Nat.div_one]

/-- The bytes of a 56-bit register, most significant first, are its field (20_memory R87). -/
theorem bytesBits_registerBytes56 (v : Word56) : bytesBits (registerBytes56 v) = bitsOf v.toNat 56 := by
  rw [bitsOf_add v.toNat 8 48, bitsOf_add v.toNat 8 40, bitsOf_add v.toNat 8 32, bitsOf_add v.toNat 8 24,
    bitsOf_add v.toNat 8 16, bitsOf_add v.toNat 8 8]
  simp only [registerBytes56, bytesBits_cons, bytesBits_nil, byteBits_extractLsb', List.append_nil, Nat.pow_zero, Nat.div_one]

/-- `low << 24` in 56 bits is `low` and three zero bytes (42_binary_coder R232). -/
theorem bitsOf_shifted_low (low : BitVec 32) : bitsOf (low.toNat * 2 ^ 24) 56 = flushBits low := by
  have hlow : low.toNat * 2 ^ 24 / 2 ^ 24 = low.toNat := by omega
  have hzero : bitsOf (low.toNat * 2 ^ 24) 24 = bytesBits [0, 0, 0] := by
    rw [← bitsOf_mod, Nat.mul_mod_left]
    decide
  rw [flushBits, bytesBits_append, bytesBits_registerBytes, bitsOf_add _ 32 24, hlow, hzero]

/-! ### Writing and then flushing -/

/-- The full buffers are among the complete bytes. -/
theorem canWrite_of_canWriteAndFlush {w : List Bool} (h : CanWriteAndFlush s w) : CanWrite s w := by
  obtain ⟨hopen, hcount, hroom⟩ := h
  exact .inr ⟨hopen, hcount, (Nat.div_mul_le_self _ _).trans hroom⟩

theorem canWriteAndFlush_right {v w : List Bool} (h : CanWriteAndFlush s (v ++ w)) : CanWriteAndFlush (appended s v) w := by
  by_cases hv : v = []
  · simpa [hv] using h
  obtain ⟨⟨hopen, hclosed, hcounts⟩, hcount, hroom⟩ := h
  rw [List.length_append] at hcount hroom
  refine ⟨⟨by simpa using hopen, by simpa using hclosed, countsBits_appended hcounts (by omega)⟩, ?_, ?_⟩
  · rw [appended_bits, List.length_append]
    omega
  · have hroom' : (appended s v).sinkRoom = s.sinkRoom - fullBuffers s (s.bsw.bits.length + v.length) := by
      rw [appended_of_ne hv, handed, length_outBytes]
    have hdelivered : (appended s v).bsw.delivered = s.bsw.delivered + fullBuffers s (s.bsw.bits.length + v.length) := by
      rw [appended_of_ne hv, handed, length_outBytes]
    rw [SinkTakes, appended_bits, List.length_append, hroom', hdelivered]
    rw [SinkTakes] at hroom
    omega

/-- A write that leaves room for the flush behind it, and that flush. -/
theorem putBits_flushWriter_ok {v n : Nat} (hn : n ≠ 0) (hs : s.sent = 0) (h : CanWriteAndFlush s (bitsOf v n)) :
    (do putBits v n; flushWriter : M Unit) s = .ok () (flushed (appended s (bitsOf v n))) := by
  have hflush : CanWriteAndFlush (appended s (bitsOf v n)) [] := canWriteAndFlush_right (by rwa [List.append_nil])
  obtain ⟨⟨-, hclosed, hcounts⟩, -, hroom⟩ := hflush
  rw [bind_ok (putBits_ok hn hs (canWrite_of_canWriteAndFlush h))]
  exact flushWriter_ok (by rwa [appended_sent]) hclosed hcounts hroom

/-- The dispose flush (42_binary_coder R232). -/
theorem flushInterval_ok {e : BinaryEncoder} (hs : s.sent = 0) (h : CanWriteAndFlush s (flushBits e.low)) :
    flushInterval e s = .ok () (flushed (appended s (flushBits e.low))) := by
  rw [← bitsOf_shifted_low] at h ⊢
  exact putBits_flushWriter_ok (by decide) hs h

theorem flushInterval_writerFault (e : BinaryEncoder) (h : WriterFault s c) : flushInterval e s = .error (.fault c) s :=
  bind_error (putBits_fault _ _ h) _

/-! ### The end marker of FPE -/

theorem encodeBits_singleton (e : BinaryEncoder) (b : Bool) (s : State) : encodeBits e [b] s = encodeBit e b s := by
  rw [encodeBits, bind_run]
  cases encodeBit e b s <;> rfl

/-- Where the writer faults, coding a bit meets that fault at its first byte, or writes none. -/
theorem encodeBit_writerFault (e : BinaryEncoder) (b : Bool) (h : WriterFault s c) :
    encodeBit e b s = .error (.fault c) s ∨ ∃ e', encodeBit e b s = .ok e' s := by
  rw [encodeBit, renormalize]
  split
  · left
    have hshift : shiftOut (stepHigh e.high (splitPoint e.low e.high e.pred.probability) b) () s = .error (.fault c) s :=
      putBits_fault _ _ h
    exact bind_error (bind_error hshift _) _
  · exact .inr ⟨_, rfl⟩

/-- The end marker and the dispose flush (43_fpaq R264). -/
theorem endMarker_ok {e e' : BinaryEncoder} {out : List Byte} (hs : s.sent = 0) (hcoded : CodedBits e [true] out e')
    (h : CanWriteAndFlush s (bytesBits out ++ flushBits e'.low)) :
    encodeBit e true s = .ok e' (appended s (bytesBits out)) ∧
      flushInterval e' (appended s (bytesBits out)) = .ok () (flushed (appended s (bytesBits out ++ flushBits e'.low))) := by
  have hwrite := canWrite_of_canWriteAndFlush h
  constructor
  · rw [← encodeBits_singleton]
    exact encodeBits_ok hcoded hs (canWrite_left hwrite)
  · rw [flushInterval_ok (by rwa [appended_sent]) (canWriteAndFlush_right h), appended_appended hwrite]

end Sys2Proof.Machine
end

section
/-! SUPPORT. What DISPOSE does to a READY coder (40_system R164; 42_binary_coder R232; 43_fpaq R264; 44_range_coder R290). -/

namespace Sys2Proof.Machine

variable {s t : State} {i : Instr} {c : FaultCode}

/-! ### DISPOSE -/

/-- DISPOSE of a READY coder runs its body and answers 0 (40_system R164). -/
theorem command_dispose {u : CoderState} {body : M Unit} (hs : Settled s) (hu : u = .ready) (h : body s = .ok () t) :
    command i (onDispose u body) s = .next (complete i.unit i.op 0 t) := by
  subst hu
  exact command_ok hs (bind_ok h fun _ => pure 0)

/-- DISPOSE of a READY coder that writes nothing (40_system R164). -/
theorem command_dispose_update {u : CoderState} (hs : Settled s) (f : State → State) (hu : u = .ready) :
    command i (onDispose u (update f)) s = .next (complete i.unit i.op 0 (f s)) :=
  command_dispose hs hu (update_run f s)

/-- The writer's faults are none of the range coder's. -/
theorem WriterFault.ne_rangeDegenerate (h : WriterFault s c) : c ≠ .rangeDegenerate := by
  rcases h with ⟨-, rfl⟩ | ⟨-, -, rfl⟩ <;> decide

/-- A writer's fault inside the flush of a DISPOSE undoes it whole (40_system R158, 60_exceptions R402). -/
theorem command_dispose_writerFault {u : CoderState} {body : M Unit} (hs : Settled s) (hu : u = .ready) (hc : WriterFault s c)
    (h : body s = .error (.fault c) s) : command i (onDispose u (element body)) s = .next (raiseFault i.unit i.op c s) := by
  subst hu
  have hbody := bind_error (element_fault h) fun _ => (pure 0 : M Word64)
  rw [undo_self] at hbody
  exact command_fault hs (WriterFault.ne_rangeDegenerate hc) hbody

/-! ### DISPOSE of the three coders that write -/

theorem exec_beeDispose_ok (hs : Settled s) (hu : s.bee.ustate = .ready) (h : CanWriteAndFlush s (flushBits s.bee.low)) :
    exec .beeDispose s =
      .next (complete 3 7 0 { flushed (appended s (flushBits s.bee.low)) with bee.ustate := .disposed }) := by
  have ⟨_, hsent, _⟩ := hs
  exact command_dispose hs hu (element_ok (bind_ok (flushInterval_ok hsent h) _))

theorem exec_beeDispose_writerFault (hs : Settled s) (hu : s.bee.ustate = .ready) (h : WriterFault s c) :
    exec .beeDispose s = .next (raiseFault 3 7 c s) :=
  command_dispose_writerFault hs hu h (bind_error (flushInterval_writerFault s.bee h) _)

theorem exec_fpeDispose_ok {out : List Byte} {e' : BinaryEncoder} (hs : Settled s) (hu : s.fpe.ustate = .ready)
    (hcoded : CodedBits s.fpe [true] out e') (h : CanWriteAndFlush s (bytesBits out ++ flushBits e'.low)) :
    exec .fpeDispose s =
      .next (complete 5 7 0
        { flushed (appended s (bytesBits out ++ flushBits e'.low)) with fpe := { e' with ustate := .disposed } }) := by
  have ⟨_, hsent, _⟩ := hs
  obtain ⟨hmark, hflush⟩ := endMarker_ok hsent hcoded h
  exact command_dispose hs hu (element_ok ((bind_ok hmark _).trans (bind_ok hflush _)))

theorem exec_fpeDispose_writerFault (hs : Settled s) (hu : s.fpe.ustate = .ready) (h : WriterFault s c) :
    exec .fpeDispose s = .next (raiseFault 5 7 c s) := by
  refine command_dispose_writerFault hs hu h ?_
  rcases encodeBit_writerFault s.fpe true h with hmark | ⟨e, hmark⟩
  · exact bind_error hmark _
  · exact (bind_ok hmark _).trans (bind_error (flushInterval_writerFault e h) _)

theorem exec_rceDispose_ok (hs : Settled s) (hu : s.rce.ustate = .ready)
    (h : CanWrite s (bytesBits (registerBytes56 s.rce.low))) :
    exec .rceDispose s =
      .next (complete 7 7 0 { appended s (bytesBits (registerBytes56 s.rce.low)) with rce.ustate := .disposed }) := by
  have ⟨_, hsent, _⟩ := hs
  rw [bytesBits_registerBytes56] at h ⊢
  exact command_dispose hs hu (element_ok (bind_ok (putBits_ok (by decide) hsent h) _))

theorem exec_rceDispose_writerFault (hs : Settled s) (hu : s.rce.ustate = .ready) (h : WriterFault s c) :
    exec .rceDispose s = .next (raiseFault 7 7 c s) :=
  command_dispose_writerFault hs hu h (bind_error (putBits_fault _ _ h) _)

/-- Settles O30. Nine coders only change their unit state; for each of the other three, the flush that is written, and the
writer's fault in its two kinds. -/
theorem disposeCommands : Obligations.DisposeCommands := by
  intro s hs
  refine ⟨command_dispose_update hs _, command_dispose_update hs _, command_dispose_update hs _, command_dispose_update hs _,
    command_dispose_update hs _, command_dispose_update hs _, command_dispose_update hs _, command_dispose_update hs _,
    command_dispose_update hs _, fun hu => ?bee, fun hu => ?fpe, fun hu => ?rce⟩
  case bee =>
    exact ⟨exec_beeDispose_ok hs hu, fun h => exec_beeDispose_writerFault hs hu (.inl ⟨h, rfl⟩),
      fun h hc => exec_beeDispose_writerFault hs hu (.inr ⟨h, hc, rfl⟩)⟩
  case fpe =>
    exact ⟨fun _ _ => exec_fpeDispose_ok hs hu, fun h => exec_fpeDispose_writerFault hs hu (.inl ⟨h, rfl⟩),
      fun h hc => exec_fpeDispose_writerFault hs hu (.inr ⟨h, hc, rfl⟩)⟩
  case rce =>
    exact ⟨exec_rceDispose_ok hs hu, fun h => exec_rceDispose_writerFault hs hu (.inl ⟨h, rfl⟩),
      fun h hc => exec_rceDispose_writerFault hs hu (.inr ⟨h, hc, rfl⟩)⟩

end Sys2Proof.Machine
end

section
/-! SUPPORT. What the commands of the writer and of the reader do (41_bitstream R181 to R189, R196, R197): the unit-state checks
they share, then each command as it completes and as it faults. -/

namespace Sys2Proof.Machine

variable {s t : State} {i : Instr} {c : FaultCode}

/-! ### Commands behind a check of the stream -/

/-- A command of a bound stream that completes (40_system R155). -/
theorem command_onStream_ok {u : StreamState} {body : M Word64} {v : Word64} (hs : Settled s) (hu : u ≠ .uninit)
    (h : body s = .ok v t) : command i (onStream u body) s = .next (complete i.unit i.op v t) := by
  rw [onStream_bound hu]
  exact command_ok hs h

/-- A command of an UNINIT stream (40_system R155). -/
theorem command_onStream_uninit {u : StreamState} {body : M Word64} (hs : Settled s) (hu : u = .uninit) :
    command i (onStream u body) s = .next (raiseFault i.unit i.op .notInitialized s) := by
  subst hu
  exact command_fault hs (by decide) (raise_run .notInitialized s)

/-- Settles O19. -/
theorem writerInitAndCount : Obligations.WriterInitAndCount := by
  intro s hs
  exact ⟨command_init hs fun s => { s with bsw := writerFresh .opened },
    fun hu => command_onStream_ok hs hu (pure_run s.bsw.written s), command_onStream_uninit hs⟩

/-! ### FLUSH and CLOSE -/

theorem flushWriter_closed (hc : s.bsw.closed = true) : flushWriter s = .ok () s := by
  rw [flushWriter, look_run, if_pos hc, pure_run]

theorem closeWriter_closed (hc : s.bsw.closed = true) : closeWriter s = .ok () s := by
  rw [closeWriter, look_run, if_pos hc, pure_run]

/-- A flush delivers every complete byte. -/
theorem flushed_of_delivered_le (h : s.bsw.delivered ≤ s.bsw.bits.length / 8) :
    flushed s =
      { s with
        sink := s.sink ++ outBytes s.bsw.bits s.bsw.delivered (s.bsw.bits.length / 8 - s.bsw.delivered)
        sinkRoom := s.sinkRoom - (s.bsw.bits.length / 8 - s.bsw.delivered)
        bsw.delivered := s.bsw.bits.length / 8 } := by
  rw [flushed, handed, length_outBytes, Nat.add_sub_cancel' h]

/-- What CLOSE does to an open writer (41_bitstream R188): the bytes left and the padding in one hand-off. -/
theorem closeWriter_ok {nbytes : Nat} (hs : s.sent = 0) (hopen : WriterOpen s) (hn : nbytes = (s.bsw.bits.length + 7) / 8)
    (hd : s.bsw.delivered ≤ nbytes) (h : SinkTakes s (nbytes - s.bsw.delivered + padLength nbytes)) :
    closeWriter s = .ok ()
      { s with
        sink := s.sink ++ outBytes s.bsw.bits s.bsw.delivered (nbytes - s.bsw.delivered) ++
          List.replicate (padLength nbytes) 0xFF
        sinkRoom := s.sinkRoom - (nbytes - s.bsw.delivered + padLength nbytes)
        bsw.delivered := nbytes + padLength nbytes
        bsw.closed := true
        bsw.ustate := .closed } := by
  obtain ⟨-, hclosed, hcounts⟩ := hopen
  have hlen : (outBytes s.bsw.bits s.bsw.delivered (nbytes - s.bsw.delivered) ++
      List.replicate (padLength nbytes) (0xFF : Byte)).length = nbytes - s.bsw.delivered + padLength nbytes := by
    rw [List.length_append, length_outBytes, List.length_replicate]
  have hdelivered : s.bsw.delivered + (nbytes - s.bsw.delivered + padLength nbytes) = nbytes + padLength nbytes := by omega
  rw [closeWriter, look_run, if_neg (by simp [hclosed]), hcounts, ← hn, bind_ok (handOff_ok hs (by rwa [hlen])), update_run,
    handed, hlen, hdelivered, List.append_assoc]

/-- Settles O21. (`flushWriter` by itself is the model's operation.) -/
theorem BitStream.flushWriter : Obligations.FlushWriter := by
  intro s hs
  refine ⟨fun hopen hd hroom => ?opened, fun hu hc => ?closed, command_onStream_uninit hs⟩
  case opened =>
    have ⟨_, hsent, _⟩ := hs
    have ⟨hu, hclosed, hcounts⟩ := hopen
    rw [← flushed_of_delivered_le hd]
    exact command_onStream_ok hs (by simp [hu]) (bind_ok (flushWriter_ok hsent hclosed hcounts hroom) _)
  case closed => exact command_onStream_ok hs hu (bind_ok (flushWriter_closed hc) _)

/-- Settles O22. (`closeWriter` by itself is the model's operation.) -/
theorem BitStream.closeWriter : Obligations.CloseWriter := by
  intro s hs
  refine ⟨fun nbytes pad hn hpad hopen hd hroom => ?opened, fun hu hc => ?closed, command_onStream_uninit hs⟩
  case opened =>
    subst hpad
    have ⟨_, hsent, _⟩ := hs
    have ⟨hu, _, _⟩ := hopen
    exact command_onStream_ok hs (by simp [hu]) (bind_ok (closeWriter_ok hsent hopen hn hd hroom) _)
  case closed => exact command_onStream_ok hs hu (bind_ok (closeWriter_closed hc) _)

/-! ### WRBIT and WRBITS -/

theorem bitsOf_toNat_one (b : Bool) : bitsOf b.toNat 1 = [b] := by cases b <;> rfl

theorem checkWriteLength_ok {n : Nat} (hu : s.bsw.ustate ≠ .uninit) (hc : s.bsw.closed = false) (h1 : 1 ≤ n) (h64 : n ≤ 64) :
    checkWriteLength n s = .ok () s := by
  rw [checkWriteLength, look_run, if_neg hu, if_neg (by simp [hc]), if_neg (by omega), pure_run]

theorem checkWriteLength_writerFault (n : Nat) (h : WriterFault s c) : checkWriteLength n s = .error (.fault c) s := by
  rw [checkWriteLength, look_run]
  rcases h with ⟨hu, rfl⟩ | ⟨hu, hc, rfl⟩
  · rw [if_pos hu, raise_run]
  · rw [if_neg hu, if_pos hc, raise_run]

theorem checkWriteLength_invalid {n : Nat} (hu : s.bsw.ustate ≠ .uninit) (hc : s.bsw.closed = false) (hn : n < 1 ∨ 64 < n) :
    checkWriteLength n s = .error (.fault .invalidArgument) s := by
  rw [checkWriteLength, look_run, if_neg hu, if_neg (by simp [hc]), if_pos hn, raise_run]

theorem exec_bswWrbit_ok (hs : Settled s) (h : CanWrite s [s.arg0.getLsbD 0]) :
    exec .bswWrbit s = .next (complete 1 1 1 (appended s [s.arg0.getLsbD 0])) := by
  have ⟨_, hsent, _⟩ := hs
  rw [← bitsOf_toNat_one] at h ⊢
  exact command_ok hs (bind_ok (putBits_ok (by decide) hsent h) _)

theorem exec_bswWrbits_ok {n : Nat} (hs : Settled s) (h1 : 1 ≤ n) (h64 : n ≤ 64) (h : CanWrite s (bitsOf s.arg0.toNat n)) :
    exec (.bswWrbits n) s = .next (complete 1 2 (BitVec.ofNat 64 n) (appended s (bitsOf s.arg0.toNat n))) := by
  have ⟨_, hsent, _⟩ := hs
  have hn : n ≠ 0 := by omega
  have ⟨⟨hu, hc, _⟩, _, _⟩ := h.resolve_left (by rwa [bitsOf_eq_nil])
  exact command_ok hs ((bind_ok (checkWriteLength_ok (by simp [hu]) hc h1 h64) _).trans (bind_ok (putBits_ok hn hsent h) _))

theorem exec_bswWrbit_writerFault (hs : Settled s) (h : WriterFault s c) :
    exec .bswWrbit s = .next (raiseFault 1 1 c s) :=
  command_fault hs (WriterFault.ne_rangeDegenerate h) (bind_error (putBits_fault _ _ h) _)

theorem exec_bswWrbits_writerFault (hs : Settled s) (n : Nat) (h : WriterFault s c) :
    exec (.bswWrbits n) s = .next (raiseFault 1 2 c s) :=
  command_fault hs (WriterFault.ne_rangeDegenerate h) (bind_error (checkWriteLength_writerFault n h) _)

/-- Settles O20. -/
theorem writeFields : Obligations.WriteFields := by
  intro s hs
  refine ⟨exec_bswWrbit_ok hs, fun _ h1 h64 => exec_bswWrbits_ok hs h1 h64, fun hu => ?uninit, fun hu hc => ?closed,
    fun hu hc n hn => ?invalid⟩
  case uninit =>
    have h : WriterFault s .notInitialized := .inl ⟨hu, rfl⟩
    exact ⟨exec_bswWrbit_writerFault hs h, fun n => exec_bswWrbits_writerFault hs n h⟩
  case closed =>
    have h : WriterFault s .streamClosed := .inr ⟨hu, hc, rfl⟩
    exact ⟨exec_bswWrbit_writerFault hs h, fun n => exec_bswWrbits_writerFault hs n h⟩
  case invalid => exact command_fault hs (by decide) (bind_error (checkWriteLength_invalid hu hc hn) _)

/-! ### RDBIT and RDBITS -/

theorem checkReadLength_ok {n : Nat} (h : ReaderOpen s) (h1 : 1 ≤ n) (h64 : n ≤ 64) : checkReadLength n s = .ok () s := by
  obtain ⟨hu, hc⟩ := h
  rw [checkReadLength, look_run, if_neg (by simp [hu]), if_neg (by simp [hc]), if_neg (by omega), pure_run]

theorem checkReadLength_readerFault (n : Nat) (h : ReaderFault s c) : checkReadLength n s = .error (.fault c) s := by
  rw [checkReadLength, look_run]
  rcases h with ⟨hu, rfl⟩ | ⟨hu, hc, rfl⟩
  · rw [if_pos hu, raise_run]
  · rw [if_neg hu, if_pos hc, raise_run]

theorem checkReadLength_invalid {n : Nat} (hu : s.bsr.ustate ≠ .uninit) (hc : s.bsr.closed = false) (hn : n < 1 ∨ 64 < n) :
    checkReadLength n s = .error (.fault .invalidArgument) s := by
  rw [checkReadLength, look_run, if_neg hu, if_neg (by simp [hc]), if_pos hn, raise_run]

/-- The reader's faults are none of the range coder's. -/
theorem ReaderFault.ne_rangeDegenerate (h : ReaderFault s c) : c ≠ .rangeDegenerate := by
  rcases h with ⟨-, rfl⟩ | ⟨-, -, rfl⟩ <;> decide

/-- What an element that met END took before it, and the END, stay (60_exceptions R402). -/
@[simp] theorem undo_metEnd_self (s : State) : undo s (metEnd s) = metEnd s := by
  rw [undo, metEnd]
  split <;> rfl

/-- A command whose one element faults, undone (60_exceptions R402). -/
theorem command_element_fault {body : M Word64} (hs : Settled s) (hc : c ≠ .rangeDegenerate)
    (h : body s = .error (.fault c) t) : command i (element body) s = .next (raiseFault i.unit i.op c (undo s t)) :=
  command_fault hs hc (element_fault h)

theorem exec_bsrRdbit_ok {b : Bool} (hs : Settled s) (h : CanRead s [b]) :
    exec .bsrRdbit s = .next (complete 2 1 (if b then 1 else 0) (consumed s 1)) := by
  have hv : BitVec.ofNat 64 (bitsValue [b]) = if b then 1 else 0 := by cases b <;> rfl
  rw [← hv]
  exact command_ok hs (element_ok (bind_ok (getBits_ok rfl (by simp) h) _))

theorem exec_bsrRdbits_ok {w : List Bool} (hs : Settled s) (h1 : 1 ≤ w.length) (h64 : w.length ≤ 64) (h : CanRead s w) :
    exec (.bsrRdbits w.length) s = .next (complete 2 2 (BitVec.ofNat 64 (bitsValue w)) (consumed s w.length)) := by
  have hw : w ≠ [] := List.length_pos_iff.1 h1
  have ⟨hopen, _, _⟩ := h.resolve_left hw
  exact command_ok hs
    (element_ok ((bind_ok (checkReadLength_ok hopen h1 h64) _).trans (bind_ok (getBits_ok rfl hw h) _)))

theorem exec_bsrRdbit_end (hs : Settled s) (h : ReaderOpen s) (he : s.bsr.ended = true ∨ .finish ∈ s.source)
    (hn : (unread s).length < 1) : exec .bsrRdbit s = .next (raiseFault 2 1 .endOfStream (metEnd s)) := by
  rw [← undo_metEnd_self]
  exact command_element_fault hs (by decide) (bind_error (getBits_end h hn he) _)

theorem exec_bsrRdbits_end {n : Nat} (hs : Settled s) (h : ReaderOpen s) (he : s.bsr.ended = true ∨ .finish ∈ s.source)
    (h1 : 1 ≤ n) (h64 : n ≤ 64) (hn : (unread s).length < n) :
    exec (.bsrRdbits n) s = .next (raiseFault 2 2 .endOfStream (metEnd s)) := by
  rw [← undo_metEnd_self]
  exact command_element_fault hs (by decide)
    ((bind_ok (checkReadLength_ok h h1 h64) _).trans (bind_error (getBits_end h hn he) _))

theorem exec_bsrRdbit_readerFault (hs : Settled s) (h : ReaderFault s c) :
    exec .bsrRdbit s = .next (raiseFault 2 1 c s) :=
  command_element_fault hs (ReaderFault.ne_rangeDegenerate h) (bind_error (getBits_fault 1 h) _)

theorem exec_bsrRdbits_readerFault (hs : Settled s) (n : Nat) (h : ReaderFault s c) :
    exec (.bsrRdbits n) s = .next (raiseFault 2 2 c s) :=
  command_element_fault hs (ReaderFault.ne_rangeDegenerate h) (bind_error (checkReadLength_readerFault n h) _)

/-- Settles O26. -/
theorem readFields : Obligations.ReadFields := by
  intro s hs
  refine ⟨fun _ => exec_bsrRdbit_ok hs, fun _ => exec_bsrRdbits_ok hs,
    fun hopen he => ⟨exec_bsrRdbit_end hs hopen he, fun _ => exec_bsrRdbits_end hs hopen he⟩, fun hu => ?uninit,
    fun hu hc => ?closed, fun hu hc n hn => ?invalid⟩
  case uninit =>
    have h : ReaderFault s .notInitialized := .inl ⟨hu, rfl⟩
    exact ⟨exec_bsrRdbit_readerFault hs h, fun n => exec_bsrRdbits_readerFault hs n h⟩
  case closed =>
    have h : ReaderFault s .streamClosed := .inr ⟨hu, hc, rfl⟩
    exact ⟨exec_bsrRdbit_readerFault hs h, fun n => exec_bsrRdbits_readerFault hs n h⟩
  case invalid => exact command_element_fault hs (by decide) (bind_error (checkReadLength_invalid hu hc hn) _)

end Sys2Proof.Machine
end

section
/-! SUPPORT. What a predictor's `update` makes of its counters and of its context (42_binary_coder R224, R225). -/

namespace Sys2Proof.Machine

variable {n0 n1 : Nat} {p : Predictor}

/-! ### Counters and contexts as numbers -/

/-- The counters after `bit`, with the halving test as 42_binary_coder R224 writes it: on the counter just incremented. -/
theorem countBit_eq (n0 n1 : Nat) {a0 a1 : Nat} {bit halve : Bool} (h0 : a0 = if bit then n0 else n0 + 1)
    (h1 : a1 = if bit then n1 + 1 else n1) (hh : halve = true ↔ (bit = true ∧ 2000 < a1) ∨ (bit = false ∧ 2000 < a0)) :
    countBit n0 n1 bit = (if halve then a0 / 2 else a0, if halve then a1 / 2 else a1) := by
  have htest : 2000 < (if bit then a1 else a0) ↔ halve = true := by
    rw [hh]
    cases bit <;> simp
  subst h0 h1
  rw [countBit]
  simp only [htest]
  cases halve <;> rfl

/-- 42_binary_coder R225: the incremented counter is halved before it leaves the bound, and the other one did not move. -/
theorem countBit_le (h0 : n0 ≤ 2000) (h1 : n1 ≤ 2000) (bit : Bool) :
    (countBit n0 n1 bit).1 ≤ 2000 ∧ (countBit n0 n1 bit).2 ≤ 2000 := by
  cases bit with
  | false =>
    simp only [countBit, Bool.false_eq_true, if_false]
    split <;> dsimp only <;> omega
  | true =>
    simp only [countBit, if_true]
    split <;> dsimp only <;> omega

theorem nextContext_eq (c : Nat) (bit : Bool) :
    nextContext c bit =
      if 512 ≤ 2 * c + (if bit then 1 else 0) then 1 else 2 * c + (if bit then 1 else 0) := by
  cases bit <;> rfl

theorem nextContext_lt (c : Nat) (bit : Bool) : nextContext c bit < 512 := by
  rw [nextContext]
  split <;> omega

/-! ### The predictor's registers -/

theorem PredictorLegal.ctx_lt (h : PredictorLegal p) : p.ctx.toNat < 512 := by
  obtain ⟨-, hctx, -⟩ := h
  omega

/-- The registers are wide enough for both counters of the context after `bit`. -/
theorem PredictorLegal.update_counters (h : PredictorLegal p) (bit : Bool) :
    (((p.update bit).n0.get p.ctx.toNat 0).toNat, ((p.update bit).n1.get p.ctx.toNat 0).toNat) =
      countBit (p.n0.get p.ctx.toNat 0).toNat (p.n1.get p.ctx.toNat 0).toNat bit := by
  have hctx := h.ctx_lt
  obtain ⟨-, -, hcounters⟩ := h
  obtain ⟨hn0, hn1⟩ := hcounters _ hctx
  obtain ⟨hm0, hm1⟩ := countBit_le hn0 hn1 bit
  rw [Predictor.update, Table.get_set_self _ hctx, Table.get_set_self _ hctx, BitVec.toNat_ofNat, BitVec.toNat_ofNat,
    Nat.mod_eq_of_lt (by omega), Nat.mod_eq_of_lt (by omega)]

theorem Predictor.update_other_counters (p : Predictor) (bit : Bool) {x : Nat} (h : x ≠ p.ctx.toNat) :
    (p.update bit).n0.get x 0 = p.n0.get x 0 ∧ (p.update bit).n1.get x 0 = p.n1.get x 0 :=
  ⟨Table.get_set_other _ h.symm _ _, Table.get_set_other _ h.symm _ _⟩

theorem Predictor.update_ctx (p : Predictor) (bit : Bool) : (p.update bit).ctx.toNat = nextContext p.ctx.toNat bit :=
  Nat.mod_eq_of_lt ((nextContext_lt _ _).trans (by decide))

/-- Settles O32. The counters of the context are `countBit`'s, all others are untouched by the table's write, and the context is
`nextContext`'s. -/
theorem predictorStep : Obligations.PredictorStep := by
  rintro p bit c n0 n1 a0 a1 halve hp rfl rfl rfl ha0 ha1 hhalve
  have hcounters := hp.update_counters bit
  rw [countBit_eq _ _ ha0 ha1 hhalve, Prod.mk.injEq] at hcounters
  obtain ⟨hn0, hn1⟩ := hcounters
  refine ⟨rfl, hn0, hn1, fun _ => p.update_other_counters bit, ?context⟩
  case context => rw [p.update_ctx, nextContext_eq]

end Sys2Proof.Machine
end

section
/-! SUPPORT. What `update(s)` makes of the entries of a frequency table (44_range_coder R285). -/

namespace Sys2Proof.Machine

variable {t : FreqTable} {sym v : Nat}

/-- 44_range_coder R285: the entries up to the symbol's own are outside the loop. -/
theorem freqAt_countSymbol_of_le (hv : v ≤ 257) (h : v ≤ sym) : freqAt (countSymbol t sym) v = freqAt t v := by
  have hget : (countSymbol t sym).get v 0 = t.get v 0 := by
    rw [countSymbol, Table.get_updateFrom t _ _ (by omega), if_neg (by omega)]
  rw [freqAt, hget, freqAt]

/-- 44_range_coder R285: the entries above the symbol's own count it; the bound keeps the 64-bit register from wrapping. -/
theorem freqAt_countSymbol_of_lt (hv : v ≤ 257) (h : sym < v) (hfit : freqAt t v < 2 ^ 64 - 1) :
    freqAt (countSymbol t sym) v = freqAt t v + 1 := by
  have hget : (countSymbol t sym).get v 0 = t.get v 0 + 1 := by
    rw [countSymbol, Table.get_updateFrom t _ _ (by omega), if_pos (by omega)]
  rw [freqAt, hget]
  exact BitVec.toNat_add_of_lt (Nat.add_lt_of_lt_sub hfit)

/-- Settles O42. An entry is either above the symbol's own, and counts the symbol, or it stays. -/
theorem frequencyTables : Obligations.FrequencyTables := by
  refine ⟨fun _ => freqAt_flatTable, fun t sym v hv hfit => ?update⟩
  split
  case isTrue h => exact freqAt_countSymbol_of_lt hv h hfit
  case isFalse h => exact freqAt_countSymbol_of_le hv (Nat.le_of_not_lt h)

end Sys2Proof.Machine
end

section
/-! SUPPORT. Words and commands (30_encoding R110 to R114, R121): a command comes back from its word, a word that decodes is the word
of its command, and the words that decode are the legal ones. -/

namespace Sys2Proof

/-! ### From a command to its word and back -/

theorem Laws.encodedFields : (i : Instr) → EncodedFields.Statement i
  | .sysNop => EncodedFields.sysNop
  | .sysSreset => EncodedFields.sysSreset
  | .sysUstate u => EncodedFields.sysUstate u
  | .bswInit => EncodedFields.bswInit
  | .bswWrbit => EncodedFields.bswWrbit
  | .bswWrbits n => EncodedFields.bswWrbits n
  | .bswFlush => EncodedFields.bswFlush
  | .bswClose => EncodedFields.bswClose
  | .bswWritten => EncodedFields.bswWritten
  | .bsrInit => EncodedFields.bsrInit
  | .bsrRdbit => EncodedFields.bsrRdbit
  | .bsrRdbits n => EncodedFields.bsrRdbits n
  | .bsrClose => EncodedFields.bsrClose
  | .bsrRead => EncodedFields.bsrRead
  | .beeInit k => EncodedFields.beeInit k
  | .beeEncbit => EncodedFields.beeEncbit
  | .beeEncbyte => EncodedFields.beeEncbyte
  | .beeEncode => EncodedFields.beeEncode
  | .beeDispose => EncodedFields.beeDispose
  | .bedInit k => EncodedFields.bedInit k
  | .bedDecbit => EncodedFields.bedDecbit
  | .bedDecbyte => EncodedFields.bedDecbyte
  | .bedDecode => EncodedFields.bedDecode
  | .bedDispose => EncodedFields.bedDispose
  | .fpeInit k => EncodedFields.fpeInit k
  | .fpeEncbyte => EncodedFields.fpeEncbyte
  | .fpeEncode => EncodedFields.fpeEncode
  | .fpeDispose => EncodedFields.fpeDispose
  | .fpdInit k => EncodedFields.fpdInit k
  | .fpdDecbit => EncodedFields.fpdDecbit
  | .fpdDecbyte => EncodedFields.fpdDecbyte
  | .fpdDecode => EncodedFields.fpdDecode
  | .fpdDispose => EncodedFields.fpdDispose
  | .rceInit => EncodedFields.rceInit
  | .rceEncbyte => EncodedFields.rceEncbyte
  | .rceEncode => EncodedFields.rceEncode
  | .rceDispose => EncodedFields.rceDispose
  | .rcdInit => EncodedFields.rcdInit
  | .rcdDecbyte => EncodedFields.rcdDecbyte
  | .rcdDecode => EncodedFields.rcdDecode
  | .rcdDispose => EncodedFields.rcdDispose
  | .hfeInit => EncodedFields.hfeInit
  | .hfeEncode => EncodedFields.hfeEncode
  | .hfeDispose => EncodedFields.hfeDispose
  | .hfdInit => EncodedFields.hfdInit
  | .hfdDecode => EncodedFields.hfdDecode
  | .hfdDispose => EncodedFields.hfdDispose
  | .egeInit signed => EncodedFields.egeInit signed
  | .egeEncbyte => EncodedFields.egeEncbyte
  | .egeEncode => EncodedFields.egeEncode
  | .egeDispose => EncodedFields.egeDispose
  | .egdInit signed => EncodedFields.egdInit signed
  | .egdDecbyte => EncodedFields.egdDecbyte
  | .egdDecode => EncodedFields.egdDecode
  | .egdDispose => EncodedFields.egdDispose
  | .rgeInit signed l => EncodedFields.rgeInit signed l
  | .rgeEncbyte => EncodedFields.rgeEncbyte
  | .rgeEncode => EncodedFields.rgeEncode
  | .rgeDispose => EncodedFields.rgeDispose
  | .rgdInit signed l => EncodedFields.rgdInit signed l
  | .rgdDecbyte => EncodedFields.rgdDecbyte
  | .rgdDecode => EncodedFields.rgdDecode
  | .rgdDispose => EncodedFields.rgdDispose

/-- Settles O1. -/
theorem decodeEncode : Obligations.DecodeEncode := by
  intro i hi
  obtain ⟨-, -, -, -, hdecode⟩ := Laws.encodedFields i hi
  exact hdecode

/-- 30_encoding R121: the fields side by side are their weighted sum. -/
theorem encode_toNat (i : Instr) : (encode i).toNat = i.unit.toNat * 2 ^ 28 + i.op.toNat * 2 ^ 24 + i.imm.toNat := by
  simp only [encode, Machine.toNat_append_eq_mul_add, BitVec.ofNat_eq_ofNat, BitVec.toNat_ofNat]
  omega

/-- Settles O4. -/
theorem commandWords : Obligations.CommandWords :=
  ⟨encode_toNat, by decide, by decide, by decide, by decide, by decide⟩

/-! ### From a word to its command and back -/

/-- A command as the table gives it back: its row and its immediate are the ones that were read. -/
def ReadAs (unit op : Nat) (imm : BitVec 16) (i : Instr) : Prop :=
  WellFormed i ∧ i.unit.toNat = unit ∧ i.op.toNat = op ∧ i.imm = imm

theorem readAs_of_withoutImm {unit op : Nat} {imm : BitVec 16} {j i : Instr} (h : withoutImm imm j = .ok i)
    (hj : ReadAs unit op 0 j) : ReadAs unit op imm i := by
  unfold withoutImm at h
  split at h
  case isTrue h0 =>
    cases h
    exact h0 ▸ hj
  case isFalse => cases h

theorem readAs_of_withNumber {unit op bits : Nat} {imm : BitVec 16} {f : Nat → Instr} {i : Instr}
    (h : withNumber bits imm f = .ok i) (hf : ∀ n < 2 ^ bits, ReadAs unit op (BitVec.ofNat 16 n) (f n)) :
    ReadAs unit op imm i := by
  unfold withNumber at h
  split at h
  case isTrue hlt =>
    cases h
    have hread := hf _ hlt
    rwa [BitVec.ofNat_toNat, BitVec.setWidth_eq] at hread
  case isFalse => cases h

theorem readAs_of_withSign {unit op : Nat} {imm : BitVec 16} {f : Bool → Instr} {i : Instr} (h : withSign imm f = .ok i)
    (hf : ∀ signed, ReadAs unit op (signField signed) (f signed)) : ReadAs unit op imm i := by
  unfold withSign at h
  split at h
  case isTrue h0 =>
    cases h
    exact h0 ▸ hf false
  case isFalse =>
    split at h
    case isTrue h16 =>
      cases h
      exact h16 ▸ hf true
    case isFalse => cases h

/-- The sign bit and the base are the low five bits of `IMM` (30_encoding R114). -/
theorem signField_or_base {imm : BitVec 16} (h : imm.toNat < 32) :
    signField (imm.getLsbD 4) ||| BitVec.ofNat 16 (imm.toNat % 16) = imm := by
  obtain ⟨n, hn, rfl⟩ : ∃ n < 32, imm = BitVec.ofNat 16 n := ⟨imm.toNat, h, by simp⟩
  revert n
  decide +kernel

theorem readAs_of_withSignAndBase {unit op : Nat} {imm : BitVec 16} {f : Bool → Nat → Instr} {i : Instr}
    (h : withSignAndBase imm f = .ok i)
    (hf : ∀ signed, ∀ l < 16, ReadAs unit op (signField signed ||| BitVec.ofNat 16 l) (f signed l)) :
    ReadAs unit op imm i := by
  unfold withSignAndBase at h
  split at h
  case isTrue hlt =>
    cases h
    have hread := hf (imm.getLsbD 4) (imm.toNat % 16) (Nat.mod_lt _ (by decide))
    rwa [signField_or_base hlt] at hread
  case isFalse => cases h

/-- Row by row of the table: the operations that have an immediate first (30_encoding R114), then the others. -/
theorem readAs_of_decodeOperation {unit op : Nat} {imm : BitVec 16} {i : Instr} (h : decodeOperation unit op imm = .ok i) :
    ReadAs unit op imm i := by
  unfold decodeOperation at h
  split at h
  case h_64 => cases h
  case h_3 | h_6 | h_12 | h_15 | h_20 | h_25 | h_29 =>
    exact readAs_of_withNumber h fun n hn => ⟨decide_eq_true hn, rfl, rfl, rfl⟩
  case h_48 | h_52 => exact readAs_of_withSign h fun _ => ⟨rfl, rfl, rfl, rfl⟩
  case h_56 | h_60 => exact readAs_of_withSignAndBase h fun _ l hl => ⟨decide_eq_true hl, rfl, rfl, rfl⟩
  all_goals exact readAs_of_withoutImm h ⟨rfl, rfl, rfl, rfl⟩

/-- Settles O2. The fields of the command's word are those that were read, and a word is its fields. -/
theorem encodeDecode : Obligations.EncodeDecode := by
  intro w i h
  have ⟨hrsv, _⟩ := legalWord_of_decode h
  unfold decode at h
  split at h
  case isFalse => cases h
  case isTrue =>
    obtain ⟨hwf, hunit, hop, himm⟩ := readAs_of_decodeOperation h
    refine ⟨hwf, BitVec.eq_of_toNat_eq ?_⟩
    rw [encode_toNat, hunit, hop, himm, unitField_toNat, opField_toNat, immField_toNat]
    omega

/-! ### The words that decode -/

theorem withoutImm_reads {imm : BitVec 16} (i : Instr) (h : imm.toNat &&& 0 = imm.toNat) :
    ∃ j, withoutImm imm i = .ok j := by
  have h0 : imm = 0 := BitVec.eq_of_toNat_eq (by simpa using h.symm)
  exact ⟨i, by rw [withoutImm, if_pos h0]⟩

theorem withNumber_reads {imm : BitVec 16} (bits : Nat) (f : Nat → Instr) (h : imm.toNat &&& (2 ^ bits - 1) = imm.toNat) :
    ∃ j, withNumber bits imm f = .ok j := by
  have hlt : imm.toNat < 2 ^ bits := by
    rw [Nat.and_two_pow_sub_one_eq_mod] at h
    exact Nat.mod_eq_iff_lt (by positivity) |>.1 h
  exact ⟨_, by rw [withNumber, if_pos hlt]⟩

theorem withSign_reads {imm : BitVec 16} (f : Bool → Instr) (h : imm.toNat &&& 0x10 = imm.toNat) :
    ∃ j, withSign imm f = .ok j := by
  have himm : imm = 0 ∨ imm = 16 := by
    have hbit : imm.toNat &&& 0x10 = (imm.toNat.testBit 4).toNat * 2 ^ 4 := Nat.and_two_pow _ 4
    rw [h] at hbit
    cases hb : imm.toNat.testBit 4
    · exact .inl (BitVec.eq_of_toNat_eq (by simpa [hb] using hbit))
    · exact .inr (BitVec.eq_of_toNat_eq (by simpa [hb] using hbit))
  rcases himm with rfl | rfl
  · exact ⟨f false, rfl⟩
  · exact ⟨f true, rfl⟩

theorem withSignAndBase_reads {imm : BitVec 16} (f : Bool → Nat → Instr) (h : imm.toNat &&& 0x1F = imm.toNat) :
    ∃ j, withSignAndBase imm f = .ok j := by
  have hlt : imm.toNat < 32 := by
    have hmod : imm.toNat &&& 0x1F = imm.toNat % 2 ^ 5 := Nat.and_two_pow_sub_one_eq_mod _ 5
    omega
  exact ⟨_, by rw [withSignAndBase, if_pos hlt]⟩

/-- Row by row of the table: each unit's operations in order, by the immediate each has (30_encoding R113, R114). -/
theorem decodeOperation_of_listed (unit : Nat) (imm : BitVec 16) :
    ∀ r ∈ operationsOf unit, imm.toNat &&& r.2 = imm.toNat → ∃ i, decodeOperation unit r.1 imm = .ok i := by
  unfold operationsOf
  split
  case h_16 => simp
  all_goals simp only [List.forall_mem_cons]
  case h_1 =>
    exact ⟨withoutImm_reads _, withoutImm_reads _, withNumber_reads 4 _, nofun⟩
  case h_2 =>
    exact ⟨withoutImm_reads _, withoutImm_reads _, withNumber_reads 7 _, withoutImm_reads _, withoutImm_reads _, withoutImm_reads _, nofun⟩
  case h_3 =>
    exact ⟨withoutImm_reads _, withoutImm_reads _, withNumber_reads 7 _, withoutImm_reads _, withoutImm_reads _, nofun⟩
  case h_4 | h_5 | h_7 =>
    exact ⟨withNumber_reads 4 _, withoutImm_reads _, withoutImm_reads _, withoutImm_reads _, withoutImm_reads _, nofun⟩
  case h_6 =>
    exact ⟨withNumber_reads 4 _, withoutImm_reads _, withoutImm_reads _, withoutImm_reads _, nofun⟩
  case h_8 | h_9 =>
    exact ⟨withoutImm_reads _, withoutImm_reads _, withoutImm_reads _, withoutImm_reads _, nofun⟩
  case h_10 | h_11 =>
    exact ⟨withoutImm_reads _, withoutImm_reads _, withoutImm_reads _, nofun⟩
  case h_12 | h_13 =>
    exact ⟨withSign_reads _, withoutImm_reads _, withoutImm_reads _, withoutImm_reads _, nofun⟩
  case h_14 | h_15 =>
    exact ⟨withSignAndBase_reads _, withoutImm_reads _, withoutImm_reads _, withoutImm_reads _, nofun⟩

/-- Settles O3. -/
theorem legalWordsDecode : Obligations.LegalWordsDecode := by
  intro w
  constructor
  · rintro ⟨i, h⟩
    exact legalWord_of_decode h
  · rintro ⟨hrsv, r, hr, hop, himm⟩
    rw [← unitField_toNat] at hr
    rw [← immField_toNat] at himm
    have hzero : rsvField w = 0 := BitVec.eq_of_toNat_eq (by rw [rsvField_toNat, hrsv]; rfl)
    obtain ⟨i, hi⟩ := decodeOperation_of_listed _ _ r hr himm
    exact ⟨i, by rw [decode, if_pos hzero, ← hi, hop, opField_toNat]⟩

end Sys2Proof
end

section
/-! SUPPORT. What one step is: the host's moves (20_memory R82 to R84), the command that a move runs (40_system R150), the stops, and
the two resets (70_reset_and_hazards R440). -/

namespace Sys2Proof.Machine

variable {s : State} {rest : List HostMove} {o : Nat}

/-! ### Running a word -/

theorem runWord_of_decode {w : Command} {i : Instr} (h : decode w = .ok i) (s : State) : runWord w s = exec i s := by
  rw [runWord, h]

/-- Every arm of `exec` is `command` on the command's own body. -/
theorem exec_eq_command (i : Instr) (s : State) : ∃ body, exec i s = command i body s := by
  cases i <;> exact ⟨_, rfl⟩

theorem exec_eq_next (i : Instr) (s : State) : ∃ t, exec i s = .next t := by
  obtain ⟨body, h⟩ := exec_eq_command i s
  exact ⟨_, h⟩

theorem runWord_eq_next (w : Command) (s : State) : ∃ t, runWord w s = .next t := by
  unfold runWord
  split
  · exact exec_eq_next _ s
  · exact ⟨_, rfl⟩

/-! ### The moves while no command waits -/

theorem step_nil (h : s.host = []) : step s = .next s := by
  have hin : intake s = .settled s := by simp only [intake, h]
  rw [step, hin]

theorem intake_move {m : HostMove} (hw : s.waiting = none) (h : s.host = m :: rest) :
    intake s = takeMove m { s with host := rest } := by
  simp only [intake, h, hw, if_true]

theorem step_answer {a : SourceAnswer} (hw : s.waiting = none) (h : s.host = .answer a :: rest) :
    step s = .next { s with host := rest, source := s.source ++ [a] } := by
  rw [step, intake_move hw h]
  rfl

theorem step_accept {n : Nat} (hw : s.waiting = none) (h : s.host = .accept n :: rest) :
    step s = .next { s with host := rest, sinkRoom := s.sinkRoom + n } := by
  rw [step, intake_move hw h]
  rfl

/-- A read returns what the window has at the offset; only `CMD`, at offset 0, draws a free value. -/
theorem step_read {v : Word64} (hw : s.waiting = none) (h : s.host = .read o :: rest) (hv : windowRead s o = some v) :
    step s = .next { s with
      host := rest, hostRead := v, freeCount := if o = 0 then s.freeCount + 1 else s.freeCount } := by
  have hv' : windowRead { s with host := rest } o = some v := hv
  rw [step, intake_move hw h, takeMove, hostReads, hv']

theorem step_read_none (hw : s.waiting = none) (h : s.host = .read o :: rest) (hv : windowRead s o = none) :
    step s = .fault .noSuchOffset := by
  have hv' : windowRead { s with host := rest } o = none := hv
  rw [step, intake_move hw h, takeMove, hostReads, hv']

theorem step_write {v : Word64} {t : State} (hw : s.waiting = none) (h : s.host = .write o v :: rest)
    (hv : hostWrites o v { s with host := rest } = .settled t) : step s = .next t := by
  rw [step, intake_move hw h, takeMove, hv]

theorem step_write_none {v : Word64} (hw : s.waiting = none) (h : s.host = .write o v :: rest)
    (hv : hostWrites o v { s with host := rest } = .noSuchOffset) : step s = .fault .noSuchOffset := by
  rw [step, intake_move hw h, takeMove, hv]

/-! ### The window, offset by offset -/

theorem windowRead_reserved (h : 0x30 ≤ o) (h' : o ≤ 0xFFFF) : windowRead s o = some 0 := by
  unfold windowRead dataWindow
  iterate 7 rw [if_neg (by omega)]
  rw [if_pos (by omega)]

theorem windowRead_data (h : 0x10000 ≤ o) (h' : o < 0x10000 + s.params.dataSize) :
    windowRead s o = some ((dataByte s (o - 0x10000)).setWidth 64) := by
  unfold windowRead dataWindow
  iterate 8 rw [if_neg (by omega)]
  rw [if_pos (by omega)]

theorem hostWrites_reserved (v : Word64) (s : State) (h : 0x30 ≤ o) (h' : o ≤ 0xFFFF) : hostWrites o v s = .settled s := by
  unfold hostWrites dataWindow
  iterate 7 rw [if_neg (by omega)]
  rw [if_pos (by omega)]

theorem hostWrites_data (v : Word64) (h : 0x10000 ≤ o) (h' : o < 0x10000 + s.params.dataSize) :
    hostWrites o v s = .settled { s with data := Memory.insert s.data (o - 0x10000) (v.setWidth 8) } := by
  unfold hostWrites dataWindow
  iterate 8 rw [if_neg (by omega)]
  rw [if_pos (by omega)]

/-- The offsets that the window lists, row by row of 20_memory R82. -/
theorem listedOffset_cases {p : Params} (h : ListedOffset p o) :
    o ∈ [0x00, 0x08, 0x10, 0x14, 0x18, 0x20, 0x28] ∨ (0x30 ≤ o ∧ o ≤ 0xFFFF) ∨ (0x10000 ≤ o ∧ o < 0x10000 + p.dataSize) := by
  rcases h with h | h | h
  · exact .inl h
  · exact .inr (.inl h)
  · exact .inr (.inr ⟨h.1, by omega⟩)

/-- The window returns a value at just the listed offsets. -/
theorem windowRead_eq_none : windowRead s o = none ↔ ¬ListedOffset s.params o := by
  constructor
  · intro h hl
    rcases listedOffset_cases hl with hl | ⟨h1, h2⟩ | ⟨h1, h2⟩
    · have : ∀ o ∈ [0x00, 0x08, 0x10, 0x14, 0x18, 0x20, 0x28], windowRead s o ≠ none := by
        simp only [List.forall_mem_cons]
        exact ⟨nofun, nofun, nofun, nofun, nofun, nofun, nofun, nofun⟩
      exact this o hl h
    · rw [windowRead_reserved h1 h2] at h
      cases h
    · rw [windowRead_data h1 h2] at h
      cases h
  · intro hl
    simp only [ListedOffset, List.mem_cons, List.not_mem_nil, or_false] at hl
    unfold windowRead dataWindow
    iterate 9 rw [if_neg (by omega)]

/-- The window takes a write at just the listed offsets. -/
theorem hostWrites_eq_noSuchOffset (v : Word64) :
    hostWrites o v s = .noSuchOffset ↔ ¬ListedOffset s.params o := by
  constructor
  · intro h hl
    rcases listedOffset_cases hl with hl | ⟨h1, h2⟩ | ⟨h1, h2⟩
    · have : ∀ o ∈ [0x00, 0x08, 0x10, 0x14, 0x18, 0x20, 0x28], hostWrites o v s ≠ .noSuchOffset := by
        simp only [List.forall_mem_cons]
        exact ⟨nofun, nofun, nofun, nofun, nofun, nofun, nofun, nofun⟩
      exact this o hl h
    · rw [hostWrites_reserved v s h1 h2] at h
      cases h
    · rw [hostWrites_data v h1 h2] at h
      cases h
  · intro hl
    simp only [ListedOffset, List.mem_cons, List.not_mem_nil, or_false] at hl
    unfold hostWrites dataWindow
    iterate 9 rw [if_neg (by omega)]

/-! ### The moves while a command waits -/

theorem intake_waiting {p : Port} {m : HostMove} (hw : s.waiting = some p) (h : s.host = m :: rest) :
    intake s = takeMoveWaiting m rest s := by
  simp only [intake, h, hw, reduceCtorEq, if_false]

theorem step_waiting_access {p : Port} {m : HostMove} (hw : s.waiting = some p) (h : s.host = m :: rest)
    (hm : (∃ o, m = .read o) ∨ ∃ o v, m = .write o v) : step s = .next s := by
  rw [step, intake_waiting hw h]
  rcases hm with ⟨o, rfl⟩ | ⟨o, v, rfl⟩ <;> rfl

theorem step_waiting_answer {p : Port} {a : SourceAnswer} (hw : s.waiting = some p) (h : s.host = .answer a :: rest) :
    step s = runWord s.cmd { s with host := rest, source := s.source ++ [a] } := by
  rw [step, intake_waiting hw h]
  rfl

theorem step_waiting_accept {p : Port} {n : Nat} (hw : s.waiting = some p) (h : s.host = .accept n :: rest) :
    step s = runWord s.cmd { s with host := rest, sinkRoom := s.sinkRoom + n } := by
  rw [step, intake_waiting hw h]
  rfl

/-! ### The statements -/

/-- Settles O5. -/
theorem stepRunsTheCommand : Obligations.StepRunsTheCommand := by
  refine ⟨?write, ?answer, ?accept, ?fetch⟩
  case write =>
    intro s v rest i hw h hi
    rw [step_write_cmd hw h, runWord_of_decode hi]
  case answer =>
    intro s p a rest i hw h hi
    rw [step_waiting_answer hw h, runWord_of_decode hi]
  case accept =>
    intro s p n rest i hw h hi
    rw [step_waiting_accept hw h, runWord_of_decode hi]
  case fetch =>
    intro s w i hlt hi
    have hword : (BitVec.setWidth 32 (BitVec.setWidth 64 (BitVec.ofNat 32 (w % 2 ^ 32)))) = BitVec.ofNat 32 w := by
      rw [BitVec.setWidth_setWidth_of_le _ (by decide), BitVec.setWidth_eq, Nat.mod_eq_of_lt hlt]
    have hstep := step_write_cmd (s := s.withFetchWord 32 w) rfl rfl
    rw [hword, runWord_of_decode hi] at hstep
    exact hstep

/-- Settles O7. -/
theorem hostMoves : Obligations.HostMoves := by
  refine ⟨fun _ => step_nil, fun _ _ _ _ => step_waiting_access, fun _ _ _ => step_answer, fun _ _ _ => step_accept,
    ?reads, ?writes⟩
  case reads =>
    intro s o rest hw h
    refine ⟨?_, ?_, ?_, ?_, ?_, ?_, fun h1 h2 => ?reserved, fun h1 h2 => ?data, ?command⟩
    case reserved => rw [step_read hw h (windowRead_reserved h1 h2), if_neg (by omega)]
    case data => rw [step_read hw h (windowRead_data h1 h2), if_neg (by omega)]
    case command =>
      rintro rfl
      exact ⟨_, step_read hw h rfl⟩
    all_goals
      rintro rfl
      exact step_read hw h rfl
  case writes =>
    intro s o v rest hw h
    refine ⟨?_, ?_, ?_, ?_, ?ignored, fun h1 h2 => step_write hw h (hostWrites_data v h1 h2)⟩
    case ignored =>
      rintro (rfl | rfl | ⟨h1, h2⟩)
      · exact step_write hw h rfl
      · exact step_write hw h rfl
      · exact step_write hw h (hostWrites_reserved v _ h1 h2)
    all_goals
      rintro rfl
      exact step_write hw h rfl

/-- A step that runs no word is a fault where the host's access is of an unlisted offset; one that runs a word never stops. -/
theorem step_eq_fault {f : Fault} (h : step s = .fault f) :
    s.waiting = none ∧ ∃ m rest o, s.host = m :: rest ∧ (m = .read o ∨ ∃ v, m = .write o v) ∧ ¬ListedOffset s.params o := by
  have hno : intake s = .noSuchOffset := by
    unfold step at h
    split at h
    case h_1 => cases h
    case h_2 w t _ =>
      obtain ⟨r, hr⟩ := runWord_eq_next w t
      rw [hr] at h
      cases h
    case h_3 hin => exact hin
  cases hhost : s.host with
  | nil => simp [intake, hhost] at hno
  | cons m rest =>
    cases hw : s.waiting with
    | some p =>
      rw [intake_waiting hw hhost] at hno
      cases m <;> cases hno
    | none =>
      rw [intake_move hw hhost] at hno
      refine ⟨rfl, ?_⟩
      cases m with
      | write o v => exact ⟨_, rest, o, rfl, .inr ⟨v, rfl⟩, (hostWrites_eq_noSuchOffset (s := { s with host := rest }) v).1 hno⟩
      | read o =>
        refine ⟨_, rest, o, rfl, .inl rfl, ?_⟩
        simp only [takeMove, hostReads] at hno
        split at hno
        case h_1 hv => exact windowRead_eq_none.1 hv
        case h_2 => cases hno
      | answer a => cases hno
      | accept n => cases hno
      | reset => cases hno

/-- Settles O8. -/
theorem stepStopsOnlyOnUnlistedOffset : Obligations.StepStopsOnlyOnUnlistedOffset := by
  refine ⟨fun s r h => ?refused, fun s => ⟨fun ⟨_, h⟩ => step_eq_fault h, ?fault⟩⟩
  case refused =>
    unfold step at h
    split at h
    case h_1 => cases h
    case h_2 w t _ =>
      obtain ⟨u, hu⟩ := runWord_eq_next w t
      rw [hu] at h
      cases h
    case h_3 => cases h
  case fault =>
    rintro ⟨hw, m, rest, o, hhost, rfl | ⟨v, rfl⟩, hl⟩
    · exact ⟨_, step_read_none hw hhost (windowRead_eq_none.2 hl)⟩
    · exact ⟨_, step_write_none hw hhost ((hostWrites_eq_noSuchOffset v).2 hl)⟩

/-- Settles O9. -/
theorem resetEffect : Obligations.ResetEffect := by
  refine ⟨fun _ _ => step_reset_move, fun s hs => ?_⟩
  have hfirst : statusFirst (resetAll s).status = 0 := by
    rw [resetAll_status]
    decide
  rw [exec_sysSreset_of_settled hs, complete, statusWord_eq_statusOf, hfirst]
  rfl

/-- Settles O58. Nothing is written, read or handed over yet, so each invariant is one of a fresh unit. -/
theorem resetMeetsTheInvariants : Obligations.ResetMeetsTheInvariants := by
  have hpred : PredictorLegal predictorFresh := by
    refine ⟨by decide, by decide, fun c hc => ?_⟩
    rw [predictorFresh_n0_get hc, predictorFresh_n1_get hc]
    decide
  have hinterval : IntervalLegal 0 0xFFFFFFFF := by decide
  have hrange : RangeLegal 0 (BitVec.ofNat 56 (2 ^ 56 - 1)) flatTable := by
    refine ⟨freqAt_flatTable (by decide), fun v hv => ?_, ?_, by decide, by decide, by decide⟩
    · rw [freqAt_flatTable (by omega), freqAt_flatTable (by omega)]
      omega
    · rw [freqAt_flatTable (by decide)]
      decide
  refine ⟨by decide, ⟨⟨hinterval, hpred⟩, ⟨hinterval, hpred⟩, ⟨hinterval, hpred⟩, ⟨hinterval, hpred⟩⟩,
    ⟨fun _ => hrange, fun _ => hrange⟩, ⟨Memory.wf_nil, nofun⟩, .inl ⟨rfl, fun _ => ⟨rfl, by decide, fun _ => by decide, ?_⟩⟩, ?_,
    ⟨rfl, rfl, rfl⟩⟩
  · exact List.nil_suffix
  · exact ⟨by decide, by decide, by decide, nofun, nofun, nofun, nofun, nofun, nofun, nofun, nofun, nofun, nofun⟩

end Sys2Proof.Machine
end

section
/-! SUPPORT. Commands to a unit that is not READY (40_system R155 to R157, 60_exceptions R404), and the reader's INIT, CLOSE and READ
(41_bitstream R195, R198, R199). -/

namespace Sys2Proof.Machine

variable {s : State} {i : Instr} {c : FaultCode} {u : CoderState}

/-! ### The state check of a coder's command -/

/-- The fault that a coder's state raises where it is not READY (40_system R155 to R157). -/
def StateFault (u : CoderState) (c : FaultCode) : Prop :=
  (u = .uninit ∧ c = .notInitialized) ∨ (u = .disposed ∧ c = .coderDisposed) ∨ (u = .failed ∧ c = .coderFailed)

theorem StateFault.ne_rangeDegenerate (h : StateFault u c) : c ≠ .rangeDegenerate := by
  rcases h with ⟨-, rfl⟩ | ⟨-, rfl⟩ | ⟨-, rfl⟩ <;> decide

theorem onReady_stateFault {α : Type} (h : StateFault u c) (body : M α) : onReady u body = raise c := by
  rcases h with ⟨rfl, rfl⟩ | ⟨rfl, rfl⟩ | ⟨rfl, rfl⟩ <;> rfl

theorem onArray_stateFault (h : StateFault u c) (body : Nat → Nat → M Word64) (s : State) :
    onArray u body s = .error (.fault c) { s with res := 0 } := by
  have helement : elementAt 0 (onReady u (pure ())) s = .error (.fault c) { s with res := 0 } := by
    rw [onReady_stateFault h]
    exact elementAt_fault 0 (raise_run c s)
  rw [onArray]
  exact bind_error helement _

theorem onDispose_stateFault (h : StateFault u c) (hd : u ≠ .disposed) (body : M Unit) : onDispose u body = raise c := by
  rcases h with ⟨rfl, rfl⟩ | ⟨rfl, rfl⟩ | ⟨rfl, rfl⟩
  · rfl
  · exact absurd rfl hd
  · rfl

/-- The three shapes of a coder's commands other than INIT. -/
theorem exec_coder (hu : 3 ≤ i.unit.toNat) (hop : i.op ≠ 0) (s : State) :
    ∃ u, unitState s i.unit.toNat = u.code ∧
      ((IsArray i ∧ ∃ body, exec i s = command i (onArray u body) s) ∨
        (i.op = 7 ∧ ∃ body, exec i s = command i (onDispose u body) s) ∨
          (¬IsArray i ∧ i.op ≠ 7 ∧ ∃ body, exec i s = command i (onReady u body) s)) := by
  cases i
  case beeInit | bedInit | fpeInit | fpdInit | rceInit | rcdInit | hfeInit | hfdInit | egeInit | egdInit | rgeInit |
      rgdInit => exact absurd rfl hop
  case beeEncode | bedDecode | fpeEncode | fpdDecode | rceEncode | rcdDecode | hfeEncode | hfdDecode | egeEncode | egdDecode |
      rgeEncode | rgdDecode => exact ⟨_, rfl, .inl ⟨rfl, _, rfl⟩⟩
  case beeDispose | bedDispose | fpeDispose | fpdDispose | rceDispose | rcdDispose | hfeDispose | hfdDispose | egeDispose |
      egdDispose | rgeDispose | rgdDispose => exact ⟨_, rfl, .inr (.inl ⟨rfl, _, rfl⟩)⟩
  case beeEncbit | beeEncbyte | bedDecbit | bedDecbyte | fpeEncbyte | fpdDecbit | fpdDecbyte | rceEncbyte | rcdDecbyte |
      egeEncbyte | egdDecbyte | rgeEncbyte | rgdDecbyte =>
    exact ⟨_, rfl, .inr (.inr ⟨by simp only [IsArray, Instr.op]; decide, by simp only [Instr.op]; decide, _, rfl⟩)⟩
  all_goals exact absurd hu (by simp only [Instr.unit]; decide)

theorem CoderState.code_inj {u v : CoderState} (h : u.code = v.code) : u = v := by
  revert h
  cases u <;> cases v <;> decide

/-- A coder's command other than INIT faults on its unit's state, with `RES` 0 where it is an array command, but for a DISPOSE of a
DISPOSED coder. -/
theorem exec_stateFault (hs : Settled s) (hu : 3 ≤ i.unit.toNat) (hop : i.op ≠ 0) (hstate : unitState s i.unit.toNat = u.code)
    (h : StateFault u c) (hd : i.op = 7 → u ≠ .disposed) :
    exec i s = .next (raiseFault i.unit i.op c { s with res := if IsArray i then 0 else s.res }) := by
  obtain ⟨v, hv, hbody⟩ := exec_coder hu hop s
  obtain rfl : u = v := CoderState.code_inj (hstate.symm.trans hv)
  have hc := h.ne_rangeDegenerate
  rcases hbody with ⟨ha, body, hexec⟩ | ⟨h7, body, hexec⟩ | ⟨ha, -, body, hexec⟩
  · rw [hexec, if_pos ha]
    exact command_fault hs hc (onArray_stateFault h body s)
  · have ha : ¬IsArray i := by
      rw [IsArray, h7]
      decide
    rw [hexec, if_neg ha, onDispose_stateFault h (hd h7)]
    exact command_fault hs hc (raise_run c s)
  · rw [hexec, if_neg ha, onReady_stateFault h]
    exact command_fault hs hc (raise_run c s)

/-! ### The streams -/

theorem StreamState.code_eq_zero {u : StreamState} : u.code = 0 ↔ u = .uninit := by
  cases u <;> decide

/-- A stream's command other than INIT to an UNINIT stream. -/
theorem exec_stream_uninit (hs : Settled s) (hu : i.unit = 1 ∨ i.unit = 2) (hop : i.op ≠ 0)
    (hstate : unitState s i.unit.toNat = 0) : exec i s = .next (raiseFault i.unit i.op .notInitialized s) := by
  cases i
  case bswWrbit => exact exec_bswWrbit_writerFault hs (.inl ⟨StreamState.code_eq_zero.1 hstate, rfl⟩)
  case bswWrbits n => exact exec_bswWrbits_writerFault hs n (.inl ⟨StreamState.code_eq_zero.1 hstate, rfl⟩)
  case bsrRdbit => exact exec_bsrRdbit_readerFault hs (.inl ⟨StreamState.code_eq_zero.1 hstate, rfl⟩)
  case bsrRdbits n => exact exec_bsrRdbits_readerFault hs n (.inl ⟨StreamState.code_eq_zero.1 hstate, rfl⟩)
  case bswFlush | bswClose | bswWritten | bsrClose | bsrRead =>
    exact command_onStream_uninit hs (StreamState.code_eq_zero.1 hstate)
  case bswInit | bsrInit => exact absurd rfl hop
  all_goals exact absurd hu (by simp only [Instr.unit]; decide)

/-! ### The statements -/

/-- Settles O14. -/
theorem uninitializedUnit : Obligations.UninitializedUnit := by
  intro i s hs hu hop hstate
  by_cases h3 : 3 ≤ i.unit.toNat
  · exact exec_stateFault hs h3 hop (u := .uninit) hstate (.inl ⟨rfl, rfl⟩) (by simp)
  · have hstream : i.unit = 1 ∨ i.unit = 2 := by bv_omega
    have ha : ¬IsArray i := by
      cases i
      case bswWrbit | bswWrbits | bswFlush | bswClose | bswWritten | bsrRdbit | bsrRdbits | bsrClose | bsrRead =>
        simp only [IsArray, Instr.op]
        decide
      case bswInit | bsrInit => exact absurd rfl hop
      all_goals exact absurd hstream (by simp only [Instr.unit]; decide)
    rw [if_neg ha]
    exact exec_stream_uninit hs hstream hop hstate

/-- Settles O15. -/
theorem disposedCoder : Obligations.DisposedCoder := by
  intro i s hs hu hop hstate
  refine ⟨fun h7 => ?dispose, fun h7 =>
    exec_stateFault hs hu hop (u := .disposed) hstate (.inr (.inl ⟨rfl, rfl⟩)) fun h => absurd h h7⟩
  case dispose =>
    obtain ⟨u, hu, hbody⟩ := exec_coder hu hop s
    obtain rfl : CoderState.disposed = u := CoderState.code_inj (hstate.symm.trans hu)
    rcases hbody with ⟨ha, -⟩ | ⟨-, body, hexec⟩ | ⟨-, hne, -⟩
    · exact absurd (ha.symm.trans h7) (by decide)
    · rw [hexec]
      exact command_ok hs (pure_run 0 s)
    · exact absurd h7 hne

/-- Settles O16. -/
theorem failedCoder : Obligations.FailedCoder := by
  intro i s hs hu hop hstate
  exact exec_stateFault hs hu hop (u := .failed) hstate (.inr (.inr ⟨rfl, rfl⟩)) (by simp)

/-- Settles O25. -/
theorem readerInitCloseAndCount : Obligations.ReaderInitCloseAndCount := by
  intro s hs
  refine ⟨command_init hs fun t => { t with bsr := readerFresh .opened }, fun hu => ⟨?close, ?read⟩,
    fun hu => ⟨command_onStream_uninit hs hu, command_onStream_uninit hs hu⟩⟩
  case close => exact command_onStream_ok hs hu (bind_ok (update_run _ s) _)
  case read => exact command_onStream_ok hs hu (pure_run s.bsr.read s)

end Sys2Proof.Machine
end

section
/-! SUPPORT. The bits of the writer's output (41_bitstream R183, R188), and the fields that a reader of it gets back (R201). -/

namespace Sys2Proof.Machine

/-! ### Bytes made of bits -/

theorem byteBits_outByte (w : List Bool) (k : Nat) :
    byteBits (outByte w k) = (List.range 8).map fun j => w.getD (8 * k + j) false := by
  have hbits := bitsOf_bitsValue ((List.range 8).map fun j => w.getD (8 * k + j) false)
  rw [List.length_map, List.length_range] at hbits
  rw [byteBits, outByte, BitVec.toNat_ofNat, bitsOf_mod, hbits]

theorem getLsbD_outByte (w : List Bool) {k j : Nat} (h : j < 8) :
    (outByte w k).getLsbD (7 - j) = w.getD (8 * k + j) false := by
  have hbit := getElem?_byteBits (outByte w k) j
  rw [byteBits_outByte, if_pos h] at hbit
  simpa [h] using hbit.symm

/-- The bits of the output are the writer's bits, and zeros where it has none. -/
theorem bytesBits_outBytes (w : List Bool) (n : Nat) :
    bytesBits (outBytes w 0 n) = (List.range (8 * n)).map fun j => w.getD j false := by
  induction n with
  | zero => rfl
  | succ n ih =>
    have hlast : outBytes w n 1 = [outByte w n] := rfl
    rw [outBytes_add, bytesBits_append, ih, Nat.zero_add, hlast, bytesBits_cons, byteBits_outByte, bytesBits_nil,
      List.append_nil, Nat.mul_add, List.range_add, List.map_append, List.map_map]
    rfl

theorem prefix_bytesBits_outBytes (w : List Bool) {n : Nat} (h : w.length ≤ 8 * n) : w <+: bytesBits (outBytes w 0 n) := by
  rw [bytesBits_outBytes, List.prefix_iff_getElem?]
  intro i hi
  simp [show i < 8 * n by omega, hi]

/-! ### The writer's output -/

theorem length_writerOutput_closed {b : Writer} (h : b.closed = true) :
    (writerOutput b).length = (b.bits.length + 7) / 8 + padLength ((b.bits.length + 7) / 8) := by
  simp [writerOutput, h]

theorem bits_prefix_writerOutput (b : Writer) : b.bits <+: bytesBits (writerOutput b) := by
  rw [writerOutput, bytesBits_append]
  exact (prefix_bytesBits_outBytes b.bits (by omega)).trans (List.prefix_append _ _)

/-- Settles O23. -/
theorem outputBytes : Obligations.OutputBytes := by
  refine ⟨fun w a n k h => ?byte, fun w k j => getLsbD_outByte w, fun b h => ?opened, fun b h => ⟨?multiple, ?short, ?padding⟩,
    bits_prefix_writerOutput⟩
  case byte => simp [outBytes, h]
  case opened => simp [writerOutput, h]
  case multiple =>
    rw [length_writerOutput_closed h, padLength]
    omega
  case short =>
    rw [length_writerOutput_closed h, padLength]
    omega
  case padding =>
    intro x hx
    rw [writerOutput, List.drop_left' (length_outBytes _ _ _), if_pos h] at hx
    exact List.eq_of_mem_replicate hx

/-- Settles O28. The field stands in the output where it stands in the writer's bits, so it is what the reader gives next. -/
theorem fieldsComeBack : Obligations.FieldsComeBack := by
  intro s b v n before behind hs hopen h1 h64 _ hbits hincoming hread hfit
  have hnext : bitsOf v n <+: unread s := by
    obtain ⟨rest, hrest⟩ := bits_prefix_writerOutput b
    rw [unread, hincoming, hread, ← hrest, hbits, List.append_assoc, List.append_assoc, List.drop_left]
    exact List.prefix_append _ _
  have hcan : CanRead s (bitsOf v n) := .inr ⟨hopen, by rwa [hread, length_bitsOf], hnext⟩
  have hexec := exec_bsrRdbits_ok hs (w := bitsOf v n) (by rwa [length_bitsOf]) (by rwa [length_bitsOf]) hcan
  rwa [length_bitsOf, bitsValue_bitsOf] at hexec

end Sys2Proof.Machine
end

section
/-! SUPPORT. The bounds of the probability and of the split point (42_binary_coder R225, R227). -/

namespace Sys2Proof.Machine

/-- 42_binary_coder R225: both counters are at most 2000, so neither end of the scale is reached. -/
theorem PredictorLegal.probability_bounds {p : Predictor} (h : PredictorLegal p) : 2 ≤ p.probability ∧ p.probability ≤ 4093 := by
  have hctx := h.ctx_lt
  obtain ⟨-, -, hcounters⟩ := h
  obtain ⟨hn0, hn1⟩ := hcounters _ hctx
  rw [Predictor.probability]
  constructor
  · rw [Nat.le_div_iff_mul_le (by omega)]
    omega
  · rw [← Nat.lt_succ_iff, Nat.div_lt_iff_lt_mul (by omega)]
    omega

/-- 42_binary_coder R227: less than the whole width is added, so nothing wraps. -/
theorem splitPoint_bounds {low high : BitVec 32} {p : Nat} (h : low.toNat < high.toNat) (hp : p ≤ 4095) :
    (splitPoint low high p).toNat = low.toNat + (high.toNat - low.toNat) / 2 ^ 12 * p ∧
      low.toNat ≤ (splitPoint low high p).toNat ∧ (splitPoint low high p).toNat < high.toNat := by
  have hpart : (high.toNat - low.toNat) / 2 ^ 12 * p < high.toNat - low.toNat := by
    have hmul : (high.toNat - low.toNat) / 2 ^ 12 * p ≤ (high.toNat - low.toNat) / 2 ^ 12 * 4095 := Nat.mul_le_mul_left _ hp
    omega
  have hwidth : (high - low).toNat = high.toNat - low.toNat := BitVec.toNat_sub_of_le (by rw [BitVec.le_def]; omega)
  have hpoint : (splitPoint low high p).toNat = low.toNat + (high.toNat - low.toNat) / 2 ^ 12 * p := by
    have hhigh := high.isLt
    rw [splitPoint, BitVec.toNat_add, BitVec.toNat_mul, BitVec.toNat_ushiftRight, hwidth, BitVec.toNat_ofNat,
      Nat.shiftRight_eq_div_pow, Nat.mod_eq_of_lt (a := p) (by omega),
      Nat.mod_eq_of_lt (a := (high.toNat - low.toNat) / 2 ^ 12 * p) (by omega), Nat.mod_eq_of_lt (by omega)]
  omega

/-- Settles O33. -/
theorem splitPointInside : Obligations.SplitPointInside :=
  ⟨fun _ => PredictorLegal.probability_bounds, fun _ _ _ => splitPoint_bounds⟩

end Sys2Proof.Machine
end

section
/-! SUPPORT. Golomb codes back to bytes (46_golomb R362, R380): what a code's bits begin with fixes its magnitude and sign. -/

namespace Sys2Proof.Machine

variable {signed neg neg' : Bool} {m m' k : Nat} {rest rest' : List Bool}

/-- In signed mode a byte is its magnitude with its sign; the sign is negative only where the magnitude is not 0. -/
theorem golombByte_magnitude (signed : Bool) (v : Byte) : golombByte signed (magnitude signed v) (isNegative signed v) = v := by
  cases signed with
  | false => simp [golombByte, magnitude]
  | true =>
    cases hneg : v.msb with
    | false =>
      have hv : v.toInt = v.toNat := BitVec.toInt_eq_toNat_of_msb hneg
      simp [golombByte, magnitude, isNegative, hneg, hv]
    | true =>
      have hlt : v.toInt < 0 := BitVec.msb_eq_toInt ▸ hneg |> of_decide_eq_true
      have habs : -(v.toInt.natAbs : Int) = v.toInt := by omega
      rw [golombByte, magnitude, isNegative, if_pos rfl, if_pos ⟨rfl, by omega, by simp [hneg]⟩, habs, BitVec.ofInt_toInt]

/-- A unary number delimits itself. -/
theorem unary_inj {a b : Nat} (h : List.replicate a false ++ true :: rest = List.replicate b false ++ true :: rest') :
    a = b ∧ rest = rest' := by
  induction a generalizing b with
  | zero =>
    cases b with
    | zero => exact ⟨rfl, by simpa using h⟩
    | succ b => simp [List.replicate_succ] at h
  | succ a ih =>
    cases b with
    | zero => simp [List.replicate_succ] at h
    | succ b =>
      obtain ⟨rfl, hrest⟩ := ih (b := b) (by simpa [List.replicate_succ] using h)
      exact ⟨rfl, hrest⟩

/-- A field of a known width delimits itself. -/
theorem bitsOf_append_inj {n : Nat} (h : bitsOf m n ++ rest = bitsOf m' n ++ rest') :
    m % 2 ^ n = m' % 2 ^ n ∧ rest = rest' := by
  obtain ⟨hbits, hrest⟩ := List.append_inj h (by rw [length_bitsOf, length_bitsOf])
  exact ⟨by rw [← bitsValue_bitsOf, hbits, bitsValue_bitsOf], hrest⟩

/-- The sign bit is there where the byte depends on it. -/
theorem signBits_append_inj (h : signBits signed m neg ++ rest = signBits signed m neg' ++ rest') :
    golombByte signed m neg = golombByte signed m neg' ∧ rest = rest' := by
  by_cases hsign : signed = true ∧ m ≠ 0
  · simp only [signBits, if_pos hsign, List.cons_append, List.nil_append, List.cons.injEq] at h
    obtain ⟨rfl, hrest⟩ := h
    exact ⟨rfl, hrest⟩
  · simp only [signBits, if_neg hsign, List.nil_append] at h
    have hbyte : ∀ b, golombByte signed m b = BitVec.ofNat 8 m := fun b => if_neg fun hb => hsign ⟨hb.1, hb.2.1⟩
    exact ⟨by rw [hbyte, hbyte], h⟩

/-- A number is its leading one and the bits behind it. -/
theorem eq_of_log2_eq_of_mod (hlog : Nat.log2 (m + 1) = Nat.log2 (m' + 1))
    (hmod : (m + 1) % 2 ^ Nat.log2 (m + 1) = (m' + 1) % 2 ^ Nat.log2 (m + 1)) : m = m' := by
  have lead : ∀ x : Nat, x ≠ 0 → x = 2 ^ Nat.log2 x + x % 2 ^ Nat.log2 x := by
    intro x hx
    have hle := Nat.log2_self_le hx
    have hlt : x < 2 ^ Nat.log2 x * 2 := by
      rw [← pow_succ]
      exact Nat.lt_log2_self
    rw [Nat.mod_eq_sub_mod hle, Nat.mod_eq_of_lt (by omega)]
    omega
  have h1 := lead (m + 1) (by omega)
  have h2 := lead (m' + 1) (by omega)
  rw [← hlog] at h2
  omega

theorem expGolombBits_append_inj (h : expGolombBits signed m neg ++ rest = expGolombBits signed m' neg' ++ rest') :
    golombByte signed m neg = golombByte signed m' neg' ∧ rest = rest' := by
  simp only [expGolombBits, bitsOf_leading, List.append_assoc, List.cons_append] at h
  obtain ⟨hlog, h⟩ := unary_inj h
  rw [← hlog] at h
  obtain ⟨hmod, h⟩ := bitsOf_append_inj h
  obtain rfl := eq_of_log2_eq_of_mod hlog hmod
  exact signBits_append_inj h

theorem riceBits_append_inj (h : riceBits signed k m neg ++ rest = riceBits signed k m' neg' ++ rest') :
    golombByte signed m neg = golombByte signed m' neg' ∧ rest = rest' := by
  simp only [riceBits, List.append_assoc, List.cons_append] at h
  obtain ⟨hdiv, h⟩ := unary_inj h
  obtain ⟨hmod, h⟩ := bitsOf_append_inj h
  rw [Nat.mod_mod, Nat.mod_mod] at hmod
  obtain rfl : m = m' := by rw [← Nat.div_add_mod m (2 ^ k), hdiv, hmod, Nat.div_add_mod]
  exact signBits_append_inj h

/-- Settles O53. -/
theorem golombCodesComeBack : Obligations.GolombCodesComeBack :=
  ⟨golombByte_magnitude, fun _ _ _ _ _ _ _ => expGolombBits_append_inj, fun _ _ _ _ _ _ _ _ => riceBits_append_inj⟩

end Sys2Proof.Machine
end

section
/-! SUPPORT. The interval of the binary coder (42_binary_coder R227 to R229): a renormalization always ends, and leaves a legal
interval that holds what the bytes behind it say. -/

namespace Sys2Proof.Machine

/-! ### The bytes at the head of a stream, as a number -/

/-- The first `n` bytes of a stream as a number, most significant first (20_memory R87). -/
def leading (n : Nat) (bs : List Byte) : Nat := bitsValue (bytesBits (bs.take n))

theorem leading_lt (n : Nat) (bs : List Byte) : leading n bs < 2 ^ (8 * n) := by
  have hlt := bitsValue_lt (bytesBits (bs.take n))
  have hlen : (bs.take n).length ≤ n := List.length_take_le n bs
  calc leading n bs < 2 ^ (bytesBits (bs.take n)).length := hlt
    _ ≤ 2 ^ (8 * n) := Nat.pow_le_pow_right (by decide) (by rw [length_bytesBits]; omega)

theorem leading_succ_cons {n : Nat} (b : Byte) {bs : List Byte} (h : n ≤ bs.length) :
    leading (n + 1) (b :: bs) = b.toNat * 256 ^ n + leading n bs := by
  have hlen : (bs.take n).length = n := List.length_take_of_le h
  rw [leading, List.take_succ_cons, bytesBits_cons, bitsValue_append, bitsValue_byteBits, length_bytesBits, hlen, pow_mul]
  rfl

theorem leading_append_byte {n : Nat} {bs : List Byte} (hn : bs.length = n) (b : Byte) (rest : List Byte) :
    leading (n + 1) (bs ++ b :: rest) = leading n (bs ++ b :: rest) * 256 + b.toNat := by
  subst hn
  have hlast : (bs ++ b :: rest).take (bs.length + 1) = bs ++ [b] := by simp [List.take_append]
  rw [leading, leading, hlast, List.take_left' rfl, bytesBits_append, bitsValue_append]
  simp [bitsValue_byteBits]

theorem leading_registerBytes (v : BitVec 32) (rest : List Byte) : leading 4 (registerBytes v ++ rest) = v.toNat := by
  have htake : (registerBytes v ++ rest).take 4 = registerBytes v := List.take_left' rfl
  rw [leading, htake, bytesBits_registerBytes, bitsValue_bitsOf, Nat.mod_eq_of_lt v.isLt]

/-- A byte shifted into a register (42_binary_coder R238, 44_range_coder R296). -/
theorem toNat_shiftIn {n : Nat} (hn : 8 ≤ n) (v : BitVec n) (b : Byte) :
    ((v <<< 8) ||| b.setWidth n).toNat = v.toNat * 2 ^ 8 % 2 ^ n + b.toNat := by
  have hb : b.toNat % 2 ^ n = b.toNat := Nat.mod_eq_of_lt (b.isLt.trans_le (Nat.pow_le_pow_right (by decide) hn))
  have hsplit : v.toNat * 2 ^ 8 % 2 ^ n = 2 ^ 8 * (v.toNat % 2 ^ (n - 8)) := by
    have hpow : 2 ^ n = 2 ^ 8 * 2 ^ (n - 8) := by rw [← pow_add, Nat.add_sub_cancel' hn]
    rw [hpow, Nat.mul_comm, Nat.mul_mod_mul_left]
  rw [BitVec.toNat_or, BitVec.toNat_shiftLeft, BitVec.toNat_setWidth, hb, Nat.shiftLeft_eq, hsplit,
    ← Nat.two_pow_add_eq_or_of_lt b.isLt, ← hsplit]

/-! ### The top bytes -/

theorem and_top_eq_zero (v : BitVec 32) : v &&& 0xFF000000 = 0 ↔ v.toNat / 2 ^ 24 = 0 := by
  have hmask : ∀ i < 32, (0xFF000000 : BitVec 32).getLsbD i = decide (24 ≤ i) := by decide
  have hshift : v &&& (0xFF000000 : BitVec 32) = (v >>> 24) <<< 24 := by
    apply BitVec.eq_of_getLsbD_eq
    intro i hi
    rw [BitVec.getLsbD_and, hmask i hi, BitVec.getLsbD_shiftLeft, BitVec.getLsbD_ushiftRight]
    by_cases h24 : 24 ≤ i
    · simp [h24, hi, show ¬i < 24 by omega]
    · simp [h24, show i < 24 by omega]
  have hv := v.isLt
  rw [hshift, ← BitVec.toNat_inj, BitVec.toNat_shiftLeft, BitVec.toNat_ushiftRight, Nat.shiftRight_eq_div_pow, Nat.shiftLeft_eq]
  simp only [BitVec.ofNat_eq_ofNat, BitVec.toNat_ofNat]
  omega

/-- The test of the loop (42_binary_coder R228), on numbers. -/
theorem top_eq_iff (low high : BitVec 32) :
    (low ^^^ high) &&& 0xFF000000 = 0 ↔ low.toNat / 2 ^ 24 = high.toNat / 2 ^ 24 := by
  have hxor : (low ^^^ high).toNat / 2 ^ 24 = low.toNat / 2 ^ 24 ^^^ high.toNat / 2 ^ 24 := by
    rw [BitVec.toNat_xor, ← Nat.shiftRight_eq_div_pow, Nat.shiftRight_xor_distrib, Nat.shiftRight_eq_div_pow,
      Nat.shiftRight_eq_div_pow]
  rw [and_top_eq_zero, hxor, Nat.xor_eq_zero_iff]

theorem toNat_shiftLow (low : BitVec 32) : (low <<< 8).toNat = low.toNat % 2 ^ 24 * 256 := by
  rw [BitVec.toNat_shiftLeft, Nat.shiftLeft_eq]
  omega

theorem toNat_shiftHigh (high : BitVec 32) : ((high <<< 8) ||| 0xFF).toNat = high.toNat % 2 ^ 24 * 256 + 255 := by
  have h := toNat_shiftIn (n := 32) (by decide) high 0xFF
  have hff : (0xFF : Byte).toNat = 255 := rfl
  rw [hff] at h
  rw [show (0xFF : BitVec 32) = (0xFF : Byte).setWidth 32 from rfl, h]
  omega

theorem toNat_topByte (high : BitVec 32) : ((high >>> 24).setWidth 8 : Byte).toNat = high.toNat / 2 ^ 24 := by
  have hhigh := high.isLt
  rw [BitVec.toNat_setWidth, BitVec.toNat_ushiftRight, Nat.shiftRight_eq_div_pow]
  omega

/-! ### The renormalization loop -/

/-- The loop ends after at most as many shifts as bring the top bytes apart. -/
theorem Settles.exists_of_fuel (n : Nat) (low high : BitVec 32)
    (h : (shiftLow low n ^^^ shiftHigh high n) &&& 0xFF000000 ≠ 0) : ∃ out low' high', Settles low high out low' high' := by
  induction n generalizing low high with
  | zero => exact ⟨_, _, _, .done low high h⟩
  | succ n ih =>
    by_cases htop : (low ^^^ high) &&& 0xFF000000 = 0
    · obtain ⟨out, low', high', hrest⟩ := ih _ _ h
      exact ⟨_, _, _, .shift low high out low' high' htop hrest⟩
    · exact ⟨_, _, _, .done low high htop⟩

theorem Settles.exists (low high : BitVec 32) : ∃ out low' high', Settles low high out low' high' :=
  Settles.exists_of_fuel 4 low high (four_shifts low high)

variable {low high low' high' : BitVec 32} {out rest : List Byte}

/-- The interval that is left is legal (10_state R41). -/
theorem Settles.intervalLegal (h : Settles low high out low' high') (hle : low.toNat ≤ high.toNat) :
    IntervalLegal low' high' := by
  induction h with
  | done low high h =>
    have hne : low.toNat / 2 ^ 24 ≠ high.toNat / 2 ^ 24 := fun he => h ((top_eq_iff low high).2 he)
    exact ⟨by omega, h⟩
  | shift low high out low' high' htop _ ih =>
    refine ih ?_
    rw [top_eq_iff] at htop
    rw [toNat_shiftLow, toNat_shiftHigh]
    omega

/-- What stands in the interval that is left stands, behind the bytes that left it, in the interval before. -/
theorem Settles.leading_mem (h : Settles low high out low' high') (hlen : 4 ≤ rest.length)
    (hlow : low'.toNat ≤ leading 4 rest) (hhigh : leading 4 rest ≤ high'.toNat) :
    low.toNat ≤ leading 4 (out ++ rest) ∧ leading 4 (out ++ rest) ≤ high.toNat := by
  induction h with
  | done => exact ⟨hlow, hhigh⟩
  | shift low high out low' high' htop _ ih =>
    obtain ⟨hl, hh⟩ := ih hlow hhigh
    rw [top_eq_iff] at htop
    rw [toNat_shiftLow] at hl
    rw [toNat_shiftHigh] at hh
    have hcons : leading 4 ((high >>> 24).setWidth 8 :: (out ++ rest)) =
        high.toNat / 2 ^ 24 * 256 ^ 3 + leading 3 (out ++ rest) := by
      rw [leading_succ_cons _ (by rw [List.length_append]; omega), toNat_topByte]
    have hnext : ∃ x < 256, leading 4 (out ++ rest) = leading 3 (out ++ rest) * 256 + x := by
      match hX : out ++ rest, (show 4 ≤ (out ++ rest).length by rw [List.length_append]; omega) with
      | b3 :: b2 :: b1 :: b0 :: tail, _ => exact ⟨b0.toNat, b0.isLt, leading_append_byte (bs := [b3, b2, b1]) rfl b0 tail⟩
    obtain ⟨x, hx, hnext⟩ := hnext
    rw [List.cons_append, hcons]
    omega

/-- The decoder's loop follows the encoder's, its register the next four bytes (42_binary_coder R238, R242). -/
theorem Settles.refills (h : Settles low high out low' high') (hlen : 4 ≤ rest.length) :
    Refills low high (BitVec.ofNat 32 (leading 4 (out ++ rest))) (((out ++ rest).drop 4).take out.length) low' high'
      (BitVec.ofNat 32 (leading 4 rest)) := by
  induction h with
  | done low high h => exact .done _ _ _ h
  | shift low high out low' high' htop _ ih =>
    match hX : out ++ rest, (show 4 ≤ (out ++ rest).length by rw [List.length_append]; omega) with
    | b3 :: b2 :: b1 :: b0 :: tail, _ =>
      rw [hX] at ih
      have hshift : (BitVec.ofNat 32 (leading 4 ((high >>> 24).setWidth 8 :: b3 :: b2 :: b1 :: b0 :: tail)) <<< 8) |||
          b0.setWidth 32 = BitVec.ofNat 32 (leading 4 (b3 :: b2 :: b1 :: b0 :: tail)) := by
        have hthree : leading 3 (b3 :: b2 :: b1 :: b0 :: tail) < 2 ^ 24 := leading_lt 3 _
        have hlast : leading 4 (b3 :: b2 :: b1 :: b0 :: tail) = leading 3 (b3 :: b2 :: b1 :: b0 :: tail) * 256 + b0.toNat :=
          leading_append_byte (bs := [b3, b2, b1]) rfl b0 tail
        have hb0 := b0.isLt
        apply BitVec.eq_of_toNat_eq
        rw [toNat_shiftIn (by decide), BitVec.toNat_ofNat, BitVec.toNat_ofNat, leading_succ_cons _ (by simp)]
        omega
      rw [List.cons_append, hX]
      exact .shift low high _ b0 _ low' high' _ htop (hshift ▸ ih)

end Sys2Proof.Machine
end

section
/-! SUPPORT. The binary coder's round trip (42_binary_coder R242, R243). -/

namespace Sys2Proof.Machine

variable {e e' : BinaryEncoder} {bits : List Bool} {out : List Byte}

/-- No predictor's probability reaches the end of the scale, legal or not: its counter of zeros counts at least one. -/
theorem Predictor.probability_le (p : Predictor) : p.probability ≤ 4095 := by
  rw [Predictor.probability, ← Nat.lt_succ_iff, Nat.div_lt_iff_lt_mul (by omega)]
  omega

/-- The interval that a bit selects (42_binary_coder R229) is not empty, and lies inside. -/
theorem stepInterval_le {low high : BitVec 32} (h : low.toNat < high.toNat) {p : Nat} (hp : p ≤ 4095) (bit : Bool) :
    (stepLow low (splitPoint low high p) bit).toNat ≤ (stepHigh high (splitPoint low high p) bit).toNat := by
  obtain ⟨-, hle, hlt⟩ := splitPoint_bounds h hp
  have hhigh := high.isLt
  cases bit with
  | true => simpa [stepLow, stepHigh] using hle
  | false =>
    simp only [stepLow, stepHigh, Bool.false_eq_true, if_false]
    rw [BitVec.toNat_add_of_lt (by simp; omega)]
    simpa using hlt

theorem toNat_splitPoint_succ {low high : BitVec 32} (h : low.toNat < high.toNat) {p : Nat} (hp : p ≤ 4095) :
    (splitPoint low high p + 1).toNat = (splitPoint low high p).toNat + 1 := by
  obtain ⟨-, -, hlt⟩ := splitPoint_bounds h hp
  have hhigh := high.isLt
  exact BitVec.toNat_add_of_lt (by simp; omega)

/-- The encoder's steps leave a legal interval (10_state R41), and what they write stands in the interval they began with. -/
theorem CodedBits.interval (h : CodedBits e bits out e') (hlt : e.low.toNat < e.high.toNat) :
    e'.low.toNat < e'.high.toNat ∧ e.low.toNat ≤ leading 4 (out ++ registerBytes e'.low) ∧
      leading 4 (out ++ registerBytes e'.low) ≤ e.high.toNat := by
  induction h with
  | nil e =>
    have hself : leading 4 ([] ++ registerBytes e.low) = e.low.toNat := by
      simpa using leading_registerBytes e.low []
    exact ⟨hlt, by rw [hself], by rw [hself]; exact hlt.le⟩
  | zero e e' bits out out' low high hs _ ih =>
    have hp := e.pred.probability_le
    obtain ⟨-, hsplit, -⟩ := splitPoint_bounds hlt hp
    have hnext := hs.intervalLegal (stepInterval_le hlt hp false)
    obtain ⟨hend, hl, hh⟩ := ih hnext.1
    obtain ⟨hlo, hhi⟩ := hs.leading_mem (by simp [registerBytes]) hl hh
    rw [toNat_splitPoint_succ hlt hp] at hlo
    rw [List.append_assoc]
    exact ⟨hend, by omega, hhi⟩
  | one e e' bits out out' low high hs _ ih =>
    have hp := e.pred.probability_le
    obtain ⟨-, -, hsplit⟩ := splitPoint_bounds hlt hp
    have hnext := hs.intervalLegal (stepInterval_le hlt hp true)
    obtain ⟨hend, hl, hh⟩ := ih hnext.1
    obtain ⟨hlo, hhi⟩ := hs.leading_mem (by simp [registerBytes]) hl hh
    rw [List.append_assoc]
    exact ⟨hend, hlo, by omega⟩

/-- The bytes behind the register, as a step uses them and leaves the others. -/
theorem drop_append_split (n : Nat) (as bs : List Byte) :
    (as ++ bs).drop n = ((as ++ bs).drop n).take as.length ++ bs.drop n := by
  have hdrop : ((as ++ bs).drop n).drop as.length = bs.drop n := by
    rw [List.drop_drop, Nat.add_comm, ← List.drop_drop, List.drop_left]
  rw [← hdrop, List.take_append_drop]

/-- A decoder that holds the next four bytes follows the encoder's steps. -/
theorem CodedBits.decodedBits (h : CodedBits e bits out e') (hlt : e.low.toNat < e.high.toNat) {d : BinaryDecoder}
    (hseeded : d.seeded = true) (hlow : d.low = e.low) (hhigh : d.high = e.high) (hpred : d.pred = e.pred)
    (hcurrent : d.current = BitVec.ofNat 32 (leading 4 (out ++ registerBytes e'.low))) :
    DecodedBits d ((out ++ registerBytes e'.low).drop 4) bits
      { d with low := e'.low, high := e'.high, current := e'.low, pred := e'.pred } := by
  induction h generalizing d with
  | nil e =>
    have hself : d.current = e.low := by
      have hlead := leading_registerBytes e.low []
      rw [List.append_nil] at hlead
      rw [hcurrent, List.nil_append, hlead, BitVec.ofNat_toNat, BitVec.setWidth_eq]
    have hd : { d with low := e.low, high := e.high, current := e.low, pred := e.pred } = d := by
      cases d
      simp_all
    rw [hd]
    exact .nil d
  | zero e e' bits out out' low high hs htail ih =>
    have hp := e.pred.probability_le
    have hnext := hs.intervalLegal (stepInterval_le hlt hp false)
    obtain ⟨-, hl, hh⟩ := htail.interval hnext.1
    obtain ⟨hlo, -⟩ := hs.leading_mem (by simp [registerBytes]) hl hh
    rw [toNat_splitPoint_succ hlt hp] at hlo
    have hvalue : d.current.toNat = leading 4 (out ++ (out' ++ registerBytes e'.low)) := by
      rw [hcurrent, List.append_assoc, BitVec.toNat_ofNat]
      exact Nat.mod_eq_of_lt (leading_lt 4 _)
    rw [List.append_assoc, drop_append_split 4 out]
    refine .zero d _ _ _ bits low high _ hseeded ?_ ?_ (ih hnext.1 hseeded rfl rfl (by rw [hpred]) rfl)
    · rw [hlow, hhigh, hpred, hvalue]
      omega
    · rw [hlow, hhigh, hpred, hcurrent, List.append_assoc]
      exact hs.refills (by simp [registerBytes])
  | one e e' bits out out' low high hs htail ih =>
    have hp := e.pred.probability_le
    have hnext := hs.intervalLegal (stepInterval_le hlt hp true)
    obtain ⟨-, hl, hh⟩ := htail.interval hnext.1
    obtain ⟨-, hhi⟩ := hs.leading_mem (by simp [registerBytes]) hl hh
    have hvalue : d.current.toNat = leading 4 (out ++ (out' ++ registerBytes e'.low)) := by
      rw [hcurrent, List.append_assoc, BitVec.toNat_ofNat]
      exact Nat.mod_eq_of_lt (leading_lt 4 _)
    rw [List.append_assoc, drop_append_split 4 out]
    refine .one d _ _ _ bits low high _ hseeded ?_ ?_ (ih hnext.1 hseeded rfl rfl (by rw [hpred]) rfl)
    · rw [hlow, hhigh, hpred, hvalue]
      exact hhi
    · rw [hlow, hhigh, hpred, hcurrent, List.append_assoc]
      exact hs.refills (by simp [registerBytes])

/-- Settles O37. The seed is the first four bytes; from then on the register is the four bytes ahead of those that the encoder has
shifted out. -/
theorem binaryRoundTrip : Obligations.BinaryRoundTrip := by
  intro e e' bits out d hlt hbits hcoded hseeded hlow hhigh hpred
  obtain ⟨bit, bits, rfl⟩ := List.exists_cons_of_ne_nil hbits
  match hX : out ++ registerBytes e'.low, (show 4 ≤ (out ++ registerBytes e'.low).length by simp [registerBytes]) with
  | b3 :: b2 :: b1 :: b0 :: tail, _ =>
    have hseed : b3 ++ b2 ++ b1 ++ b0 = BitVec.ofNat 32 (leading 4 (out ++ registerBytes e'.low)) := by
      have hlt4 : leading 4 (out ++ registerBytes e'.low) < 2 ^ (8 + 8 + 8 + 8) := leading_lt 4 _
      apply BitVec.eq_of_toNat_eq
      rw [BitVec.toNat_ofNat, Nat.mod_eq_of_lt hlt4, hX, leading_succ_cons _ (by simp), leading_succ_cons _ (by simp),
        leading_succ_cons _ (by simp), leading_succ_cons _ (by simp), leading, List.take_zero, bytesBits_nil, bitsValue_nil,
        toNat_append_byte, toNat_append_byte, toNat_append_byte]
      ring
    have hrun := hcoded.decodedBits hlt (d := { d with current := b3 ++ b2 ++ b1 ++ b0, seeded := true }) rfl hlow hhigh hpred
      hseed
    rw [hX] at hrun
    exact .seed d _ b3 b2 b1 b0 tail bit bits hseeded hrun

end Sys2Proof.Machine
end

section
/-! SUPPORT. The interval of the range coder (44_range_coder R284 to R287): a legal one stays legal through a renormalization, which
always ends or sticks, and holds what the bytes behind it say. -/

namespace Sys2Proof.Machine

variable {clamp : ClampMask} {low range low' range' : Word56} {out rest : List Byte}

/-! ### The words of the loop as numbers -/

/-- The top bytes of `low` and `low + range` agree (44_range_coder R284), on numbers. -/
theorem topSettled_iff (low range : Word56) :
    TopSettled low range ↔ low.toNat / 2 ^ 48 = (low.toNat + range.toNat) / 2 ^ 48 % 2 ^ 8 := by
  have hlow := low.isLt
  have hxor : (low.toNat ^^^ (low.toNat + range.toNat)) % 2 ^ 56 / 2 ^ 48 =
      low.toNat / 2 ^ 48 % 2 ^ 8 ^^^ (low.toNat + range.toNat) / 2 ^ 48 % 2 ^ 8 := by
    rw [show 2 ^ 56 = 2 ^ 48 * 2 ^ 8 from rfl, Nat.mod_mul_right_div_self, ← Nat.shiftRight_eq_div_pow,
      Nat.shiftRight_xor_distrib, Nat.xor_mod_two_pow, Nat.shiftRight_eq_div_pow, Nat.shiftRight_eq_div_pow]
  have hsmall : low.toNat / 2 ^ 48 % 2 ^ 8 = low.toNat / 2 ^ 48 := by omega
  rw [hsmall] at hxor
  rw [← Nat.xor_eq_zero_iff, ← hxor, TopSettled]
  omega

theorem toNat_shift56 (v : Word56) : (v <<< 8).toNat = v.toNat % 2 ^ 48 * 2 ^ 8 := by
  rw [BitVec.toNat_shiftLeft, Nat.shiftLeft_eq]
  omega

theorem toNat_topByte56 (v : Word56) : ((v >>> 48).setWidth 8 : Byte).toNat = v.toNat / 2 ^ 48 := by
  have hv := v.isLt
  rw [BitVec.toNat_setWidth, BitVec.toNat_ushiftRight, Nat.shiftRight_eq_div_pow]
  omega

/-- Either mask takes at most the low 40 bits (00_scope R9). -/
theorem clampedRange_le (clamp : ClampMask) (low : Word56) :
    clampedRange clamp low ≤ (2 ^ 56 - low.toNat) % 2 ^ 56 % 2 ^ 40 := by
  rw [← Nat.and_two_pow_sub_one_eq_mod _ 40]
  cases clamp with
  | bottom => exact le_rfl
  | literal =>
    have hmask : 2 ^ 40 - 2 = (2 ^ 40 - 1) &&& (2 ^ 40 - 2) := by decide
    rw [clampedRange, hmask, ← Nat.and_assoc]
    exact Nat.and_le_left

theorem toNat_clamped (clamp : ClampMask) (low : Word56) :
    (BitVec.ofNat 56 (clampedRange clamp low) <<< 8).toNat = clampedRange clamp low * 2 ^ 8 := by
  have hle := clampedRange_le clamp low
  rw [toNat_shift56, BitVec.toNat_ofNat]
  omega

/-! ### Legal intervals -/

/-- The interval within a step (10_state R45): not empty, within 2^56, and reaching 2^56 only from the last top byte. -/
structure Fits (low range : Word56) : Prop where
  within : low.toNat + range.toNat ≤ 2 ^ 56
  atTop : low.toNat + range.toNat = 2 ^ 56 → 2 ^ 56 - 2 ^ 48 ≤ low.toNat
  pos : 0 < range.toNat

/-- With the top bytes agreeing, the interval lies inside one top byte. -/
theorem Fits.settled_lt (h : Fits low range) (ht : TopSettled low range) : low.toNat % 2 ^ 48 + range.toNat < 2 ^ 48 := by
  obtain ⟨hwithin, hatTop, -⟩ := h
  have hlow := low.isLt
  rw [topSettled_iff] at ht
  omega

/-- A narrow interval that straddles reaches the next top byte, and is clamped to end there at the latest. -/
theorem Fits.straddle_le (h : Fits low range) (ht : ¬TopSettled low range) (hr : range.toNat < 2 ^ 40 - 1)
    (clamp : ClampMask) :
    2 ^ 48 ≤ low.toNat % 2 ^ 48 + range.toNat ∧ low.toNat % 2 ^ 48 + clampedRange clamp low ≤ 2 ^ 48 := by
  obtain ⟨hwithin, hatTop, -⟩ := h
  have hlow := low.isLt
  have hle := clampedRange_le clamp low
  rw [topSettled_iff] at ht
  omega

theorem Fits.settled (h : Fits low range) (ht : TopSettled low range) : Fits (low <<< 8) (range <<< 8) := by
  have hlt := h.settled_lt ht
  have hpos := h.pos
  constructor <;> rw [toNat_shift56] <;> (try rw [toNat_shift56]) <;> omega

theorem Fits.straddle (h : Fits low range) (ht : ¬TopSettled low range) (hr : range.toNat < 2 ^ 40 - 1)
    (hc : clampedRange clamp low ≠ 0) : Fits (low <<< 8) (BitVec.ofNat 56 (clampedRange clamp low) <<< 8) := by
  obtain ⟨hreach, hend⟩ := h.straddle_le ht hr clamp
  have hlow := low.isLt
  refine ⟨?_, ?_, ?_⟩
  · rw [toNat_clamped, toNat_shift56]
    omega
  · rw [toNat_clamped, toNat_shift56]
    omega
  · rw [toNat_clamped]
    omega

theorem RangeSettles.fits (h : RangeSettles clamp low range out low' range') (hf : Fits low range) :
    Fits low' range' ∧ 2 ^ 40 - 1 ≤ range'.toNat := by
  induction h with
  | done low range _ hr => exact ⟨hf, hr⟩
  | settled low range out low' range' ht _ ih => exact ih (hf.settled ht)
  | straddle low range out low' range' ht hr hc _ ih => exact ih (hf.straddle ht hr hc)

/-! ### The loop ends or sticks -/

/-- What one turn of the loop leads to, where the turns behind it end or stick. -/
theorem settles_or_sticks_step (low range : Word56)
    (hsettled : TopSettled low range →
      (∃ out low' range', RangeSettles clamp (low <<< 8) (range <<< 8) out low' range') ∨
        ∃ out, RangeSticks clamp (low <<< 8) (range <<< 8) out)
    (hstraddle : ¬TopSettled low range → range.toNat < 2 ^ 40 - 1 → clampedRange clamp low ≠ 0 →
      (∃ out low' range',
          RangeSettles clamp (low <<< 8) (BitVec.ofNat 56 (clampedRange clamp low) <<< 8) out low' range') ∨
        ∃ out, RangeSticks clamp (low <<< 8) (BitVec.ofNat 56 (clampedRange clamp low) <<< 8) out) :
    (∃ out low' range', RangeSettles clamp low range out low' range') ∨ ∃ out, RangeSticks clamp low range out := by
  by_cases ht : TopSettled low range
  · rcases hsettled ht with ⟨out, low', range', h⟩ | ⟨out, h⟩
    · exact .inl ⟨_, _, _, .settled low range out low' range' ht h⟩
    · exact .inr ⟨_, .settled low range out ht h⟩
  · by_cases hr : 2 ^ 40 - 1 ≤ range.toNat
    · exact .inl ⟨_, _, _, .done low range ht hr⟩
    · by_cases hc : clampedRange clamp low = 0
      · exact .inr ⟨_, .zero low range ht (by omega) hc⟩
      · rcases hstraddle ht (by omega) hc with ⟨out, low', range', h⟩ | ⟨out, h⟩
        · exact .inl ⟨_, _, _, .straddle low range out low' range' ht (by omega) hc h⟩
        · exact .inr ⟨_, .straddle low range out ht (by omega) hc h⟩

/-- From `low = 0` the range grows by a byte a turn until it reaches the top byte. -/
theorem settles_or_sticks_zero (clamp : ClampMask) (n : Nat) (range : Word56) (hn : 2 ^ 48 ≤ range.toNat * 2 ^ (8 * n)) :
    (∃ out low' range', RangeSettles clamp 0 range out low' range') ∨ ∃ out, RangeSticks clamp 0 range out := by
  induction n generalizing range with
  | zero =>
    refine settles_or_sticks_step 0 range (fun ht => ?_) fun _ hr _ => ?_
    · rw [topSettled_zero] at ht
      omega
    · omega
  | succ n ih =>
    have hzero : (0 : Word56) <<< 8 = 0 := by decide
    refine settles_or_sticks_step 0 range (fun ht => ?_) fun ht hr _ => ?_
    · rw [topSettled_zero] at ht
      rw [hzero]
      refine ih _ ?_
      rw [toNat_shift56, Nat.mod_eq_of_lt ht, mul_assoc, ← pow_add]
      rwa [show 8 + 8 * n = 8 * (n + 1) by omega]
    · rw [topSettled_zero] at ht
      omega

/-- A legal interval's loop ends, or sticks: the byte shifts bring `low` to 0. -/
theorem settles_or_sticks (clamp : ClampMask) (n : Nat) (low range : Word56) (hlow : low.toNat * 2 ^ (8 * n) % 2 ^ 56 = 0)
    (hf : Fits low range) :
    (∃ out low' range', RangeSettles clamp low range out low' range') ∨ ∃ out, RangeSticks clamp low range out := by
  induction n generalizing low range with
  | zero =>
    have hzero : low = 0 := by
      apply BitVec.eq_of_toNat_eq
      have := low.isLt
      simp at hlow ⊢
      omega
    have hpos := hf.pos
    subst hzero
    exact settles_or_sticks_zero clamp 6 range (by omega)
  | succ n ih =>
    have hnext : (low <<< 8).toNat * 2 ^ (8 * n) % 2 ^ 56 = 0 := by
      rw [BitVec.toNat_shiftLeft, Nat.shiftLeft_eq, Nat.mod_mul_mod, mul_assoc, ← pow_add]
      rwa [show 8 + 8 * n = 8 * (n + 1) by omega]
    exact settles_or_sticks_step low range (fun ht => ih _ _ hnext (hf.settled ht)) fun ht hr hc =>
      ih _ _ hnext (hf.straddle ht hr hc)

theorem Fits.settles_or_sticks (hf : Fits low range) (clamp : ClampMask) :
    (∃ out low' range', RangeSettles clamp low range out low' range') ∨ ∃ out, RangeSticks clamp low range out :=
  Machine.settles_or_sticks clamp 7 low range (Nat.mul_mod_left _ _) hf

/-! ### The bytes behind the interval -/

theorem leading_registerBytes56 (v : Word56) (rest : List Byte) : leading 7 (registerBytes56 v ++ rest) = v.toNat := by
  have htake : (registerBytes56 v ++ rest).take 7 = registerBytes56 v := List.take_left' rfl
  rw [leading, htake, bytesBits_registerBytes56, bitsValue_bitsOf, Nat.mod_eq_of_lt v.isLt]

/-- The seven bytes at the head of a stream are six and the seventh. -/
theorem leading_seven {bs : List Byte} (h : 7 ≤ bs.length) : ∃ x < 256, leading 7 bs = leading 6 bs * 256 + x := by
  match bs, h with
  | b6 :: b5 :: b4 :: b3 :: b2 :: b1 :: b0 :: tail, _ =>
    exact ⟨b0.toNat, b0.isLt, leading_append_byte (bs := [b6, b5, b4, b3, b2, b1]) rfl b0 tail⟩

/-- What stands in the interval that is left stands, behind the bytes that left `low`, in the interval before. -/
theorem RangeSettles.leading_mem (h : RangeSettles clamp low range out low' range') (hf : Fits low range)
    (hlen : 7 ≤ rest.length) (hlow : low'.toNat ≤ leading 7 rest) (hhigh : leading 7 rest < low'.toNat + range'.toNat) :
    low.toNat ≤ leading 7 (out ++ rest) ∧ leading 7 (out ++ rest) < low.toNat + range.toNat := by
  induction h with
  | done => exact ⟨hlow, hhigh⟩
  | settled low range out low' range' ht _ ih =>
    obtain ⟨hl, hh⟩ := ih (hf.settled ht) hlow hhigh
    have hlt := hf.settled_lt ht
    obtain ⟨x, hx, hnext⟩ := leading_seven (bs := out ++ rest) (by rw [List.length_append]; omega)
    rw [toNat_shift56] at hl
    rw [toNat_shift56, toNat_shift56] at hh
    rw [List.cons_append, leading_succ_cons _ (by rw [List.length_append]; omega), toNat_topByte56]
    omega
  | straddle low range out low' range' ht hr hc _ ih =>
    obtain ⟨hl, hh⟩ := ih (hf.straddle ht hr hc) hlow hhigh
    obtain ⟨hreach, hend⟩ := hf.straddle_le ht hr clamp
    obtain ⟨x, hx, hnext⟩ := leading_seven (bs := out ++ rest) (by rw [List.length_append]; omega)
    rw [toNat_shift56] at hl
    rw [toNat_shift56, toNat_clamped] at hh
    rw [List.cons_append, leading_succ_cons _ (by rw [List.length_append]; omega), toNat_topByte56]
    omega

/-- A byte shifted into a register of the seven bytes ahead. -/
theorem shiftIn_leading (b : Byte) {bs : List Byte} (h : 7 ≤ bs.length) :
    ∃ x, (BitVec.ofNat 56 (leading 7 (b :: bs)) <<< 8) ||| BitVec.setWidth 56 x = BitVec.ofNat 56 (leading 7 bs) ∧
      bs.drop 6 = x :: bs.drop 7 := by
  match bs, h with
  | b6 :: b5 :: b4 :: b3 :: b2 :: b1 :: b0 :: tail, _ =>
    refine ⟨b0, ?_, rfl⟩
    have hsix : leading 6 (b6 :: b5 :: b4 :: b3 :: b2 :: b1 :: b0 :: tail) < 2 ^ 48 := leading_lt 6 _
    have hlast : leading 7 (b6 :: b5 :: b4 :: b3 :: b2 :: b1 :: b0 :: tail) =
        leading 6 (b6 :: b5 :: b4 :: b3 :: b2 :: b1 :: b0 :: tail) * 256 + b0.toNat :=
      leading_append_byte (bs := [b6, b5, b4, b3, b2, b1]) rfl b0 tail
    have hb0 := b0.isLt
    apply BitVec.eq_of_toNat_eq
    rw [toNat_shiftIn (by decide), BitVec.toNat_ofNat, BitVec.toNat_ofNat, leading_succ_cons _ (by simp)]
    omega

/-- The decoder's loop follows the encoder's, its register the next seven bytes (44_range_coder R296, R300). -/
theorem RangeSettles.refills (h : RangeSettles clamp low range out low' range') (hlen : 7 ≤ rest.length) :
    RangeRefills clamp low range (BitVec.ofNat 56 (leading 7 (out ++ rest))) (((out ++ rest).drop 7).take out.length) low'
      range' (BitVec.ofNat 56 (leading 7 rest)) := by
  induction h with
  | done low range ht hr => exact .done _ _ _ ht hr
  | settled low range out low' range' ht _ ih =>
    obtain ⟨x, hshift, hdrop⟩ := shiftIn_leading ((low >>> 48).setWidth 8) (bs := out ++ rest)
      (by rw [List.length_append]; omega)
    rw [List.cons_append, List.drop_succ_cons, hdrop]
    exact .settled low range _ x _ low' range' _ ht (hshift ▸ ih)
  | straddle low range out low' range' ht hr hc _ ih =>
    obtain ⟨x, hshift, hdrop⟩ := shiftIn_leading ((low >>> 48).setWidth 8) (bs := out ++ rest)
      (by rw [List.length_append]; omega)
    rw [List.cons_append, List.drop_succ_cons, hdrop]
    exact .straddle low range _ x _ low' range' _ ht hr hc (hshift ▸ ih)

end Sys2Proof.Machine
end

section
/-! SUPPORT. The steps of the range coder between legal registers (44_range_coder R285, R286, 10_state R45), and its round trip
(44_range_coder R300, R301). -/

namespace Sys2Proof.Machine

variable {clamp : ClampMask} {sz : Option Nat} {i : Nat} {low range low' range' : Word56} {out : List Byte} {t : FreqTable}
  {sym : Nat}

/-! ### The frequency table -/

/-- A frequency table between steps (10_state R43, R45). -/
structure TableLegal (t : FreqTable) : Prop where
  zero : freqAt t 0 = 0
  lt : ∀ v ≤ 256, freqAt t v < freqAt t (v + 1)
  total_le : freqAt t 257 ≤ 2 ^ 56

theorem TableLegal.mono (h : TableLegal t) {a b : Nat} (hab : a ≤ b) (hb : b ≤ 257) : freqAt t a ≤ freqAt t b := by
  induction b, hab using Nat.le_induction with
  | base => exact le_rfl
  | succ b _ ih => exact (ih (by omega)).trans (h.lt b (by omega)).le

theorem tableLegal_flat : TableLegal flatTable := by
  refine ⟨freqAt_flatTable (by decide), fun v hv => ?_, ?_⟩
  · rw [freqAt_flatTable (by omega), freqAt_flatTable (by omega)]
    omega
  · rw [freqAt_flatTable (by decide)]
    decide

theorem TableLegal.tableAt (h : TableLegal t) (sz : Option Nat) (i : Nat) : TableLegal (tableAt sz i t) := by
  unfold Machine.tableAt
  split
  · exact h
  · split
    · exact tableLegal_flat
    · exact h

/-- Counting a symbol keeps the table increasing; there is room for it where the total is below the bound. -/
theorem TableLegal.countSymbol (h : TableLegal t) (hroom : freqAt t 257 < 2 ^ 56) (hsym : sym ≤ 256) :
    TableLegal (countSymbol t sym) := by
  have hfit : ∀ v ≤ 257, freqAt t v < 2 ^ 64 - 1 := fun v hv => (h.mono hv le_rfl).trans_lt (by omega)
  refine ⟨?_, fun v hv => ?_, ?_⟩
  · rw [freqAt_countSymbol_of_le (by omega) (Nat.zero_le _), h.zero]
  · have hlt := h.lt v hv
    rcases Nat.lt_trichotomy v sym with hv' | rfl | hv'
    · rwa [freqAt_countSymbol_of_le (by omega) (by omega), freqAt_countSymbol_of_le (by omega) (by omega)]
    · rw [freqAt_countSymbol_of_le (by omega) le_rfl, freqAt_countSymbol_of_lt (by omega) (by omega) (hfit _ (by omega))]
      omega
    · rw [freqAt_countSymbol_of_lt (by omega) hv' (hfit _ (by omega)),
        freqAt_countSymbol_of_lt (by omega) (by omega) (hfit _ (by omega))]
      omega
  · rw [freqAt_countSymbol_of_lt le_rfl (by omega) (hfit _ le_rfl)]
    omega

theorem rangeLegal_iff : RangeLegal low range t ↔ TableLegal t ∧ Fits low range ∧ 2 ^ 40 - 1 ≤ range.toNat := by
  constructor
  · rintro ⟨hzero, hlt, htotal, hwithin, hatTop, hwide⟩
    exact ⟨⟨hzero, hlt, htotal⟩, ⟨hwithin, hatTop, by omega⟩, hwide⟩
  · rintro ⟨⟨hzero, hlt, htotal⟩, ⟨hwithin, hatTop, -⟩, hwide⟩
    exact ⟨hzero, hlt, htotal, hwithin, hatTop, hwide⟩

/-! ### One step -/

/-- A step of width other than 0 has a total below the bound. -/
theorem total_lt_of_stepWidth (h : stepWidth range t ≠ 0) : freqAt t 257 < 2 ^ 56 := by
  by_contra hge
  exact h (Nat.div_eq_of_lt (range.isLt.trans_le (Nat.le_of_not_lt hge)))

/-- The part of the interval up to an entry of the table. -/
theorem TableLegal.mul_stepWidth_le (h : TableLegal t) {v : Nat} (hv : v ≤ 257) :
    freqAt t v * stepWidth range t ≤ range.toNat :=
  (Nat.mul_le_mul_right _ (h.mono hv le_rfl)).trans (Nat.mul_div_le _ _)

theorem toNat_stepLow56 (h : TableLegal t) (hf : Fits low range) (hw : stepWidth range t ≠ 0) (hsym : sym ≤ 256) :
    (stepLow56 low range t sym).toNat = low.toNat + freqAt t sym * stepWidth range t := by
  have hlt : freqAt t sym * stepWidth range t < freqAt t (sym + 1) * stepWidth range t :=
    Nat.mul_lt_mul_of_pos_right (h.lt sym hsym) (Nat.pos_of_ne_zero hw)
  have hle := h.mul_stepWidth_le (range := range) (v := sym + 1) (by omega)
  have hwithin := hf.within
  rw [stepLow56, BitVec.toNat_ofNat, Nat.mod_eq_of_lt (by omega)]

theorem toNat_stepRange56 (h : TableLegal t) (hsym : sym ≤ 256) :
    (stepRange56 range t sym).toNat + freqAt t sym * stepWidth range t = freqAt t (sym + 1) * stepWidth range t := by
  have hle := h.mul_stepWidth_le (range := range) (v := sym + 1) (by omega)
  have hrange := range.isLt
  have hmono := Nat.mul_le_mul_right (stepWidth range t) (h.lt sym hsym).le
  rw [stepRange56, BitVec.toNat_ofNat, Nat.sub_mul, Nat.mod_eq_of_lt (by omega)]
  omega

/-- A symbol's part of a legal interval is legal, but for its width (44_range_coder R286). -/
theorem Fits.step (hf : Fits low range) (h : TableLegal t) (hw : stepWidth range t ≠ 0) (hsym : sym ≤ 256) :
    Fits (stepLow56 low range t sym) (stepRange56 range t sym) := by
  have hlow := toNat_stepLow56 h hf hw hsym
  have hrange := toNat_stepRange56 (range := range) h hsym
  have hlt : freqAt t sym * stepWidth range t < freqAt t (sym + 1) * stepWidth range t :=
    Nat.mul_lt_mul_of_pos_right (h.lt sym hsym) (Nat.pos_of_ne_zero hw)
  have hle := h.mul_stepWidth_le (range := range) (v := sym + 1) (by omega)
  obtain ⟨hwithin, hatTop, -⟩ := hf
  exact ⟨by omega, fun htop => by have := hatTop (by omega); omega, by omega⟩

/-- A step of the encoder leaves legal registers (10_state R45). -/
theorem RangeSettles.rangeLegal
    (hs : RangeSettles clamp (stepLow56 low range t sym) (stepRange56 range t sym) out low' range') (hf : Fits low range)
    (h : TableLegal t) (hw : stepWidth range t ≠ 0) (hsym : sym ≤ 256) : RangeLegal low' range' (countSymbol t sym) := by
  obtain ⟨hfits, hwide⟩ := hs.fits (hf.step h hw hsym)
  exact rangeLegal_iff.2 ⟨h.countSymbol (total_lt_of_stepWidth hw) hsym, hfits, hwide⟩

/-- A number in a symbol's part of the interval has that symbol's count (44_range_coder R296). -/
theorem symbolOf_of_mem {code : Nat} (hf : Fits low range) (h : TableLegal t) (hw : stepWidth range t ≠ 0) (hsym : sym ≤ 256)
    (hlow : (stepLow56 low range t sym).toNat ≤ code)
    (hhigh : code < (stepLow56 low range t sym).toNat + (stepRange56 range t sym).toNat) :
    SymbolOf t ((code - low.toNat) / stepWidth range t) sym := by
  rw [toNat_stepLow56 h hf hw hsym] at hlow hhigh
  have hrange := toNat_stepRange56 (range := range) h hsym
  have hge : freqAt t sym ≤ (code - low.toNat) / stepWidth range t :=
    (Nat.le_div_iff_mul_le (Nat.pos_of_ne_zero hw)).2 (by omega)
  have hlt : (code - low.toNat) / stepWidth range t < freqAt t (sym + 1) :=
    (Nat.div_lt_iff_lt_mul (Nat.pos_of_ne_zero hw)).2 (by omega)
  refine ⟨hlt.trans_le (h.mono (by omega) le_rfl), fun v hv => ⟨fun ⟨hle, hgt⟩ => ?_, ?_⟩⟩
  · rcases Nat.lt_trichotomy v sym with hv' | hv' | hv'
    · exact absurd (h.mono (a := v + 1) (b := sym) (by omega) (by omega)) (by omega)
    · exact hv'
    · exact absurd (h.mono (a := sym + 1) (b := v) (by omega) (by omega)) (by omega)
  · rintro rfl
    exact ⟨hge, hlt⟩

/-! ### The steps of a symbol sequence -/

variable {e e' : RangeEncoder} {syms : List Nat}

/-- The encoder's steps keep its registers legal (10_state R45), and what they write stands in the interval they began with. -/
theorem RangeCoded.interval (h : RangeCoded clamp sz i e syms out e') (hlegal : RangeLegal e.low e.range e.freq)
    (hsyms : ∀ sym ∈ syms, sym ≤ 256) :
    e.low.toNat ≤ leading 7 (out ++ registerBytes56 e'.low) ∧
      leading 7 (out ++ registerBytes56 e'.low) < e.low.toNat + e.range.toNat := by
  induction h with
  | nil i e =>
    have hself : leading 7 ([] ++ registerBytes56 e.low) = e.low.toNat := by
      simpa using leading_registerBytes56 e.low []
    obtain ⟨-, hfits, -⟩ := rangeLegal_iff.1 hlegal
    have hpos := hfits.pos
    omega
  | cons i e e' t sym syms out out' low range ht hw hs _ ih =>
    obtain ⟨htable, hfits, -⟩ := rangeLegal_iff.1 hlegal
    obtain ⟨hsym, hsyms⟩ := List.forall_mem_cons.1 hsyms
    have htable : TableLegal t := ht ▸ htable.tableAt sz i
    obtain ⟨hl, hh⟩ := ih (hs.rangeLegal hfits htable hw hsym) hsyms
    obtain ⟨hlo, hhi⟩ := hs.leading_mem (hfits.step htable hw hsym) (by simp [registerBytes56]) hl hh
    have hlow := toNat_stepLow56 htable hfits hw hsym
    have hrange := toNat_stepRange56 (range := e.range) htable hsym
    have hle := htable.mul_stepWidth_le (range := e.range) (v := sym + 1) (by omega)
    rw [List.append_assoc]
    omega

/-- A decoder that holds the next seven bytes follows the encoder's steps. -/
theorem RangeCoded.decoded (h : RangeCoded clamp sz i e syms out e') (hlegal : RangeLegal e.low e.range e.freq)
    (hsyms : ∀ sym ∈ syms, sym ≤ 256) {d : RangeDecoder} (hseeded : d.seeded = true) (hlow : d.low = e.low)
    (hrange : d.range = e.range) (hfreq : d.freq = e.freq)
    (hcode : d.code = BitVec.ofNat 56 (leading 7 (out ++ registerBytes56 e'.low))) :
    RangeDecoded clamp sz i d ((out ++ registerBytes56 e'.low).drop 7) syms
      { d with low := e'.low, range := e'.range, code := e'.low, freq := e'.freq } := by
  induction h generalizing d with
  | nil i e =>
    have hself : d.code = e.low := by
      have hlead := leading_registerBytes56 e.low []
      rw [List.append_nil] at hlead
      rw [hcode, List.nil_append, hlead, BitVec.ofNat_toNat, BitVec.setWidth_eq]
    have hd : { d with low := e.low, range := e.range, code := e.low, freq := e.freq } = d := by
      cases d
      simp_all
    rw [hd]
    exact .nil i d
  | cons i e e' t sym syms out out' low range ht hw hs htail ih =>
    obtain ⟨htable, hfits, -⟩ := rangeLegal_iff.1 hlegal
    obtain ⟨hsym, hsyms⟩ := List.forall_mem_cons.1 hsyms
    have htable : TableLegal t := ht ▸ htable.tableAt sz i
    have hnext := hs.rangeLegal hfits htable hw hsym
    obtain ⟨hl, hh⟩ := htail.interval hnext hsyms
    obtain ⟨hlo, hhi⟩ := hs.leading_mem (hfits.step htable hw hsym) (by simp [registerBytes56]) hl hh
    have hbound : leading 7 (out ++ (out' ++ registerBytes56 e'.low)) < 2 ^ 56 := leading_lt 7 _
    have hcount : stepCount d t =
        (leading 7 (out ++ (out' ++ registerBytes56 e'.low)) - e.low.toNat) / stepWidth e.range t := by
      have hge := toNat_stepLow56 htable hfits hw hsym
      rw [stepCount, hcode, hlow, hrange, List.append_assoc, BitVec.toNat_ofNat, Nat.mod_eq_of_lt hbound]
      congr 1
      omega
    rw [List.append_assoc, drop_append_split 7 out]
    refine .cons i d _ t sym syms _ _ low range _ hseeded (by rw [ht, hfreq]) (by rwa [hrange]) ?_ hsym ?_
      (ih hnext hsyms hseeded rfl rfl rfl rfl)
    · rw [hcount]
      exact symbolOf_of_mem hfits htable hw hsym hlo hhi
    · rw [hlow, hrange, hcode, List.append_assoc]
      exact hs.refills (by simp [registerBytes56])

/-- Settles O43. The seed is the first seven bytes; from then on the register is the seven bytes ahead of those that the encoder has
shifted out, and the last seven are its `low`. -/
theorem rangeRoundTrip : Obligations.RangeRoundTrip := by
  intro clamp sz i e e' syms out d hlegal hne hsyms hcoded hseeded hlow hrange hfreq
  obtain ⟨sym, syms, rfl⟩ := List.exists_cons_of_ne_nil hne
  match hX : out ++ registerBytes56 e'.low, (show 7 ≤ (out ++ registerBytes56 e'.low).length by simp [registerBytes56]) with
  | b6 :: b5 :: b4 :: b3 :: b2 :: b1 :: b0 :: tail, _ =>
    have hseed : b6 ++ b5 ++ b4 ++ b3 ++ b2 ++ b1 ++ b0 = BitVec.ofNat 56 (leading 7 (out ++ registerBytes56 e'.low)) := by
      have hlt : leading 7 (out ++ registerBytes56 e'.low) < 2 ^ (8 + 8 + 8 + 8 + 8 + 8 + 8) := leading_lt 7 _
      apply BitVec.eq_of_toNat_eq
      rw [BitVec.toNat_ofNat, Nat.mod_eq_of_lt hlt, hX]
      iterate 7 rw [leading_succ_cons _ (by simp)]
      rw [leading, List.take_zero, bytesBits_nil, bitsValue_nil]
      iterate 6 rw [toNat_append_byte]
      ring
    have hrun := hcoded.decoded hlegal hsyms
      (d := { d with code := b6 ++ b5 ++ b4 ++ b3 ++ b2 ++ b1 ++ b0, seeded := true }) rfl hlow hrange hfreq hseed
    rw [hX] at hrun
    exact .seed i d _ b6 b5 b4 b3 b2 b1 b0 tail sym syms hseeded hrun

end Sys2Proof.Machine
end

section
/-! SUPPORT. Sorting that keeps the order of equals, and a list of pairs as a table (45_huffman R322, R326). -/

namespace Sys2Proof.Machine

/-! ### Stable sorting -/

section
variable {α : Type} {r before : α → α → Prop} [DecidableRel r]

/-- Inserting an element that comes before all others keeps a list ordered by `r`, equals by `before`. -/
theorem pairwise_orderedInsert (htrans : ∀ a b c, r a b → r b c → r a c) (htotal : ∀ a b, ¬r a b → r b a) (a : α)
    (l : List α) (hbefore : ∀ b ∈ l, before a b) (hl : l.Pairwise fun a b => r a b ∧ (r b a → before a b)) :
    (l.orderedInsert r a).Pairwise fun a b => r a b ∧ (r b a → before a b) := by
  induction l with
  | nil => simp
  | cons b l ih =>
    obtain ⟨hb, hl'⟩ := List.pairwise_cons.1 hl
    rw [List.orderedInsert_cons]
    split
    case isTrue hab =>
      refine List.pairwise_cons.2 ⟨fun x hx => ⟨?_, fun _ => hbefore x hx⟩, hl⟩
      rcases List.mem_cons.1 hx with rfl | hx
      · exact hab
      · exact htrans _ _ _ hab (hb x hx).1
    case isFalse hab =>
      refine List.pairwise_cons.2 ⟨fun x hx => ?_, ih (fun x hx => hbefore x (List.mem_cons_of_mem _ hx)) hl'⟩
      rcases (List.mem_orderedInsert r).1 hx with rfl | hx
      · exact ⟨htotal _ _ hab, fun h => absurd h hab⟩
      · exact hb x hx

/-- An insertion sort keeps the order of equals. -/
theorem pairwise_insertionSort (htrans : ∀ a b c, r a b → r b c → r a c) (htotal : ∀ a b, ¬r a b → r b a) (l : List α)
    (hl : l.Pairwise before) : (l.insertionSort r).Pairwise fun a b => r a b ∧ (r b a → before a b) := by
  induction l with
  | nil => simp
  | cons a l ih =>
    obtain ⟨ha, hl⟩ := List.pairwise_cons.1 hl
    exact pairwise_orderedInsert htrans htotal a _ (fun b hb => ha b ((List.mem_insertionSort r).1 hb)) (ih hl)

end

/-! ### Pairs as a table -/

theorem listedAt_of_mem {pairs : List (Nat × Nat)} {sym n : Nat} (hnodup : (pairs.map Prod.fst).Nodup)
    (h : (sym, n) ∈ pairs) : listedAt pairs sym = n := by
  have hfind : pairs.find? (fun p => p.1 == sym) = some (sym, n) := by
    cases hf : pairs.find? (fun p => p.1 == sym) with
    | none =>
      have := List.find?_eq_none.1 hf _ h
      simp at this
    | some p =>
      have hp : p.1 = sym := by simpa using List.find?_some hf
      exact congrArg some (List.inj_on_of_nodup_map hnodup (List.mem_of_find?_eq_some hf) h hp)
  rw [listedAt, hfind]

theorem listedAt_of_not_mem {pairs : List (Nat × Nat)} {sym : Nat} (h : sym ∉ pairs.map Prod.fst) : listedAt pairs sym = 0 := by
  have hfind : pairs.find? (fun p => p.1 == sym) = none := by
    rw [List.find?_eq_none]
    intro p hp heq
    exact h (List.mem_map.2 ⟨p, hp, by simpa using heq⟩)
  rw [listedAt, hfind]

end Sys2Proof.Machine
end

section
/-! SUPPORT. Canonical codes (45_huffman R326, R327): the code words of a complete code cover the words of the longest length one
after another. -/

namespace Sys2Proof.Machine

variable {sizes : Table (BitVec 8) 256} {m : Nat}

/-! ### The canonical order -/

/-- `a` gets its code before `b` (45_huffman R326): it is longer, or as long and a lower symbol. -/
def Precedes (sizes : Table (BitVec 8) 256) (a b : Nat) : Prop :=
  sizeAt sizes b < sizeAt sizes a ∨ (sizeAt sizes a = sizeAt sizes b ∧ a < b)

theorem Precedes.size_le {a b : Nat} (h : Precedes sizes a b) : sizeAt sizes b ≤ sizeAt sizes a := by
  rcases h with h | ⟨h, -⟩ <;> omega

theorem Precedes.asymm {a b : Nat} (h : Precedes sizes a b) : ¬Precedes sizes b a := by
  rintro (h' | ⟨h', hlt⟩)
  · exact absurd h.size_le (by omega)
  · rcases h with h | ⟨-, h⟩ <;> omega

theorem bne_zero_eq_decide (n : Nat) : (n != 0) = decide (n ≠ 0) := by cases n <;> rfl

theorem mem_presentSymbols {sym : Nat} : sym ∈ presentSymbols sizes ↔ sym < 256 ∧ sizeAt sizes sym ≠ 0 := by
  simp [presentSymbols]

theorem nodup_presentSymbols (sizes : Table (BitVec 8) 256) : (presentSymbols sizes).Nodup := List.nodup_range.filter _

theorem canonicalOrder_perm (sizes : Table (BitVec 8) 256) : (canonicalOrder sizes).Perm (presentSymbols sizes) :=
  List.perm_insertionSort _ _

theorem pairwise_canonicalOrder (sizes : Table (BitVec 8) 256) : (canonicalOrder sizes).Pairwise (Precedes sizes) := by
  have hlt : (presentSymbols sizes).Pairwise (· < ·) := List.pairwise_lt_range.filter _
  refine (pairwise_insertionSort ?_ ?_ _ hlt).imp fun {a b} ⟨hle, hties⟩ => ?_
  · intro a b c hab hbc
    exact hbc.trans hab
  · intro a b h
    omega
  · by_cases heq : sizeAt sizes a ≤ sizeAt sizes b
    · exact .inr ⟨by omega, hties heq⟩
    · exact .inl (by omega)

/-! ### Words covered -/

/-- How many words of length `m` begin with a code word of the listed symbols. -/
def covered (sizes : Table (BitVec 8) 256) (m : Nat) (syms : List Nat) : Nat := (syms.map fun t => 2 ^ (m - sizeAt sizes t)).sum

@[simp] theorem covered_nil : covered sizes m [] = 0 := rfl

@[simp] theorem covered_cons (sym : Nat) (syms : List Nat) :
    covered sizes m (sym :: syms) = 2 ^ (m - sizeAt sizes sym) + covered sizes m syms := rfl

@[simp] theorem covered_append (as bs : List Nat) :
    covered sizes m (as ++ bs) = covered sizes m as + covered sizes m bs := by
  rw [covered, List.map_append, List.sum_append]
  rfl

theorem covered_perm {as bs : List Nat} (h : as.Perm bs) : covered sizes m as = covered sizes m bs := (h.map _).sum_eq

theorem filter_lengthsOf (sizes : Table (BitVec 8) 256) :
    (lengthsOf sizes).filter (· ≠ 0) = (presentSymbols sizes).map (sizeAt sizes) := by
  rw [lengthsOf, List.filter_map, presentSymbols]
  congr 1
  exact List.filter_congr fun sym _ => (bne_zero_eq_decide _).symm

theorem size_le_of_allowed (h : LengthsAllowed (lengthsOf sizes)) {sym : Nat} (hsym : sym < 256) : sizeAt sizes sym ≤ 64 := by
  obtain ⟨hle, -, -⟩ := h
  exact hle _ (List.mem_map.2 ⟨sym, List.mem_range.2 hsym, rfl⟩)

/-- A complete code covers every word, whatever length above its own is taken (45_huffman R342). -/
theorem covered_presentSymbols (h : LengthsAllowed (lengthsOf sizes)) (hm : ∀ sym < 256, sizeAt sizes sym ≤ m)
    (htwo : 2 ≤ (presentSymbols sizes).length) : covered sizes m (presentSymbols sizes) = 2 ^ m := by
  have hscale : ∀ syms : List Nat, (∀ sym ∈ syms, sym < 256) →
      covered sizes m syms * 2 ^ 64 = covered sizes 64 syms * 2 ^ m := by
    intro syms hsyms
    induction syms with
    | nil => simp
    | cons sym syms ih =>
      obtain ⟨hsym, hsyms⟩ := List.forall_mem_cons.1 hsyms
      have h64 := size_le_of_allowed h hsym
      have hsm := hm sym hsym
      rw [covered_cons, covered_cons, Nat.add_mul, Nat.add_mul, ih hsyms, ← pow_add, ← pow_add,
        show m - sizeAt sizes sym + 64 = 64 - sizeAt sizes sym + m by omega]
  obtain ⟨-, -, hkraft⟩ := h
  rw [filter_lengthsOf, List.length_map, List.map_map] at hkraft
  have hall : covered sizes 64 (presentSymbols sizes) = 2 ^ 64 := hkraft htwo
  have heq := hscale (presentSymbols sizes) fun sym hsym => (mem_presentSymbols.1 hsym).1
  rw [hall, Nat.mul_comm] at heq
  exact Nat.eq_of_mul_eq_mul_left (by positivity) heq

/-- Before each symbol the words covered are whole code words of its length, with room for its own. -/
theorem covered_before (h : LengthsAllowed (lengthsOf sizes)) (hm : ∀ sym < 256, sizeAt sizes sym ≤ m) {before after : List Nat}
    {sym : Nat} (horder : canonicalOrder sizes = before ++ sym :: after) :
    2 ^ (m - sizeAt sizes sym) ∣ covered sizes m before ∧ covered sizes m before + 2 ^ (m - sizeAt sizes sym) ≤ 2 ^ m := by
  have hperm := canonicalOrder_perm sizes
  have hsorted := pairwise_canonicalOrder sizes
  rw [horder] at hperm hsorted
  obtain ⟨-, hsorted, -⟩ := List.pairwise_append.1 hsorted
  obtain ⟨hafter, -⟩ := List.pairwise_cons.1 hsorted
  by_cases htwo : 2 ≤ (presentSymbols sizes).length
  · have hall := covered_presentSymbols h hm htwo
    rw [← covered_perm hperm, covered_append, covered_cons] at hall
    have hrest : 2 ^ (m - sizeAt sizes sym) ∣ covered sizes m after := by
      refine List.dvd_sum fun x hx => ?_
      obtain ⟨t, ht, rfl⟩ := List.mem_map.1 hx
      exact Nat.pow_dvd_pow 2 (by have := (hafter t ht).size_le; omega)
    have hpow : 2 ^ (m - sizeAt sizes sym) ∣ 2 ^ m := Nat.pow_dvd_pow 2 (Nat.sub_le _ _)
    refine ⟨?_, by omega⟩
    rw [← hall] at hpow
    exact (Nat.dvd_add_left ((Nat.dvd_add_right (dvd_refl _)).2 hrest)).1 hpow
  · have hlen := hperm.length_eq
    rw [List.length_append, List.length_cons] at hlen
    obtain rfl : before = [] := List.length_eq_zero_iff.1 (by omega)
    exact ⟨by simp, by simpa using Nat.pow_le_pow_right (by decide) (Nat.sub_le _ _)⟩

/-! ### The assignment -/

theorem assignCodes_keys (sizes : Table (BitVec 8) 256) (syms : List Nat) (code prev : Nat) :
    (assignCodes sizes syms code prev).map Prod.fst = syms := by
  induction syms generalizing code prev with
  | nil => rfl
  | cons sym syms ih => rw [assignCodes, List.map_cons, ih]

/-- Each symbol gets the words covered before it, counted in words of its own length. -/
theorem assignCodes_mem (syms earlier : List Nat) (code prev : Nat) (hprev : prev ≤ m)
    (hcode : code * 2 ^ (m - prev) = covered sizes m earlier) (hle : ∀ sym ∈ syms, sizeAt sizes sym ≤ prev)
    (hsorted : syms.Pairwise (Precedes sizes))
    (hdvd : ∀ before sym after, syms = before ++ sym :: after →
      2 ^ (m - sizeAt sizes sym) ∣ covered sizes m (earlier ++ before))
    {before after : List Nat} {sym : Nat} (hsyms : syms = before ++ sym :: after) :
    (sym, covered sizes m (earlier ++ before) / 2 ^ (m - sizeAt sizes sym)) ∈ assignCodes sizes syms code prev := by
  induction syms generalizing earlier code prev before with
  | nil => simp at hsyms
  | cons s syms ih =>
    obtain ⟨hs, hle'⟩ := List.forall_mem_cons.1 hle
    obtain ⟨hfirst, hsorted⟩ := List.pairwise_cons.1 hsorted
    have hhead : covered sizes m earlier / 2 ^ (m - sizeAt sizes s) = code >>> (prev - sizeAt sizes s) := by
      rw [← hcode, Nat.shiftRight_eq_div_pow, show m - sizeAt sizes s = prev - sizeAt sizes s + (m - prev) by omega, pow_add,
        Nat.mul_div_mul_right _ _ (by positivity)]
    have hexact := Nat.div_mul_cancel (by simpa using hdvd [] s syms rfl)
    rw [hhead] at hexact
    rw [assignCodes]
    cases before with
    | nil =>
      obtain ⟨rfl, rfl⟩ : s = sym ∧ syms = after := by simpa using hsyms
      rw [List.append_nil, hhead]
      exact List.mem_cons_self
    | cons b before =>
      obtain ⟨rfl, rfl⟩ : s = b ∧ syms = before ++ sym :: after := by simpa using hsyms
      have hnext := ih (earlier ++ [s]) (code >>> (prev - sizeAt sizes s) + 1) (sizeAt sizes s) (by omega)
        (by rw [Nat.add_mul, hexact, covered_append, covered_cons, covered_nil]; omega) (fun x hx => (hfirst x hx).size_le)
        hsorted (fun p x q hpq => by simpa using hdvd (s :: p) x q (by rw [hpq, List.cons_append])) rfl
      rw [List.append_assoc, List.singleton_append] at hnext
      exact List.mem_cons_of_mem _ hnext

theorem longestCode_le (hm : ∀ sym < 256, sizeAt sizes sym ≤ m) : longestCode sizes ≤ m := by
  have hfold : ∀ (syms : List Nat) (k : Nat), k ≤ m → (∀ sym ∈ syms, sym < 256) →
      syms.foldl (fun k sym => max k (sizeAt sizes sym)) k ≤ m := by
    intro syms
    induction syms with
    | nil => exact fun k hk _ => hk
    | cons sym syms ih =>
      intro k hk hsyms
      obtain ⟨hsym, hsyms⟩ := List.forall_mem_cons.1 hsyms
      exact ih _ (max_le hk (hm sym hsym)) hsyms
  exact hfold _ 0 (Nat.zero_le _) fun sym hsym => (mem_presentSymbols.1 hsym).1

theorem codeAt_canonicalCodes {sym : Nat} (hsym : sym < 256) :
    codeAt (canonicalCodes sizes) sym =
      listedAt (assignCodes sizes (canonicalOrder sizes) 0 (longestCode sizes)) sym % 2 ^ 64 := by
  rw [codeAt, canonicalCodes, Table.get_ofFn _ hsym, BitVec.toNat_ofNat]

/-- The code of a present symbol (45_huffman R326). -/
theorem codeAt_of_order (h : LengthsAllowed (lengthsOf sizes)) (hm : ∀ sym < 256, sizeAt sizes sym ≤ m)
    {before after : List Nat} {sym : Nat} (horder : canonicalOrder sizes = before ++ sym :: after) :
    codeAt (canonicalCodes sizes) sym = covered sizes m before / 2 ^ (m - sizeAt sizes sym) ∧
      codeAt (canonicalCodes sizes) sym < 2 ^ sizeAt sizes sym := by
  have hmem : ∀ {t : Nat}, t ∈ canonicalOrder sizes → t < 256 := fun ht =>
    (mem_presentSymbols.1 ((canonicalOrder_perm sizes).mem_iff.1 ht)).1
  have hsym : sym < 256 := hmem (by simp [horder])
  have hlisted := assignCodes_mem (canonicalOrder sizes) [] 0 (longestCode sizes) (longestCode_le hm) (by simp)
    (fun t ht => sizeAt_le_longest sizes (hmem ht)) (pairwise_canonicalOrder sizes)
    (fun p x q hpq => by simpa using (covered_before h hm hpq).1) horder
  have hnodup : ((assignCodes sizes (canonicalOrder sizes) 0 (longestCode sizes)).map Prod.fst).Nodup := by
    rw [assignCodes_keys]
    exact (canonicalOrder_perm sizes).nodup_iff.2 (nodup_presentSymbols sizes)
  have hroom : covered sizes m before / 2 ^ (m - sizeAt sizes sym) < 2 ^ sizeAt sizes sym := by
    have hle := (covered_before h hm horder).2
    have hsm := hm sym hsym
    rw [Nat.div_lt_iff_lt_mul (by positivity), ← pow_add, show sizeAt sizes sym + (m - sizeAt sizes sym) = m by omega]
    have hpos : 0 < 2 ^ (m - sizeAt sizes sym) := by positivity
    omega
  have hfit : covered sizes m before / 2 ^ (m - sizeAt sizes sym) < 2 ^ 64 :=
    hroom.trans_le (Nat.pow_le_pow_right (by decide) (size_le_of_allowed h hsym))
  rw [codeAt_canonicalCodes hsym, listedAt_of_mem hnodup hlisted, List.nil_append, Nat.mod_eq_of_lt hfit]
  exact ⟨rfl, hroom⟩

theorem exists_order {sym : Nat} (hsym : sym < 256) (h0 : sizeAt sizes sym ≠ 0) :
    ∃ before after, canonicalOrder sizes = before ++ sym :: after :=
  List.append_of_mem ((canonicalOrder_perm sizes).mem_iff.2 (mem_presentSymbols.2 ⟨hsym, h0⟩))

/-- The symbols before one in the canonical order, picked out of all symbols. -/
theorem covered_before_eq {before after : List Nat} {sym : Nat} (horder : canonicalOrder sizes = before ++ sym :: after) :
    covered sizes m before =
      covered sizes m ((List.range 256).filter fun t =>
        sizeAt sizes t ≠ 0 ∧ (sizeAt sizes sym < sizeAt sizes t ∨ (sizeAt sizes t = sizeAt sizes sym ∧ t < sym))) := by
  have hsorted := pairwise_canonicalOrder sizes
  rw [horder] at hsorted
  obtain ⟨-, htail, hbefore⟩ := List.pairwise_append.1 hsorted
  obtain ⟨hafter, -⟩ := List.pairwise_cons.1 htail
  have hpick : (canonicalOrder sizes).filter
      (fun t => sizeAt sizes sym < sizeAt sizes t ∨ (sizeAt sizes t = sizeAt sizes sym ∧ t < sym)) = before := by
    have hall : ∀ t ∈ before,
        decide (sizeAt sizes sym < sizeAt sizes t ∨ (sizeAt sizes t = sizeAt sizes sym ∧ t < sym)) = true := fun t ht =>
      decide_eq_true (hbefore t ht sym List.mem_cons_self)
    have hnone : ∀ t ∈ sym :: after,
        ¬decide (sizeAt sizes sym < sizeAt sizes t ∨ (sizeAt sizes t = sizeAt sizes sym ∧ t < sym)) = true := by
      intro t ht hdec
      rw [decide_eq_true_eq] at hdec
      have hpre : Precedes sizes t sym := hdec
      rcases List.mem_cons.1 ht with rfl | ht
      · exact hpre.asymm hpre
      · exact hpre.asymm (hafter t ht)
    rw [horder, List.filter_append, List.filter_eq_self.2 hall, List.filter_eq_nil_iff.2 hnone, List.append_nil]
  have hperm := (canonicalOrder_perm sizes).filter
    (fun t => decide (sizeAt sizes sym < sizeAt sizes t ∨ (sizeAt sizes t = sizeAt sizes sym ∧ t < sym)))
  rw [hpick, presentSymbols, List.filter_filter] at hperm
  rw [covered_perm hperm]
  congr 1
  apply List.filter_congr
  intro t _
  rw [Bool.decide_and, bne_zero_eq_decide, Bool.and_comm]

/-- Settles O50. -/
theorem canonicalCodeValues : Obligations.CanonicalCodeValues := by
  intro sizes m h hm
  refine ⟨fun sym hsym h0 => ?absent, fun sym hsym h0 => ?present⟩
  case absent =>
    have hnot : sym ∉ (assignCodes sizes (canonicalOrder sizes) 0 (longestCode sizes)).map Prod.fst := by
      rw [assignCodes_keys, (canonicalOrder_perm sizes).mem_iff, mem_presentSymbols]
      exact fun hp => hp.2 h0
    rw [codeAt_canonicalCodes hsym, listedAt_of_not_mem hnot, Nat.zero_mod]
  case present =>
    obtain ⟨before, after, horder⟩ := exists_order hsym h0
    rw [(codeAt_of_order h hm horder).1, covered_before_eq horder]
    rfl

/-- A number's code word begins another's only where it is the other's leading part. -/
theorem div_eq_of_bitsOf_prefix {a b la lb : Nat} (ha : a < 2 ^ la) (hb : b < 2 ^ lb) (h : bitsOf a la <+: bitsOf b lb) :
    la ≤ lb ∧ b / 2 ^ (lb - la) = a := by
  have hle : la ≤ lb := by simpa using h.length_le
  refine ⟨hle, ?_⟩
  obtain ⟨rest, hrest⟩ := h
  have hlen : rest.length = lb - la := by
    have := congrArg List.length hrest
    simp at this
    omega
  have hvalue := congrArg bitsValue hrest
  rw [bitsValue_append, bitsValue_bitsOf, bitsValue_bitsOf, Nat.mod_eq_of_lt ha, Nat.mod_eq_of_lt hb, hlen] at hvalue
  have hlt := bitsValue_lt rest
  rw [hlen] at hlt
  rw [← hvalue, Nat.add_comm, Nat.add_mul_div_right _ _ (by positivity), Nat.div_eq_of_lt hlt, Nat.zero_add]

/-- Settles O49. If one code word begins another, the words that both cover overlap; but each begins where the ones before end. -/
theorem canonicalCodesAreUnique : Obligations.CanonicalCodesAreUnique := by
  intro sizes h
  have hm : ∀ sym < 256, sizeAt sizes sym ≤ 64 := fun _ => size_le_of_allowed h
  refine ⟨fun a ha h0 => ?fits, fun a ha b hb ha0 hb0 hprefix => ?free⟩
  case fits =>
    obtain ⟨before, after, horder⟩ := exists_order ha h0
    exact (codeAt_of_order h hm horder).2
  case free =>
    obtain ⟨pa, qa, hoa⟩ := exists_order ha ha0
    obtain ⟨pb, qb, hob⟩ := exists_order hb hb0
    obtain ⟨hcodea, hlta⟩ := codeAt_of_order h hm hoa
    obtain ⟨hcodeb, hltb⟩ := codeAt_of_order h hm hob
    obtain ⟨hle, hdiv⟩ := div_eq_of_bitsOf_prefix hlta hltb hprefix
    have hstart := Nat.div_mul_cancel (covered_before h hm hoa).1
    have hmb := hm b hb
    rw [hcodea, hcodeb, Nat.div_div_eq_div_mul, ← pow_add,
      show 64 - sizeAt sizes b + (sizeAt sizes b - sizeAt sizes a) = 64 - sizeAt sizes a by omega] at hdiv
    rw [← hdiv] at hstart
    have hinside : covered sizes 64 pa ≤ covered sizes 64 pb ∧
        covered sizes 64 pb < covered sizes 64 pa + 2 ^ (64 - sizeAt sizes a) := by
      have hmod := Nat.mod_lt (covered sizes 64 pb) (show 0 < 2 ^ (64 - sizeAt sizes a) by positivity)
      have hsum := Nat.div_add_mod (covered sizes 64 pb) (2 ^ (64 - sizeAt sizes a))
      rw [Nat.mul_comm, hstart] at hsum
      omega
    by_contra hne
    rcases List.append_eq_append_iff.1 (hoa.symm.trans hob) with ⟨as, rfl, has⟩ | ⟨bs, rfl, hbs⟩
    · cases as with
      | nil => exact hne (by simpa using (List.cons.inj has).1)
      | cons x as =>
        obtain ⟨rfl, -⟩ := List.cons.inj has
        rw [covered_append, covered_cons] at hinside
        omega
    · cases bs with
      | nil => exact hne (by simpa using (List.cons.inj hbs).1.symm)
      | cons x bs =>
        obtain ⟨rfl, -⟩ := List.cons.inj hbs
        have hpos : 0 < 2 ^ (64 - sizeAt sizes b) := by positivity
        rw [covered_append, covered_cons] at hinside
        omega

end Sys2Proof.Machine
end

section
/-! SUPPORT. The Huffman tree and the lengths it gives (45_huffman R321 to R324, R327). -/

namespace Sys2Proof.Machine

variable {q1 q2 q1' q2' : List WeightedTree} {a : WeightedTree} {tree : HuffmanTree} {xs : List Byte} {sym d : Nat}

/-! ### The sorted leaves -/

theorem frequency_eq (xs : List Byte) (hsym : sym < 256) : frequency xs sym = xs.countP (fun b => b.toNat = sym) := by
  have heq : ∀ b : Byte, (b == BitVec.ofNat 8 sym) = decide (b.toNat = sym) := by
    intro b
    rw [Bool.eq_iff_iff, beq_iff_eq, decide_eq_true_eq, ← BitVec.toNat_inj, BitVec.toNat_ofNat, Nat.mod_eq_of_lt hsym]
  rw [frequency, List.count]
  exact List.countP_congr fun b _ => by rw [heq b]

theorem mem_sortedLeaves {f : Nat} : (f, HuffmanTree.leaf sym) ∈ sortedLeaves xs ↔
    sym < 256 ∧ f = xs.countP (fun b => b.toNat = sym) ∧ f ≠ 0 := by
  rw [sortedLeaves, List.mem_insertionSort, List.mem_filterMap]
  constructor
  · rintro ⟨x, hx, hsome⟩
    have hx := List.mem_range.1 hx
    split at hsome
    case isTrue => cases hsome
    case isFalse h0 =>
      obtain ⟨rfl, rfl⟩ : frequency xs x = f ∧ x = sym := by simpa using hsome
      exact ⟨hx, frequency_eq xs hx, h0⟩
  · rintro ⟨hsym, rfl, h0⟩
    rw [← frequency_eq xs hsym] at h0 ⊢
    exact ⟨sym, List.mem_range.2 hsym, by rw [if_neg h0]⟩

/-- The leaves in ascending order of count and then symbol (45_huffman R322): the sort starts from symbol order and is stable. -/
theorem pairwise_sortedLeaves (xs : List Byte) : (sortedLeaves xs).Pairwise fun a b =>
    ∃ x y, a.2 = .leaf x ∧ b.2 = .leaf y ∧ (a.1 < b.1 ∨ (a.1 = b.1 ∧ x < y)) := by
  have hsymbols : ((List.range 256).filterMap fun sym =>
      if frequency xs sym = 0 then none else some (frequency xs sym, HuffmanTree.leaf sym)).Pairwise
        fun a b => ∃ x y, a.2 = .leaf x ∧ b.2 = .leaf y ∧ x < y := by
    refine List.Pairwise.filterMap _ (fun x y hlt a ha b hb => ?_) List.pairwise_lt_range
    split at ha
    · cases ha
    · split at hb
      · cases hb
      · cases ha
        cases hb
        exact ⟨x, y, rfl, rfl, hlt⟩
  have hleaf : ∀ a ∈ sortedLeaves xs, ∃ x, a.2 = .leaf x := by
    intro a ha
    rw [sortedLeaves, List.mem_insertionSort, List.mem_filterMap] at ha
    obtain ⟨x, -, hsome⟩ := ha
    split at hsome
    · cases hsome
    · cases hsome
      exact ⟨x, rfl⟩
  refine (pairwise_insertionSort ?_ ?_ _ hsymbols).imp_of_mem fun {a b} ha hb ⟨hle, hties⟩ => ?_
  · intro a b c hab hbc
    exact hab.trans hbc
  · intro a b h
    omega
  · obtain ⟨x, hx⟩ := hleaf a ha
    obtain ⟨y, hy⟩ := hleaf b hb
    refine ⟨x, y, hx, hy, ?_⟩
    by_cases heq : b.1 ≤ a.1
    · obtain ⟨x', y', hx', hy', hlt⟩ := hties heq
      obtain rfl : x = x' := by simpa [hx] using hx'
      obtain rfl : y = y' := by simpa [hy] using hy'
      exact .inr ⟨by omega, hlt⟩
    · exact .inl (by omega)

/-! ### The merge -/

theorem takeLightest_eq_some : takeLightest q1 q2 = some (a, q1', q2') ↔ TakesLightest q1 q2 a q1' q2' := by
  constructor
  · intro h
    unfold takeLightest at h
    split at h
    case h_1 => cases h
    case h_2 =>
      cases h
      exact .first _ _ _ (by simp)
    case h_3 =>
      cases h
      exact .second _ _ _ (by simp)
    case h_4 =>
      split at h
      case isTrue hle =>
        cases h
        exact .first _ _ _ (by simpa using hle)
      case isFalse hlt =>
        cases h
        exact .second _ _ _ (by simpa using hlt)
  · intro h
    cases h with
    | first _ _ _ hle =>
      cases q2 with
      | nil => rfl
      | cons b q2 => exact if_pos (hle b rfl)
    | second _ _ _ hlt =>
      cases q1 with
      | nil => rfl
      | cons b q1 => exact if_neg (Nat.not_le.2 (hlt b rfl))

theorem takeLightest_eq_none : takeLightest q1 q2 = none ↔ q1 = [] ∧ q2 = [] := by
  unfold takeLightest
  split <;> simp
  split <;> simp

theorem TakesLightest.perm (h : TakesLightest q1 q2 a q1' q2') : (q1 ++ q2).Perm (a :: (q1' ++ q2')) := by
  cases h with
  | first => exact .rfl
  | second => exact List.perm_middle

theorem TakesLightest.length_eq (h : TakesLightest q1 q2 a q1' q2') : q1.length + q2.length = q1'.length + q2'.length + 1 := by
  simpa using h.perm.length_eq

/-- With a turn for every tree of the queues, the loop is the merge (45_huffman R323). -/
theorem mergeQueues_eq_some (n : Nat) (q1 q2 : List WeightedTree) (hn : q1.length + q2.length ≤ n) :
    mergeQueues n q1 q2 = some tree ↔ Merges q1 q2 tree := by
  induction n generalizing q1 q2 with
  | zero =>
    refine ⟨nofun, fun h => ?_⟩
    cases h with
    | root _ _ _ h => exact absurd h.length_eq (by omega)
    | pair _ _ _ _ _ _ _ _ _ h => exact absurd h.length_eq (by omega)
  | succ n ih =>
    constructor
    · intro h
      unfold mergeQueues at h
      split at h
      case h_1 => cases h
      case h_2 a q1' q2' hfirst =>
        rw [takeLightest_eq_some] at hfirst
        split at h
        case h_1 hnone =>
          cases h
          obtain ⟨rfl, rfl⟩ := takeLightest_eq_none.1 hnone
          exact .root _ _ a hfirst
        case h_2 b q1'' q2'' hsecond =>
          rw [takeLightest_eq_some] at hsecond
          have h1 := hfirst.length_eq
          have h2 := hsecond.length_eq
          exact .pair _ _ _ _ _ _ a b tree hfirst hsecond
            ((ih _ _ (by rw [List.length_append, List.length_singleton]; omega)).1 h)
    · intro h
      cases h with
      | root _ _ a hfirst =>
        rw [← takeLightest_eq_some] at hfirst
        rw [mergeQueues, hfirst]
        rfl
      | pair _ _ _ _ _ _ a b _ hfirst hsecond hrest =>
        have h1 := hfirst.length_eq
        have h2 := hsecond.length_eq
        rw [← ih _ _ (by rw [List.length_append, List.length_singleton]; omega)] at hrest
        rw [← takeLightest_eq_some] at hfirst hsecond
        rw [mergeQueues, hfirst]
        simpa only [hsecond] using hrest

/-- The merge of two queues that are not both empty ends in a tree. -/
theorem Merges.exists (n : Nat) (q1 q2 : List WeightedTree) (hn : q1.length + q2.length = n + 1) :
    ∃ tree, Merges q1 q2 tree := by
  induction n using Nat.strong_induction_on generalizing q1 q2 with
  | _ n ih =>
    cases hfirst : takeLightest q1 q2 with
    | none =>
      obtain ⟨rfl, rfl⟩ := takeLightest_eq_none.1 hfirst
      simp at hn
    | some p =>
      obtain ⟨a, q1', q2'⟩ := p
      rw [takeLightest_eq_some] at hfirst
      have h1 := hfirst.length_eq
      cases hsecond : takeLightest q1' q2' with
      | none =>
        obtain ⟨rfl, rfl⟩ := takeLightest_eq_none.1 hsecond
        exact ⟨_, .root _ _ a hfirst⟩
      | some p =>
        obtain ⟨b, q1'', q2''⟩ := p
        rw [takeLightest_eq_some] at hsecond
        have h2 := hsecond.length_eq
        obtain ⟨tree, htree⟩ := ih (n - 1) (by omega) q1'' (q2'' ++ [(a.1 + b.1, .node a.2 b.2)])
          (by rw [List.length_append, List.length_singleton]; omega)
        exact ⟨tree, .pair _ _ _ _ _ _ a b tree hfirst hsecond htree⟩

/-! ### Leaves and depths -/

/-- The symbols of a tree's leaves, from left to right. -/
def leafSymbols : HuffmanTree → List Nat
  | .leaf sym => [sym]
  | .node l r => leafSymbols l ++ leafSymbols r

theorem length_leafSymbols_pos (tree : HuffmanTree) : 0 < (leafSymbols tree).length := by
  induction tree with
  | leaf => exact Nat.one_pos
  | node l r ihl _ =>
    rw [leafSymbols, List.length_append]
    omega

theorem leafDepths_symbols (tree : HuffmanTree) (depth : Nat) : (leafDepths tree depth).map Prod.fst = leafSymbols tree := by
  induction tree generalizing depth with
  | leaf => rfl
  | node l r ihl ihr => rw [leafDepths, List.map_append, ihl, ihr, leafSymbols]

theorem mem_leafDepths (depth : Nat) : (sym, d) ∈ leafDepths tree depth ↔ ∃ k, d = depth + k ∧ LeafAt tree sym k := by
  induction tree generalizing depth with
  | leaf s =>
    rw [leafDepths, List.mem_singleton, Prod.mk.injEq]
    constructor
    · rintro ⟨rfl, rfl⟩
      exact ⟨0, rfl, .leaf _⟩
    · rintro ⟨k, rfl, ⟨⟩⟩
      exact ⟨rfl, rfl⟩
  | node l r ihl ihr =>
    rw [leafDepths, List.mem_append, ihl, ihr]
    constructor
    · rintro (⟨k, rfl, h⟩ | ⟨k, rfl, h⟩)
      · exact ⟨k + 1, by omega, .left _ _ _ _ h⟩
      · exact ⟨k + 1, by omega, .right _ _ _ _ h⟩
    · rintro ⟨k, rfl, h⟩
      cases h with
      | left _ _ _ k h => exact .inl ⟨k, by omega, h⟩
      | right _ _ _ k h => exact .inr ⟨k, by omega, h⟩

theorem mem_leafDepths_zero : (sym, d) ∈ leafDepths tree 0 ↔ LeafAt tree sym d := by
  rw [mem_leafDepths]
  constructor
  · rintro ⟨k, rfl, h⟩
    rwa [Nat.zero_add]
  · exact fun h => ⟨d, (Nat.zero_add d).symm, h⟩

theorem LeafAt.mem (h : LeafAt tree sym d) : sym ∈ leafSymbols tree := by
  rw [← leafDepths_symbols tree 0]
  exact List.mem_map.2 ⟨_, mem_leafDepths_zero.2 h, rfl⟩

theorem LeafAt.lt (h : LeafAt tree sym d) : d < (leafSymbols tree).length := by
  induction h with
  | leaf => exact Nat.one_pos
  | left a b sym d _ ih =>
    have hpos := length_leafSymbols_pos b
    rw [leafSymbols, List.length_append]
    omega
  | right a b sym d _ ih =>
    have hpos := length_leafSymbols_pos a
    rw [leafSymbols, List.length_append]
    omega

/-- A merge moves the leaves of the queues into one tree. -/
theorem Merges.leafSymbols_perm (h : Merges q1 q2 tree) :
    (leafSymbols tree).Perm ((q1 ++ q2).flatMap fun w => leafSymbols w.2) := by
  induction h with
  | root q1 q2 a hfirst => simpa using (hfirst.perm.flatMap_right fun w => leafSymbols w.2).symm
  | pair q1 q2 q1' q2' q1'' q2'' a b tree hfirst hsecond _ ih =>
    have hqueues : (q1 ++ q2).Perm (a :: b :: (q1'' ++ q2'')) := hfirst.perm.trans (hsecond.perm.cons a)
    refine ih.trans (((hqueues.flatMap_right fun w => leafSymbols w.2).trans ?_).symm)
    simp only [List.flatMap_cons, List.flatMap_append, List.flatMap_nil, leafSymbols, List.append_nil]
    have hcomm := List.perm_append_comm (l₁ := leafSymbols a.2 ++ leafSymbols b.2)
      (l₂ := (q1''.flatMap fun w => leafSymbols w.2) ++ q2''.flatMap fun w => leafSymbols w.2)
    simpa only [List.append_assoc] using hcomm

/-! ### The lengths of an input -/

/-- The symbols that occur, as the sorted leaves list them. -/
def leafOrder (xs : List Byte) : List Nat := (sortedLeaves xs).flatMap fun w => leafSymbols w.2

theorem leaf_of_mem_sortedLeaves (h : a ∈ sortedLeaves xs) : ∃ sym, a = (a.1, .leaf sym) := by
  rw [sortedLeaves, List.mem_insertionSort, List.mem_filterMap] at h
  obtain ⟨x, -, hsome⟩ := h
  split at hsome
  · cases hsome
  · cases hsome
    exact ⟨x, rfl⟩

theorem leafOrder_eq_map (xs : List Byte) :
    ∃ f : WeightedTree → Nat, leafOrder xs = (sortedLeaves xs).map f ∧ ∀ w n, w.2 = .leaf n → f w = n := by
  refine ⟨fun w => (leafSymbols w.2).headD 0, ?_, fun w n hw => congrArg (fun tree => (leafSymbols tree).headD 0) hw⟩
  rw [leafOrder, List.map_eq_flatMap]
  refine List.flatMap_congr fun w hw => ?_
  obtain ⟨n, hn⟩ := leaf_of_mem_sortedLeaves hw
  rw [hn]
  rfl

theorem length_leafOrder (xs : List Byte) : (leafOrder xs).length = (sortedLeaves xs).length := by
  obtain ⟨f, hf, -⟩ := leafOrder_eq_map xs
  rw [hf, List.length_map]

theorem mem_leafOrder : sym ∈ leafOrder xs ↔ sym < 256 ∧ ∃ b ∈ xs, b.toNat = sym := by
  have hcount : ∀ f, (f = xs.countP (fun b => b.toNat = sym) ∧ f ≠ 0) ↔
      f = xs.countP (fun b => b.toNat = sym) ∧ ∃ b ∈ xs, b.toNat = sym := by
    intro f
    refine and_congr_right fun hf => ?_
    rw [hf, ← Nat.pos_iff_ne_zero, List.countP_pos_iff]
    simp
  rw [leafOrder, List.mem_flatMap]
  constructor
  · rintro ⟨w, hw, hsym⟩
    obtain ⟨n, hn⟩ := leaf_of_mem_sortedLeaves hw
    rw [hn] at hw hsym
    obtain rfl : sym = n := by simpa [leafSymbols] using hsym
    obtain ⟨hlt, hrest⟩ := mem_sortedLeaves.1 hw
    exact ⟨hlt, ((hcount _).1 hrest).2⟩
  · rintro ⟨hlt, hex⟩
    exact ⟨(_, .leaf sym), mem_sortedLeaves.2 ⟨hlt, (hcount _).2 ⟨rfl, hex⟩⟩, by simp [leafSymbols]⟩

theorem nodup_leafOrder (xs : List Byte) : (leafOrder xs).Nodup := by
  obtain ⟨f, hf, hleaf⟩ := leafOrder_eq_map xs
  rw [hf, List.Nodup, List.pairwise_map]
  refine (pairwise_sortedLeaves xs).imp_of_mem fun {v w} hv hw ⟨x, y, hx, hy, hlt⟩ heq => ?_
  rw [hleaf v x hx, hleaf w y hy] at heq
  subst heq
  have hv' : v = (v.1, .leaf x) := Prod.ext rfl hx
  have hw' : w = (w.1, .leaf x) := Prod.ext rfl hy
  rw [hv'] at hv
  rw [hw'] at hw
  have h1 := (mem_sortedLeaves.1 hv).2.1
  have h2 := (mem_sortedLeaves.1 hw).2.1
  omega

theorem length_leafOrder_le (xs : List Byte) : (leafOrder xs).length ≤ 256 := by
  have hsub : leafOrder xs ⊆ List.range 256 := fun sym h => List.mem_range.2 (mem_leafOrder.1 h).1
  simpa using (List.subperm_of_subset (nodup_leafOrder xs) hsub).length_le

theorem sizeAt_buildSizes (xs : List Byte) (hsym : sym < 256) :
    sizeAt (buildSizes xs) sym = listedAt (codeLengths xs) sym % 2 ^ 8 := by
  rw [sizeAt, buildSizes, Table.get_ofFn _ hsym, BitVec.toNat_ofNat]

theorem Merges.leafSymbols_perm_leafOrder (h : Merges (sortedLeaves xs) [] tree) : (leafSymbols tree).Perm (leafOrder xs) := by
  simpa [leafOrder] using h.leafSymbols_perm

theorem codeLengths_of_merges (htwo : 2 ≤ (sortedLeaves xs).length) (h : Merges (sortedLeaves xs) [] tree) :
    codeLengths xs = leafDepths tree 0 := by
  have hmerge := (mergeQueues_eq_some (sortedLeaves xs).length (sortedLeaves xs) [] (by simp)).2 h
  cases tree with
  | leaf sym =>
    have hlen := h.leafSymbols_perm_leafOrder.length_eq
    rw [length_leafOrder] at hlen
    simp [leafSymbols] at hlen
    omega
  | node l r => simp only [codeLengths, hmerge]

/-- With two or more leaves the length of a symbol is the depth of its leaf (45_huffman R324). -/
theorem leafAt_iff (htwo : 2 ≤ (sortedLeaves xs).length) (h : Merges (sortedLeaves xs) [] tree) :
    LeafAt tree sym d ↔ sym < 256 ∧ d ≠ 0 ∧ sizeAt (buildSizes xs) sym = d := by
  have hperm := h.leafSymbols_perm_leafOrder
  have hnodup : ((leafDepths tree 0).map Prod.fst).Nodup := by
    rw [leafDepths_symbols]
    exact hperm.nodup_iff.2 (nodup_leafOrder xs)
  have hsize : ∀ {s k}, LeafAt tree s k → s < 256 ∧ sizeAt (buildSizes xs) s = k := by
    intro s k hleaf
    have hs : s < 256 := (mem_leafOrder.1 (hperm.mem_iff.1 hleaf.mem)).1
    have hk := hleaf.lt
    rw [hperm.length_eq] at hk
    have hle := length_leafOrder_le xs
    rw [sizeAt_buildSizes xs hs, codeLengths_of_merges htwo h, listedAt_of_mem hnodup (mem_leafDepths_zero.2 hleaf),
      Nat.mod_eq_of_lt (by omega)]
    exact ⟨hs, rfl⟩
  constructor
  · intro hleaf
    obtain ⟨hs, hd⟩ := hsize hleaf
    refine ⟨hs, ?_, hd⟩
    rintro rfl
    cases hleaf
    have hlen := hperm.length_eq
    rw [length_leafOrder] at hlen
    simp [leafSymbols] at hlen
    omega
  · rintro ⟨hs, h0, hd⟩
    have hlisted : sym ∈ (leafDepths tree 0).map Prod.fst := by
      by_contra hnot
      rw [sizeAt_buildSizes xs hs, codeLengths_of_merges htwo h, listedAt_of_not_mem hnot, Nat.zero_mod] at hd
      exact h0 hd.symm
    obtain ⟨⟨s, k⟩, hmem, rfl⟩ := List.mem_map.1 hlisted
    have hleaf := mem_leafDepths_zero.1 hmem
    obtain rfl : k = d := (hsize hleaf).2.symm.trans hd
    exact hleaf

/-- Settles O47. -/
theorem huffmanTreeBuild : Obligations.HuffmanTreeBuild :=
  ⟨fun _ _ _ => mem_sortedLeaves, pairwise_sortedLeaves,
    fun leaves _ _ => mergeQueues_eq_some leaves.length leaves [] (by simp), fun _ _ _ _ => leafAt_iff⟩

/-! ### The Kraft sum -/

/-- The leaves of a tree share a unit: each branch halves it. -/
theorem sum_leafDepths (tree : HuffmanTree) (depth : Nat) :
    ((leafDepths tree depth).map fun p => ((1 : ℚ) / 2) ^ p.2).sum = (1 / 2) ^ depth := by
  induction tree generalizing depth with
  | leaf => simp [leafDepths]
  | node l r ihl ihr =>
    rw [leafDepths, List.map_append, List.sum_append, ihl, ihr]
    ring

theorem sizeAt_of_no_leaf (hlen : (sortedLeaves xs).length = 0) (hsym : sym < 256) : sizeAt (buildSizes xs) sym = 0 := by
  have hnil : sortedLeaves xs = [] := List.length_eq_zero_iff.1 hlen
  have hlengths : codeLengths xs = [] := by
    rw [codeLengths, hnil]
    rfl
  rw [sizeAt_buildSizes xs hsym, hlengths]
  rfl

/-- A single present symbol has length 1 (45_huffman R324). -/
theorem sizeAt_of_one_leaf {s : Nat} (hlen : (sortedLeaves xs).length = 1) (hs : s ∈ leafOrder xs) (hsym : sym < 256) :
    sizeAt (buildSizes xs) sym = if sym = s then 1 else 0 := by
  obtain ⟨w, hw⟩ := List.length_eq_one_iff.1 hlen
  obtain ⟨x, hx⟩ := leaf_of_mem_sortedLeaves (xs := xs) (a := w) (by simp [hw])
  obtain rfl : s = x := by
    rw [leafOrder, hw, hx] at hs
    simpa [leafSymbols] using hs
  have hlengths : codeLengths xs = [(s, 1)] := by
    rw [codeLengths, hw, hx]
    rfl
  rw [sizeAt_buildSizes xs hsym, hlengths, listedAt]
  by_cases h : s = sym
  · simp [h]
  · simp [h, Ne.symm h]

theorem exists_merges (hpos : 0 < (sortedLeaves xs).length) : ∃ tree, Merges (sortedLeaves xs) [] tree :=
  Merges.exists ((sortedLeaves xs).length - 1) _ _ (by simp; omega)

/-- Exactly the symbols that occur have a length. -/
theorem sizeAt_ne_zero_iff (hsym : sym < 256) : sizeAt (buildSizes xs) sym ≠ 0 ↔ sym ∈ leafOrder xs := by
  rcases Nat.lt_trichotomy (sortedLeaves xs).length 1 with hlen | hlen | htwo
  · have hzero : (sortedLeaves xs).length = 0 := by omega
    have hnil : leafOrder xs = [] := List.length_eq_zero_iff.1 (by rw [length_leafOrder, hzero])
    rw [sizeAt_of_no_leaf hzero hsym, hnil]
    simp
  · obtain ⟨s, hs⟩ := List.length_eq_one_iff.1 ((length_leafOrder xs).trans hlen)
    rw [sizeAt_of_one_leaf hlen (s := s) (by simp [hs]) hsym, hs]
    by_cases h : sym = s <;> simp [h]
  · obtain ⟨tree, htree⟩ := exists_merges (xs := xs) (by omega)
    rw [← htree.leafSymbols_perm_leafOrder.mem_iff]
    constructor
    · intro h0
      exact ((leafAt_iff htwo htree).2 ⟨hsym, h0, rfl⟩).mem
    · intro hmem
      rw [← leafDepths_symbols tree 0] at hmem
      obtain ⟨⟨s, k⟩, hk, rfl⟩ := List.mem_map.1 hmem
      obtain ⟨-, h0, hd⟩ := (leafAt_iff htwo htree).1 (mem_leafDepths_zero.1 hk)
      rwa [hd]

/-- The Kraft sum of a tree's lengths is the sum over its leaves (45_huffman R327). -/
theorem kraft_of_two_leaves (htwo : 2 ≤ (sortedLeaves xs).length) :
    (((List.range 256).filter fun sym => sizeAt (buildSizes xs) sym ≠ 0).map fun sym =>
      ((1 : ℚ) / 2) ^ sizeAt (buildSizes xs) sym).sum = 1 := by
  obtain ⟨tree, htree⟩ := exists_merges (xs := xs) (by omega)
  have hperm : ((List.range 256).filter fun sym => sizeAt (buildSizes xs) sym ≠ 0).Perm ((leafDepths tree 0).map Prod.fst) := by
    rw [leafDepths_symbols]
    refine (List.perm_of_nodup_nodup_toFinset_eq (List.nodup_range.filter _) (nodup_leafOrder xs) ?_).trans
      htree.leafSymbols_perm_leafOrder.symm
    ext sym
    simp only [List.mem_toFinset, List.mem_filter, List.mem_range, decide_eq_true_eq]
    exact ⟨fun ⟨hs, h0⟩ => (sizeAt_ne_zero_iff hs).1 h0,
      fun h => ⟨(mem_leafOrder.1 h).1, (sizeAt_ne_zero_iff (mem_leafOrder.1 h).1).2 h⟩⟩
  have hdepths : (leafDepths tree 0).map ((fun sym => ((1 : ℚ) / 2) ^ sizeAt (buildSizes xs) sym) ∘ Prod.fst) =
      (leafDepths tree 0).map fun p => ((1 : ℚ) / 2) ^ p.2 := by
    refine List.map_congr_left fun p hp => ?_
    obtain ⟨-, -, hd⟩ := (leafAt_iff htwo htree).1 (mem_leafDepths_zero.1 hp)
    rw [Function.comp_apply, hd]
  rw [(hperm.map _).sum_eq, List.map_map, hdepths, sum_leafDepths, pow_zero]

theorem toNat_mem_leafOrder {b : Byte} : b.toNat ∈ leafOrder xs ↔ b ∈ xs := by
  rw [mem_leafOrder]
  constructor
  · rintro ⟨-, x, hx, heq⟩
    rwa [← BitVec.eq_of_toNat_eq heq]
  · exact fun h => ⟨b.isLt, b, h, rfl⟩

/-- Settles O48. -/
theorem kraftEquality : Obligations.KraftEquality := by
  intro xs
  refine ⟨fun b => ?present, fun b hne hall => ?single, ?two⟩
  case present => rw [sizeAt_ne_zero_iff b.isLt, toNat_mem_leafOrder]
  case single =>
    obtain ⟨x, hx⟩ := List.exists_mem_of_ne_nil xs hne
    have hb : b.toNat ∈ leafOrder xs := toNat_mem_leafOrder.2 (hall x hx ▸ hx)
    have hsub : leafOrder xs ⊆ [b.toNat] := by
      intro sym hsym
      obtain ⟨-, y, hy, rfl⟩ := mem_leafOrder.1 hsym
      rw [hall y hy]
      exact List.mem_singleton_self _
    have hle : (leafOrder xs).length ≤ 1 := (List.subperm_of_subset (nodup_leafOrder xs) hsub).length_le
    have hpos := List.length_pos_of_mem hb
    have hlen : (sortedLeaves xs).length = 1 := by
      rw [← length_leafOrder]
      omega
    rw [sizeAt_of_one_leaf hlen hb b.isLt, if_pos rfl]
  case two =>
    rintro ⟨a, ha, b, hb, hne⟩
    have hnodup : [a.toNat, b.toNat].Nodup := by simpa [BitVec.toNat_inj] using hne
    have hsub : [a.toNat, b.toNat] ⊆ leafOrder xs := by
      simp [List.cons_subset, toNat_mem_leafOrder, ha, hb]
    have hle := (List.subperm_of_subset hnodup hsub).length_le
    exact kraft_of_two_leaves (by rw [← length_leafOrder]; exact hle)

end Sys2Proof.Machine
end

section
/-! SUPPORT. Every command's body as built from few operations: those that write the output, those that read the input, and updates of
the unit's own registers. What holds of each operation then holds of each command, by one induction. -/

namespace Sys2Proof.Machine

variable {α β : Type}

/-! ### The registers of one coder -/

/-- The registers of a coder unit, whichever its kind. -/
inductive Coder where
  | binaryEncoder (e : BinaryEncoder)
  | binaryDecoder (d : BinaryDecoder)
  | rangeEncoder (e : RangeEncoder)
  | rangeDecoder (d : RangeDecoder)
  | huffman (h : Huffman)
  | expGolomb (g : ExpGolomb)
  | riceGolomb (g : RiceGolomb)
  | none

/-- The coder with a unit number (30_encoding R112). -/
def State.coder (s : State) : Nat → Coder
  | 3 => .binaryEncoder s.bee
  | 4 => .binaryDecoder s.bed
  | 5 => .binaryEncoder s.fpe
  | 6 => .binaryDecoder s.fpd
  | 7 => .rangeEncoder s.rce
  | 8 => .rangeDecoder s.rcd
  | 9 => .huffman s.hfe
  | 10 => .huffman s.hfd
  | 11 => .expGolomb s.ege
  | 12 => .expGolomb s.egd
  | 13 => .riceGolomb s.rge
  | 14 => .riceGolomb s.rgd
  | _ => .none

/-- The registers that no body changes. -/
def State.control (s : State) :=
  (s.params, s.cmd, (s.arg0, s.arg1, s.arg2, s.arg3), s.status, (s.waiting, s.taken), (s.host, s.hostRead))

/-- `s` with the streams, their ports, the host's moves, DATA and `RES` as in `t`. -/
def State.withStreams (s t : State) : State :=
  { s with
    bsw := t.bsw, sink := t.sink, sinkRoom := t.sinkRoom, sent := t.sent, bsr := t.bsr, source := t.source, data := t.data
    res := t.res, host := t.host }

/-- The registers of one coder as a place in the state, apart from everything else. -/
structure Slot (E : Type) where
  unit : Nat
  get : State → E
  set : E → State → State
  get_set : ∀ (e : E) (s : State), get (set e s) = e := by intros; rfl
  set_get : ∀ s, set (get s) s = s := by intros; rfl
  set_set : ∀ e e' s, set e (set e' s) = set e s := by intros; rfl
  get_withStreams : ∀ s t : State, get (s.withStreams t) = get s := by intros; rfl
  set_withStreams : ∀ (e : E) (s t : State), set e (s.withStreams t) = (set e s).withStreams t := by intros; rfl
  withStreams_set : ∀ (e : E) (s : State), s.withStreams (set e s) = s := by intros; rfl
  control_set : ∀ (e : E) (s : State), (set e s).control = s.control := by intros; rfl
  coder_set : ∀ (e : E) (s : State) (k : Nat), k ≠ unit → (set e s).coder k = s.coder k := by
    intro e s k hk
    unfold State.coder
    split <;> first | rfl | exact absurd rfl hk
  get_of_coder : ∀ s t : State, t.coder unit = s.coder unit → get t = get s := by
    intro s t h
    simpa only [State.coder, Coder.binaryEncoder.injEq, Coder.binaryDecoder.injEq, Coder.rangeEncoder.injEq,
      Coder.rangeDecoder.injEq, Coder.huffman.injEq, Coder.expGolomb.injEq, Coder.riceGolomb.injEq] using h
  unit_le : unit ≤ 14 := by decide

def beeSlot : Slot BinaryEncoder where
  unit := 3
  get := State.bee
  set e s := { s with bee := e }

def bedSlot : Slot BinaryDecoder where
  unit := 4
  get := State.bed
  set e s := { s with bed := e }

def fpeSlot : Slot BinaryEncoder where
  unit := 5
  get := State.fpe
  set e s := { s with fpe := e }

def fpdSlot : Slot BinaryDecoder where
  unit := 6
  get := State.fpd
  set e s := { s with fpd := e }

def rceSlot : Slot RangeEncoder where
  unit := 7
  get := State.rce
  set e s := { s with rce := e }

def rcdSlot : Slot RangeDecoder where
  unit := 8
  get := State.rcd
  set e s := { s with rcd := e }

def hfeSlot : Slot Huffman where
  unit := 9
  get := State.hfe
  set e s := { s with hfe := e }

def hfdSlot : Slot Huffman where
  unit := 10
  get := State.hfd
  set e s := { s with hfd := e }

def egeSlot : Slot ExpGolomb where
  unit := 11
  get := State.ege
  set e s := { s with ege := e }

def egdSlot : Slot ExpGolomb where
  unit := 12
  get := State.egd
  set e s := { s with egd := e }

def rgeSlot : Slot RiceGolomb where
  unit := 13
  get := State.rge
  set e s := { s with rge := e }

def rgdSlot : Slot RiceGolomb where
  unit := 14
  get := State.rgd
  set e s := { s with rgd := e }

/-- An update of the registers of the coder `u` alone, which looks at nothing of the streams. -/
structure OwnUpdate (u : Nat) (f : State → State) : Prop where
  control : ∀ s, (f s).control = s.control
  coders : ∀ s k, k ≠ u → (f s).coder k = s.coder k
  streams : ∀ s t : State, f (s.withStreams t) = (f s).withStreams t
  kept : ∀ s : State, (f s).withStreams s = f s

theorem ownUpdate_id (u : Nat) : OwnUpdate u id := ⟨fun _ => rfl, fun _ _ _ => rfl, fun _ _ => rfl, fun _ => rfl⟩

theorem Slot.ownUpdate_of {E : Type} (slot : Slot E) {g : State → E} (hg : ∀ s t : State, g (s.withStreams t) = g s) :
    OwnUpdate slot.unit fun s => slot.set (g s) s where
  control _ := slot.control_set _ _
  coders _ _ := slot.coder_set _ _ _
  streams s t := by rw [hg, slot.set_withStreams]
  kept s := by rw [← slot.set_withStreams]; rfl

theorem Slot.ownUpdate {E : Type} (slot : Slot E) (g : E → E) : OwnUpdate slot.unit fun s => slot.set (g (slot.get s)) s :=
  slot.ownUpdate_of fun s t => by rw [slot.get_withStreams]

/-! ### Encoders -/

/-- What stands outside an encoder: what SINK was handed, how much more it takes, how many bytes the waiting command has handed over,
and what the host answers and does next. -/
structure Outside where
  sink : List Byte
  room : Nat
  sent : Nat
  source : List SourceAnswer
  host : List HostMove

def State.outside (s : State) : Outside := ⟨s.sink, s.sinkRoom, s.sent, s.source, s.host⟩

def State.within (s : State) (o : Outside) : State :=
  { s with sink := o.sink, sinkRoom := o.room, sent := o.sent, source := o.source, host := o.host }

/-- Operations that write the output and change the coder `u`, and raise nothing but what the writer raises. -/
inductive Runs (u : Nat) : {α : Type} → M α → Prop
  | pure {α : Type} (v : α) : Runs u (pure v : M α)
  | stick {α : Type} : Runs u (stick : M α)
  | look {α : Type} {f : State → M α} : (∀ (s : State) o, f (s.within o) = f s) → (∀ s, Runs u (f s)) → Runs u (look f)
  | own {f : State → State} : OwnUpdate u f → Runs u (update f)
  | putBits (v n : Nat) : Runs u (putBits v n)
  | putFlush (v n : Nat) : Runs u (Machine.putBits v n >>= fun _ => flushWriter)
  | bind {α β : Type} {x : M α} {f : α → M β} : Runs u x → (∀ v, Runs u (f v)) → Runs u (x >>= f)

/-- The bodies of an encoder's elements: what they raise themselves, they raise before they write. -/
inductive WriteElement (u : Nat) : {α : Type} → M α → Prop
  | runs {α : Type} {x : M α} : Runs u x → WriteElement u x
  | raise {α : Type} (c : FaultCode) : WriteElement u (raise c : M α)
  | look {α : Type} {f : State → M α} :
      (∀ (s : State) o, f (s.within o) = f s) → (∀ s, WriteElement u (f s)) → WriteElement u (look f)
  | bind {α β : Type} {x : M α} {f : α → M β} : WriteElement u x → (∀ v, Runs u (f v)) → WriteElement u (x >>= f)

/-- The bodies of the commands of the encoders and of BSW; only an array command counts its elements. -/
inductive Encodes (array : Prop) (u : Nat) : {α : Type} → M α → Prop
  | runs {α : Type} {x : M α} : Runs u x → Encodes array u x
  | raise {α : Type} (c : FaultCode) : Encodes array u (raise c : M α)
  | look {α : Type} {f : State → M α} :
      (∀ (s : State) o, f (s.within o) = f s) → (∀ s, Encodes array u (f s)) → Encodes array u (look f)
  | bind {α β : Type} {x : M α} {f : α → M β} : Encodes array u x → (∀ v, Encodes array u (f v)) → Encodes array u (x >>= f)
  | element {α : Type} {x : M α} : WriteElement u x → Encodes array u (element x)
  | elementAt {α : Type} {x : M α} (n : Nat) : array → WriteElement u x → Encodes array u (elementAt n x)
  | flush : Encodes array u flushWriter
  | openWriter : Encodes array u (update fun s => { s with bsw := writerFresh .opened })
  | close : Encodes array u closeWriter

/-! ### Decoders -/

/-- `s` with other SOURCE answers and other DATA. -/
def State.withSource (s : State) (source : List SourceAnswer) (data : Memory) : State := { s with source := source, data := data }

/-- Operations that read the input and change the coder `u`. -/
inductive Gets (u : Nat) : {α : Type} → M α → Prop
  | pure {α : Type} (v : α) : Gets u (pure v : M α)
  | raise {α : Type} (c : FaultCode) : Gets u (raise c : M α)
  | stick {α : Type} : Gets u (stick : M α)
  | look {α : Type} {f : State → M α} : (∀ s a m, f (s.withSource a m) = f s) → (∀ s, Gets u (f s)) → Gets u (look f)
  | own {f : State → State} : OwnUpdate u f → Gets u (update f)
  | getBits (n : Nat) : Gets u (getBits n)
  | bind {α β : Type} {x : M α} {f : α → M β} : Gets u x → (∀ v, Gets u (f v)) → Gets u (x >>= f)

/-- The bodies of a decoder's elements. A unary code stands first, its loop being bounded by the bits in reach at its start. -/
inductive ReadElement (u : Nat) : {α : Type} → M α → Prop
  | gets {α : Type} {x : M α} : Gets u x → ReadElement u x
  | unary {α : Type} {f : Nat → M α} : (∀ n, Gets u (f n)) → ReadElement u (unaryZeros >>= f)
  | look {α : Type} {f : State → M α} :
      (∀ s a m, f (s.withSource a m) = f s) → (∀ s, ReadElement u (f s)) → ReadElement u (look f)
  | map {α β : Type} {x : M α} (g : α → β) : ReadElement u x → ReadElement u (g <$> x)

/-- The bodies of the commands of the decoders and of BSR, but INIT of BSR, that store nothing. -/
inductive Reads (array : Prop) (u : Nat) : {α : Type} → M α → Prop
  | pure {α : Type} (v : α) : Reads array u (pure v : M α)
  | raise {α : Type} (c : FaultCode) : Reads array u (raise c : M α)
  | look {α : Type} {f : State → M α} :
      (∀ s a m, f (s.withSource a m) = f s) → (∀ s, Reads array u (f s)) → Reads array u (look f)
  | own {f : State → State} : OwnUpdate u f → Reads array u (update f)
  | closeReader : Reads array u (update fun s => { s with bsr.closed := true, bsr.ustate := .closed })
  | bind {α β : Type} {x : M α} {f : α → M β} : Reads array u x → (∀ v, Reads array u (f v)) → Reads array u (x >>= f)
  | element {α : Type} {x : M α} : ReadElement u x → Reads array u (element x)
  | elementAt {α : Type} {x : M α} (n : Nat) : array → ReadElement u x → Reads array u (elementAt n x)
  | orEnd {α : Type} {x : M α} (n : Nat) : array → ReadElement u x → Reads array u (elementOrEnd n x)

/-- The loops of the `DECODE` commands over the `len` bytes from `start` on, and what comes before and behind them. -/
inductive Stores (u start len : Nat) : {α : Type} → M α → Prop
  | loop {before : Nat → State → State} {code : M (Option Byte)} : (∀ i, OwnUpdate u (before i)) → ReadElement u code →
      Stores u start len (decodeFrom (fun i => update (before i)) code start len 0)
  | continued : ReadElement u (fpdElement decodeBit) → ReadElement u (fpdElement decodeByte) →
      Stores u start len (fpDecodeFrom start len 0)
  | first {α β : Type} {x : M α} {f : Option α → M β} (n : Nat) {w : β} : ReadElement u x → f none = pure w →
      (∀ v, Stores u start len (f (some v))) → Stores u start len (elementOrEnd n x >>= f)
  | answer {α β : Type} {x : M α} (g : α → β) : Stores u start len x → Stores u start len (x >>= fun v => pure (g v))

/-- The bodies of the commands of the decoders and of BSR. -/
inductive Decodes (array : Prop) (u : Nat) : M Word64 → Prop
  | reads {x : M Word64} : Reads array u x → Decodes array u x
  | stores {state : State → CoderState} {body : Nat → Nat → M Word64} : array → (∀ s a m, state (s.withSource a m) = state s) →
      (∀ start len, Stores u start len (body start len)) → Decodes array u (look fun s => onArray (state s) body)

end Sys2Proof.Machine
end

section
/-! SUPPORT. Each command's body is built from the operations of the grammar: the coders' steps, their elements, the commands. -/

namespace Sys2Proof.Machine

variable {α β : Type} {u : Nat} {array : Prop}

/-! ### The encoders' steps -/

theorem runs_renormalize (k : Nat) (low high : BitVec 32) (a : Unit) : Runs u (renormalize shiftOut k low high a) := by
  induction k generalizing low high a with
  | zero => exact .pure _
  | succ k ih =>
    unfold renormalize
    split
    · exact .bind (.putBits _ _) fun _ => ih _ _ _
    · exact .pure _

theorem runs_encodeBit (e : BinaryEncoder) (bit : Bool) : Runs u (encodeBit e bit) :=
  .bind (runs_renormalize 4 _ _ _) fun _ => .pure _

theorem runs_encodeBits (e : BinaryEncoder) (bits : List Bool) : Runs u (encodeBits e bits) := by
  induction bits generalizing e with
  | nil => exact .pure e
  | cons b bits ih => exact .bind (runs_encodeBit e b) fun e => ih e

theorem runs_encodeByte (e : BinaryEncoder) (v : Byte) : Runs u (encodeByte e v) := runs_encodeBits e _

theorem runs_fpEncodeByte (e : BinaryEncoder) (v : Byte) : Runs u (fpEncodeByte e v) :=
  .bind (runs_encodeBit e false) fun e => runs_encodeByte e v

theorem runs_flushInterval (e : BinaryEncoder) : Runs u (flushInterval e) := .putFlush _ _

theorem runs_renormRange (clamp : ClampMask) (k : Nat) (low range : Word56) (a : Unit) :
    Runs u (renormRange clamp rangeShiftOut k low range a) := by
  induction k generalizing low range a with
  | zero => exact .pure _
  | succ k ih =>
    unfold renormRange
    split
    · exact .pure _
    · split
      · exact .stick
      · exact .bind (.putBits _ _) fun _ => ih _ _ _

/-- A degenerate range is found before anything is written. -/
theorem writeElement_encodeSymbol (e : RangeEncoder) (sym : Nat) : WriteElement u (encodeSymbol e sym) := by
  refine .look (fun _ _ => rfl) fun s => ?_
  dsimp only
  split
  · exact .raise _
  · exact .runs (.bind (runs_renormRange _ _ _ _ _) fun _ => .pure _)

theorem runs_putZeros (n : Nat) : Runs u (putZeros n) := by
  induction n with
  | zero => exact .pure _
  | succ n ih => exact .bind (.putBits 0 1) fun _ => ih

theorem runs_putSign (signed : Bool) (m : Nat) (neg : Bool) : Runs u (putSign signed m neg) := by
  unfold putSign
  split
  · exact .putBits _ _
  · exact .pure _

theorem runs_putExpGolomb (signed : Bool) (m : Nat) (neg : Bool) : Runs u (putExpGolomb signed m neg) :=
  .bind (runs_putZeros _) fun _ => .bind (.putBits _ _) fun _ => runs_putSign signed m neg

theorem runs_putRice (signed : Bool) (k m : Nat) (neg : Bool) : Runs u (putRice signed k m neg) :=
  .bind (runs_putZeros _) fun _ => .bind (.putBits _ _) fun _ => .bind (.putBits _ _) fun _ => runs_putSign signed m neg

theorem runs_putFields (w : Nat) (vs : List Nat) : Runs u (putFields w vs) := by
  induction vs with
  | nil => exact .pure _
  | cons v vs ih => exact .bind (.putBits v w) fun _ => ih

theorem runs_writeHeader (sizes : Table (BitVec 8) 256) : Runs u (writeHeader sizes) := by
  refine .bind (.putBits _ _) fun _ => .bind (.putBits _ _) fun _ => ?_
  split
  · exact .pure _
  · exact runs_putFields _ _

/-! ### The encoders' elements -/

theorem runs_beeElement {code : BinaryEncoder → M BinaryEncoder} (h : ∀ e, Runs 3 (code e)) : Runs 3 (beeElement code) :=
  .look (fun _ _ => rfl) fun _ => .bind (h _) fun e => .own (beeSlot.ownUpdate fun _ => e)

theorem runs_fpeElement {code : BinaryEncoder → M BinaryEncoder} (h : ∀ e, Runs 5 (code e)) : Runs 5 (fpeElement code) :=
  .look (fun _ _ => rfl) fun _ => .bind (h _) fun e => .own (fpeSlot.ownUpdate fun _ => e)

theorem writeElement_rceElement (v : Byte) : WriteElement 7 (rceElement v) :=
  .look (fun _ _ => rfl) fun _ => .bind (writeElement_encodeSymbol _ _) fun e => .own (rceSlot.ownUpdate fun _ => e)

theorem runs_hfeHeader (start len : Nat) : Runs 9 (hfeHeader start len) :=
  .look (fun _ _ => rfl) fun _ =>
    .bind (runs_writeHeader _) fun _ => .own (hfeSlot.ownUpdate fun h => { h with sizes := _, codes := _ })

theorem runs_hfeElement (v : Byte) : Runs u (hfeElement v) := .look (fun _ _ => rfl) fun _ => .putBits _ _

theorem runs_egeElement (v : Byte) : Runs u (egeElement v) := .look (fun _ _ => rfl) fun _ => runs_putExpGolomb _ _ _

theorem runs_rgeElement (v : Byte) : Runs u (rgeElement v) := .look (fun _ _ => rfl) fun _ => runs_putRice _ _ _ _

/-! ### The checks and loops of the encoders' commands -/

theorem encodes_onReady {x : M α} (h : Encodes array u x) (c : CoderState) : Encodes array u (onReady c x) := by
  cases c
  case ready => exact h
  all_goals exact .raise _

theorem encodes_onStream {x : M α} (h : Encodes array u x) (c : StreamState) : Encodes array u (onStream c x) := by
  unfold onStream
  split
  · exact .raise _
  · exact h

theorem encodes_onDispose {x : M Unit} (h : Encodes array u x) (c : CoderState) : Encodes array u (onDispose c x) := by
  cases c
  case ready => exact .bind h fun _ => .runs (.pure 0)
  case disposed => exact .runs (.pure 0)
  all_goals exact .raise _

theorem writeElement_onReady (c : CoderState) : WriteElement u (onReady c (pure ())) := by
  cases c
  case ready => exact .runs (.pure ())
  all_goals exact .raise _

theorem encodes_onArray (ha : array) {body : Nat → Nat → M Word64} (h : ∀ start len, Encodes array u (body start len))
    (c : CoderState) : Encodes array u (onArray c body) := by
  refine .bind (.elementAt 0 ha (writeElement_onReady c)) fun _ => .look (fun _ _ => rfl) fun s => ?_
  split
  · exact h _ _
  · exact .runs (.pure _)

theorem encodes_encodeFrom (ha : array) {before : Nat → M Unit} {code : Byte → M Unit} (hb : ∀ i, Runs u (before i))
    (hc : ∀ v, WriteElement u (code v)) (start n i : Nat) : Encodes array u (encodeFrom before code start n i) := by
  induction n generalizing i with
  | zero => exact .runs (.pure ())
  | succ n ih =>
    exact .bind (.runs (hb i)) fun _ =>
      .bind (.elementAt i ha (.look (f := fun s => code (dataByte s (start + i))) (fun _ _ => rfl) fun _ => hc _))
        fun _ => ih (i + 1)

theorem encodes_encodeAll (ha : array) {before : Nat → M Unit} {code : Byte → M Unit} (hb : ∀ i, Runs u (before i))
    (hc : ∀ v, WriteElement u (code v)) (start n : Nat) : Encodes array u (encodeAll before code start n) :=
  .bind (encodes_encodeFrom ha hb hc start n 0) fun _ => .runs (.pure _)

theorem runs_noChunk (i : Nat) : Runs u (noChunk i) := .pure ()

theorem rceChunk_eq (len i : Nat) :
    rceChunk len i = update fun s =>
      rceSlot.set (if chunkStart s.rce.chunkSize len i then { s.rce with freq := flatTable } else s.rce) s := by
  funext s
  rw [rceChunk, update_run, update_run]
  split <;> rfl

theorem runs_rceChunk (len i : Nat) : Runs 7 (rceChunk len i) := by
  rw [rceChunk_eq]
  exact .own (rceSlot.ownUpdate fun e => if chunkStart e.chunkSize len i then { e with freq := flatTable } else e)

/-! ### The commands of the encoders and of BSW -/

/-- A body that looks at the state first, and that a command may look at beside what it waits with. -/
theorem encodes_command {i : Instr} {f : State → M Word64} (hf : ∀ (s : State) o, f (s.within o) = f s)
    (hr : ∀ s, f (resume s) = f s) (h : ∀ s, Encodes array u (f s)) :
    ∃ body, Encodes array u body ∧ ∀ s, command i (f s) s = command i body s := by
  refine ⟨look f, .look hf h, fun s => ?_⟩
  rw [command, command, look_run, hr]

/-- Every command of an encoder or of BSW runs one body, whatever the state. -/
theorem exec_encodes (i : Instr) (hi : i.unit.toNat % 2 = 1) :
    ∃ body, Encodes (IsArray i) i.unit.toNat body ∧ ∀ s, exec i s = command i body s := by
  cases i
  case bswInit => exact ⟨_, .bind .openWriter fun _ => .runs (.pure 0), fun _ => rfl⟩
  case bswWrbit =>
    exact encodes_command (fun _ _ => rfl) (fun _ => rfl) fun s => .runs (.bind (.putBits _ 1) fun _ => .pure 1)
  case bswWrbits n =>
    refine encodes_command (fun _ _ => rfl) (fun _ => rfl) fun s => .bind ?_ fun _ =>
      .runs (.bind (.putBits _ _) fun _ => .pure _)
    refine .look (fun _ _ => rfl) fun s => ?_
    split
    · exact .raise _
    · split
      · exact .raise _
      · split
        · exact .raise _
        · exact .runs (.pure ())
  case bswFlush =>
    exact encodes_command (fun _ _ => rfl) (fun _ => rfl) fun s =>
      encodes_onStream (.bind .flush fun _ => .runs (.pure 0)) _
  case bswClose =>
    exact encodes_command (fun _ _ => rfl) (fun _ => rfl) fun s =>
      encodes_onStream (.bind .close fun _ => .runs (.pure 0)) _
  case bswWritten =>
    exact encodes_command (fun _ _ => rfl) (fun _ => rfl) fun s => encodes_onStream (.runs (.pure _)) _
  case beeInit k =>
    refine ⟨_, ?_, fun _ => rfl⟩
    split
    · exact .raise _
    · exact .runs (.bind (.own (beeSlot.ownUpdate fun _ => _)) fun _ => .pure 0)
  case beeEncbit =>
    exact encodes_command (fun _ _ => rfl) (fun _ => rfl) fun s =>
      encodes_onReady (.bind (.element (.runs (runs_beeElement fun e => runs_encodeBit e _))) fun _ => .runs (.pure 0)) _
  case beeEncbyte =>
    exact encodes_command (fun _ _ => rfl) (fun _ => rfl) fun s =>
      encodes_onReady (.bind (.element (.runs (runs_beeElement fun e => runs_encodeByte e _))) fun _ => .runs (.pure 0)) _
  case beeEncode =>
    exact encodes_command (fun _ _ => rfl) (fun _ => rfl) fun s =>
      encodes_onArray rfl (encodes_encodeAll rfl runs_noChunk fun v => .runs (runs_beeElement fun e => runs_encodeByte e v)) _
  case beeDispose =>
    exact encodes_command (fun _ _ => rfl) (fun _ => rfl) fun s =>
      encodes_onDispose (.element (.runs (.bind (runs_flushInterval _) fun _ =>
        .own (beeSlot.ownUpdate fun e => { e with ustate := .disposed })))) _
  case fpeInit k =>
    refine ⟨_, ?_, fun _ => rfl⟩
    split
    · exact .raise _
    · exact .runs (.bind (.own (fpeSlot.ownUpdate fun _ => _)) fun _ => .pure 0)
  case fpeEncbyte =>
    exact encodes_command (fun _ _ => rfl) (fun _ => rfl) fun s =>
      encodes_onReady (.bind (.element (.runs (runs_fpeElement fun e => runs_fpEncodeByte e _))) fun _ => .runs (.pure 0)) _
  case fpeEncode =>
    exact encodes_command (fun _ _ => rfl) (fun _ => rfl) fun s =>
      encodes_onArray rfl (encodes_encodeAll rfl runs_noChunk fun v => .runs (runs_fpeElement fun e => runs_fpEncodeByte e v)) _
  case fpeDispose =>
    exact encodes_command (fun _ _ => rfl) (fun _ => rfl) fun s =>
      encodes_onDispose (.element (.runs (.bind (runs_encodeBit _ _) fun e => .bind (runs_flushInterval _) fun _ =>
        .own (fpeSlot.ownUpdate fun _ => { e with ustate := .disposed })))) _
  case rceInit =>
    refine encodes_command (fun _ _ => rfl) (fun _ => rfl) fun s => ?_
    split
    · exact .runs (.bind (.own (rceSlot.ownUpdate_of fun _ _ => rfl)) fun _ => .pure 0)
    · exact .raise _
  case rceEncbyte =>
    exact encodes_command (fun _ _ => rfl) (fun _ => rfl) fun s =>
      encodes_onReady (.bind (.element (writeElement_rceElement _)) fun _ => .runs (.pure 0)) _
  case rceEncode =>
    exact encodes_command (fun _ _ => rfl) (fun _ => rfl) fun s =>
      encodes_onArray rfl (fun start len => encodes_encodeAll rfl (runs_rceChunk len) writeElement_rceElement start len) _
  case rceDispose =>
    exact encodes_command (fun _ _ => rfl) (fun _ => rfl) fun s =>
      encodes_onDispose (.element (.runs (.bind (.putBits _ _) fun _ =>
        .own (rceSlot.ownUpdate fun e => { e with ustate := .disposed })))) _
  case hfeInit => exact ⟨_, .runs (.bind (.own (hfeSlot.ownUpdate fun _ => _)) fun _ => .pure 0), fun _ => rfl⟩
  case hfeEncode =>
    exact encodes_command (fun _ _ => rfl) (fun _ => rfl) fun s =>
      encodes_onArray rfl (fun start len => .bind (.elementAt 0 rfl (.runs (runs_hfeHeader start len))) fun _ =>
        encodes_encodeAll rfl runs_noChunk (fun v => .runs (runs_hfeElement v)) start len) _
  case hfeDispose =>
    exact encodes_command (fun _ _ => rfl) (fun _ => rfl) fun s =>
      encodes_onDispose (.runs (.own (hfeSlot.ownUpdate fun e => { e with ustate := .disposed }))) _
  case egeInit signed => exact ⟨_, .runs (.bind (.own (egeSlot.ownUpdate fun _ => _)) fun _ => .pure 0), fun _ => rfl⟩
  case egeEncbyte =>
    exact encodes_command (fun _ _ => rfl) (fun _ => rfl) fun s =>
      encodes_onReady (.bind (.element (.runs (runs_egeElement _))) fun _ => .runs (.pure 0)) _
  case egeEncode =>
    exact encodes_command (fun _ _ => rfl) (fun _ => rfl) fun s =>
      encodes_onArray rfl (encodes_encodeAll rfl runs_noChunk fun v => .runs (runs_egeElement v)) _
  case egeDispose =>
    exact encodes_command (fun _ _ => rfl) (fun _ => rfl) fun s =>
      encodes_onDispose (.runs (.own (egeSlot.ownUpdate fun e => { e with ustate := .disposed }))) _
  case rgeInit signed l =>
    refine ⟨_, ?_, fun _ => rfl⟩
    split
    · exact .runs (.bind (.own (rgeSlot.ownUpdate fun _ => _)) fun _ => .pure 0)
    · exact .raise _
  case rgeEncbyte =>
    exact encodes_command (fun _ _ => rfl) (fun _ => rfl) fun s =>
      encodes_onReady (.bind (.element (.runs (runs_rgeElement _))) fun _ => .runs (.pure 0)) _
  case rgeEncode =>
    exact encodes_command (fun _ _ => rfl) (fun _ => rfl) fun s =>
      encodes_onArray rfl (encodes_encodeAll rfl runs_noChunk fun v => .runs (runs_rgeElement v)) _
  case rgeDispose =>
    exact encodes_command (fun _ _ => rfl) (fun _ => rfl) fun s =>
      encodes_onDispose (.runs (.own (rgeSlot.ownUpdate fun e => { e with ustate := .disposed }))) _
  all_goals exact absurd hi (by simp only [Instr.unit]; decide)

/-! ### The decoders' steps -/

theorem gets_seedDecoder (d : BinaryDecoder) : Gets u (seedDecoder d) := by
  unfold seedDecoder
  split
  · exact .pure d
  · exact .bind (.getBits 32) fun _ => .pure _

theorem gets_renormalize (k : Nat) (low high current : BitVec 32) : Gets u (renormalize shiftIn k low high current) := by
  induction k generalizing low high current with
  | zero => exact .pure _
  | succ k ih =>
    unfold renormalize
    split
    · exact .bind (.bind (.getBits 8) fun _ => .pure _) fun _ => ih _ _ _
    · exact .pure _

theorem gets_decodeBit (d : BinaryDecoder) : Gets u (decodeBit d) :=
  .bind (gets_seedDecoder d) fun _ => .bind (gets_renormalize 4 _ _ _) fun _ => .pure _

theorem gets_decodeBits (d : BinaryDecoder) (n v : Nat) : Gets u (decodeBits d n v) := by
  induction n generalizing d v with
  | zero => exact .pure _
  | succ n ih => exact .bind (gets_decodeBit d) fun _ => ih _ _

theorem gets_decodeByte (d : BinaryDecoder) : Gets u (decodeByte d) := .bind (gets_decodeBits d 8 0) fun _ => .pure _

theorem gets_seedRange (d : RangeDecoder) : Gets u (seedRange d) := by
  unfold seedRange
  split
  · exact .pure d
  · exact .bind (.getBits 56) fun _ => .pure _

theorem gets_renormRange (clamp : ClampMask) (k : Nat) (low range code : Word56) :
    Gets u (renormRange clamp rangeShiftIn k low range code) := by
  induction k generalizing low range code with
  | zero => exact .pure _
  | succ k ih =>
    unfold renormRange
    split
    · exact .pure _
    · split
      · exact .stick
      · exact .bind (.bind (.getBits 8) fun _ => .pure _) fun _ => ih _ _ _

theorem gets_decodeSymbol (d : RangeDecoder) : Gets u (decodeSymbol d) := by
  refine .look (fun _ _ _ => rfl) fun s => .bind (gets_seedRange d) fun d => ?_
  dsimp only
  split
  · exact .raise _
  · split
    · exact .raise _
    · exact .bind (gets_renormRange _ _ _ _ _) fun _ => .pure _

theorem gets_appendBits (n x : Nat) : Gets u (appendBits n x) := by
  induction n generalizing x with
  | zero => exact .pure x
  | succ n ih => exact .bind (.getBits 1) fun b => ih _

theorem gets_getSign (signed : Bool) (m : Nat) : Gets u (getSign signed m) := by
  unfold getSign
  split
  · exact .bind (.getBits 1) fun _ => .pure _
  · exact .pure _

theorem gets_getFields (w n : Nat) : Gets u (getFields w n) := by
  induction n with
  | zero => exact .pure []
  | succ n ih => exact .bind (.getBits w) fun v => .bind ih fun vs => .pure _

theorem gets_readHeader : Gets u readHeader := by
  refine .bind (.getBits 1) fun flag => ?_
  have hrest : ∀ lengths : List Nat, Gets u (if headerValid lengths then
      pure (Table.ofFn 256 fun sym => BitVec.ofNat 8 (lengths.getD sym 0)) else raise .invalidStream) := by
    intro lengths
    split
    · exact .pure _
    · exact .raise _
  split
  · exact .raise _
  · refine .bind (.getBits 5) fun w => ?_
    dsimp only
    split
    · exact .bind (.pure _) hrest
    · exact .bind (gets_getFields _ _) hrest

theorem gets_descend (h : Huffman) (n v l : Nat) : Gets u (descend h n v l) := by
  induction n generalizing v l with
  | zero => exact .raise _
  | succ n ih =>
    refine .bind (.getBits 1) fun b => ?_
    split
    · exact .pure _
    · exact ih _ _

/-! ### The decoders' elements -/

theorem gets_bedElement {code : BinaryDecoder → M (α × BinaryDecoder)} (h : ∀ d, Gets 4 (code d)) : Gets 4 (bedElement code) :=
  .look (fun _ _ _ => rfl) fun _ => .bind (h _) fun r => .bind (.own (bedSlot.ownUpdate fun _ => r.2)) fun _ => .pure _

theorem gets_fpdElement {code : BinaryDecoder → M (α × BinaryDecoder)} (h : ∀ d, Gets 6 (code d)) : Gets 6 (fpdElement code) :=
  .look (fun _ _ _ => rfl) fun _ => .bind (h _) fun r => .bind (.own (fpdSlot.ownUpdate fun _ => r.2)) fun _ => .pure _

theorem gets_rcdElement : Gets 8 rcdElement :=
  .look (fun _ _ _ => rfl) fun _ => .bind (gets_decodeSymbol _) fun r => .bind (.own (rcdSlot.ownUpdate fun _ => r.2)) fun _ => .pure _

theorem gets_hfdHeader (len : Nat) : Gets 10 (hfdHeader len) := by
  refine .bind gets_readHeader fun sizes => ?_
  split
  · exact .raise _
  · exact .own (hfdSlot.ownUpdate fun h => { h with sizes := _, codes := _ })

theorem gets_hfdElement : Gets u hfdElement := .look (fun _ _ _ => rfl) fun _ => gets_descend _ _ _ _

theorem readElement_egdElement : ReadElement u egdElement :=
  .look (fun _ _ _ => rfl) fun _ => .unary fun _ => .bind (gets_appendBits _ _) fun _ => .bind (gets_getSign _ _) fun _ => .pure _

theorem readElement_rgdElement : ReadElement u rgdElement :=
  .look (fun _ _ _ => rfl) fun _ => .unary fun _ => .bind (.getBits _) fun _ => .bind (gets_getSign _ _) fun _ => .pure _

/-! ### The checks and loops of the decoders' commands -/

theorem reads_onReady {x : M α} (h : Reads array u x) (c : CoderState) : Reads array u (onReady c x) := by
  cases c
  case ready => exact h
  all_goals exact .raise _

theorem reads_onStream {x : M α} (h : Reads array u x) (c : StreamState) : Reads array u (onStream c x) := by
  unfold onStream
  split
  · exact .raise _
  · exact h

theorem reads_onDispose {x : M Unit} (h : Reads array u x) (c : CoderState) : Reads array u (onDispose c x) := by
  cases c
  case ready => exact .bind h fun _ => .pure 0
  case disposed => exact .pure 0
  all_goals exact .raise _

theorem rcdChunk_eq (len i : Nat) :
    rcdChunk len i = update fun s =>
      rcdSlot.set (if chunkStart s.rcd.chunkSize len i then { s.rcd with freq := flatTable } else s.rcd) s := by
  funext s
  rw [rcdChunk, update_run, update_run]
  split <;> rfl

theorem stores_decodeAll {code : M (Option Byte)} (hc : ReadElement u code) (start len : Nat) :
    Stores u start len (decodeAll noChunk code start len) :=
  .answer (BitVec.ofNat 64) (.loop (before := fun _ => id) (fun _ => ownUpdate_id u) hc)

theorem stores_rcd_decodeAll {code : M (Option Byte)} (hc : ReadElement 8 code) (start len : Nat) :
    Stores 8 start len (decodeAll (rcdChunk len) code start len) := by
  have hbefore : rcdChunk len = fun i => update fun s =>
      rcdSlot.set (if chunkStart s.rcd.chunkSize len i then { s.rcd with freq := flatTable } else s.rcd) s :=
    funext fun i => rcdChunk_eq len i
  rw [hbefore]
  exact .answer (BitVec.ofNat 64) (.loop
    (fun i => rcdSlot.ownUpdate fun d => if chunkStart d.chunkSize len i then { d with freq := flatTable } else d) hc)

/-! ### The commands of the decoders and of BSR -/

theorem decodes_command {i : Instr} {f : State → M Word64} (hf : ∀ s a m, f (s.withSource a m) = f s)
    (hr : ∀ s, f (resume s) = f s) (h : ∀ s, Reads array u (f s)) :
    ∃ body, Decodes array u body ∧ ∀ s, command i (f s) s = command i body s := by
  refine ⟨look f, .reads (.look hf h), fun s => ?_⟩
  rw [command, command, look_run, hr]

theorem decodes_array {i : Instr} {state : State → CoderState} {body : Nat → Nat → M Word64} (ha : array)
    (hf : ∀ s a m, state (s.withSource a m) = state s) (hr : ∀ s, state (resume s) = state s)
    (h : ∀ start len, Stores u start len (body start len)) :
    ∃ b, Decodes array u b ∧ ∀ s, command i (onArray (state s) body) s = command i b s := by
  refine ⟨look fun s => onArray (state s) body, .stores ha hf h, fun s => ?_⟩
  rw [command, command, look_run, hr]

/-- Every command of a decoder or of BSR, but INIT of BSR, runs one body, whatever the state. -/
theorem exec_decodes (i : Instr) (hi : i.unit.toNat % 2 = 0) (h0 : i.unit ≠ 0) (hinit : i ≠ .bsrInit) :
    ∃ body, Decodes (IsArray i) i.unit.toNat body ∧ ∀ s, exec i s = command i body s := by
  cases i
  case bsrInit => exact absurd rfl hinit
  case bsrRdbit =>
    exact ⟨_, .reads (.element (.gets (.bind (.getBits 1) fun _ => .pure _))), fun _ => rfl⟩
  case bsrRdbits n =>
    refine ⟨_, .reads (.element (.gets (.bind (.look (fun _ _ _ => rfl) fun s => ?_) fun _ =>
      .bind (.getBits n) fun _ => .pure _))), fun _ => rfl⟩
    split
    · exact .raise _
    · split
      · exact .raise _
      · split
        · exact .raise _
        · exact .pure ()
  case bsrClose =>
    exact decodes_command (fun _ _ _ => rfl) (fun _ => rfl) fun s => reads_onStream (.bind .closeReader fun _ => .pure 0) _
  case bsrRead => exact decodes_command (fun _ _ _ => rfl) (fun _ => rfl) fun s => reads_onStream (.pure _) _
  case bedInit k =>
    refine ⟨_, .reads ?_, fun _ => rfl⟩
    split
    · exact .raise _
    · exact .bind (.own (bedSlot.ownUpdate fun _ => _)) fun _ => .pure 0
  case bedDecbit =>
    exact decodes_command (fun _ _ _ => rfl) (fun _ => rfl) fun s =>
      reads_onReady (.bind (.element (.gets (gets_bedElement gets_decodeBit))) fun _ => .pure _) _
  case bedDecbyte =>
    exact decodes_command (fun _ _ _ => rfl) (fun _ => rfl) fun s =>
      reads_onReady (.bind (.element (.gets (gets_bedElement gets_decodeByte))) fun _ => .pure _) _
  case bedDecode =>
    exact decodes_array rfl (fun _ _ _ => rfl) (fun _ => rfl) fun start len =>
      stores_decodeAll (.map some (.gets (gets_bedElement gets_decodeByte))) start len
  case bedDispose =>
    exact decodes_command (fun _ _ _ => rfl) (fun _ => rfl) fun s =>
      reads_onDispose (.own (bedSlot.ownUpdate fun d => { d with ustate := .disposed })) _
  case fpdInit k =>
    refine ⟨_, .reads ?_, fun _ => rfl⟩
    split
    · exact .raise _
    · exact .bind (.own (fpdSlot.ownUpdate fun _ => _)) fun _ => .pure 0
  case fpdDecbit =>
    exact decodes_command (fun _ _ _ => rfl) (fun _ => rfl) fun s =>
      reads_onReady (.bind (.element (.gets (gets_fpdElement gets_decodeBit))) fun _ => .pure _) _
  case fpdDecbyte =>
    exact decodes_command (fun _ _ _ => rfl) (fun _ => rfl) fun s =>
      reads_onReady (.bind (.element (.gets (gets_fpdElement gets_decodeByte))) fun _ => .pure _) _
  case fpdDecode =>
    exact decodes_array rfl (fun _ _ _ => rfl) (fun _ => rfl) fun start len =>
      .answer (BitVec.ofNat 64) (.continued (.gets (gets_fpdElement gets_decodeBit)) (.gets (gets_fpdElement gets_decodeByte)))
  case fpdDispose =>
    exact decodes_command (fun _ _ _ => rfl) (fun _ => rfl) fun s =>
      reads_onDispose (.own (fpdSlot.ownUpdate fun d => { d with ustate := .disposed })) _
  case rcdInit =>
    refine decodes_command (fun _ _ _ => rfl) (fun _ => rfl) fun s => ?_
    split
    · exact .bind (.own (rcdSlot.ownUpdate_of fun _ _ => rfl)) fun _ => .pure 0
    · exact .raise _
  case rcdDecbyte =>
    exact decodes_command (fun _ _ _ => rfl) (fun _ => rfl) fun s =>
      reads_onReady (.bind (.element (.gets gets_rcdElement)) fun _ => .pure _) _
  case rcdDecode =>
    exact decodes_array rfl (fun _ _ _ => rfl) (fun _ => rfl) fun start len =>
      stores_rcd_decodeAll (.map symbolByte (.gets gets_rcdElement)) start len
  case rcdDispose =>
    exact decodes_command (fun _ _ _ => rfl) (fun _ => rfl) fun s =>
      reads_onDispose (.own (rcdSlot.ownUpdate fun d => { d with ustate := .disposed })) _
  case hfdInit => exact ⟨_, .reads (.bind (.own (hfdSlot.ownUpdate fun _ => _)) fun _ => .pure 0), fun _ => rfl⟩
  case hfdDecode =>
    refine decodes_array rfl (fun _ _ _ => rfl) (fun _ => rfl) fun start len =>
      .first 0 (.gets (gets_hfdHeader len)) rfl fun _ => stores_decodeAll (.map some (.gets gets_hfdElement)) start len
  case hfdDispose =>
    exact decodes_command (fun _ _ _ => rfl) (fun _ => rfl) fun s =>
      reads_onDispose (.own (hfdSlot.ownUpdate fun h => { h with ustate := .disposed })) _
  case egdInit signed => exact ⟨_, .reads (.bind (.own (egdSlot.ownUpdate fun _ => _)) fun _ => .pure 0), fun _ => rfl⟩
  case egdDecbyte =>
    exact decodes_command (fun _ _ _ => rfl) (fun _ => rfl) fun s =>
      reads_onReady (.bind (.element readElement_egdElement) fun _ => .pure _) _
  case egdDecode =>
    exact decodes_array rfl (fun _ _ _ => rfl) (fun _ => rfl) fun start len =>
      stores_decodeAll (.map some readElement_egdElement) start len
  case egdDispose =>
    exact decodes_command (fun _ _ _ => rfl) (fun _ => rfl) fun s =>
      reads_onDispose (.own (egdSlot.ownUpdate fun g => { g with ustate := .disposed })) _
  case rgdInit signed l =>
    refine ⟨_, .reads ?_, fun _ => rfl⟩
    split
    · exact .bind (.own (rgdSlot.ownUpdate fun _ => _)) fun _ => .pure 0
    · exact .raise _
  case rgdDecbyte =>
    exact decodes_command (fun _ _ _ => rfl) (fun _ => rfl) fun s =>
      reads_onReady (.bind (.element readElement_rgdElement) fun _ => .pure _) _
  case rgdDecode =>
    exact decodes_array rfl (fun _ _ _ => rfl) (fun _ => rfl) fun start len =>
      stores_decodeAll (.map some readElement_rgdElement) start len
  case rgdDispose =>
    exact decodes_command (fun _ _ _ => rfl) (fun _ => rfl) fun s =>
      reads_onDispose (.own (rgdSlot.ownUpdate fun g => { g with ustate := .disposed })) _
  case sysNop | sysSreset | sysUstate => exact absurd rfl h0
  all_goals exact absurd hi (by simp only [Instr.unit]; decide)

/-- The SYS commands but SRESET answer a value and do no more. -/
theorem exec_sys (i : Instr) (h0 : i.unit = 0) (h : i ≠ .sysSreset) (s : State) :
    ∃ v, exec i s = command i (pure v) s := by
  cases i
  case sysNop => exact ⟨0, rfl⟩
  case sysUstate u => exact ⟨unitState (resume s) u, rfl⟩
  case sysSreset => exact absurd rfl h
  all_goals exact absurd h0 (by simp only [Instr.unit]; decide)

end Sys2Proof.Machine
end

section
/-! SUPPORT. A relation between the state before and after an operation that every operation of a body keeps holds of the whole body. -/

namespace Sys2Proof.Machine

variable {α β : Type} {u : Nat} {array : Prop} {R : State → State → Prop}

/-- The state an operation reached, however it ended. -/
def reached : EStateM.Result Stop State α → State
  | .ok _ t => t
  | .error _ t => t

@[simp] theorem reached_ok (v : α) (t : State) : reached (.ok v t : EStateM.Result Stop State α) = t := rfl

@[simp] theorem reached_error (e : Stop) (t : State) : reached (.error e t : EStateM.Result Stop State α) = t := rfl

/-- From each state, the operation reaches a state in the relation. -/
def Keeps (R : State → State → Prop) (x : M α) : Prop := ∀ s, R s (reached (x s))

/-- What the relation of a body must be for all of the body to keep it: undoing an element, updating the unit's registers and, in an
array command, counting the elements keep it. -/
structure Stable (array : Prop) (u : Nat) (R : State → State → Prop) : Prop where
  refl : ∀ s, R s s
  trans : ∀ r s t, R r s → R s t → R r t
  undo : ∀ s t, R s t → R s (undo s t)
  own : ∀ f, OwnUpdate u f → ∀ s, R s (f s)
  count : array → ∀ s v, R s { s with res := v }

namespace Stable

variable (h : Stable array u R)
include h

theorem pure (v : α) : Keeps R (pure v : M α) := fun s => h.refl s

theorem raise (c : FaultCode) : Keeps R (raise c : M α) := fun s => h.refl s

theorem stick : Keeps R (stick : M α) := fun s => h.refl s

theorem bind {x : M α} {f : α → M β} (hx : Keeps R x) (hf : ∀ v, Keeps R (f v)) : Keeps R (x >>= f) := by
  intro s
  have hs := hx s
  rw [bind_run]
  cases hr : x s with
  | ok v t =>
    rw [hr] at hs
    exact h.trans _ _ _ hs (hf v t)
  | error e t =>
    rw [hr] at hs
    exact hs

theorem update {f : State → State} (hf : OwnUpdate u f) : Keeps R (update f) := h.own f hf

theorem element {x : M α} (hx : Keeps R x) : Keeps R (element x) := by
  intro s
  have hs := hx s
  cases hr : x s with
  | ok v t =>
    rw [hr] at hs
    rw [element_ok hr]
    exact hs
  | error e t =>
    rw [hr] at hs
    cases e with
    | fault c =>
      rw [element_fault hr]
      exact h.undo _ _ hs
    | clamped =>
      rw [element_clamped hr]
      exact hs
    | wait p =>
      rw [element_wait hr]
      exact hs

theorem elementAt (ha : array) (n : Nat) {x : M α} (hx : Keeps R x) : Keeps R (elementAt n x) := by
  intro s
  have hs := h.element hx s
  cases hr : Machine.element x s with
  | ok v t =>
    rw [hr] at hs
    simpa only [Machine.elementAt, hr] using hs
  | error e t =>
    rw [hr] at hs
    have hcount := h.trans _ _ _ hs (h.count ha t (BitVec.ofNat 64 n))
    cases e <;> simpa only [Machine.elementAt, hr]

theorem orEnd (ha : array) (n : Nat) {x : M α} (hx : Keeps R x) : Keeps R (elementOrEnd n x) := by
  intro s
  have hs := h.elementAt ha n hx s
  unfold elementOrEnd
  split <;> rename_i hr <;> rw [hr] at hs <;> exact hs

end Stable

theorem keeps_look {f : State → M α} (hf : ∀ s, Keeps R (f s)) : Keeps R (look f) := fun s => hf s s

theorem Keeps.map {x : M α} (hx : Keeps R x) (g : α → β) : Keeps R (g <$> x) := by
  intro s
  have hs := hx s
  rw [map_run]
  cases hr : x s <;> simpa [hr] using hs

theorem Stable.onReady (h : Stable array u R) {x : M α} (hx : Keeps R x) (c : CoderState) : Keeps R (onReady c x) := by
  cases c
  case ready => exact hx
  all_goals exact h.raise _

theorem Stable.onDispose (h : Stable array u R) {x : M Unit} (hx : Keeps R x) (c : CoderState) : Keeps R (onDispose c x) := by
  cases c
  case ready => exact h.bind hx fun _ => h.pure 0
  case disposed => exact h.pure 0
  all_goals exact h.raise _

theorem Stable.onArray (h : Stable array u R) (ha : array) {body : Nat → Nat → M Word64}
    (hbody : ∀ start len, Keeps R (body start len)) (c : CoderState) : Keeps R (onArray c body) := by
  refine h.bind (h.elementAt ha 0 (h.onReady (h.pure ()) c)) fun _ => keeps_look fun s => ?_
  split
  · exact hbody _ _
  · exact h.pure _

theorem Stable.encodeAll (h : Stable array u R) (ha : array) {before : Nat → M Unit} {code : Byte → M Unit}
    (hb : ∀ i, Keeps R (before i)) (hc : ∀ v, Keeps R (code v)) (start n : Nat) : Keeps R (encodeAll before code start n) := by
  have hloop : ∀ n i, Keeps R (encodeFrom before code start n i) := by
    intro n
    induction n with
    | zero => exact fun _ => h.pure ()
    | succ n ih =>
      intro i
      exact h.bind (hb i) fun _ =>
        h.bind (h.elementAt ha i (keeps_look (f := fun s => code (dataByte s (start + i))) fun _ => hc _)) fun _ => ih (i + 1)
  exact h.bind (hloop n 0) fun _ => h.pure _

/-! ### Encoders -/

theorem keeps_of_runs (h : Stable array u R) (hput : ∀ v n, Keeps R (putBits v n)) (hflush : Keeps R flushWriter) {x : M α}
    (hx : Runs u x) : Keeps R x := by
  induction hx with
  | pure v => exact h.pure v
  | stick => exact h.stick
  | look _ _ ih => exact keeps_look ih
  | own hf => exact h.own _ hf
  | putBits v n => exact hput v n
  | putFlush v n => exact h.bind (hput v n) fun _ => hflush
  | bind _ _ ihx ihf => exact h.bind ihx ihf

theorem keeps_of_writeElement (h : Stable array u R) (hput : ∀ v n, Keeps R (putBits v n)) (hflush : Keeps R flushWriter) {x : M α}
    (hx : WriteElement u x) : Keeps R x := by
  induction hx with
  | runs hx => exact keeps_of_runs h hput hflush hx
  | raise c => exact h.raise c
  | look _ _ ih => exact keeps_look ih
  | bind _ hf ihx => exact h.bind ihx fun v => keeps_of_runs h hput hflush (hf v)

theorem keeps_of_encodes (h : Stable array u R) (hput : ∀ v n, Keeps R (putBits v n)) (hflush : Keeps R flushWriter)
    (hopen : Keeps R (update fun s => { s with bsw := writerFresh .opened })) (hclose : Keeps R closeWriter)
    {x : M α} (hx : Encodes array u x) : Keeps R x := by
  induction hx with
  | runs hx => exact keeps_of_runs h hput hflush hx
  | raise c => exact h.raise c
  | look _ _ ih => exact keeps_look ih
  | bind _ _ ihx ihf => exact h.bind ihx ihf
  | element hx => exact h.element (keeps_of_writeElement h hput hflush hx)
  | elementAt n ha hx => exact h.elementAt ha n (keeps_of_writeElement h hput hflush hx)
  | flush => exact hflush
  | openWriter => exact hopen
  | close => exact hclose

/-! ### Decoders -/

theorem keeps_countZeros (h : Stable array u R) (hget : ∀ n, Keeps R (getBits n)) (k n : Nat) : Keeps R (countZeros k n) := by
  induction k generalizing n with
  | zero => exact h.raise _
  | succ k ih =>
    refine h.bind (hget 1) fun b => ?_
    split
    · exact ih _
    · exact h.pure _

theorem keeps_of_gets (h : Stable array u R) (hget : ∀ n, Keeps R (getBits n)) {x : M α} (hx : Gets u x) :
    Keeps R x := by
  induction hx with
  | pure v => exact h.pure v
  | raise c => exact h.raise c
  | stick => exact h.stick
  | look _ _ ih => exact keeps_look ih
  | own hf => exact h.own _ hf
  | getBits n => exact hget n
  | bind _ _ ihx ihf => exact h.bind ihx ihf

theorem keeps_of_readElement (h : Stable array u R) (hget : ∀ n, Keeps R (getBits n)) {x : M α} (hx : ReadElement u x) :
    Keeps R x := by
  induction hx with
  | gets hx => exact keeps_of_gets h hget hx
  | unary hf => exact h.bind (keeps_look fun s => keeps_countZeros h hget _ _) fun n => keeps_of_gets h hget (hf n)
  | look _ _ ih => exact keeps_look ih
  | map g _ ih => exact ih.map g

theorem keeps_of_reads (h : Stable array u R) (hget : ∀ n, Keeps R (getBits n))
    (hclose : Keeps R (update fun s => { s with bsr.closed := true, bsr.ustate := .closed })) {x : M α}
    (hx : Reads array u x) : Keeps R x := by
  induction hx with
  | pure v => exact h.pure v
  | raise c => exact h.raise c
  | look _ _ ih => exact keeps_look ih
  | own hf => exact h.own _ hf
  | closeReader => exact hclose
  | bind _ _ ihx ihf => exact h.bind ihx ihf
  | element hx => exact h.element (keeps_of_readElement h hget hx)
  | elementAt n ha hx => exact h.elementAt ha n (keeps_of_readElement h hget hx)
  | orEnd n ha hx => exact h.orEnd ha n (keeps_of_readElement h hget hx)

theorem Stable.decodeFrom {start : Nat} (h : Stable True u R) {before : Nat → M Unit} {code : M (Option Byte)}
    (hb : ∀ i, Keeps R (before i)) (hc : Keeps R code) (n i : Nat)
    (hstore : ∀ j, i ≤ j → j < i + n → ∀ v, Keeps R (memWrite (start + j) v)) : Keeps R (decodeFrom before code start n i) := by
  induction n generalizing i with
  | zero => exact h.pure i
  | succ n ih =>
    refine h.bind (hb i) fun _ => h.bind (h.orEnd trivial i hc) fun r => ?_
    split
    · exact h.bind (hstore i le_rfl (by omega) _) fun _ => ih (i + 1) fun j _ _ => hstore j (by omega) (by omega)
    · exact h.pure i

theorem Stable.decodeAll (h : Stable True u R) (hstore : ∀ a v, Keeps R (memWrite a v)) {before : Nat → M Unit}
    {code : M (Option Byte)} (hb : ∀ i, Keeps R (before i)) (hc : Keeps R code) (start len : Nat) :
    Keeps R (decodeAll before code start len) :=
  h.bind (h.decodeFrom (start := start) hb hc len 0 fun _ _ _ => hstore _) fun _ => h.pure _

theorem Stable.fpDecodeFrom {start : Nat} (h : Stable True u R) (hbit : Keeps R (fpdElement decodeBit))
    (hbyte : Keeps R (fpdElement decodeByte)) (n i : Nat)
    (hstore : ∀ j, i ≤ j → j < i + n → ∀ v, Keeps R (memWrite (start + j) v)) : Keeps R (fpDecodeFrom start n i) := by
  induction n generalizing i with
  | zero => exact h.bind (h.orEnd trivial i hbit) fun _ => h.pure i
  | succ n ih =>
    refine h.bind (h.orEnd trivial i hbit) fun r => ?_
    split
    · refine h.bind (h.orEnd trivial i hbyte) fun r => ?_
      split
      · exact h.bind (hstore i le_rfl (by omega) _) fun _ => ih (i + 1) fun j _ _ => hstore j (by omega) (by omega)
      · exact h.pure i
    · exact h.pure i

theorem keeps_of_stores {start len : Nat} (h : Stable True u R) (hget : ∀ n, Keeps R (getBits n))
    (hstore : ∀ j < len, ∀ v, Keeps R (memWrite (start + j) v)) {x : M α} (hx : Stores u start len x) : Keeps R x := by
  induction hx with
  | loop hb hc =>
    exact h.decodeFrom (fun i => h.update (hb i)) (keeps_of_readElement h hget hc) len 0 fun j _ hj => hstore j (by omega)
  | continued hbit hbyte =>
    exact h.fpDecodeFrom (keeps_of_readElement h hget hbit) (keeps_of_readElement h hget hbyte) len 0 fun j _ hj =>
      hstore j (by omega)
  | first n hx hnone _ ih =>
    refine h.bind (h.orEnd trivial n (keeps_of_readElement h hget hx)) fun r => ?_
    cases r with
    | none =>
      rw [hnone]
      exact h.pure _
    | some v => exact ih v
  | answer g _ ih => exact h.bind ih fun _ => h.pure _

/-- An array command with a valid descriptor stores in its array only. -/
theorem reached_of_decodes {x : M Word64} (hx : Decodes array u x) (s : State) (h : Stable array u R)
    (hget : ∀ n, Keeps R (getBits n))
    (hclose : Keeps R (update fun s => { s with bsr.closed := true, bsr.ustate := .closed }))
    (hstore : array → descriptorValid s → ∀ j < arrayLength s, ∀ v, Keeps R (memWrite (arrayStart s + j) v)) :
    R s (reached (x s)) := by
  cases hx with
  | reads hx => exact keeps_of_reads h hget hclose hx s
  | @stores state body ha _ hbody =>
    have hcheck : Keeps R (elementAt 0 (onReady (state s) (pure ()))) := by
      refine h.elementAt ha 0 ?_
      cases state s
      case ready => exact h.pure ()
      all_goals exact h.raise _
    have hcheck := hcheck s
    rw [look_run, onArray, bind_run]
    cases hstate : state s with
    | ready =>
      rw [elementAt_ok 0 (by rfl : onReady .ready (pure () : M Unit) s = .ok () s)]
      show R s (reached ((if descriptorValid s then _ else _ : M Word64) s))
      split
      case isTrue hv =>
        have h' : Stable True u R := ⟨h.refl, h.trans, h.undo, h.own, fun _ => h.count ha⟩
        exact keeps_of_stores h' hget (hstore ha hv) (hbody _ _) s
      case isFalse => exact h.refl s
    | uninit =>
      rw [hstate] at hcheck
      exact hcheck
    | disposed =>
      rw [hstate] at hcheck
      exact hcheck
    | failed =>
      rw [hstate] at hcheck
      exact hcheck

end Sys2Proof.Machine
end

section
/-! SUPPORT. What a command cannot change: the frame of every body, and of every command but SRESET. -/

namespace Sys2Proof.Machine

variable {α : Type} {u : Nat} {array : Prop} {P : Nat → Prop} {r s t : State}

/-! ### The frame of a body -/

/-- The bytes of DATA after the cells `l` were written in order. -/
def writeCells (m : Memory) (l : List Host.Cell) : Memory := l.foldl (fun m c => Memory.insert m c.1 c.2) m

/-- What the body of a command of the unit `u` leaves: control registers and other coders always; `RES` but in an array command; the
streams of the other side; and DATA but at the addresses `P`. -/
structure Frame (array : Prop) (u : Nat) (P : Nat → Prop) (s t : State) : Prop where
  control : t.control = s.control
  coders : ∀ k, k ≠ u → t.coder k = s.coder k
  result : ¬array → t.res = s.res
  writer : u % 2 = 0 → t.bsw = s.bsw ∧ t.sink = s.sink ∧ t.sinkRoom = s.sinkRoom ∧ t.sent = s.sent
  reader : u % 2 = 1 → t.bsr = s.bsr ∧ t.source = s.source
  data : ∃ l : List Host.Cell, (∀ c ∈ l, P c.1) ∧ t.data = writeCells s.data l

theorem Frame.refl (s : State) : Frame array u P s s :=
  ⟨rfl, fun _ _ => rfl, fun _ => rfl, fun _ => ⟨rfl, rfl, rfl, rfl⟩, fun _ => ⟨rfl, rfl⟩, [], nofun, rfl⟩

theorem Frame.trans (h : Frame array u P r s) (h' : Frame array u P s t) : Frame array u P r t where
  control := h'.control.trans h.control
  coders k hk := (h'.coders k hk).trans (h.coders k hk)
  result ha := (h'.result ha).trans (h.result ha)
  writer hu := by
    obtain ⟨h1, h2, h3, h4⟩ := h.writer hu
    obtain ⟨h1', h2', h3', h4'⟩ := h'.writer hu
    exact ⟨h1'.trans h1, h2'.trans h2, h3'.trans h3, h4'.trans h4⟩
  reader hu := by
    obtain ⟨h1, h2⟩ := h.reader hu
    obtain ⟨h1', h2'⟩ := h'.reader hu
    exact ⟨h1'.trans h1, h2'.trans h2⟩
  data := by
    obtain ⟨l, hl, hd⟩ := h.data
    obtain ⟨l', hl', hd'⟩ := h'.data
    refine ⟨l ++ l', fun c hc => (List.mem_append.1 hc).elim (hl c) (hl' c), ?_⟩
    rw [hd', hd, writeCells, writeCells, writeCells, List.foldl_append]

/-- A fault undoes an element's writes to DATA too. -/
theorem Frame.undo (h : Frame array u P s t) : Frame array u P s (undo s t) where
  control := rfl
  coders _ _ := rfl
  result _ := rfl
  writer _ := ⟨rfl, rfl, rfl, rfl⟩
  reader hu := by
    obtain ⟨hbsr, hsource⟩ := h.reader hu
    rw [undo_bsr, hbsr]
    exact ⟨rfl, hsource⟩
  data := ⟨[], nofun, rfl⟩

theorem OwnUpdate.frame {f : State → State} (hf : OwnUpdate u f) (s : State) : Frame array u P s (f s) := by
  have hk := hf.kept s
  refine ⟨hf.control s, hf.coders s, fun _ => ?_, fun _ => ⟨?_, ?_, ?_, ?_⟩, fun _ => ⟨?_, ?_⟩, [], nofun, ?_⟩ <;> rw [← hk] <;> rfl

theorem stable_frame : Stable array u (Frame array u P) where
  refl := Frame.refl
  trans _ _ _ := Frame.trans
  undo _ _ := Frame.undo
  own _ hf := hf.frame
  count ha _ _ :=
    ⟨rfl, fun _ _ => rfl, fun h => absurd ha h, fun _ => ⟨rfl, rfl, rfl, rfl⟩, fun _ => ⟨rfl, rfl⟩, [], nofun, rfl⟩

theorem frame_writer (hu : u % 2 = 1) (s : State) (b : Writer) (k : List Byte) (room sent : Nat) :
    Frame array u P s { s with bsw := b, sink := k, sinkRoom := room, sent := sent } :=
  ⟨rfl, fun _ _ => rfl, fun _ => rfl, fun h => by omega, fun _ => ⟨rfl, rfl⟩, [], nofun, rfl⟩

theorem frame_reader (hu : u % 2 = 0) (s : State) (b : Reader) (a : List SourceAnswer) :
    Frame array u P s { s with bsr := b, source := a } :=
  ⟨rfl, fun _ _ => rfl, fun _ => rfl, fun _ => ⟨rfl, rfl, rfl, rfl⟩, fun h => by omega, [], nofun, rfl⟩

theorem frame_handOff (hu : u % 2 = 1) (bs : List Byte) : Keeps (Frame array u P) (handOff bs) := by
  intro s
  unfold handOff
  dsimp only
  split <;> exact frame_writer hu s _ _ _ _

theorem frame_putBits (hu : u % 2 = 1) (v n : Nat) : Keeps (Frame array u P) (putBits v n) := by
  refine keeps_look fun s => ?_
  split
  · exact stable_frame.raise _
  · split
    · exact stable_frame.raise _
    · refine stable_frame.bind (fun s => frame_writer hu s _ _ _ _) fun _ => keeps_look fun s => ?_
      dsimp only
      split
      · exact stable_frame.pure ()
      · exact frame_handOff hu _

theorem frame_flushWriter (hu : u % 2 = 1) : Keeps (Frame array u P) flushWriter := by
  refine keeps_look fun s => ?_
  split
  · exact stable_frame.pure ()
  · exact frame_handOff hu _

theorem frame_closeWriter (hu : u % 2 = 1) : Keeps (Frame array u P) closeWriter := by
  refine keeps_look fun s => ?_
  split
  · exact stable_frame.pure ()
  · exact stable_frame.bind (frame_handOff hu _) fun _ => fun s => frame_writer hu s _ _ _ _

theorem frame_takeBytes (hu : u % 2 = 0) (k : Nat) : Keeps (Frame array u P) (takeBytes k) := by
  induction k with
  | zero => exact stable_frame.pure ()
  | succ k ih =>
    intro s
    unfold takeBytes
    split
    · exact Frame.refl s
    · split
      · exact Frame.refl s
      · exact (frame_reader hu s _ _).trans (ih _)
      · exact frame_reader hu s _ _

theorem frame_getBits (hu : u % 2 = 0) (n : Nat) : Keeps (Frame array u P) (getBits n) := by
  refine keeps_look fun s => ?_
  split
  · exact stable_frame.raise _
  · split
    · exact stable_frame.raise _
    · exact stable_frame.bind (frame_takeBytes hu _) fun _ =>
        stable_frame.bind (fun s => frame_reader hu s _ _) fun _ => keeps_look fun s => stable_frame.pure _

theorem frame_memWrite {a : Nat} (ha : P a) (v : Byte) : Keeps (Frame array u P) (memWrite a v) := fun s =>
  ⟨rfl, fun _ _ => rfl, fun _ => rfl, fun _ => ⟨rfl, rfl, rfl, rfl⟩, fun _ => ⟨rfl, rfl⟩, [(a, v)],
    fun _ hc => by rw [List.mem_singleton.1 hc]; exact ha, rfl⟩

/-! ### The frame of a command -/

/-- The addresses that a command may write (40_system R159, R163). -/
def Stored (i : Instr) (s : State) (a : Nat) : Prop :=
  IsDecode i ∧ descriptorValid s ∧ arrayStart s ≤ a ∧ a < arrayStart s + arrayLength s

/-- Every command but SRESET runs a body with its frame, and then ends. -/
theorem exec_frame {i : Instr} (hi : i ≠ .sysSreset) (s : State) :
    ∃ res, Frame (IsArray i) i.unit.toNat (Stored i s) (resume s) (reached res) ∧
      exec i s = .next (finish i.unit i.op (resume s) res) := by
  by_cases h0 : i.unit = 0
  · obtain ⟨v, hv⟩ := exec_sys i h0 hi s
    exact ⟨.ok v (resume s), Frame.refl _, hv⟩
  · by_cases hu : i.unit.toNat % 2 = 1
    · obtain ⟨body, hbody, hexec⟩ := exec_encodes i hu
      exact ⟨body (resume s), keeps_of_encodes stable_frame (frame_putBits hu) (frame_flushWriter hu)
        (fun s => frame_writer hu s _ _ _ _) (frame_closeWriter hu) hbody _, hexec s⟩
    · have hu : i.unit.toNat % 2 = 0 := by omega
      by_cases hinit : i = .bsrInit
      · subst hinit
        exact ⟨.ok 0 { resume s with bsr := readerFresh .opened }, frame_reader hu (resume s) _ _, rfl⟩
      obtain ⟨body, hbody, hexec⟩ := exec_decodes i hu h0 hinit
      exact ⟨body (resume s), reached_of_decodes hbody _ stable_frame (frame_getBits hu) (fun s => frame_reader hu s _ _) fun ha hv j hj v => frame_memWrite ⟨⟨ha, hu⟩, hv, Nat.le_add_right _ _,
          Nat.add_lt_add_left hj _⟩ v, hexec s⟩

/-! ### How the end of a command changes the state -/

theorem markFailed_coder (u : BitVec 4) (s : State) (k : Nat) (hk : k ≠ u.toNat) : (markFailed u s).coder k = s.coder k := by
  unfold markFailed
  split
  case isTrue h =>
    subst h
    exact rceSlot.coder_set _ _ k hk
  case isFalse =>
    split
    case isTrue h =>
      subst h
      exact rcdSlot.coder_set _ _ k hk
    case isFalse => rfl

theorem scrambleRange_coder (u : BitVec 4) (s : State) (k : Nat) (hk : k ≠ u.toNat) :
    (scrambleRange u s).coder k = s.coder k := by
  unfold scrambleRange
  dsimp only
  split
  case isTrue h =>
    subst h
    exact rceSlot.coder_set _ { s with freeCount := _ } k hk
  case isFalse =>
    split
    case isTrue h =>
      subst h
      exact rcdSlot.coder_set _ { s with freeCount := _ } k hk
    case isFalse => rfl

/-- What marking a range coder FAILED leaves. -/
theorem markFailed_kept (u : BitVec 4) (s : State) :
    (markFailed u s).withStreams s = markFailed u s ∧ (markFailed u s).control = s.control := by
  unfold markFailed
  split
  · exact ⟨rfl, rfl⟩
  · split <;> exact ⟨rfl, rfl⟩

/-- What the free values of a clamped range coder leave. -/
theorem scrambleRange_kept (u : BitVec 4) (s : State) :
    (scrambleRange u s).withStreams s = scrambleRange u s ∧ (scrambleRange u s).control = s.control := by
  unfold scrambleRange
  dsimp only
  split
  · exact ⟨rfl, rfl⟩
  · split <;> exact ⟨rfl, rfl⟩

/-- `t` is `s` but that the range coder `u` may have become FAILED, with free values in its registers (44_range_coder R288). -/
structure Marked (u : BitVec 4) (s t : State) : Prop where
  kept : t.withStreams s = t
  control : t.control = s.control
  coders : ∀ k, k ≠ u.toNat → t.coder k = s.coder k

theorem Marked.refl (u : BitVec 4) (s : State) : Marked u s s := ⟨rfl, rfl, fun _ _ => rfl⟩

theorem marked_markFailed (u : BitVec 4) (s : State) : Marked u s (markFailed u s) :=
  ⟨(markFailed_kept u s).1, (markFailed_kept u s).2, markFailed_coder u s⟩

theorem marked_scrambleRange (u : BitVec 4) (s : State) : Marked u s (scrambleRange u (markFailed u s)) where
  kept := by
    have h1 := (markFailed_kept u s).1
    have h2 := (scrambleRange_kept u (markFailed u s)).1
    rw [← h1] at h2 ⊢
    rw [← h2]
    rfl
  control := (scrambleRange_kept u _).2.trans (markFailed_kept u s).2
  coders k hk := (scrambleRange_coder u _ k hk).trans (markFailed_coder u s k hk)

/-- A command ends in one of three ways: it completes, raises a fault, or waits. -/
theorem finish_cases (u o : BitVec 4) (s : State) (res : EStateM.Result Stop State Word64) :
    (∃ v r, res = .ok v r ∧ finish u o s res = complete u o v r) ∨
      (∃ c r', Marked u (reached res) r' ∧ finish u o s res = raiseFault u o c r') ∨
        ∃ p r, res = .error (.wait p) r ∧ finish u o s res = suspend p s r := by
  cases res with
  | ok v r => exact .inl ⟨v, r, rfl, rfl⟩
  | error e r =>
    cases e with
    | wait p => exact .inr (.inr ⟨p, r, rfl, rfl⟩)
    | clamped => exact .inr (.inl ⟨.rangeDegenerate, _, marked_scrambleRange u r, rfl⟩)
    | fault c =>
      by_cases hc : c = .rangeDegenerate
      · exact .inr (.inl ⟨c, _, marked_markFailed u r, by rw [finish, if_pos hc]⟩)
      · exact .inr (.inl ⟨c, r, Marked.refl u r, by rw [finish, if_neg hc]⟩)

/-- What a command leaves, however it ends. -/
structure EndFrame (u : Nat) (P : Nat → Prop) (s t : State) : Prop where
  operands : t.params = s.params ∧ t.cmd = s.cmd ∧ t.arg0 = s.arg0 ∧ t.arg1 = s.arg1 ∧ t.arg2 = s.arg2 ∧ t.arg3 = s.arg3 ∧
    t.host = s.host ∧ t.hostRead = s.hostRead
  coders : ∀ k, k ≠ u → t.coder k = s.coder k
  writer : u % 2 = 0 → t.bsw = s.bsw ∧ t.sink = s.sink ∧ t.sinkRoom = s.sinkRoom
  reader : u % 2 = 1 → t.bsr = s.bsr ∧ t.source = s.source
  data : ∃ l : List Host.Cell, (∀ c ∈ l, P c.1) ∧ t.data = writeCells s.data l

theorem Frame.endFrame (h : Frame array u P s t) : EndFrame u P s t where
  operands := by
    have hc := h.control
    simp only [State.control, Prod.mk.injEq] at hc
    obtain ⟨h1, h2, ⟨h3, h4, h5, h6⟩, -, -, h7, h8⟩ := hc
    exact ⟨h1, h2, h3, h4, h5, h6, h7, h8⟩
  coders := h.coders
  writer hu := by
    obtain ⟨h1, h2, h3, -⟩ := h.writer hu
    exact ⟨h1, h2, h3⟩
  reader := h.reader
  data := h.data

theorem EndFrame.complete {u o : BitVec 4} (h : EndFrame u.toNat P s t) (v : Word64) :
    EndFrame u.toNat P s (complete u o v t) := ⟨h.operands, h.coders, h.writer, h.reader, h.data⟩

theorem EndFrame.raiseFault {u o : BitVec 4} (h : EndFrame u.toNat P s t) (c : FaultCode) :
    EndFrame u.toNat P s (raiseFault u o c t) := ⟨h.operands, h.coders, h.writer, h.reader, h.data⟩

theorem EndFrame.suspend (p : Port) (h : EndFrame u P s t) : EndFrame u P s (suspend p s t) where
  operands := ⟨rfl, rfl, rfl, rfl, rfl, rfl, rfl, rfl⟩
  coders _ _ := rfl
  writer hu := ⟨rfl, (h.writer hu).2⟩
  reader hu := ⟨rfl, (h.reader hu).2⟩
  data := h.data

theorem EndFrame.marked {u : BitVec 4} (h : EndFrame u.toNat P r s) (hm : Marked u s t) : EndFrame u.toNat P r t := by
  have hbsw : t.bsw = s.bsw := by rw [← hm.kept]; rfl
  have hsink : t.sink = s.sink := by rw [← hm.kept]; rfl
  have hroom : t.sinkRoom = s.sinkRoom := by rw [← hm.kept]; rfl
  have hbsr : t.bsr = s.bsr := by rw [← hm.kept]; rfl
  have hsource : t.source = s.source := by rw [← hm.kept]; rfl
  have hdata : t.data = s.data := by rw [← hm.kept]; rfl
  have hc := hm.control
  simp only [State.control, Prod.mk.injEq] at hc
  obtain ⟨h1, h2, ⟨h3, h4, h5, h6⟩, -, -, h7, h8⟩ := hc
  refine ⟨?_, fun k hk => (hm.coders k hk).trans (h.coders k hk), ?_, ?_, ?_⟩
  · rw [h1, h2, h3, h4, h5, h6, h7, h8]
    exact h.operands
  · rw [hbsw, hsink, hroom]
    exact h.writer
  · rw [hbsr, hsource]
    exact h.reader
  · rw [hdata]
    exact h.data

theorem exec_endFrame {i : Instr} (hi : i ≠ .sysSreset) (h : exec i s = .next t) :
    EndFrame i.unit.toNat (Stored i s) (resume s) t := by
  obtain ⟨res, hframe, hexec⟩ := exec_frame hi s
  obtain rfl : finish i.unit i.op (resume s) res = t := by
    rw [hexec] at h
    injection h
  have hend := hframe.endFrame
  rcases finish_cases i.unit i.op (resume s) res with ⟨v, r, rfl, heq⟩ | ⟨c, r', hm, heq⟩ | ⟨p, r, rfl, heq⟩
  · rw [heq]
    exact hend.complete v
  · rw [heq]
    exact (hend.marked hm).raiseFault c
  · rw [heq]
    exact hend.suspend p

/-- What a command does to `STATUS` and `RES`: a fault of other than an array command leaves `RES`, and a wait leaves both. -/
theorem exec_status {i : Instr} (hi : i ≠ .sysSreset) (h : exec i s = .next t) :
    (t.waiting = none ∧ t.status = statusWord i.op i.unit (statusFirst s.status) 0) ∨
      (∃ c : FaultCode, t.waiting = none ∧
        t.status = statusWord i.op i.unit (firstFault (statusFirst s.status) c) c.code ∧ (¬IsArray i → t.res = s.res)) ∨
          (t.waiting ≠ none ∧ t.status = s.status ∧ t.res = s.res) := by
  obtain ⟨res, hframe, hexec⟩ := exec_frame hi s
  obtain rfl : finish i.unit i.op (resume s) res = t := by
    rw [hexec] at h
    injection h
  have hc := hframe.control
  simp only [State.control, Prod.mk.injEq] at hc
  obtain ⟨-, -, -, hstatus, ⟨hwaiting, -⟩, -⟩ := hc
  rcases finish_cases i.unit i.op (resume s) res with ⟨v, r, rfl, heq⟩ | ⟨c, r', hm, heq⟩ | ⟨p, r, rfl, heq⟩
  · rw [heq]
    refine .inl ⟨hwaiting, ?_⟩
    rw [complete_status, show r.status = s.status from hstatus]
  · have hc := hm.control
    simp only [State.control, Prod.mk.injEq] at hc
    obtain ⟨-, -, -, hstatus', ⟨hwaiting', -⟩, -⟩ := hc
    have hres : r'.res = (reached res).res := by
      rw [← hm.kept]
      rfl
    rw [heq]
    refine .inr (.inl ⟨c, hwaiting'.trans hwaiting, ?_, fun ha => hres.trans (hframe.result ha)⟩)
    rw [raiseFault_status, hstatus', hstatus, resume_status]
  · rw [heq]
    exact .inr (.inr ⟨by simp, rfl, rfl⟩)

end Sys2Proof.Machine
end

section
/-! SUPPORT. One step, as a host move and the command it runs, and the invariants that follow from the frame of a command: STATUS, DATA. -/

namespace Sys2Proof.Machine

variable {s t : State} {i : Instr}

/-! ### One step -/

/-- `t` with what the host writes itself as in `s`: `CMD`, the ARG registers, DATA, the ports, and the host's own record. -/
def State.withHost (t s : State) : State :=
  { t with
    cmd := s.cmd, arg0 := s.arg0, arg1 := s.arg1, arg2 := s.arg2, arg3 := s.arg3, data := s.data, sinkRoom := s.sinkRoom
    source := s.source, host := s.host, hostRead := s.hostRead, freeCount := s.freeCount }

/-- `t` is `s` after a host move other than a reset, before the command it may run. -/
structure Moved (s t : State) : Prop where
  kept : t.withHost s = s
  data : t.data = s.data ∨ ∃ a v, a < s.params.dataSize ∧ t.data = Memory.insert s.data a v

/-- What the host does not write is unchanged. -/
theorem Moved.field {β : Type} (h : Moved s t) (f : State → β) (hf : ∀ s t : State, f (t.withHost s) = f t) : f t = f s := by
  rw [← hf s t, h.kept]

theorem moved_refl (s : State) : Moved s s := ⟨rfl, .inl rfl⟩

theorem moved_ports (s : State) (room : Nat) (source : List SourceAnswer) (host : List HostMove) :
    Moved s { s with sinkRoom := room, source := source, host := host } := ⟨rfl, .inl rfl⟩

theorem moved_read (s : State) (host : List HostMove) (v : Word64) (n : Nat) :
    Moved s { s with host := host, hostRead := v, freeCount := n } := ⟨rfl, .inl rfl⟩

theorem moved_args (s : State) (host : List HostMove) (w : Command) (a0 : Word64) (a1 a2 a3 : BitVec 32) :
    Moved s { s with host := host, cmd := w, arg0 := a0, arg1 := a1, arg2 := a2, arg3 := a3 } := ⟨rfl, .inl rfl⟩

theorem moved_data (s : State) (host : List HostMove) {a : Nat} (ha : a < s.params.dataSize) (v : Byte) :
    Moved s { s with host := host, data := Memory.insert s.data a v } := ⟨rfl, .inr ⟨a, v, ha, rfl⟩⟩

/-- A move `m` leads to a moved state, and the word it issues, if any, is the one it writes to `CMD`. -/
def MovesTo (s : State) (m : HostMove) : Intake → Prop
  | .settled r => Moved s r
  | .issue w r => (Moved s r ∧ r.cmd = w) ∧ ∃ v, m = .write 0 v ∧ w = v.setWidth 32
  | .noSuchOffset => True

theorem movesTo_hostReads (s : State) (m : HostMove) (o : Nat) (rest : List HostMove) :
    MovesTo s m (hostReads o { s with host := rest }) := by
  unfold hostReads
  generalize windowRead { s with host := rest } o = v
  cases v with
  | none => trivial
  | some v => exact moved_read s rest v _

theorem movesTo_hostWrites (s : State) (o : Nat) (v : Word64) (rest : List HostMove) :
    MovesTo s (.write o v) (hostWrites o v { s with host := rest }) := by
  unfold hostWrites
  refine iteInduction (fun h0 => ⟨⟨moved_args s rest _ _ _ _ _, rfl⟩, v, by rw [h0], rfl⟩) fun _ => ?_
  iterate 7
    refine iteInduction (fun _ => moved_args s rest _ _ _ _ _) fun _ => ?_
  exact iteInduction (fun hd => moved_data s rest (Nat.sub_lt_left_of_lt_add hd.1 hd.2) _) fun _ => trivial

theorem movesTo_takeMove {m : HostMove} (hm : m ≠ .reset) (s : State) (rest : List HostMove) :
    MovesTo s m (takeMove m { s with host := rest }) := by
  cases m with
  | reset => exact absurd rfl hm
  | answer a => exact moved_ports s _ _ _
  | accept n => exact moved_ports s _ _ _
  | read o => exact movesTo_hostReads s _ o rest
  | write o v => exact movesTo_hostWrites s o v rest

theorem nextCommand_waiting {p : Port} {m : HostMove} {rest : List HostMove} (hw : s.waiting = some p) (h : s.host = m :: rest)
    (hm : (∃ a, m = .answer a) ∨ ∃ n, m = .accept n) : nextCommand s = some s.cmd := by
  rcases hm with ⟨a, rfl⟩ | ⟨n, rfl⟩ <;> simp only [nextCommand, hw, h]

/-- A step is a reset, a move of the host, or a move of the host and the command it runs. -/
theorem step_cases (h : step s = .next t) :
    (∃ rest, s.host = .reset :: rest ∧ t = resetAll { s with host := rest }) ∨
      ∃ r, Moved s r ∧ (t = r ∨ ∃ w, nextCommand s = some w ∧ r.cmd = w ∧
        ((∃ i, decode w = .ok i ∧ exec i r = .next t) ∨ t = illegalCommand w r)) := by
  have hrun : ∀ {w r}, Moved s r → r.cmd = w → nextCommand s = some w → runWord w r = .next t →
      ∃ r, Moved s r ∧ (t = r ∨ ∃ w, nextCommand s = some w ∧ r.cmd = w ∧
        ((∃ i, decode w = .ok i ∧ exec i r = .next t) ∨ t = illegalCommand w r)) := by
    intro w r hr hcmd hw hrun
    refine ⟨r, hr, .inr ⟨w, hw, hcmd, ?_⟩⟩
    unfold runWord at hrun
    split at hrun
    case h_1 i hi => exact .inl ⟨i, hi, hrun⟩
    case h_2 =>
      injection hrun with hrun
      exact .inr hrun.symm
  cases hhost : s.host with
  | nil =>
    rw [step_nil hhost] at h
    injection h with h
    exact .inr ⟨s, moved_refl s, .inl h.symm⟩
  | cons m rest =>
    by_cases hm : m = .reset
    · subst hm
      rw [step_reset_move hhost] at h
      injection h with h
      exact .inl ⟨rest, rfl, h.symm⟩
    · refine .inr ?_
      cases hw : s.waiting with
      | none =>
        have hmoves := movesTo_takeMove hm s rest
        rw [step, intake_move hw hhost] at h
        cases hin : takeMove m { s with host := rest } with
        | settled r =>
          rw [hin] at h hmoves
          exact ⟨r, hmoves, .inl (Host.Outcome.next.inj h).symm⟩
        | issue w r =>
          rw [hin] at h hmoves
          obtain ⟨⟨hmoved, hcmd⟩, v, rfl, rfl⟩ := hmoves
          exact hrun hmoved hcmd (by simp only [nextCommand, hw, hhost]) h
        | noSuchOffset =>
          rw [hin] at h
          cases h
      | some p =>
        cases m with
        | reset => exact absurd rfl hm
        | answer a =>
          rw [step_waiting_answer hw hhost] at h
          exact hrun (moved_ports s _ _ _) (by rfl) (nextCommand_waiting hw hhost (by simp)) h
        | accept n =>
          rw [step_waiting_accept hw hhost] at h
          exact hrun (moved_ports s _ _ _) (by rfl) (nextCommand_waiting hw hhost (by simp)) h
        | read o =>
          rw [step_waiting_access hw hhost (.inl ⟨o, rfl⟩)] at h
          injection h with h
          exact ⟨s, moved_refl s, .inl h.symm⟩
        | write o v =>
          rw [step_waiting_access hw hhost (.inr ⟨o, v, rfl⟩)] at h
          injection h with h
          exact ⟨s, moved_refl s, .inl h.symm⟩

/-! ### STATUS -/

theorem toNat_statusWord (op unit : BitVec 4) (first code : BitVec 8) :
    (statusWord op unit first code).toNat = op.toNat * 2 ^ 20 + unit.toNat * 2 ^ 16 + first.toNat * 2 ^ 8 + code.toNat := by
  rw [statusWord_eq_statusOf, statusOf, BitVec.toNat_ofNat, Nat.mod_eq_of_lt]
  omega

@[simp] theorem statusFirst_statusWord (op unit : BitVec 4) (first code : BitVec 8) :
    statusFirst (statusWord op unit first code) = first := by
  apply BitVec.eq_of_toNat_eq
  rw [statusFirst, BitVec.extractLsb'_toNat, Nat.shiftRight_eq_div_pow, toNat_statusWord]
  omega

@[simp] theorem statusCode_statusWord (op unit : BitVec 4) (first code : BitVec 8) :
    statusCode (statusWord op unit first code) = code := by
  apply BitVec.eq_of_toNat_eq
  rw [statusCode, BitVec.extractLsb'_toNat, Nat.shiftRight_eq_div_pow, toNat_statusWord]
  omega

theorem statusWord_lt (op unit : BitVec 4) (first code : BitVec 8) : (statusWord op unit first code).toNat < 2 ^ 24 := by
  rw [toNat_statusWord]
  omega

theorem FaultCode.code_bounds (c : FaultCode) : c.code.toNat ≤ 9 ∧ c.code ≠ 0 := by
  cases c <;> decide

theorem firstFault_of_ne {first : BitVec 8} (h : first ≠ 0) (c : FaultCode) : firstFault first c = first := if_neg h

theorem firstFault_eq (first : BitVec 8) (c : FaultCode) :
    firstFault first c = if c.code = 0 ∨ first ≠ 0 then first else c.code := by
  by_cases h : first = 0
  · rw [firstFault, if_pos h, if_neg (not_or.2 ⟨c.code_bounds.2, not_not.2 h⟩)]
  · rw [firstFault_of_ne h, if_pos (.inr h)]

theorem firstFault_bounds {first : BitVec 8} (h : first.toNat ≤ 9) (c : FaultCode) :
    (firstFault first c).toNat ≤ 9 ∧ firstFault first c ≠ 0 := by
  unfold firstFault
  split
  case isTrue => exact c.code_bounds
  case isFalse h0 => exact ⟨h, h0⟩

/-- SRESET resets and completes (40_system R152). -/
theorem exec_sysSreset (s : State) : exec .sysSreset s = .next (complete 0 1 0 (resetAll (resume s))) := rfl

theorem statusFirst_resetAll (s : State) : statusFirst (resetAll s).status = 0 := by
  rw [resetAll_status]
  decide

/-- What `STATUS` can become in one step. -/
theorem step_status (h : step s = .next t) :
    t.status = s.status ∨
      (∃ op unit, t.status = statusWord op unit (statusFirst s.status) 0) ∨
        (∃ op unit c, t.status = statusWord op unit (firstFault (statusFirst s.status) c) (FaultCode.code c)) ∨
          ((∃ op unit, t.status = statusWord op unit 0 0) ∧
            ((∃ rest, s.host = .reset :: rest) ∨ ∃ w, nextCommand s = some w ∧ decode w = .ok .sysSreset)) := by
  rcases step_cases h with ⟨rest, hhost, rfl⟩ | ⟨r, hr, rfl | ⟨w, hw, -, ⟨i, hi, hexec⟩ | rfl⟩⟩
  · exact .inr (.inr (.inr ⟨⟨0, 0, rfl⟩, .inl ⟨rest, hhost⟩⟩))
  · exact .inl (hr.field State.status fun _ _ => rfl)
  · have hstatus : r.status = s.status := hr.field State.status fun _ _ => rfl
    by_cases hs : i = .sysSreset
    · subst hs
      rw [exec_sysSreset] at hexec
      refine .inr (.inr (.inr ⟨⟨1, 0, ?_⟩, .inr ⟨w, hw, hi⟩⟩))
      rw [← Host.Outcome.next.inj hexec, complete_status, statusFirst_resetAll]
    · rw [← hstatus]
      rcases exec_status hs hexec with ⟨-, h⟩ | ⟨c, -, h, -⟩ | ⟨-, h, -⟩
      · exact .inr (.inl ⟨_, _, h⟩)
      · exact .inr (.inr (.inl ⟨_, _, c, h⟩))
      · exact .inl h
  · have hstatus : r.status = s.status := hr.field State.status fun _ _ => rfl
    exact .inr (.inr (.inl ⟨_, _, .illegalCommand, by rw [illegalCommand, raiseFault_status, hstatus]⟩))

/-- Settles O12. -/
theorem statusStaysLegal : Obligations.StatusStaysLegal := by
  intro s t hs h
  obtain ⟨hcode, hfirst, hlt, hsticky⟩ := hs
  rcases step_status h with heq | ⟨op, unit, heq⟩ | ⟨op, unit, c, heq⟩ | ⟨⟨op, unit, heq⟩, -⟩
  · simp only [StatusLegal, heq]
    exact ⟨hcode, hfirst, hlt, hsticky⟩
  · simp only [StatusLegal, heq, statusCode_statusWord, statusFirst_statusWord]
    exact ⟨by decide, hfirst, statusWord_lt _ _ _ _, fun h => absurd rfl h⟩
  · simp only [StatusLegal, heq, statusCode_statusWord, statusFirst_statusWord]
    obtain ⟨h9, h0⟩ := firstFault_bounds hfirst c
    exact ⟨c.code_bounds.1, h9, statusWord_lt _ _ _ _, fun _ => h0⟩
  · simp only [StatusLegal, heq, statusCode_statusWord, statusFirst_statusWord]
    exact ⟨by decide, by decide, statusWord_lt _ _ _ _, fun h => absurd rfl h⟩

/-- Settles O13. -/
theorem firstFaultIsSticky : Obligations.FirstFaultIsSticky := by
  intro s t h hfirst
  rcases step_status h with heq | ⟨op, unit, heq⟩ | ⟨op, unit, c, heq⟩ | ⟨⟨op, unit, heq⟩, hreset⟩
  · exact .inl (by rw [heq])
  · exact .inl (by rw [heq, statusFirst_statusWord])
  · exact .inl (by rw [heq, statusFirst_statusWord, firstFault_of_ne hfirst])
  · exact .inr ⟨by rw [heq, statusFirst_statusWord], hreset⟩

/-- Settles O11. -/
theorem statusAfterACommand : Obligations.StatusAfterACommand := by
  refine ⟨fun u o v s => ?_, fun u o c s => ?_, fun i s t h hw => ?ends, fun i s t h hw => ?waits⟩
  · rw [complete, statusWord_eq_statusOf]
  · rw [raiseFault, statusWord_eq_statusOf]
    rfl
  case ends =>
    by_cases hi : i = .sysSreset
    · subst hi
      rw [exec_sysSreset] at h
      refine ⟨0, 0, ?_, by decide, fun _ => ⟨rfl, rfl⟩, fun h => absurd rfl h, fun h => absurd rfl h⟩
      rw [← Host.Outcome.next.inj h, complete_status, statusFirst_resetAll, statusWord_eq_statusOf]
      rfl
    · rcases exec_status hi h with ⟨-, hst⟩ | ⟨c, -, hst, hres⟩ | ⟨hw', -⟩
      · rw [statusWord_eq_statusOf] at hst
        exact ⟨_, 0, hst, by decide, fun h => absurd h hi, fun _ => by simp, fun h => absurd rfl h⟩
      · rw [statusWord_eq_statusOf] at hst
        have h9 := c.code_bounds.1
        exact ⟨_, c.code, hst, h9, fun h => absurd h hi, fun _ => firstFault_eq _ c, fun _ => hres⟩
      · exact absurd hw hw'
  case waits =>
    by_cases hi : i = .sysSreset
    · subst hi
      rw [exec_sysSreset] at h
      rw [← Host.Outcome.next.inj h] at hw
      exact absurd rfl hw
    · rcases exec_status hi h with ⟨hw', -⟩ | ⟨c, hw', -⟩ | ⟨-, hst, hres⟩
      · exact absurd hw' hw
      · exact absurd hw' hw
      · exact ⟨hst, hres⟩

/-! ### DATA -/

theorem writeCells_cons (m : Memory) (c : Host.Cell) (l : List Host.Cell) :
    writeCells m (c :: l) = writeCells (Memory.insert m c.1 c.2) l := rfl

theorem writeCells_wf {m : Memory} (h : Memory.wf m) (l : List Host.Cell) : Memory.wf (writeCells m l) := by
  induction l generalizing m with
  | nil => exact h
  | cons c l ih => exact ih (Memory.wf_insert h c.1 c.2)

theorem mem_writeCells {m : Memory} {l : List Host.Cell} {c : Host.Cell} (h : c ∈ writeCells m l) : c ∈ l ∨ c ∈ m := by
  induction l generalizing m with
  | nil => exact .inr h
  | cons d l ih =>
    rcases ih h with hl | hm
    · exact .inl (List.mem_cons_of_mem d hl)
    · rcases Memory.mem_insert hm with rfl | hm
      · exact .inl List.mem_cons_self
      · exact .inr hm

theorem lookup_writeCells {m : Memory} {l : List Host.Cell} {a : Nat} (h : ∀ c ∈ l, c.1 ≠ a) :
    Memory.lookup (writeCells m l) a = Memory.lookup m a := by
  induction l generalizing m with
  | nil => rfl
  | cons c l ih =>
    rw [writeCells_cons, ih fun d hd => h d (List.mem_cons_of_mem c hd),
      Memory.lookup_insert_other m (h c List.mem_cons_self)]

theorem lookup_writeBytes (m : Memory) (a : Nat) (bs : List Byte) (x : Nat) :
    Memory.lookup (writeBytes m a bs) x = if a ≤ x ∧ x < a + bs.length then bs[x - a]? else Memory.lookup m x := by
  induction bs generalizing m a with
  | nil => rw [writeBytes_nil, if_neg (by simp)]
  | cons b bs ih =>
    rw [writeBytes_cons, ih]
    by_cases hx : x = a
    · subst hx
      rw [if_neg (by omega), Memory.lookup_insert_self, if_pos (by simp), Nat.sub_self]
      rfl
    · rw [Memory.lookup_insert_other _ (Ne.symm hx)]
      by_cases hin : a + 1 ≤ x ∧ x < a + 1 + bs.length
      · obtain ⟨k, rfl⟩ : ∃ k, x = a + 1 + k := ⟨x - (a + 1), by omega⟩
        rw [if_pos hin, if_pos (by simp; omega), Nat.add_sub_cancel_left, Nat.add_assoc, Nat.add_sub_cancel_left, Nat.add_comm 1,
          List.getElem?_cons_succ]
      · rw [if_neg hin, if_neg (by simp; omega)]

/-- A valid descriptor keeps its array inside DATA (40_system R159). -/
theorem lt_dataSize_of_stored {a : Nat} (h : Stored i s a) : a < s.params.dataSize := by
  obtain ⟨-, ⟨-, h2, h3, h4, h5⟩, -, ha⟩ := h
  have hoff : s.arg2.toInt = s.arg2.toNat := BitVec.toInt_eq_toNat_of_lt (by
    have := BitVec.toInt_eq_toNat_cond s.arg2; split at this <;> omega)
  have hlen : s.arg3.toInt = s.arg3.toNat := BitVec.toInt_eq_toNat_of_lt (by
    have := BitVec.toInt_eq_toNat_cond s.arg3; split at this <;> omega)
  unfold arrayStart arrayLength at ha
  omega

theorem dataLegal_writeCells {l : List Host.Cell} (h : DataLegal s) (hl : ∀ c ∈ l, c.1 < s.params.dataSize)
    (hp : t.params = s.params) (hd : t.data = writeCells s.data l) : DataLegal t := by
  obtain ⟨hwf, hlt⟩ := h
  unfold DataLegal
  rw [hd, hp]
  exact ⟨writeCells_wf hwf l, fun c hc => (mem_writeCells hc).elim (hl c) (hlt c)⟩

theorem Moved.dataLegal (hr : Moved s t) (h : DataLegal s) : DataLegal t := by
  rcases hr.data with hd | ⟨a, v, ha, hd⟩
  · exact dataLegal_writeCells h (l := []) nofun (hr.field State.params fun _ _ => rfl) hd
  · exact dataLegal_writeCells h (l := [(a, v)]) (fun c hc => by rw [List.mem_singleton.1 hc]; exact ha)
      (hr.field State.params fun _ _ => rfl) hd

/-- Settles O55. -/
theorem dataStaysLegal : Obligations.DataStaysLegal := by
  intro s t hs h
  rcases step_cases h with ⟨rest, -, rfl⟩ | ⟨r, hr, rfl | ⟨w, -, -, ⟨i, -, hexec⟩ | rfl⟩⟩
  · exact hs
  · exact hr.dataLegal hs
  · by_cases hi : i = .sysSreset
    · subst hi
      rw [exec_sysSreset] at hexec
      rw [← Host.Outcome.next.inj hexec]
      exact hr.dataLegal hs
    · have hend := exec_endFrame hi hexec
      obtain ⟨l, hl, hd⟩ := hend.data
      exact dataLegal_writeCells (hr.dataLegal hs) (fun c hc => lt_dataSize_of_stored (hl c hc)) hend.operands.1 hd
  · exact hr.dataLegal hs

/-! ### The frame of a command -/

/-- Settles O54. -/
theorem commandFrame : Obligations.CommandFrame := by
  refine ⟨lookup_writeBytes, fun i s t hexec hi => ?_⟩
  obtain ⟨hops, hcoders, hwriter, hreader, l, hl, hd⟩ := exec_endFrame hi hexec
  have hcoder : ∀ k : BitVec 4, i.unit ≠ k → t.coder k.toNat = s.coder k.toNat :=
    fun k hk => hcoders _ fun h => hk (BitVec.eq_of_toNat_eq h.symm)
  refine ⟨hops, fun h => ?_, fun h => ?_, fun h => ?_, fun h => ?_, fun h => ?_, fun h => ?_, fun h => ?_, fun h => ?_,
    fun h => ?_, fun h => ?_, fun h => ?_, fun h => ?_, hwriter, ?_, fun h => ?_, fun a ha => ?_⟩
  · exact Coder.binaryEncoder.inj (hcoder 3 h)
  · exact Coder.binaryDecoder.inj (hcoder 4 h)
  · exact Coder.binaryEncoder.inj (hcoder 5 h)
  · exact Coder.binaryDecoder.inj (hcoder 6 h)
  · exact Coder.rangeEncoder.inj (hcoder 7 h)
  · exact Coder.rangeDecoder.inj (hcoder 8 h)
  · exact Coder.huffman.inj (hcoder 9 h)
  · exact Coder.huffman.inj (hcoder 10 h)
  · exact Coder.expGolomb.inj (hcoder 11 h)
  · exact Coder.expGolomb.inj (hcoder 12 h)
  · exact Coder.riceGolomb.inj (hcoder 13 h)
  · exact Coder.riceGolomb.inj (hcoder 14 h)
  · rintro (h | h)
    · exact hreader h
    · obtain ⟨v, hv⟩ := exec_sys i h hi s
      rw [hv] at hexec
      rw [← Host.Outcome.next.inj hexec]
      exact ⟨rfl, rfl⟩
  · obtain rfl : l = [] := List.eq_nil_iff_forall_not_mem.2 fun c hc => h (hl c hc).1
    exact hd
  · have hne : ∀ c ∈ l, c.1 ≠ a := by
      rintro c hc rfl
      exact ha (hl c hc).2.2
    rw [dataByte, dataByte, hd, lookup_writeCells hne]
    rfl

end Sys2Proof.Machine
end

section
/-! SUPPORT. What the coders' steps answer, whatever they write or read: registers that are as legal as those they began with. -/

namespace Sys2Proof.Machine

variable {α β : Type} {s t : State}

/-! ### What an operation answers -/

/-- Where the operation answers, it answers a value with the property. -/
def Gives (Q : α → Prop) (x : M α) : Prop := ∀ s v t, x s = .ok v t → Q v

theorem gives_true (x : M α) : Gives (fun _ => True) x := fun _ _ _ _ => trivial

theorem gives_pure {Q : α → Prop} {v : α} (h : Q v) : Gives Q (pure v) := by
  intro s w t hw
  cases hw
  exact h

theorem gives_raise {Q : α → Prop} (c : FaultCode) : Gives Q (raise c) := fun _ _ _ h => by cases h

theorem gives_stick {Q : α → Prop} : Gives Q (stick : M α) := fun _ _ _ h => by cases h

theorem gives_look {Q : α → Prop} {f : State → M α} (h : ∀ s, Gives Q (f s)) : Gives Q (look f) := fun s => h s s

theorem gives_bind {P : α → Prop} {Q : β → Prop} {x : M α} {f : α → M β} (hx : Gives P x) (hf : ∀ v, P v → Gives Q (f v)) :
    Gives Q (x >>= f) := by
  intro s w t h
  obtain ⟨v, r, hv, hw⟩ := bind_eq_ok.1 h
  exact hf v (hx s v r hv) r w t hw

/-! ### The binary coder -/

/-- The loop answers the interval that it settles on, whatever its shifts do. -/
theorem gives_renormalize {shift : BitVec 32 → α → M α} {low high low' high' : BitVec 32} {out : List Byte}
    (h : Settles low high out low' high') {k : Nat} (hk : out.length ≤ k) (a : α) :
    Gives (fun r => r.1 = low' ∧ r.2.1 = high') (renormalize shift k low high a) := by
  induction h generalizing k a with
  | done low high hne =>
    cases k with
    | zero => exact gives_pure ⟨rfl, rfl⟩
    | succ k =>
      rw [renormalize, topAgrees_false.2 hne]
      exact gives_pure ⟨rfl, rfl⟩
  | shift low high out low' high' heq _ ih =>
    obtain ⟨k, rfl⟩ : ∃ j, k = j + 1 := ⟨k - 1, by simp at hk; omega⟩
    rw [renormalize, topAgrees_iff.2 heq]
    exact gives_bind (gives_true _) fun a _ => ih (by simpa using hk) a

/-- The interval that a bit leaves is legal again (10_state R41). -/
theorem gives_step {shift : BitVec 32 → α → M α} {low high : BitVec 32} (h : low.toNat < high.toNat) {p : Nat} (hp : p ≤ 4095)
    (bit : Bool) (a : α) : Gives (fun r => IntervalLegal r.1 r.2.1)
      (renormalize shift 4 (stepLow low (splitPoint low high p) bit) (stepHigh high (splitPoint low high p) bit) a) := by
  obtain ⟨out, low', high', hs⟩ :=
    Settles.exists (stepLow low (splitPoint low high p) bit) (stepHigh high (splitPoint low high p) bit)
  intro s r t hr
  obtain ⟨hl, hh⟩ := gives_renormalize hs hs.length_le a s r t hr
  rw [hl, hh]
  exact hs.intervalLegal (stepInterval_le h hp bit)

theorem one_le_nextContext {c : Nat} (h : 1 ≤ c) (bit : Bool) : 1 ≤ nextContext c bit := by
  unfold nextContext
  dsimp only
  split <;> omega

/-- A legal predictor stays legal (10_state R37). -/
theorem PredictorLegal.update {p : Predictor} (h : PredictorLegal p) (bit : Bool) : PredictorLegal (p.update bit) := by
  have hctx := h.ctx_lt
  obtain ⟨hone, -, hcounters⟩ := h
  have hlt := nextContext_lt p.ctx.toNat bit
  obtain ⟨h0, h1⟩ := hcounters _ hctx
  obtain ⟨hm0, hm1⟩ := countBit_le h0 h1 bit
  refine ⟨?_, ?_, fun c hc => ?_⟩
  · rw [p.update_ctx]
    exact one_le_nextContext hone bit
  · rw [p.update_ctx]
    omega
  · rw [Predictor.update]
    dsimp only
    by_cases hcc : p.ctx.toNat = c
    · subst hcc
      rw [Table.get_set_self _ hc, Table.get_set_self _ hc, BitVec.toNat_ofNat, BitVec.toNat_ofNat]
      exact ⟨(Nat.mod_le _ _).trans hm0, (Nat.mod_le _ _).trans hm1⟩
    · rw [Table.get_set_other _ hcc, Table.get_set_other _ hcc]
      exact hcounters c hc

def BinaryEncoder.Legal (e : BinaryEncoder) : Prop := IntervalLegal e.low e.high ∧ PredictorLegal e.pred

def BinaryDecoder.Legal (d : BinaryDecoder) : Prop := IntervalLegal d.low d.high ∧ PredictorLegal d.pred

/-- The steps of an encoder keep its unit state, and legal registers legal. -/
def BinaryEncoder.Follows (e e' : BinaryEncoder) : Prop := e'.ustate = e.ustate ∧ (e.Legal → e'.Legal)

def BinaryDecoder.Follows (d d' : BinaryDecoder) : Prop := d'.ustate = d.ustate ∧ (d.Legal → d'.Legal)

theorem BinaryEncoder.Follows.refl (e : BinaryEncoder) : e.Follows e := ⟨rfl, id⟩

theorem BinaryEncoder.Follows.trans {e e1 e2 : BinaryEncoder} (h : e.Follows e1) (h' : e1.Follows e2) : e.Follows e2 :=
  ⟨h'.1.trans h.1, h'.2 ∘ h.2⟩

theorem BinaryDecoder.Follows.refl (d : BinaryDecoder) : d.Follows d := ⟨rfl, id⟩

theorem BinaryDecoder.Follows.trans {d d1 d2 : BinaryDecoder} (h : d.Follows d1) (h' : d1.Follows d2) : d.Follows d2 :=
  ⟨h'.1.trans h.1, h'.2 ∘ h.2⟩

theorem gives_encodeBit (e : BinaryEncoder) (bit : Bool) : Gives e.Follows (encodeBit e bit) := by
  by_cases he : e.Legal
  · obtain ⟨hint, hpred⟩ := he
    exact gives_bind (gives_step hint.1 e.pred.probability_le bit ()) fun r hr => gives_pure ⟨rfl, fun _ => ⟨hr, hpred.update bit⟩⟩
  · exact gives_bind (gives_true _) fun r _ => gives_pure ⟨rfl, fun h => absurd h he⟩

theorem gives_encodeBits (e : BinaryEncoder) (bits : List Bool) : Gives e.Follows (encodeBits e bits) := by
  induction bits generalizing e with
  | nil => exact gives_pure (.refl e)
  | cons b bits ih =>
    exact gives_bind (gives_encodeBit e b) fun e1 h1 s e2 t h2 => h1.trans (ih e1 s e2 t h2)

theorem gives_fpEncodeByte (e : BinaryEncoder) (v : Byte) : Gives e.Follows (fpEncodeByte e v) :=
  gives_bind (gives_encodeBit e false) fun e1 h1 s e2 t h2 => h1.trans (gives_encodeBits e1 _ s e2 t h2)

theorem gives_seedDecoder (d : BinaryDecoder) : Gives d.Follows (seedDecoder d) := by
  unfold seedDecoder
  split
  · exact gives_pure (.refl d)
  · exact gives_bind (gives_true _) fun _ _ => gives_pure ⟨rfl, id⟩

theorem gives_decodeBit (d : BinaryDecoder) : Gives (fun r => d.Follows r.2) (decodeBit d) := by
  refine gives_bind (gives_seedDecoder d) fun d1 h1 => ?_
  by_cases hd : d1.Legal
  · obtain ⟨hint, hpred⟩ := hd
    exact gives_bind (gives_step hint.1 d1.pred.probability_le _ _) fun r hr =>
      gives_pure (h1.trans ⟨rfl, fun _ => ⟨hr, hpred.update _⟩⟩)
  · exact gives_bind (gives_true _) fun r _ => gives_pure (h1.trans ⟨rfl, fun h => absurd h hd⟩)

theorem gives_decodeBits (d : BinaryDecoder) (n v : Nat) : Gives (fun r => d.Follows r.2) (decodeBits d n v) := by
  induction n generalizing d v with
  | zero => exact gives_pure (.refl d)
  | succ n ih =>
    exact gives_bind (gives_decodeBit d) fun r h1 s r2 t h2 => h1.trans (ih r.2 _ s r2 t h2)

theorem gives_decodeByte (d : BinaryDecoder) : Gives (fun r => d.Follows r.2) (decodeByte d) :=
  gives_bind (gives_decodeBits d 8 0) fun _ h => gives_pure h

/-! ### The range coder -/

theorem gives_renormRange {clamp : ClampMask} {shift : Word56 → α → M α} {low range low' range' : Word56} {out : List Byte}
    (h : RangeSettles clamp low range out low' range') {k : Nat} (hk : out.length ≤ k) (a : α) :
    Gives (fun r => r.1 = low' ∧ r.2.1 = range') (renormRange clamp shift k low range a) := by
  induction h generalizing k a with
  | done low range hn hr =>
    cases k with
    | zero => exact gives_pure ⟨rfl, rfl⟩
    | succ k =>
      rw [renormRange_none (straddleRange_none hn hr)]
      exact gives_pure ⟨rfl, rfl⟩
  | settled low range out low' range' ht _ ih =>
    obtain ⟨k, rfl⟩ : ∃ j, k = j + 1 := ⟨k - 1, by simp at hk; omega⟩
    rw [renormRange_some (straddleRange_settled ht) (clampedToZero_settled ht _)]
    refine gives_bind (gives_true _) fun a _ => ?_
    rw [BitVec.ofNat_toNat, BitVec.setWidth_eq]
    exact ih (by simpa using hk) a
  | straddle low range out low' range' hn hr hc _ ih =>
    obtain ⟨k, rfl⟩ : ∃ j, k = j + 1 := ⟨k - 1, by simp at hk; omega⟩
    rw [renormRange_some (straddleRange_straddle hn hr) (by rw [clampedToZero_straddle hn]; simpa using hc)]
    exact gives_bind (gives_true _) fun a _ => ih (by simpa using hk) a

/-- The loop never answers where its clamp gives 0. -/
theorem gives_renormRange_sticks {clamp : ClampMask} {shift : Word56 → α → M α} {low range : Word56} {out : List Byte}
    (h : RangeSticks clamp low range out) {k : Nat} (hk : out.length < k) (a : α) :
    Gives (fun _ => False) (renormRange clamp shift k low range a) := by
  induction h generalizing k a with
  | zero low range hn hr hc =>
    obtain ⟨k, rfl⟩ : ∃ j, k = j + 1 := ⟨k - 1, by omega⟩
    rw [renormRange_stick (straddleRange_straddle hn hr) (by rw [clampedToZero_straddle hn]; simpa using hc)]
    exact gives_stick
  | settled low range out ht _ ih =>
    obtain ⟨k, rfl⟩ : ∃ j, k = j + 1 := ⟨k - 1, by omega⟩
    rw [renormRange_some (straddleRange_settled ht) (clampedToZero_settled ht _)]
    refine gives_bind (gives_true _) fun a _ => ?_
    rw [BitVec.ofNat_toNat, BitVec.setWidth_eq]
    exact ih (by simpa using hk) a
  | straddle low range out hn hr hc _ ih =>
    obtain ⟨k, rfl⟩ : ∃ j, k = j + 1 := ⟨k - 1, by omega⟩
    rw [renormRange_some (straddleRange_straddle hn hr) (by rw [clampedToZero_straddle hn]; simpa using hc)]
    exact gives_bind (gives_true _) fun a _ => ih (by simpa using hk) a

/-- The registers that a step leaves are legal again (10_state R45). -/
theorem gives_rangeStep {clamp : ClampMask} {shift : Word56 → α → M α} {low range : Word56} {t : FreqTable} {sym : Nat}
    (h : RangeLegal low range t) (hw : stepWidth range t ≠ 0) (hsym : sym ≤ 256) (a : α) :
    Gives (fun r => RangeLegal r.1 r.2.1 (countSymbol t sym))
      (renormRange clamp shift renormLimit (symbolLow low t (unitWidth range t) sym) (symbolRange t (unitWidth range t) sym) a) := by
  obtain ⟨htable, hfits, -⟩ := rangeLegal_iff.1 h
  rcases (hfits.step htable hw hsym).settles_or_sticks clamp with ⟨out, low', range', hs⟩ | ⟨out, hs⟩
  · intro s r t hr
    obtain ⟨hl, hh⟩ := gives_renormRange hs (hs.length_le.trans (by decide)) a s r t hr
    rw [hl, hh]
    exact hs.rangeLegal hfits htable hw hsym
  · intro s r t hr
    exact (gives_renormRange_sticks hs (hs.length_le.trans_lt (by decide)) a s r t hr).elim

def RangeEncoder.Follows (e e' : RangeEncoder) : Prop :=
  e'.ustate = e.ustate ∧ (RangeLegal e.low e.range e.freq → RangeLegal e'.low e'.range e'.freq)

def RangeDecoder.Follows (d d' : RangeDecoder) : Prop :=
  d'.ustate = d.ustate ∧ (RangeLegal d.low d.range d.freq → RangeLegal d'.low d'.range d'.freq)

theorem gives_encodeSymbol (e : RangeEncoder) {sym : Nat} (hsym : sym ≤ 256) : Gives e.Follows (encodeSymbol e sym) := by
  refine gives_look fun s => ?_
  dsimp only
  split
  case isTrue => exact gives_raise _
  case isFalse hw =>
    by_cases he : RangeLegal e.low e.range e.freq
    · exact gives_bind (gives_rangeStep he hw hsym ()) fun r hr => gives_pure ⟨rfl, fun _ => hr⟩
    · exact gives_bind (gives_true _) fun r _ => gives_pure ⟨rfl, fun h => absurd h he⟩

theorem le_of_findSymbol {t : FreqTable} {count sym : Nat} (h : findSymbol t count = some sym) : sym ≤ 256 := by
  have := List.mem_range.1 (List.mem_of_find?_eq_some h)
  omega

theorem gives_seedRange (d : RangeDecoder) : Gives d.Follows (seedRange d) := by
  unfold seedRange
  split
  · exact gives_pure ⟨rfl, id⟩
  · exact gives_bind (gives_true _) fun _ _ => gives_pure ⟨rfl, id⟩

theorem gives_decodeSymbol (d : RangeDecoder) : Gives (fun r => d.Follows r.2) (decodeSymbol d) := by
  refine gives_look fun s => gives_bind (gives_seedRange d) fun d1 h1 => ?_
  have htrans : ∀ r : Nat × RangeDecoder, d1.Follows r.2 → d.Follows r.2 :=
    fun r h2 => ⟨h2.1.trans h1.1, h2.2 ∘ h1.2⟩
  dsimp only
  split
  case isTrue => exact gives_raise _
  case isFalse hw =>
    split
    case h_1 => exact gives_raise _
    case h_2 sym hfind =>
      have hsym : sym ≤ 256 := by
        split at hfind
        · exact le_of_findSymbol hfind
        · cases hfind
      by_cases hd : RangeLegal d1.low d1.range d1.freq
      · exact gives_bind (gives_rangeStep hd hw hsym _) fun r hr => gives_pure (htrans _ ⟨rfl, fun _ => hr⟩)
      · exact gives_bind (gives_true _) fun r _ => gives_pure (htrans _ ⟨rfl, fun h => absurd h hd⟩)

end Sys2Proof.Machine
end

section
/-! SUPPORT. What every command keeps of its own unit's registers, and the invariants that follow: the binary coders, the range coders,
the unit states and the streams' flags. -/

namespace Sys2Proof.Machine

variable {α E : Type} {s t : State} {i : Instr}

/-! ### A property of one unit's registers -/

/-- From registers with the property the operation reaches registers with the property. -/
abbrev KeepsOwn (slot : Slot E) (P : E → Prop) (x : M α) : Prop := Keeps (fun s t => P (slot.get s) → P (slot.get t)) x

/-- The registers of a coder are no part of the units 98 and 99, which are none. -/
theorem stableOwn (slot : Slot E) (P : E → Prop) {u : Nat} (hu : 14 < u) :
    Stable True u fun s t => P (slot.get s) → P (slot.get t) := by
  have hne : slot.unit ≠ u := by
    have := slot.unit_le
    omega
  have hkeep : ∀ s t : State, t.coder slot.unit = s.coder slot.unit → P (slot.get s) → P (slot.get t) :=
    fun s t h => by rw [slot.get_of_coder s t h]; exact id
  refine ⟨fun _ => id, fun _ _ _ h h' => h' ∘ h, fun s t _ => hkeep s _ rfl, fun f hf s => hkeep s _ (hf.coders s _ hne),
    fun _ s v => hkeep s _ rfl⟩

/-- Operations that write or read, but update no registers, leave those of every coder. -/
theorem coder_of_frame {u : Nat} (hu : 14 < u) (slot : Slot E) (h : Frame True u (fun _ => True) s t) :
    slot.get t = slot.get s := by
  refine slot.get_of_coder s t (h.coders _ ?_)
  have := slot.unit_le
  omega

theorem get_of_runs (slot : Slot E) {x : M α} (hx : Runs 99 x) (s : State) : slot.get (reached (x s)) = slot.get s :=
  coder_of_frame (u := 99) (by decide) slot (keeps_of_runs stable_frame (frame_putBits rfl)
    (frame_flushWriter rfl) hx s)

theorem get_of_gets (slot : Slot E) {x : M α} (hx : Gets 98 x) (s : State) : slot.get (reached (x s)) = slot.get s :=
  coder_of_frame (u := 98) (by decide) slot (keeps_of_gets stable_frame (frame_getBits rfl) hx s)

theorem get_of_readElement (slot : Slot E) {x : M α} (hx : ReadElement 98 x) (s : State) :
    slot.get (reached (x s)) = slot.get s :=
  coder_of_frame (u := 98) (by decide) slot
    (keeps_of_readElement stable_frame (frame_getBits rfl) hx s)

theorem get_of_writeElement (slot : Slot E) {x : M α} (hx : WriteElement 99 x) (s : State) :
    slot.get (reached (x s)) = slot.get s :=
  coder_of_frame (u := 99) (by decide) slot (keeps_of_writeElement stable_frame (frame_putBits rfl)
    (frame_flushWriter rfl) hx s)

/-- An operation that leaves the registers keeps every property of them. -/
theorem keepsOwn_of_get {slot : Slot E} {P : E → Prop} {x : M α} (h : ∀ s, slot.get (reached (x s)) = slot.get s) :
    KeepsOwn slot P x := fun s hs => (h s).symm ▸ hs

theorem keepsOwn_set {slot : Slot E} {P : E → Prop} {g : State → E} (h : ∀ s, P (slot.get s) → P (g s)) :
    KeepsOwn slot P (update fun s => slot.set (g s) s) := fun s hs => by
  rw [update_run, reached_ok, slot.get_set]
  exact h s hs

/-- An element that runs steps on the registers and then stores what they answer. -/
theorem keepsOwn_steps {β : Type} {slot : Slot E} {P : E → Prop} {Q : β → Prop} {code : E → M β} {store : β → M α}
    (hcode : ∀ e s, slot.get (reached (code e s)) = slot.get s) (hgives : ∀ e, P e → Gives Q (code e))
    (hstore : ∀ r, Q r → ∀ s, P (slot.get (reached (store r s)))) :
    KeepsOwn slot P (look fun s => code (slot.get s) >>= store) := by
  intro s hs
  have hget := hcode (slot.get s) s
  rw [look_run, bind_run]
  cases hr : code (slot.get s) s with
  | error e t =>
    rw [hr, reached_error] at hget
    exact hget.symm ▸ hs
  | ok r t => exact hstore r (hgives _ hs s r t hr) t

/-- A command of a coder that is no range coder keeps what its body keeps. -/
theorem command_own {slot : Slot E} {P : E → Prop} {body : M Word64} (h7 : i.unit ≠ 7) (h8 : i.unit ≠ 8)
    (hb : KeepsOwn slot P body) (h : command i body s = .next t) (hs : P (slot.get s)) : P (slot.get t) := by
  have hcopy : ∀ r : State, t.coder slot.unit = r.coder slot.unit → P (slot.get r) → P (slot.get t) :=
    fun r hr => by rw [slot.get_of_coder r t hr]; exact id
  have hresume : slot.get (resume s) = slot.get s := slot.get_of_coder _ _ rfl
  have hbody := hb (resume s) (by rw [hresume]; exact hs)
  have hend := Host.Outcome.next.inj h
  cases hr : body (resume s) with
  | ok v r =>
    rw [hr] at hend hbody
    exact hcopy r (by rw [← hend]; rfl) hbody
  | error e r =>
    rw [hr] at hend hbody
    cases e with
    | wait p => exact hcopy s (by rw [← hend]; rfl) hs
    | clamped =>
      refine hcopy r ?_ hbody
      rw [← hend, finish, markFailed, if_neg h7, if_neg h8, scrambleRange, if_neg h7, if_neg h8]
      rfl
    | fault c =>
      refine hcopy r ?_ hbody
      rw [← hend, finish, markFailed, if_neg h7, if_neg h8, ite_self]
      rfl

/-! ### The binary coders -/

/-- A property that INIT gives an encoder, and that its steps and DISPOSE keep. -/
structure BinaryEncoder.Kept (P : BinaryEncoder → Prop) : Prop where
  fresh : P (binaryEncoderFresh .ready)
  follows : ∀ e e', e.Follows e' → P e → P e'
  disposed : ∀ e, P e → P { e with ustate := .disposed }

/-- A property that INIT gives a decoder, and that its steps and DISPOSE keep. -/
structure BinaryDecoder.Kept (P : BinaryDecoder → Prop) : Prop where
  fresh : P (binaryDecoderFresh .ready)
  follows : ∀ d d', d.Follows d' → P d → P d'
  disposed : ∀ d, P d → P { d with ustate := .disposed }

section Encoders

variable {slot : Slot BinaryEncoder} {P : BinaryEncoder → Prop}

theorem keepsOwn_encoderElement (hP : BinaryEncoder.Kept P) {code : BinaryEncoder → M BinaryEncoder}
    (hruns : ∀ e, Runs 99 (code e)) (hgives : ∀ e, Gives e.Follows (code e)) :
    KeepsOwn slot P (look fun s => code (slot.get s) >>= fun e => update (slot.set e)) :=
  keepsOwn_steps (fun e s => get_of_runs slot (hruns e) s)
    (fun e he s e' t h => hP.follows e e' (hgives e s e' t h) he) fun e he s => by
      rw [update_run, reached_ok, slot.get_set]
      exact he

theorem keepsOwn_encoderInit (hP : BinaryEncoder.Kept P) (k : Nat) :
    KeepsOwn slot P (if k ≠ 0 then raise .invalidArgument else do
      update fun s => slot.set (binaryEncoderFresh .ready) s
      pure 0 : M Word64) := by
  have hst := stableOwn slot P (u := 99) (by decide)
  split
  · exact hst.raise _
  · exact hst.bind (keepsOwn_set fun _ _ => hP.fresh) fun _ => hst.pure 0

end Encoders

section Decoders

variable {slot : Slot BinaryDecoder} {P : BinaryDecoder → Prop}

theorem keepsOwn_decoderElement (hP : BinaryDecoder.Kept P) {code : BinaryDecoder → M (α × BinaryDecoder)}
    (hgets : ∀ d, Gets 98 (code d)) (hgives : ∀ d, Gives (fun r => d.Follows r.2) (code d)) :
    KeepsOwn slot P (look fun s => code (slot.get s) >>= fun r => update (slot.set r.2) >>= fun _ => pure r.1) :=
  keepsOwn_steps (fun d s => get_of_gets slot (hgets d) s)
    (fun d hd s r t h => hP.follows d r.2 (hgives d s r t h) hd) fun r hr s => by
      rw [bind_ok (update_run _ _), pure_run, reached_ok, slot.get_set]
      exact hr

theorem keepsOwn_decoderInit (hP : BinaryDecoder.Kept P) (k : Nat) :
    KeepsOwn slot P (if k ≠ 0 then raise .invalidArgument else do
      update fun s => slot.set (binaryDecoderFresh .ready) s
      pure 0 : M Word64) := by
  have hst := stableOwn slot P (u := 99) (by decide)
  split
  · exact hst.raise _
  · exact hst.bind (keepsOwn_set fun _ _ => hP.fresh) fun _ => hst.pure 0

end Decoders

theorem keepsOwn_memWrite (slot : Slot E) (P : E → Prop) (a : Nat) (v : Byte) : KeepsOwn slot P (memWrite a v) :=
  keepsOwn_of_get fun _ => slot.get_of_coder _ _ rfl

theorem exec_bee {P : BinaryEncoder → Prop} (hP : BinaryEncoder.Kept P) (hi : i.unit = 3) (h : exec i s = .next t)
    (hs : P s.bee) : P t.bee := by
  have h7 : i.unit ≠ 7 := by rw [hi]; decide
  have h8 : i.unit ≠ 8 := by rw [hi]; decide
  have hst := stableOwn beeSlot P (u := 99) (by decide)
  cases i
  case beeInit k => exact command_own (slot := beeSlot) h7 h8 (keepsOwn_encoderInit hP k) h hs
  case beeEncbit =>
    exact command_own (slot := beeSlot) h7 h8
      (hst.onReady (hst.bind (hst.element (keepsOwn_encoderElement hP (fun e => runs_encodeBit e _) fun e => gives_encodeBit e _))
        fun _ => hst.pure 0) _) h hs
  case beeEncbyte =>
    exact command_own (slot := beeSlot) h7 h8
      (hst.onReady (hst.bind (hst.element (keepsOwn_encoderElement hP (fun e => runs_encodeByte e _) fun e => gives_encodeBits e _))
        fun _ => hst.pure 0) _) h hs
  case beeEncode =>
    exact command_own (slot := beeSlot) h7 h8
      (hst.onArray trivial (hst.encodeAll trivial (fun i => hst.pure ()) fun v =>
        keepsOwn_encoderElement hP (fun e => runs_encodeByte e v) fun e => gives_encodeBits e _) _) h hs
  case beeDispose =>
    exact command_own (slot := beeSlot) h7 h8
      (hst.onDispose (hst.element (hst.bind (keepsOwn_of_get (get_of_runs beeSlot (runs_flushInterval _))) fun _ =>
        keepsOwn_set fun s => hP.disposed s.bee)) _) h hs
  all_goals exact absurd hi (by simp only [Instr.unit]; decide)

theorem exec_fpe {P : BinaryEncoder → Prop} (hP : BinaryEncoder.Kept P) (hi : i.unit = 5) (h : exec i s = .next t)
    (hs : P s.fpe) : P t.fpe := by
  have h7 : i.unit ≠ 7 := by rw [hi]; decide
  have h8 : i.unit ≠ 8 := by rw [hi]; decide
  have hst := stableOwn fpeSlot P (u := 99) (by decide)
  cases i
  case fpeInit k => exact command_own (slot := fpeSlot) h7 h8 (keepsOwn_encoderInit hP k) h hs
  case fpeEncbyte =>
    exact command_own (slot := fpeSlot) h7 h8
      (hst.onReady (hst.bind (hst.element (keepsOwn_encoderElement hP (fun e => runs_fpEncodeByte e _) fun e =>
        gives_fpEncodeByte e _)) fun _ => hst.pure 0) _) h hs
  case fpeEncode =>
    exact command_own (slot := fpeSlot) h7 h8
      (hst.onArray trivial (hst.encodeAll trivial (fun i => hst.pure ()) fun v =>
        keepsOwn_encoderElement hP (fun e => runs_fpEncodeByte e v) fun e => gives_fpEncodeByte e _) _) h hs
  case fpeDispose =>
    refine command_own (slot := fpeSlot) h7 h8 (hst.onDispose (hst.element ?_) _) h hs
    intro r hr
    have hget := get_of_runs fpeSlot (runs_encodeBit s.fpe true) r
    rw [bind_run]
    cases he : encodeBit s.fpe true r with
    | error e u =>
      rw [he, reached_error] at hget
      exact hget.symm ▸ hr
    | ok e u =>
      have hPe : P e := hP.follows _ _ (gives_encodeBit s.fpe true r e u he) hs
      rw [he, reached_ok] at hget
      have hflush : KeepsOwn fpeSlot P (flushInterval e) := keepsOwn_of_get (get_of_runs fpeSlot (runs_flushInterval _))
      exact hst.bind hflush (fun _ => keepsOwn_set (slot := fpeSlot) fun _ _ => hP.disposed e hPe) u (hget.symm ▸ hr)
  all_goals exact absurd hi (by simp only [Instr.unit]; decide)

theorem exec_bed {P : BinaryDecoder → Prop} (hP : BinaryDecoder.Kept P) (hi : i.unit = 4) (h : exec i s = .next t)
    (hs : P s.bed) : P t.bed := by
  have h7 : i.unit ≠ 7 := by rw [hi]; decide
  have h8 : i.unit ≠ 8 := by rw [hi]; decide
  have hst := stableOwn bedSlot P (u := 99) (by decide)
  have hbyte : KeepsOwn bedSlot P (bedElement decodeByte) := keepsOwn_decoderElement hP gets_decodeByte gives_decodeByte
  cases i
  case bedInit k => exact command_own (slot := bedSlot) h7 h8 (keepsOwn_decoderInit hP k) h hs
  case bedDecbit =>
    exact command_own (slot := bedSlot) h7 h8
      (hst.onReady (hst.bind (hst.element (keepsOwn_decoderElement hP gets_decodeBit gives_decodeBit)) fun _ => hst.pure _) _)
      h hs
  case bedDecbyte =>
    exact command_own (slot := bedSlot) h7 h8
      (hst.onReady (hst.bind (hst.element hbyte) fun _ => hst.pure _) _) h hs
  case bedDecode =>
    exact command_own (slot := bedSlot) h7 h8
      (hst.onArray trivial (hst.decodeAll (keepsOwn_memWrite bedSlot P) (fun _ => hst.pure ()) (hbyte.map some)) _) h hs
  case bedDispose =>
    exact command_own (slot := bedSlot) h7 h8
      (hst.onDispose (keepsOwn_set fun s => hP.disposed s.bed) _) h hs
  all_goals exact absurd hi (by simp only [Instr.unit]; decide)

theorem exec_fpd {P : BinaryDecoder → Prop} (hP : BinaryDecoder.Kept P) (hi : i.unit = 6) (h : exec i s = .next t)
    (hs : P s.fpd) : P t.fpd := by
  have h7 : i.unit ≠ 7 := by rw [hi]; decide
  have h8 : i.unit ≠ 8 := by rw [hi]; decide
  have hst := stableOwn fpdSlot P (u := 99) (by decide)
  have hbit : KeepsOwn fpdSlot P (fpdElement decodeBit) := keepsOwn_decoderElement hP gets_decodeBit gives_decodeBit
  have hbyte : KeepsOwn fpdSlot P (fpdElement decodeByte) := keepsOwn_decoderElement hP gets_decodeByte gives_decodeByte
  cases i
  case fpdInit k => exact command_own (slot := fpdSlot) h7 h8 (keepsOwn_decoderInit hP k) h hs
  case fpdDecbit =>
    exact command_own (slot := fpdSlot) h7 h8
      (hst.onReady (hst.bind (hst.element hbit) fun _ => hst.pure _) _) h hs
  case fpdDecbyte =>
    exact command_own (slot := fpdSlot) h7 h8
      (hst.onReady (hst.bind (hst.element hbyte) fun _ => hst.pure _) _) h hs
  case fpdDecode =>
    exact command_own (slot := fpdSlot) h7 h8
      (hst.onArray trivial (fun start len => hst.bind (hst.fpDecodeFrom (start := start) hbit hbyte len 0
        fun _ _ _ _ => keepsOwn_memWrite fpdSlot P _ _) fun _ => hst.pure _) _) h hs
  case fpdDispose =>
    exact command_own (slot := fpdSlot) h7 h8
      (hst.onDispose (keepsOwn_set fun s => hP.disposed s.fpd) _) h hs
  all_goals exact absurd hi (by simp only [Instr.unit]; decide)

/-! ### The Huffman and Golomb coders -/

/-- Only a range coder is ever FAILED (44_range_coder R288). -/
def Huffman.Sound (h : Huffman) : Prop := h.ustate ≠ .failed

def ExpGolomb.Sound (g : ExpGolomb) : Prop := g.ustate ≠ .failed

def RiceGolomb.Sound (g : RiceGolomb) : Prop := g.ustate ≠ .failed

theorem ready_ne_failed : CoderState.ready ≠ .failed := nofun

theorem disposed_ne_failed : CoderState.disposed ≠ .failed := nofun

theorem keepsOwn_huffmanInit (slot : Slot Huffman) : KeepsOwn slot Huffman.Sound (do
    update fun s => slot.set (huffmanFresh .ready) s
    pure 0 : M Word64) :=
  (stableOwn slot Huffman.Sound (u := 99) (by decide)).bind (keepsOwn_set fun _ _ => ready_ne_failed) fun _ =>
    (stableOwn slot Huffman.Sound (u := 99) (by decide)).pure 0

theorem keepsOwn_huffmanDispose (slot : Slot Huffman) :
    KeepsOwn slot Huffman.Sound (update fun s => slot.set { slot.get s with ustate := .disposed } s) :=
  keepsOwn_set fun _ _ => disposed_ne_failed

theorem keepsOwn_expGolombInit (slot : Slot ExpGolomb) (signed : Bool) : KeepsOwn slot ExpGolomb.Sound (do
    update fun s => slot.set ({ ustate := .ready, signed := signed }) s
    pure 0 : M Word64) :=
  (stableOwn slot ExpGolomb.Sound (u := 99) (by decide)).bind (keepsOwn_set fun _ _ => ready_ne_failed) fun _ =>
    (stableOwn slot ExpGolomb.Sound (u := 99) (by decide)).pure 0

theorem keepsOwn_expGolombDispose (slot : Slot ExpGolomb) :
    KeepsOwn slot ExpGolomb.Sound (update fun s => slot.set { slot.get s with ustate := .disposed } s) :=
  keepsOwn_set fun _ _ => disposed_ne_failed

theorem keepsOwn_riceGolombInit (slot : Slot RiceGolomb) (signed : Bool) (l : BitVec 3) : KeepsOwn slot RiceGolomb.Sound (do
    update fun s => slot.set ({ ustate := .ready, signed := signed, logBase := l }) s
    pure 0 : M Word64) :=
  (stableOwn slot RiceGolomb.Sound (u := 99) (by decide)).bind (keepsOwn_set fun _ _ => ready_ne_failed) fun _ =>
    (stableOwn slot RiceGolomb.Sound (u := 99) (by decide)).pure 0

theorem keepsOwn_riceGolombDispose (slot : Slot RiceGolomb) :
    KeepsOwn slot RiceGolomb.Sound (update fun s => slot.set { slot.get s with ustate := .disposed } s) :=
  keepsOwn_set fun _ _ => disposed_ne_failed

theorem keepsOwn_tables (slot : Slot Huffman) (sizes : Table (BitVec 8) 256) (codes : Table Word64 256) :
    KeepsOwn slot Huffman.Sound (update fun s => slot.set { slot.get s with sizes := sizes, codes := codes } s) :=
  keepsOwn_set fun _ h => h

theorem exec_hfe (hi : i.unit = 9) (h : exec i s = .next t) (hs : s.hfe.Sound) : t.hfe.Sound := by
  have h7 : i.unit ≠ 7 := by rw [hi]; decide
  have h8 : i.unit ≠ 8 := by rw [hi]; decide
  have hst := stableOwn hfeSlot Huffman.Sound (u := 99) (by decide)
  cases i
  case hfeInit =>
    exact command_own (slot := hfeSlot) h7 h8 (P := Huffman.Sound)
      (keepsOwn_huffmanInit hfeSlot) h hs
  case hfeEncode =>
    exact command_own (slot := hfeSlot) h7 h8 (P := Huffman.Sound)
      (hst.onArray trivial (fun start len => hst.bind (hst.elementAt trivial 0 (keeps_look fun s =>
        hst.bind (keepsOwn_of_get (get_of_runs hfeSlot (runs_writeHeader _))) fun _ => keepsOwn_tables hfeSlot _ _))
          fun _ => hst.encodeAll trivial (fun _ => hst.pure ())
            (fun v => keepsOwn_of_get (get_of_runs hfeSlot (runs_hfeElement v))) start len) _) h hs
  case hfeDispose =>
    exact command_own (slot := hfeSlot) h7 h8 (P := Huffman.Sound)
      (hst.onDispose (keepsOwn_huffmanDispose hfeSlot) _) h hs
  all_goals exact absurd hi (by simp only [Instr.unit]; decide)

theorem exec_hfd (hi : i.unit = 10) (h : exec i s = .next t) (hs : s.hfd.Sound) : t.hfd.Sound := by
  have h7 : i.unit ≠ 7 := by rw [hi]; decide
  have h8 : i.unit ≠ 8 := by rw [hi]; decide
  have hst := stableOwn hfdSlot Huffman.Sound (u := 99) (by decide)
  cases i
  case hfdInit =>
    exact command_own (slot := hfdSlot) h7 h8 (P := Huffman.Sound)
      (keepsOwn_huffmanInit hfdSlot) h hs
  case hfdDecode =>
    have hheader : ∀ len, KeepsOwn hfdSlot Huffman.Sound (hfdHeader len) := by
      intro len
      refine hst.bind (keepsOwn_of_get (get_of_gets hfdSlot gets_readHeader)) fun sizes => ?_
      split
      · exact hst.raise _
      · exact keepsOwn_tables hfdSlot _ _
    refine command_own (slot := hfdSlot) h7 h8 (P := Huffman.Sound)
      (hst.onArray trivial (fun start len => hst.bind (hst.orEnd trivial 0 (hheader len)) fun r => ?_) _) h hs
    cases r with
    | none => exact hst.pure 0
    | some _ =>
      exact hst.decodeAll (keepsOwn_memWrite hfdSlot _) (fun _ => hst.pure ())
        ((keepsOwn_of_get (get_of_gets hfdSlot gets_hfdElement)).map some) start len
  case hfdDispose =>
    exact command_own (slot := hfdSlot) h7 h8 (P := Huffman.Sound)
      (hst.onDispose (keepsOwn_huffmanDispose hfdSlot) _) h hs
  all_goals exact absurd hi (by simp only [Instr.unit]; decide)

theorem exec_ege (hi : i.unit = 11) (h : exec i s = .next t) (hs : s.ege.Sound) : t.ege.Sound := by
  have h7 : i.unit ≠ 7 := by rw [hi]; decide
  have h8 : i.unit ≠ 8 := by rw [hi]; decide
  have hst := stableOwn egeSlot ExpGolomb.Sound (u := 99) (by decide)
  cases i
  case egeInit signed =>
    exact command_own (slot := egeSlot) h7 h8 (P := ExpGolomb.Sound)
      (keepsOwn_expGolombInit egeSlot signed) h hs
  case egeEncbyte =>
    exact command_own (slot := egeSlot) h7 h8 (P := ExpGolomb.Sound)
      (hst.onReady (hst.bind (hst.element (keepsOwn_of_get (get_of_runs egeSlot (runs_egeElement _)))) fun _ => hst.pure 0) _) h hs
  case egeEncode =>
    exact command_own (slot := egeSlot) h7 h8 (P := ExpGolomb.Sound)
      (hst.onArray trivial (hst.encodeAll trivial (fun _ => hst.pure ()) fun v =>
        keepsOwn_of_get (get_of_runs egeSlot (runs_egeElement v))) _) h hs
  case egeDispose =>
    exact command_own (slot := egeSlot) h7 h8 (P := ExpGolomb.Sound)
      (hst.onDispose (keepsOwn_expGolombDispose egeSlot) _) h hs
  all_goals exact absurd hi (by simp only [Instr.unit]; decide)

theorem exec_rge (hi : i.unit = 13) (h : exec i s = .next t) (hs : s.rge.Sound) : t.rge.Sound := by
  have h7 : i.unit ≠ 7 := by rw [hi]; decide
  have h8 : i.unit ≠ 8 := by rw [hi]; decide
  have hst := stableOwn rgeSlot RiceGolomb.Sound (u := 99) (by decide)
  cases i
  case rgeInit signed l =>
    refine command_own (slot := rgeSlot) h7 h8 (P := RiceGolomb.Sound) ?_ h hs
    split
    · exact keepsOwn_riceGolombInit rgeSlot signed _
    · exact hst.raise _
  case rgeEncbyte =>
    exact command_own (slot := rgeSlot) h7 h8 (P := RiceGolomb.Sound)
      (hst.onReady (hst.bind (hst.element (keepsOwn_of_get (get_of_runs rgeSlot (runs_rgeElement _)))) fun _ => hst.pure 0) _) h hs
  case rgeEncode =>
    exact command_own (slot := rgeSlot) h7 h8 (P := RiceGolomb.Sound)
      (hst.onArray trivial (hst.encodeAll trivial (fun _ => hst.pure ()) fun v =>
        keepsOwn_of_get (get_of_runs rgeSlot (runs_rgeElement v))) _) h hs
  case rgeDispose =>
    exact command_own (slot := rgeSlot) h7 h8 (P := RiceGolomb.Sound)
      (hst.onDispose (keepsOwn_riceGolombDispose rgeSlot) _) h hs
  all_goals exact absurd hi (by simp only [Instr.unit]; decide)

theorem exec_egd (hi : i.unit = 12) (h : exec i s = .next t) (hs : s.egd.Sound) : t.egd.Sound := by
  have h7 : i.unit ≠ 7 := by rw [hi]; decide
  have h8 : i.unit ≠ 8 := by rw [hi]; decide
  have hst := stableOwn egdSlot ExpGolomb.Sound (u := 99) (by decide)
  cases i
  case egdInit signed =>
    exact command_own (slot := egdSlot) h7 h8 (P := ExpGolomb.Sound)
      (keepsOwn_expGolombInit egdSlot signed) h hs
  case egdDecbyte =>
    exact command_own (slot := egdSlot) h7 h8 (P := ExpGolomb.Sound)
      (hst.onReady (hst.bind (hst.element (keepsOwn_of_get (get_of_readElement egdSlot readElement_egdElement))) fun _ =>
        hst.pure _) _) h hs
  case egdDecode =>
    exact command_own (slot := egdSlot) h7 h8 (P := ExpGolomb.Sound)
      (hst.onArray trivial (hst.decodeAll (keepsOwn_memWrite egdSlot _) (fun _ => hst.pure ())
        ((keepsOwn_of_get (get_of_readElement egdSlot readElement_egdElement)).map some)) _) h hs
  case egdDispose =>
    exact command_own (slot := egdSlot) h7 h8 (P := ExpGolomb.Sound)
      (hst.onDispose (keepsOwn_expGolombDispose egdSlot) _) h hs
  all_goals exact absurd hi (by simp only [Instr.unit]; decide)

theorem exec_rgd (hi : i.unit = 14) (h : exec i s = .next t) (hs : s.rgd.Sound) : t.rgd.Sound := by
  have h7 : i.unit ≠ 7 := by rw [hi]; decide
  have h8 : i.unit ≠ 8 := by rw [hi]; decide
  have hst := stableOwn rgdSlot RiceGolomb.Sound (u := 99) (by decide)
  cases i
  case rgdInit signed l =>
    refine command_own (slot := rgdSlot) h7 h8 (P := RiceGolomb.Sound) ?_ h hs
    split
    · exact keepsOwn_riceGolombInit rgdSlot signed _
    · exact hst.raise _
  case rgdDecbyte =>
    exact command_own (slot := rgdSlot) h7 h8 (P := RiceGolomb.Sound)
      (hst.onReady (hst.bind (hst.element (keepsOwn_of_get (get_of_readElement rgdSlot readElement_rgdElement))) fun _ =>
        hst.pure _) _) h hs
  case rgdDecode =>
    exact command_own (slot := rgdSlot) h7 h8 (P := RiceGolomb.Sound)
      (hst.onArray trivial (hst.decodeAll (keepsOwn_memWrite rgdSlot _) (fun _ => hst.pure ())
        ((keepsOwn_of_get (get_of_readElement rgdSlot readElement_rgdElement)).map some)) _) h hs
  case rgdDispose =>
    exact command_own (slot := rgdSlot) h7 h8 (P := RiceGolomb.Sound)
      (hst.onDispose (keepsOwn_riceGolombDispose rgdSlot) _) h hs
  all_goals exact absurd hi (by simp only [Instr.unit]; decide)

end Sys2Proof.Machine
end

section
/-! SUPPORT. The registers of the range coders after every command, unless they are FAILED (44_range_coder R288). -/

namespace Sys2Proof.Machine

variable {s t : State} {i : Instr}

/-- Legal unless FAILED (10_state R45). -/
def RangeEncoder.Safe (e : RangeEncoder) : Prop := e.ustate ≠ .failed → RangeLegal e.low e.range e.freq

def RangeDecoder.Safe (d : RangeDecoder) : Prop := d.ustate ≠ .failed → RangeLegal d.low d.range d.freq

def RangeEncoder.Legal (e : RangeEncoder) : Prop := RangeLegal e.low e.range e.freq

theorem RangeEncoder.Safe.follows {e e' : RangeEncoder} (h : e.Safe) (hf : e.Follows e') : e'.Safe :=
  fun hu => hf.2 (h (hf.1 ▸ hu))

theorem RangeDecoder.Safe.follows {d d' : RangeDecoder} (h : d.Safe) (hf : d.Follows d') : d'.Safe :=
  fun hu => hf.2 (h (hf.1 ▸ hu))

/-- A flat table is legal with every legal interval (44_range_coder R283). -/
theorem RangeLegal.flat {low range : Word56} {f : FreqTable} (h : RangeLegal low range f) : RangeLegal low range flatTable := by
  obtain ⟨-, hfits, hwide⟩ := rangeLegal_iff.1 h
  exact rangeLegal_iff.2 ⟨tableLegal_flat, hfits, hwide⟩

theorem rangeEncoderFresh_safe (u : CoderState) (c : BitVec 32) : (rangeEncoderFresh u c).Safe := by
  obtain ⟨-, -, hranges, -⟩ := resetMeetsTheInvariants
  exact fun _ => hranges.1 nofun

theorem rangeDecoderFresh_safe (u : CoderState) (c : BitVec 32) : (rangeDecoderFresh u c).Safe := by
  obtain ⟨-, -, hranges, -⟩ := resetMeetsTheInvariants
  exact fun _ => hranges.2 nofun

/-- A command of RCE keeps what its body keeps; where the range degenerates the unit is FAILED. -/
theorem command_rce {body : M Word64} (hi : i.unit = 7) (h : command i body s = .next t) (hs : s.rce.Safe)
    (hbody : (reached (body (resume s))).rce.Safe) : t.rce.Safe := by
  rw [← Host.Outcome.next.inj h, hi]
  cases hr : body (resume s) with
  | ok v r =>
    rw [hr] at hbody
    exact hbody
  | error e r =>
    rw [hr] at hbody
    cases e with
    | wait p => exact hs
    | clamped => exact fun hu => absurd rfl hu
    | fault c =>
      rw [finish]
      split
      · exact fun hu => absurd rfl hu
      · exact hbody

/-- A command of RCD keeps what its body keeps; where the range degenerates the unit is FAILED. -/
theorem command_rcd {body : M Word64} (hi : i.unit = 8) (h : command i body s = .next t) (hs : s.rcd.Safe)
    (hbody : (reached (body (resume s))).rcd.Safe) : t.rcd.Safe := by
  rw [← Host.Outcome.next.inj h, hi]
  cases hr : body (resume s) with
  | ok v r =>
    rw [hr] at hbody
    exact hbody
  | error e r =>
    rw [hr] at hbody
    cases e with
    | wait p => exact hs
    | clamped => exact fun hu => absurd rfl hu
    | fault c =>
      rw [finish]
      split
      · exact fun hu => absurd rfl hu
      · exact hbody

theorem keepsOwn_rceElement (v : Byte) : KeepsOwn rceSlot RangeEncoder.Safe (rceElement v) :=
  keepsOwn_steps (slot := rceSlot) (code := fun e => encodeSymbol e v.toNat) (store := fun e => update (rceSlot.set e))
    (fun e s => get_of_writeElement rceSlot (writeElement_encodeSymbol e v.toNat) s)
    (fun e he s e' t h => he.follows (gives_encodeSymbol e (by omega) s e' t h)) fun e he s => by
      rw [update_run, reached_ok, rceSlot.get_set]
      exact he

theorem keepsOwn_rceChunk (len i : Nat) : KeepsOwn rceSlot RangeEncoder.Safe (rceChunk len i) := by
  rw [rceChunk_eq]
  refine keepsOwn_set fun s hs => ?_
  split
  · exact fun hu => (hs hu).flat
  · exact hs

/-- DISPOSE leaves `low`, `range` and the table. -/
theorem keepsOwn_rceDispose (v : Nat) : KeepsOwn rceSlot RangeEncoder.Legal (element do
    putBits v 56
    update fun s => { s with rce.ustate := .disposed }) := by
  have hst := stableOwn rceSlot RangeEncoder.Legal (u := 99) (by decide)
  have hput : KeepsOwn rceSlot RangeEncoder.Legal (putBits v 56) := keepsOwn_of_get (get_of_runs rceSlot (.putBits v 56))
  have hset : KeepsOwn rceSlot RangeEncoder.Legal (update fun s => { s with rce.ustate := .disposed }) :=
    keepsOwn_set (g := fun s => { s.rce with ustate := .disposed }) fun _ h => h
  exact hst.element (hst.bind hput fun _ => hset)

theorem exec_rce (hi : i.unit = 7) (h : exec i s = .next t) (hs : s.rce.Safe) : t.rce.Safe := by
  have hst := stableOwn rceSlot RangeEncoder.Safe (u := 99) (by decide)
  have hcommand : ∀ {i : Instr} {body : M Word64}, i.unit = 7 → KeepsOwn rceSlot RangeEncoder.Safe body →
      command i body s = .next t → t.rce.Safe := fun hi hb h => command_rce hi h hs (hb (resume s) hs)
  cases i
  case rceInit =>
    refine hcommand rfl ?_ h
    split
    · exact hst.bind (keepsOwn_set (g := fun s => rangeEncoderFresh .ready (argLow s)) fun s _ => rangeEncoderFresh_safe _ _)
        fun _ => hst.pure 0
    · exact hst.raise _
  case rceEncbyte =>
    exact hcommand rfl (hst.onReady (hst.bind (hst.element (keepsOwn_rceElement _)) fun _ => hst.pure 0) _) h
  case rceEncode =>
    exact hcommand rfl (hst.onArray trivial (fun start len =>
      hst.encodeAll trivial (keepsOwn_rceChunk len) keepsOwn_rceElement start len) _) h
  case rceDispose =>
    refine command_rce rfl h hs ?_
    cases hu : s.rce.ustate with
    | ready =>
      have hbody := (stableOwn rceSlot RangeEncoder.Legal (u := 99) (by decide)).onDispose (keepsOwn_rceDispose s.rce.low.toNat) .ready
      exact fun _ => hbody (resume s) (hs (by rw [hu]; nofun))
    | uninit => exact hs
    | disposed => exact hs
    | failed => exact hs
  all_goals exact absurd hi (by simp only [Instr.unit]; decide)

theorem keepsOwn_rcdElement : KeepsOwn rcdSlot RangeDecoder.Safe rcdElement :=
  keepsOwn_steps (slot := rcdSlot) (code := decodeSymbol)
    (store := fun r => update (rcdSlot.set r.2) >>= fun _ => pure r.1)
    (fun d s => get_of_gets rcdSlot (gets_decodeSymbol d) s)
    (fun d hd s r t h => hd.follows (gives_decodeSymbol d s r t h)) fun r hr s => by
      rw [bind_ok (update_run _ _), pure_run, reached_ok, rcdSlot.get_set]
      exact hr

theorem keepsOwn_rcdChunk (len i : Nat) : KeepsOwn rcdSlot RangeDecoder.Safe (rcdChunk len i) := by
  rw [rcdChunk_eq]
  refine keepsOwn_set fun s hs => ?_
  split
  · exact fun hu => (hs hu).flat
  · exact hs

theorem exec_rcd (hi : i.unit = 8) (h : exec i s = .next t) (hs : s.rcd.Safe) : t.rcd.Safe := by
  have hst := stableOwn rcdSlot RangeDecoder.Safe (u := 99) (by decide)
  have hcommand : ∀ {i : Instr} {body : M Word64}, i.unit = 8 → KeepsOwn rcdSlot RangeDecoder.Safe body →
      command i body s = .next t → t.rcd.Safe := fun hi hb h => command_rcd hi h hs (hb (resume s) hs)
  cases i
  case rcdInit =>
    refine hcommand rfl ?_ h
    split
    · exact hst.bind (keepsOwn_set (g := fun s => rangeDecoderFresh .ready (argLow s)) fun s _ => rangeDecoderFresh_safe _ _)
        fun _ => hst.pure 0
    · exact hst.raise _
  case rcdDecbyte =>
    exact hcommand rfl (hst.onReady (hst.bind (hst.element keepsOwn_rcdElement) fun _ => hst.pure _) _) h
  case rcdDecode =>
    exact hcommand rfl (hst.onArray trivial (fun start len => hst.decodeAll (keepsOwn_memWrite rcdSlot _)
      (keepsOwn_rcdChunk len) (keepsOwn_rcdElement.map symbolByte) start len) _) h
  case rcdDispose =>
    refine command_rcd rfl h hs ?_
    cases hu : s.rcd.ustate with
    | ready => exact fun _ => hs (by rw [hu]; nofun)
    | uninit => exact hs
    | disposed => exact hs
    | failed => exact hs
  all_goals exact absurd hi (by simp only [Instr.unit]; decide)

/-! ### The statements -/

theorem BinaryEncoder.kept_legal : BinaryEncoder.Kept BinaryEncoder.Legal where
  fresh := by
    obtain ⟨-, ⟨h, -⟩, -⟩ := resetMeetsTheInvariants
    exact h
  follows _ _ h := h.2
  disposed _ h := h

theorem BinaryDecoder.kept_legal : BinaryDecoder.Kept BinaryDecoder.Legal where
  fresh := by
    obtain ⟨-, ⟨-, h, -⟩, -⟩ := resetMeetsTheInvariants
    exact h
  follows _ _ h := h.2
  disposed _ h := h

theorem BinaryEncoder.kept_sound : BinaryEncoder.Kept fun e => e.ustate ≠ .failed where
  fresh := ready_ne_failed
  follows _ _ h he := h.1 ▸ he
  disposed _ _ := disposed_ne_failed

theorem BinaryDecoder.kept_sound : BinaryDecoder.Kept fun d => d.ustate ≠ .failed where
  fresh := ready_ne_failed
  follows _ _ h hd := h.1 ▸ hd
  disposed _ _ := disposed_ne_failed

/-- A property of one unit's registers holds after a command where the unit's own commands keep it. -/
theorem coder_kept {E : Type} (slot : Slot E) {P : E → Prop} (hi : i ≠ .sysSreset)
    (hown : i.unit.toNat = slot.unit → P (slot.get s) → P (slot.get t)) (h : exec i s = .next t) (hs : P (slot.get s)) :
    P (slot.get t) := by
  by_cases hu : i.unit.toNat = slot.unit
  · exact hown hu hs
  · have hcoder : t.coder slot.unit = s.coder slot.unit := (exec_endFrame hi h).coders _ (Ne.symm hu)
    rw [slot.get_of_coder _ _ hcoder]
    exact hs

/-- An invariant that a reset, a move of the host, and every command but SRESET keep holds after every step. -/
theorem step_invariant {I : State → Prop} (hreset : ∀ s, I s → I (resetAll s)) (hmoved : ∀ s t, Moved s t → I s → I t)
    (hcomplete : ∀ u o v s, I s → I (complete u o v s)) (hfault : ∀ u o c s, I s → I (raiseFault u o c s))
    (hexec : ∀ i s t, i ≠ .sysSreset → exec i s = .next t → I s → I t) (hresume : ∀ s, I s → I (resume s))
    (hs : I s) (h : step s = .next t) : I t := by
  rcases step_cases h with ⟨rest, hhost, rfl⟩ | ⟨r, hr, rfl | ⟨w, -, -, ⟨i, -, hi⟩ | rfl⟩⟩
  · exact hreset _ (hmoved s { s with host := rest } (moved_ports s _ _ rest) hs)
  · exact hmoved s t hr hs
  · have hr := hmoved s r hr hs
    by_cases hne : i = .sysSreset
    · subst hne
      rw [exec_sysSreset] at hi
      rw [← Host.Outcome.next.inj hi]
      exact hcomplete _ _ _ _ (hreset _ (hresume _ hr))
    · exact hexec i r t hne hi hr
  · exact hfault _ _ _ _ (hmoved s r hr hs)

theorem Moved.coder (h : Moved s t) (k : Nat) : t.coder k = s.coder k := h.field (fun s => s.coder k) fun _ _ => rfl

/-- Settles O38. -/
theorem binaryCodersStayLegal : Obligations.BinaryCodersStayLegal := by
  intro s t
  refine step_invariant (fun _ _ => ?reset) (fun s t hr => ?moved) (fun _ _ _ _ => id) (fun _ _ _ _ => id)
    (fun i s t hi hexec hs => ?command) (fun _ => id)
  case reset =>
    obtain ⟨-, h, -⟩ := resetMeetsTheInvariants
    exact h
  case moved =>
    unfold BinaryLegal
    rw [hr.field State.bee fun _ _ => rfl, hr.field State.bed fun _ _ => rfl, hr.field State.fpe fun _ _ => rfl,
      hr.field State.fpd fun _ _ => rfl]
    exact id
  case command =>
    obtain ⟨hbee, hbed, hfpe, hfpd⟩ := hs
    refine ⟨?_, ?_, ?_, ?_⟩
    · exact coder_kept beeSlot hi (fun hu => exec_bee BinaryEncoder.kept_legal (BitVec.eq_of_toNat_eq hu) hexec) hexec hbee
    · exact coder_kept bedSlot hi (fun hu => exec_bed BinaryDecoder.kept_legal (BitVec.eq_of_toNat_eq hu) hexec) hexec hbed
    · exact coder_kept fpeSlot hi (fun hu => exec_fpe BinaryEncoder.kept_legal (BitVec.eq_of_toNat_eq hu) hexec) hexec hfpe
    · exact coder_kept fpdSlot hi (fun hu => exec_fpd BinaryDecoder.kept_legal (BitVec.eq_of_toNat_eq hu) hexec) hexec hfpd

/-- Settles O44. -/
theorem rangeCodersStayLegal : Obligations.RangeCodersStayLegal := by
  intro s t
  refine step_invariant (fun _ _ => ?reset) (fun s t hr => ?moved) (fun _ _ _ _ => id) (fun _ _ _ _ => id)
    (fun i s t hi hexec hs => ?command) (fun _ => id)
  case reset =>
    obtain ⟨-, -, h, -⟩ := resetMeetsTheInvariants
    exact h
  case moved =>
    unfold RangesLegal
    rw [hr.field State.rce fun _ _ => rfl, hr.field State.rcd fun _ _ => rfl]
    exact id
  case command =>
    obtain ⟨hrce, hrcd⟩ := hs
    exact ⟨coder_kept rceSlot (P := RangeEncoder.Safe) hi (fun hu => exec_rce (BitVec.eq_of_toNat_eq hu) hexec) hexec hrce,
      coder_kept rcdSlot (P := RangeDecoder.Safe) hi (fun hu => exec_rcd (BitVec.eq_of_toNat_eq hu) hexec) hexec hrcd⟩

/-! ### The streams' flags -/

/-- The closed flag of the writer agrees with its unit state (10_state R33, R34). -/
def WriterFlags (b : Writer) : Prop := b.closed = true ↔ b.ustate = .closed

/-- The reader's flag agrees with its unit state, and it holds every byte it has read from (10_state R33, R36). -/
def ReaderFlags (b : Reader) : Prop := (b.closed = true ↔ b.ustate = .closed) ∧ (b.read.toNat + 7) / 8 ≤ b.bytes.length

theorem readerFlags_fresh : ReaderFlags (readerFresh .opened) := ⟨⟨nofun, nofun⟩, by decide⟩

/-- Every operation keeps the writer's flags. -/
theorem stable_writerFlags {array : Prop} {u : Nat} : Stable array u fun s t => WriterFlags s.bsw → WriterFlags t.bsw where
  refl _ := id
  trans _ _ _ h h' := h' ∘ h
  undo _ _ _ := id
  own f hf s := by
    have h : (f s).bsw = s.bsw := by rw [← hf.kept s]; rfl
    rw [h]
    exact id
  count _ _ _ := id

theorem writerFlags_handOff (bs : List Byte) : Keeps (fun s t => WriterFlags s.bsw → WriterFlags t.bsw) (handOff bs) := by
  intro s
  unfold handOff
  dsimp only
  split <;> exact id

theorem writerFlags_putBits (v n : Nat) : Keeps (fun s t => WriterFlags s.bsw → WriterFlags t.bsw) (putBits v n) := by
  have hst := stable_writerFlags (array := True) (u := 99)
  refine keeps_look fun s => ?_
  split
  · exact hst.raise _
  · split
    · exact hst.raise _
    · refine hst.bind (fun _ => id) fun _ => keeps_look fun s => ?_
      dsimp only
      split
      · exact hst.pure ()
      · exact writerFlags_handOff _

theorem writerFlags_flushWriter : Keeps (fun s t => WriterFlags s.bsw → WriterFlags t.bsw) flushWriter := by
  refine keeps_look fun s => ?_
  split
  · exact (stable_writerFlags (array := True) (u := 99)).pure ()
  · exact writerFlags_handOff _

theorem writerFlags_closeWriter : Keeps (fun s t => WriterFlags s.bsw → WriterFlags t.bsw) closeWriter := by
  have hst := stable_writerFlags (array := True) (u := 99)
  refine keeps_look fun s => ?_
  split
  · exact hst.pure ()
  · exact hst.bind (writerFlags_handOff _) fun _ _ _ => ⟨fun _ => rfl, fun _ => rfl⟩

/-- Taking bytes adds to those the reader holds, so that an element can be undone. -/
def ReaderGrows (s t : State) : Prop := ReaderFlags s.bsr → ReaderFlags t.bsr ∧ s.bsr.bytes.length ≤ t.bsr.bytes.length

theorem stable_readerGrows {array : Prop} {u : Nat} : Stable array u ReaderGrows where
  refl _ hs := ⟨hs, le_rfl⟩
  trans _ _ _ h h' hs := by
    obtain ⟨h1, h2⟩ := h hs
    obtain ⟨h1', h2'⟩ := h' h1
    exact ⟨h1', h2.trans h2'⟩
  undo s t h hs := by
    obtain ⟨-, hle⟩ := h hs
    exact ⟨⟨hs.1, hs.2.trans hle⟩, hle⟩
  own f hf s := by
    have h : (f s).bsr = s.bsr := by rw [← hf.kept s]; rfl
    rw [ReaderGrows, h]
    exact fun hs => ⟨hs, le_rfl⟩
  count _ _ _ hs := ⟨hs, le_rfl⟩

theorem error_ne_ok {α : Type} {e : Stop} {s t : State} {v : α} :
    (.error e s : EStateM.Result Stop State α) ≠ .ok v t := nofun

/-- `t` is `s` after bytes were taken: the other registers of the reader, but `ended`, stay. -/
structure Took (s t : State) : Prop where
  ustate : t.bsr.ustate = s.bsr.ustate
  closed : t.bsr.closed = s.bsr.closed
  read : t.bsr.read = s.bsr.read
  grows : s.bsr.bytes.length ≤ t.bsr.bytes.length

theorem took_takeBytes (k : Nat) (s : State) : Took s (reached (takeBytes k s)) := by
  induction k generalizing s with
  | zero => exact ⟨rfl, rfl, rfl, le_rfl⟩
  | succ k ih =>
    unfold takeBytes
    split
    · exact ⟨rfl, rfl, rfl, le_rfl⟩
    · split
      · exact ⟨rfl, rfl, rfl, le_rfl⟩
      case h_2 b rest _ =>
        obtain ⟨h1, h2, h3, h4⟩ := ih (tookByte s b rest)
        have hlen : (tookByte s b rest).bsr.bytes.length = s.bsr.bytes.length + 1 := by simp [tookByte]
        exact ⟨h1, h2, h3, (by omega : _ ≤ (tookByte s b rest).bsr.bytes.length).trans h4⟩
      · exact ⟨rfl, rfl, rfl, le_rfl⟩

/-- Where bytes are taken they are as many as asked for. -/
theorem length_takeBytes {k : Nat} {v : Unit} (h : takeBytes k s = .ok v t) :
    t.bsr.bytes.length = s.bsr.bytes.length + k := by
  induction k generalizing s with
  | zero =>
    cases h
    rfl
  | succ k ih =>
    unfold takeBytes at h
    split at h
    · exact absurd h error_ne_ok
    · split at h
      · exact absurd h error_ne_ok
      case h_2 b rest _ =>
        have hlen : (tookByte s b rest).bsr.bytes.length = s.bsr.bytes.length + 1 := by simp [tookByte]
        have := ih (s := tookByte s b rest) h
        omega
      · exact absurd h error_ne_ok

theorem Took.readerFlags (h : Took s t) (hs : ReaderFlags s.bsr) : ReaderFlags t.bsr := by
  unfold ReaderFlags
  rw [h.ustate, h.closed, h.read]
  exact ⟨hs.1, hs.2.trans h.grows⟩

/-- The bits read stand in the bytes taken. -/
theorem Took.readerFlags_read (h : Took s t) (hs : ReaderFlags s.bsr) {n : Nat} (hn : bytesNeeded s.bsr n ≤ t.bsr.bytes.length) :
    ReaderFlags { t.bsr with read := t.bsr.read + BitVec.ofNat 64 n } := by
  refine ⟨(h.readerFlags hs).1, ?_⟩
  have hread : (t.bsr.read + BitVec.ofNat 64 n).toNat ≤ s.bsr.read.toNat + n := by
    rw [h.read, BitVec.toNat_add, BitVec.toNat_ofNat]
    exact (Nat.mod_le _ _).trans (Nat.add_le_add_left (Nat.mod_le _ _) _)
  dsimp only
  unfold bytesNeeded at hn
  omega

theorem readerGrows_getBits (n : Nat) : Keeps ReaderGrows (getBits n) := by
  intro s hs
  rw [getBits, look_run]
  split
  · exact ⟨hs, le_rfl⟩
  · split
    · exact ⟨hs, le_rfl⟩
    · have htook := took_takeBytes (bytesNeeded s.bsr n - s.bsr.bytes.length) s
      cases hr : takeBytes (bytesNeeded s.bsr n - s.bsr.bytes.length) s with
      | error e t =>
        rw [hr, reached_error] at htook
        rw [bind_error hr]
        exact ⟨htook.readerFlags hs, htook.grows⟩
      | ok v t =>
        rw [hr, reached_ok] at htook
        have hlen := length_takeBytes hr
        rw [bind_ok hr]
        exact ⟨htook.readerFlags_read hs (by omega), htook.grows⟩

/-- The unit states of the streams and their flags (10_state R33, R36). -/
def StreamFlags (s : State) : Prop := WriterFlags s.bsw ∧ ReaderFlags s.bsr

/-- What the end of a command does to the streams: nothing, but that a command that waits is as at its beginning. -/
theorem finish_streams (u o : BitVec 4) {res : EStateM.Result Stop State Word64} (hs : StreamFlags s)
    (h : StreamFlags (reached res)) : StreamFlags (finish u o s res) := by
  rcases finish_cases u o s res with ⟨v, r, rfl, heq⟩ | ⟨c, r', hm, heq⟩ | ⟨p, r, rfl, heq⟩
  · rw [heq]
    exact h
  · have hbsw : r'.bsw = (reached res).bsw := by rw [← hm.kept]; rfl
    have hbsr : r'.bsr = (reached res).bsr := by rw [← hm.kept]; rfl
    rw [heq]
    show WriterFlags r'.bsw ∧ ReaderFlags r'.bsr
    rw [hbsw, hbsr]
    exact h
  · rw [heq]
    exact hs

theorem exec_streamFlags (hi : i ≠ .sysSreset) (h : exec i s = .next t) (hs : StreamFlags s) : StreamFlags t := by
  by_cases h0 : i.unit = 0
  · obtain ⟨v, hv⟩ := exec_sys i h0 hi s
    rw [hv] at h
    rw [← Host.Outcome.next.inj h]
    exact hs
  by_cases hu : i.unit.toNat % 2 = 1
  · obtain ⟨body, hbody, hexec⟩ := exec_encodes i hu
    rw [hexec] at h
    rw [← Host.Outcome.next.inj h]
    refine finish_streams _ _ hs ⟨?_, ?_⟩
    · exact keeps_of_encodes stable_writerFlags writerFlags_putBits writerFlags_flushWriter
        (fun _ _ => ⟨nofun, nofun⟩) writerFlags_closeWriter hbody (resume s) hs.1
    · have hframe : Frame (IsArray i) i.unit.toNat (fun _ => True) (resume s) (reached (body (resume s))) :=
        keeps_of_encodes stable_frame (frame_putBits hu) (frame_flushWriter hu) (fun s => frame_writer hu s _ _ _ _)
          (frame_closeWriter hu) hbody _
      rw [(hframe.reader hu).1]
      exact hs.2
  · have hu : i.unit.toNat % 2 = 0 := by omega
    by_cases hinit : i = .bsrInit
    · subst hinit
      rw [← Host.Outcome.next.inj h]
      exact finish_streams _ _ hs ⟨hs.1, readerFlags_fresh⟩
    obtain ⟨body, hbody, hexec⟩ := exec_decodes i hu h0 hinit
    rw [hexec] at h
    rw [← Host.Outcome.next.inj h]
    refine finish_streams _ _ hs ⟨?_, ?_⟩
    · have hframe : Frame (IsArray i) i.unit.toNat (fun _ => True) (resume s) (reached (body (resume s))) :=
        reached_of_decodes hbody _ stable_frame (frame_getBits hu) (fun s => frame_reader hu s _ _)
          fun _ _ _ _ _ => frame_memWrite trivial _
      rw [(hframe.writer hu).1]
      exact hs.1
    · exact (reached_of_decodes hbody (resume s) stable_readerGrows readerGrows_getBits
        (fun s hs => ⟨⟨⟨fun _ => rfl, fun _ => rfl⟩, hs.2⟩, le_rfl⟩) (fun _ _ _ _ _ _ hs => ⟨hs, le_rfl⟩) hs.2).1

theorem unitsLegal_iff : UnitsLegal s ↔ StreamFlags s ∧ s.bee.ustate ≠ .failed ∧ s.bed.ustate ≠ .failed ∧
    s.fpe.ustate ≠ .failed ∧ s.fpd.ustate ≠ .failed ∧ s.hfe.Sound ∧ s.hfd.Sound ∧ s.ege.Sound ∧ s.egd.Sound ∧ s.rge.Sound ∧
      s.rgd.Sound := by
  constructor
  · rintro ⟨h1, h2, h3, h⟩
    exact ⟨⟨h1, h2, h3⟩, h⟩
  · rintro ⟨⟨h1, h2, h3⟩, h⟩
    exact ⟨h1, h2, h3, h⟩

/-- Settles O57. -/
theorem unitsStayLegal : Obligations.UnitsStayLegal := by
  intro s t
  refine step_invariant (fun _ _ => ?reset) (fun s t hr => ?moved) (fun _ _ _ _ => id) (fun _ _ _ _ => id)
    (fun i s t hi hexec hs => ?command) (fun _ => id)
  case reset =>
    obtain ⟨-, -, -, -, -, h, -⟩ := resetMeetsTheInvariants
    exact h
  case moved =>
    unfold UnitsLegal
    rw [hr.field State.bsw fun _ _ => rfl, hr.field State.bsr fun _ _ => rfl, hr.field State.bee fun _ _ => rfl,
      hr.field State.bed fun _ _ => rfl, hr.field State.fpe fun _ _ => rfl, hr.field State.fpd fun _ _ => rfl,
      hr.field State.hfe fun _ _ => rfl, hr.field State.hfd fun _ _ => rfl, hr.field State.ege fun _ _ => rfl,
      hr.field State.egd fun _ _ => rfl, hr.field State.rge fun _ _ => rfl, hr.field State.rgd fun _ _ => rfl]
    exact id
  case command =>
    obtain ⟨hstreams, hbee, hbed, hfpe, hfpd, hhfe, hhfd, hege, hegd, hrge, hrgd⟩ := unitsLegal_iff.1 hs
    refine unitsLegal_iff.2 ⟨exec_streamFlags hi hexec hstreams, ?_, ?_, ?_, ?_, ?_, ?_, ?_, ?_, ?_, ?_⟩
    · exact coder_kept beeSlot (P := fun e => e.ustate ≠ .failed) hi
        (fun hu => exec_bee BinaryEncoder.kept_sound (BitVec.eq_of_toNat_eq hu) hexec) hexec hbee
    · exact coder_kept bedSlot (P := fun e => e.ustate ≠ .failed) hi
        (fun hu => exec_bed BinaryDecoder.kept_sound (BitVec.eq_of_toNat_eq hu) hexec) hexec hbed
    · exact coder_kept fpeSlot (P := fun e => e.ustate ≠ .failed) hi
        (fun hu => exec_fpe BinaryEncoder.kept_sound (BitVec.eq_of_toNat_eq hu) hexec) hexec hfpe
    · exact coder_kept fpdSlot (P := fun e => e.ustate ≠ .failed) hi
        (fun hu => exec_fpd BinaryDecoder.kept_sound (BitVec.eq_of_toNat_eq hu) hexec) hexec hfpd
    · exact coder_kept hfeSlot (P := Huffman.Sound) hi (fun hu => exec_hfe (BitVec.eq_of_toNat_eq hu) hexec) hexec hhfe
    · exact coder_kept hfdSlot (P := Huffman.Sound) hi (fun hu => exec_hfd (BitVec.eq_of_toNat_eq hu) hexec) hexec hhfd
    · exact coder_kept egeSlot (P := ExpGolomb.Sound) hi (fun hu => exec_ege (BitVec.eq_of_toNat_eq hu) hexec) hexec hege
    · exact coder_kept egdSlot (P := ExpGolomb.Sound) hi (fun hu => exec_egd (BitVec.eq_of_toNat_eq hu) hexec) hexec hegd
    · exact coder_kept rgeSlot (P := RiceGolomb.Sound) hi (fun hu => exec_rge (BitVec.eq_of_toNat_eq hu) hexec) hexec hrge
    · exact coder_kept rgdSlot (P := RiceGolomb.Sound) hi (fun hu => exec_rgd (BitVec.eq_of_toNat_eq hu) hexec) hexec hrgd

end Sys2Proof.Machine
end

section
/-! SUPPORT. What an encoder's command does as SINK takes its bytes (20_memory R83): the same bytes and the same end, however much it
takes at once, and a wait as soon as it takes no more (log 5). -/

namespace Sys2Proof.Machine

variable {α β : Type} {u : Nat} {array : Prop} {s t : State} {i : Instr}

/-! ### An operation as SINK takes its bytes -/

theorem ok_ne_wait (v : α) (s : State) : ∀ p t, (.ok v s : EStateM.Result Stop State α) ≠ .error (.wait p) t := by simp

theorem fault_ne_wait (c : FaultCode) (s : State) :
    ∀ p t, (.error (.fault c) s : EStateM.Result Stop State α) ≠ .error (.wait p) t := by simp

theorem clamped_ne_wait (s : State) : ∀ p t, (.error .clamped s : EStateM.Result Stop State α) ≠ .error (.wait p) t := by simp

/-- A result with what stands outside the machine replaced. -/
def resultWithin (o : Outside) : EStateM.Result Stop State α → EStateM.Result Stop State α
  | .ok v t => .ok v (t.within o)
  | .error e t => .error e (t.within o)

/-- What stands outside after the bytes `h` were handed over. -/
def Outside.handing (o : Outside) (h : List Byte) : Outside :=
  { o with sink := o.sink ++ h.drop o.sent, room := o.room - (h.drop o.sent).length, sent := o.sent - h.length }

/-- From `s`, whatever stands outside, the operation hands over `h` and ends in `res`, or waits in the middle of `h`. -/
structure Hands (x : M α) (s : State) (h : List Byte) (res : EStateM.Result Stop State α) : Prop where
  fits : ∀ o : Outside, (h.drop o.sent).length ≤ o.room → x (s.within o) = resultWithin (o.handing h) res
  stalls : ∀ o : Outside, o.room < (h.drop o.sent).length → ∃ t, x (s.within o) = .error (.wait .sink) t ∧
    t.sink = o.sink ++ (h.drop o.sent).take o.room ∧ t.sinkRoom = 0 ∧ t.source = o.source ∧ t.data = s.data
  ends : ∀ p t, res ≠ .error (.wait p) t
  data : (reached res).data = s.data

theorem within_outside (s : State) : s.within s.outside = s := rfl

theorem Outside.handing_nil (o : Outside) : o.handing [] = o := by simp [Outside.handing]

theorem Outside.handing_handing (o : Outside) (h h' : List Byte) : (o.handing h).handing h' = o.handing (h ++ h') := by
  simp only [Outside.handing, List.drop_append, List.length_append, List.append_assoc, Nat.sub_sub]

theorem hands_of_run {x : M α} {res : EStateM.Result Stop State α} (h : ∀ o, x (s.within o) = resultWithin o res)
    (he : ∀ p t, res ≠ .error (.wait p) t) (hd : (reached res).data = s.data) : Hands x s [] res where
  fits o _ := by rw [o.handing_nil, h]
  stalls o ho := by simp at ho
  ends := he
  data := hd

theorem hands_pure (v : α) (s : State) : Hands (pure v) s [] (.ok v s) := hands_of_run (fun _ => rfl) (ok_ne_wait v s) rfl

theorem hands_raise (c : FaultCode) (s : State) : Hands (raise c : M α) s [] (.error (.fault c) s) :=
  hands_of_run (fun _ => rfl) (fault_ne_wait c s) rfl

theorem hands_stick (s : State) : Hands (stick : M α) s [] (.error .clamped s) :=
  hands_of_run (fun _ => rfl) (clamped_ne_wait s) rfl

theorem hands_update {f : State → State} (hf : ∀ o, f (s.within o) = (f s).within o) (hd : (f s).data = s.data) :
    Hands (update f) s [] (.ok () (f s)) := hands_of_run (fun o => by rw [update_run, hf]; rfl) (ok_ne_wait _ _) hd

theorem hands_look {f : State → M α} (hf : ∀ (s : State) o, f (s.within o) = f s) {h : List Byte}
    {res : EStateM.Result Stop State α} (hs : Hands (f s) s h res) : Hands (look f) s h res where
  fits o ho := by rw [look_run, hf, hs.fits o ho]
  stalls o ho := by rw [look_run, hf]; exact hs.stalls o ho
  ends := hs.ends
  data := hs.data

/-- The look of an operation that is `x` in this state. -/
theorem hands_look_of {f : State → M α} (hf : ∀ (s : State) o, f (s.within o) = f s) {x : M α} (hx : f s = x) {h : List Byte}
    {res : EStateM.Result Stop State α} (hs : Hands x s h res) : Hands (look f) s h res := hands_look hf (hx ▸ hs)

theorem Hands.bind_ok {x : M α} {f : α → M β} {h h' : List Byte} {v : α} {res : EStateM.Result Stop State β}
    (hx : Hands x s h (.ok v t)) (hf : Hands (f v) t h' res) : Hands (x >>= f) s (h ++ h') res where
  fits o ho := by
    rw [List.drop_append, List.length_append] at ho
    rw [Machine.bind_ok (hx.fits o (by omega)), hf.fits (o.handing h) (by simp only [Outside.handing]; omega),
      o.handing_handing]
  stalls o ho := by
    rw [List.drop_append, List.length_append] at ho
    by_cases hfit : (h.drop o.sent).length ≤ o.room
    · obtain ⟨r, hr, hsink, hroom, hsource, hdata⟩ := hf.stalls (o.handing h) (by simp only [Outside.handing]; omega)
      refine ⟨r, by rw [Machine.bind_ok (hx.fits o hfit), hr], ?_, hroom, hsource, hdata.trans hx.data⟩
      rw [hsink, List.drop_append, List.take_append, List.take_of_length_le hfit, ← List.append_assoc]
      rfl
    · obtain ⟨r, hr, hsink, hroom, hsource, hdata⟩ := hx.stalls o (by omega)
      refine ⟨r, bind_error hr f, ?_, hroom, hsource, hdata⟩
      rw [hsink, List.drop_append, List.take_append_of_le_length (by omega)]
  ends := hf.ends
  data := hf.data.trans hx.data

theorem Hands.bind_error {x : M α} {f : α → M β} {h : List Byte} {e : Stop} (hx : Hands x s h (.error e t)) :
    Hands (x >>= f) s h (.error e t) where
  fits o ho := Machine.bind_error (hx.fits o ho) f
  stalls o ho := by
    obtain ⟨r, hr, hrest⟩ := hx.stalls o ho
    exact ⟨r, Machine.bind_error hr f, hrest⟩
  ends p r hr := hx.ends p t (by cases hr; rfl)
  data := hx.data

theorem hands_handOff (bs : List Byte) (s : State) :
    Hands (handOff bs) s bs (.ok () { s with bsw.delivered := s.bsw.delivered + bs.length }) where
  fits o ho := by
    have hfit : (bs.drop (s.within o).sent).length ≤ (s.within o).sinkRoom := ho
    unfold handOff
    dsimp only
    rw [if_pos hfit]
    rfl
  stalls o ho := by
    have hstall : ¬(bs.drop (s.within o).sent).length ≤ (s.within o).sinkRoom := Nat.not_le.2 ho
    unfold handOff
    dsimp only
    rw [if_neg hstall]
    exact ⟨_, rfl, rfl, rfl, rfl, rfl⟩
  ends := ok_ne_wait _ _
  data := rfl

/-! ### The writer's output in SINK -/

/-- Bytes that end in those of the writer's output that it has delivered (20_memory R83, 41_bitstream R183). -/
def Carries (b : Writer) (k : List Byte) : Prop :=
  b.bits.length < 2 ^ 64 → b.written.toNat = b.bits.length ∧ b.delivered ≤ (writerOutput b).length ∧
    (b.closed = false → b.delivered ≤ b.bits.length / 8) ∧ (writerOutput b).take b.delivered <:+ k

theorem carriesOutput_iff : CarriesOutput s ↔ s.sent = 0 ∧ Carries s.bsw s.sink := Iff.rfl

/-- The bytes `h` are those of the output that the writer of `t` has delivered more than that of `s`. -/
def Carrying (s : State) (h : List Byte) (t : State) : Prop := ∀ k, Carries s.bsw k → Carries t.bsw (k ++ h)

theorem carrying_of_bsw (h : t.bsw = s.bsw) : Carrying s [] t := fun k hk => by rwa [h, List.append_nil]

theorem Carrying.trans {r : State} {h h' : List Byte} (h1 : Carrying r h s) (h2 : Carrying s h' t) : Carrying r (h ++ h') t :=
  fun k hk => by
    rw [← List.append_assoc]
    exact h2 _ (h1 k hk)

theorem carrying_open (s : State) : Carrying s [] { s with bsw := writerFresh .opened } := fun _ _ _ =>
  ⟨rfl, Nat.zero_le _, fun _ => Nat.zero_le _, List.nil_suffix⟩

theorem take_writerOutput_open {b : Writer} (hc : b.closed = false) {n : Nat} (hn : n ≤ (b.bits.length + 7) / 8) :
    (writerOutput b).take n = outBytes b.bits 0 n := by
  obtain ⟨m, hm⟩ := Nat.exists_eq_add_of_le hn
  simp only [writerOutput, hc, Bool.false_eq_true, if_false, List.append_nil]
  rw [hm, outBytes_add, List.take_left' (length_outBytes _ _ _)]

theorem carries_open {b : Writer} (hc : b.closed = false) {k : List Byte} : Carries b k ↔
    (b.bits.length < 2 ^ 64 → b.written.toNat = b.bits.length ∧ b.delivered ≤ b.bits.length / 8 ∧
      outBytes b.bits 0 b.delivered <:+ k) := by
  have hlen : (writerOutput b).length = (b.bits.length + 7) / 8 := by simp [writerOutput, hc]
  refine forall_congr' fun _ => and_congr_right fun _ => ⟨fun ⟨_, hd, hk⟩ => ?_, fun ⟨hd, hk⟩ => ?_⟩
  · have hd := hd hc
    rw [take_writerOutput_open hc (by omega)] at hk
    exact ⟨hd, hk⟩
  · rw [hlen, take_writerOutput_open hc (by omega)]
    exact ⟨by omega, fun _ => hd, hk⟩

/-- The writer takes bits, which delivers nothing yet. -/
theorem carrying_putBits (hc : s.bsw.closed = false) (v n : Nat) : Carrying s []
    { s with bsw.bits := s.bsw.bits ++ bitsOf v n, bsw.written := s.bsw.written + BitVec.ofNat 64 n } := by
  intro k hk
  rw [List.append_nil]
  refine (carries_open (by exact hc)).2 ?_
  dsimp only
  rw [List.length_append, length_bitsOf]
  intro hlen
  obtain ⟨hcount, hd, hk⟩ := (carries_open hc).1 hk (by omega)
  refine ⟨?_, by omega, ?_⟩
  · rw [BitVec.toNat_add, BitVec.toNat_ofNat, hcount, Nat.add_mod_mod, Nat.mod_eq_of_lt hlen]
  · rwa [outBytes_append _ _ _ _ (by omega)]

theorem completeBytes_le {b : Writer} (h : b.written.toNat = b.bits.length) : completeBytes b = b.bits.length / 8 := by
  rw [completeBytes, h]

/-- Complete bytes are handed over (41_bitstream R186, R190). -/
theorem carrying_handOff (hc : s.bsw.closed = false) {n : Nat} (hn : n ≤ completeBytes s.bsw - s.bsw.delivered) :
    Carrying s (outBytes s.bsw.bits s.bsw.delivered n)
      { s with bsw.delivered := s.bsw.delivered + (outBytes s.bsw.bits s.bsw.delivered n).length } := by
  intro k hk
  refine (carries_open (by exact hc)).2 ?_
  rw [length_outBytes]
  intro hlen
  obtain ⟨hcount, hd, pre, hpre⟩ := (carries_open hc).1 hk hlen
  rw [completeBytes_le hcount] at hn
  dsimp only
  exact ⟨hcount, by omega, pre, by rw [outBytes_add, Nat.zero_add, ← List.append_assoc, hpre]⟩

/-- CLOSE hands over all bytes and the padding (41_bitstream R188). -/
theorem carrying_close (hc : s.bsw.closed = false) (u : StreamState) : let nbytes := (s.bsw.written.toNat + 7) / 8
    let bs := outBytes s.bsw.bits s.bsw.delivered (nbytes - s.bsw.delivered) ++ List.replicate (padLength nbytes) 0xFF
    Carrying s bs { s with bsw.delivered := s.bsw.delivered + bs.length, bsw.closed := true, bsw.ustate := u } := by
  intro nbytes bs k hk hlen
  obtain ⟨hcount, hd, pre, hpre⟩ := (carries_open hc).1 hk hlen
  have hn : nbytes = (s.bsw.bits.length + 7) / 8 := by simp only [nbytes, hcount]
  have hout : outBytes s.bsw.bits 0 s.bsw.delivered ++ bs =
      outBytes s.bsw.bits 0 nbytes ++ List.replicate (padLength nbytes) 0xFF := by
    rw [← List.append_assoc, ← Nat.add_sub_of_le (show s.bsw.delivered ≤ nbytes by omega), outBytes_add, Nat.zero_add]
    simp only [Nat.add_sub_cancel_left]
  have hall : writerOutput { s.bsw with delivered := s.bsw.delivered + bs.length, closed := true, ustate := u } =
      outBytes s.bsw.bits 0 s.bsw.delivered ++ bs := by
    rw [hout, hn]
    rfl
  have hlength : (outBytes s.bsw.bits 0 s.bsw.delivered ++ bs).length = s.bsw.delivered + bs.length := by
    rw [List.length_append, length_outBytes]
  refine ⟨hcount, ?_, nofun, pre, ?_⟩
  · dsimp only
    rw [hall, hlength]
  · dsimp only
    rw [hall, ← hlength, List.take_length, ← List.append_assoc, hpre]

/-! ### The writer's operations -/

/-- The writer takes bits (41_bitstream R182). -/
def WriterUp (s : State) : Prop := s.bsw.ustate ≠ .uninit ∧ s.bsw.closed = false

/-- An operation that raises nothing but what the writer raises, and that then before it hands over a byte. -/
def RunsWell (x : M α) : Prop := ∀ s, ∃ h res, Hands x s h res ∧ Carrying s h (reached res) ∧
  (WriterUp s → WriterUp (reached res) ∧ ∀ c t, res ≠ .error (.fault c) t) ∧ (¬WriterUp s → h = [] ∧ ¬WriterUp (reached res))

theorem runsWell_pure (v : α) : RunsWell (pure v : M α) := fun s =>
  ⟨[], _, hands_pure v s, carrying_of_bsw rfl, fun h => ⟨h, by simp⟩, fun h => ⟨rfl, h⟩⟩

theorem runsWell_bind {x : M α} {f : α → M β} (hx : RunsWell x) (hf : ∀ v, RunsWell (f v)) : RunsWell (x >>= f) := by
  intro s
  obtain ⟨h, res, hhands, hcarry, hup, hdown⟩ := hx s
  cases res with
  | error e t =>
    refine ⟨h, .error e t, hhands.bind_error, hcarry, fun hs => ⟨(hup hs).1, fun c r hr => ?_⟩, fun hs => hdown hs⟩
    obtain ⟨rfl, rfl⟩ := EStateM.Result.error.inj hr
    exact (hup hs).2 c t rfl
  | ok v t =>
    obtain ⟨h', res', hhands', hcarry', hup', hdown'⟩ := hf v t
    refine ⟨h ++ h', res', hhands.bind_ok hhands', hcarry.trans hcarry', fun hs => hup' (hup hs).1, fun hs => ?_⟩
    obtain ⟨rfl, hs⟩ := hdown hs
    obtain ⟨rfl, hs⟩ := hdown' hs
    exact ⟨rfl, hs⟩

theorem not_true_of_false {b : Bool} (h : b = false) : ¬b = true := by simp [h]

/-- The hand-offs change nothing of the writer but how much is delivered. -/
def Delivered (s t : State) : Prop := t.bsw.ustate = s.bsw.ustate ∧ t.bsw.closed = s.bsw.closed

theorem Delivered.writerUp (h : Delivered s t) : WriterUp t ↔ WriterUp s := by rw [WriterUp, WriterUp, h.1, h.2]

theorem hands_deliver (hc : s.bsw.closed = false) :
    ∃ h t, Hands deliver s h (.ok () t) ∧ Carrying s h t ∧ Delivered s t := by
  by_cases hn : (completeBytes s.bsw - s.bsw.delivered) / s.params.bufBytes * s.params.bufBytes = 0
  · exact ⟨_, _, hands_look_of (fun _ _ => rfl) (if_pos hn) (hands_pure () s), carrying_of_bsw rfl, rfl, rfl⟩
  · exact ⟨_, _, hands_look_of (fun _ _ => rfl) (if_neg hn) (hands_handOff _ s), carrying_handOff hc (Nat.div_mul_le_self _ _),
      rfl, rfl⟩

theorem hands_flushWriter (s : State) : ∃ h t, Hands flushWriter s h (.ok () t) ∧ Carrying s h t ∧ Delivered s t := by
  cases hc : s.bsw.closed with
  | true => exact ⟨_, _, hands_look_of (fun _ _ => rfl) (if_pos hc) (hands_pure () s), carrying_of_bsw rfl, rfl, rfl⟩
  | false =>
    exact ⟨_, _, hands_look_of (fun _ _ => rfl) (if_neg (not_true_of_false hc)) (hands_handOff _ s), carrying_handOff hc le_rfl,
      rfl, rfl⟩

theorem hands_closeWriter (s : State) : ∃ h t, Hands closeWriter s h (.ok () t) ∧ Carrying s h t := by
  cases hc : s.bsw.closed with
  | true => exact ⟨_, _, hands_look_of (fun _ _ => rfl) (if_pos hc) (hands_pure () s), carrying_of_bsw rfl⟩
  | false =>
    refine ⟨_ ++ [], _, hands_look_of (fun _ _ => rfl) (if_neg (not_true_of_false hc))
      ((hands_handOff _ s).bind_ok (hands_update (fun _ => rfl) rfl)), ?_⟩
    rw [List.append_nil]
    exact carrying_close hc .closed

theorem runsWell_putBits (v n : Nat) : RunsWell (putBits v n) := by
  intro s
  by_cases hu : s.bsw.ustate = .uninit
  · exact ⟨_, _, hands_look_of (fun _ _ => rfl) (if_pos hu) (hands_raise _ s), carrying_of_bsw rfl,
      fun h => absurd hu h.1, fun h => ⟨rfl, h⟩⟩
  · cases hc : s.bsw.closed with
    | true =>
      exact ⟨_, _, hands_look_of (fun _ _ => rfl) ((if_neg hu).trans (if_pos hc)) (hands_raise _ s), carrying_of_bsw rfl,
        fun h => absurd hc (not_true_of_false h.2), fun h => ⟨rfl, h⟩⟩
    | false =>
      obtain ⟨h, t, hdeliver, hcarry, ht⟩ := hands_deliver (s :=
        { s with bsw.bits := s.bsw.bits ++ bitsOf v n, bsw.written := s.bsw.written + BitVec.ofNat 64 n }) hc
      have hupdate := hands_update (s := s) (f := fun s => { s with
        bsw.bits := s.bsw.bits ++ bitsOf v n, bsw.written := s.bsw.written + BitVec.ofNat 64 n }) (fun _ => rfl) rfl
      refine ⟨_, .ok () t, hands_look_of (fun _ _ => rfl) ((if_neg hu).trans (if_neg (not_true_of_false hc)))
        (hupdate.bind_ok hdeliver), (carrying_putBits hc v n).trans hcarry, fun _ => ⟨ht.writerUp.2 ⟨hu, hc⟩, by simp⟩, fun h => absurd ⟨hu, hc⟩ h⟩

/-- A flush behind a write: what the write raises, it raises first. -/
theorem runsWell_putFlush (v n : Nat) : RunsWell (putBits v n >>= fun _ => flushWriter) := by
  intro s
  obtain ⟨h, res, hhands, hcarry, hup, hdown⟩ := runsWell_putBits v n s
  cases res with
  | error e t =>
    refine ⟨h, .error e t, hhands.bind_error, hcarry, fun hs => ⟨(hup hs).1, fun c r hr => ?_⟩, fun hs => hdown hs⟩
    obtain ⟨rfl, rfl⟩ := EStateM.Result.error.inj hr
    exact (hup hs).2 c t rfl
  | ok v' t =>
    obtain ⟨h', r, hflush, hcarry', hr⟩ := hands_flushWriter t
    refine ⟨h ++ h', _, hhands.bind_ok hflush, hcarry.trans hcarry', fun hs => ⟨hr.writerUp.2 (hup hs).1, by simp⟩, fun hs => ?_⟩
    have hfault : ∃ c, WriterFault s c := by
      by_cases hu : s.bsw.ustate = .uninit
      · exact ⟨_, .inl ⟨hu, rfl⟩⟩
      · exact ⟨_, .inr ⟨hu, by simpa using fun h => hs ⟨hu, h⟩, rfl⟩⟩
    obtain ⟨c, hc⟩ := hfault
    obtain ⟨rfl, -⟩ := hdown hs
    have hrun := hhands.fits s.outside (by simp)
    rw [within_outside, putBits_fault v n hc] at hrun
    cases hrun

theorem OwnUpdate.within {f : State → State} (hf : OwnUpdate u f) (s : State) (o : Outside) :
    f (s.within o) = (f s).within o := by
  have h := hf.streams s (s.within o)
  have hk := hf.kept s
  calc f (s.within o) = f (s.withStreams (s.within o)) := rfl
    _ = (f s).withStreams (s.within o) := h
    _ = ((f s).withStreams s).within o := rfl
    _ = (f s).within o := by rw [hk]

theorem OwnUpdate.bsw {f : State → State} (hf : OwnUpdate u f) (s : State) : (f s).bsw = s.bsw := by rw [← hf.kept s]; rfl

theorem OwnUpdate.data {f : State → State} (hf : OwnUpdate u f) (s : State) : (f s).data = s.data := by rw [← hf.kept s]; rfl

theorem runsWell_of_runs {x : M α} (hx : Runs u x) : RunsWell x := by
  induction hx with
  | pure v => exact runsWell_pure v
  | stick => exact fun s => ⟨[], _, hands_stick s, carrying_of_bsw rfl, fun h => ⟨h, by simp⟩, fun h => ⟨rfl, h⟩⟩
  | look hf _ ih =>
    intro s
    obtain ⟨h, res, hhands, hrest⟩ := ih s s
    exact ⟨h, res, hands_look hf hhands, hrest⟩
  | own hf =>
    intro s
    refine ⟨[], _, hands_update (hf.within s) (hf.data s), carrying_of_bsw (hf.bsw s), fun h => ⟨?_, by simp⟩, fun h => ⟨rfl, ?_⟩⟩
    · rw [reached_ok, WriterUp, hf.bsw]
      exact h
    · rw [reached_ok, WriterUp, hf.bsw]
      exact h
  | putBits v n => exact runsWell_putBits v n
  | putFlush v n => exact runsWell_putFlush v n
  | bind _ _ ihx ihf => exact runsWell_bind ihx ihf

/-! ### Elements and commands -/

/-- An element that faults has handed over nothing, so that undoing it takes nothing back. -/
def WritesWell (x : M α) : Prop := ∀ s, ∃ h res, Hands x s h res ∧ Carrying s h (reached res) ∧ (∀ c t, res = .error (.fault c) t → h = []) ∧
  (WriterUp s → WriterUp (reached res)) ∧ (¬WriterUp s → h = [] ∧ ¬WriterUp (reached res))

theorem writesWell_of_runsWell {x : M α} (hx : RunsWell x) : WritesWell x := by
  intro s
  obtain ⟨h, res, hhands, hcarry, hup, hdown⟩ := hx s
  refine ⟨h, res, hhands, hcarry, fun c t hr => ?_, fun hs => (hup hs).1, hdown⟩
  by_cases hs : WriterUp s
  · exact absurd hr ((hup hs).2 c t)
  · exact (hdown hs).1

theorem writesWell_of_writeElement {x : M α} (hx : WriteElement u x) : WritesWell x := by
  induction hx with
  | runs hx => exact writesWell_of_runsWell (runsWell_of_runs hx)
  | raise c => exact fun s => ⟨[], _, hands_raise c s, carrying_of_bsw rfl, fun _ _ _ => rfl, id, fun h => ⟨rfl, h⟩⟩
  | look hf _ ih =>
    intro s
    obtain ⟨h, res, hhands, hrest⟩ := ih s s
    exact ⟨h, res, hands_look hf hhands, hrest⟩
  | bind _ hf ihx =>
    intro s
    obtain ⟨h, res, hhands, hcarry, hfault, hup, hdown⟩ := ihx s
    cases res with
    | error e t =>
      refine ⟨h, .error e t, hhands.bind_error, hcarry, fun c r hr => ?_, hup, hdown⟩
      obtain ⟨rfl, rfl⟩ := EStateM.Result.error.inj hr
      exact hfault c t rfl
    | ok v t =>
      obtain ⟨h', res', hhands', hcarry', hup', hdown'⟩ := runsWell_of_runs (hf v) t
      refine ⟨h ++ h', res', hhands.bind_ok hhands', hcarry.trans hcarry', fun c r hr => ?_, fun hs => (hup' (hup hs)).1, fun hs => ?_⟩
      · have ht : ¬WriterUp t := fun ht => (hup' ht).2 c r hr
        have hs : ¬WriterUp s := fun hs => ht (hup hs)
        rw [(hdown hs).1, (hdown' ht).1]
        rfl
      · obtain ⟨rfl, hs⟩ := hdown hs
        obtain ⟨rfl, hs⟩ := hdown' hs
        exact ⟨rfl, hs⟩

theorem hands_element {x : M α} (hx : WritesWell x) (s : State) :
    ∃ h res, Hands (element x) s h res ∧ Carrying s h (reached res) := by
  obtain ⟨h, res, hhands, hcarry, hfault, -⟩ := hx s
  have hstalls : ∀ o : Outside, o.room < (h.drop o.sent).length → ∃ t, element x (s.within o) = .error (.wait .sink) t ∧
      t.sink = o.sink ++ (h.drop o.sent).take o.room ∧ t.sinkRoom = 0 ∧ t.source = o.source ∧ t.data = s.data := by
    intro o ho
    obtain ⟨t, ht, hrest⟩ := hhands.stalls o ho
    exact ⟨t, element_wait ht, hrest⟩
  cases res with
  | ok v t => exact ⟨h, .ok v t, ⟨fun o ho => element_ok (hhands.fits o ho), hstalls, hhands.ends, hhands.data⟩, hcarry⟩
  | error e t =>
    cases e with
    | wait p => exact absurd rfl (hhands.ends p t)
    | clamped =>
      exact ⟨h, .error .clamped t, ⟨fun o ho => element_clamped (hhands.fits o ho), hstalls, hhands.ends, hhands.data⟩, hcarry⟩
    | fault c =>
      obtain rfl := hfault c t rfl
      refine ⟨[], .error (.fault c) (undo s t), hands_of_run (fun o => ?_) (fault_ne_wait _ _) rfl, carrying_of_bsw rfl⟩
      rw [element_fault (hhands.fits o (by simp)), o.handing_nil]
      rfl

theorem hands_elementAt {x : M α} (hx : WritesWell x) (n : Nat) (s : State) :
    ∃ h res, Hands (elementAt n x) s h res ∧ Carrying s h (reached res) := by
  obtain ⟨h, res, hhands, hcarry⟩ := hands_element hx s
  have hstalls : ∀ o : Outside, o.room < (h.drop o.sent).length → ∃ t, elementAt n x (s.within o) = .error (.wait .sink) t ∧
      t.sink = o.sink ++ (h.drop o.sent).take o.room ∧ t.sinkRoom = 0 ∧ t.source = o.source ∧ t.data = s.data := by
    intro o ho
    obtain ⟨t, ht, hrest⟩ := hhands.stalls o ho
    exact ⟨t, by rw [elementAt, ht], hrest⟩
  cases res with
  | ok v t =>
    refine ⟨h, .ok v t, ⟨fun o ho => ?_, hstalls, hhands.ends, hhands.data⟩, hcarry⟩
    rw [elementAt, hhands.fits o ho]
    rfl
  | error e t =>
    cases e with
    | wait p => exact absurd rfl (hhands.ends p t)
    | clamped =>
      refine ⟨h, .error .clamped { t with res := BitVec.ofNat 64 n },
        ⟨fun o ho => ?_, hstalls, clamped_ne_wait _, hhands.data⟩, hcarry⟩
      rw [elementAt, hhands.fits o ho]
      rfl
    | fault c =>
      refine ⟨h, .error (.fault c) { t with res := BitVec.ofNat 64 n },
        ⟨fun o ho => ?_, hstalls, fault_ne_wait _ _, hhands.data⟩, hcarry⟩
      rw [elementAt, hhands.fits o ho]
      rfl

/-- Every body of an encoder's command hands over the same bytes of the output and ends the same, however SINK takes them. -/
theorem hands_of_encodes {x : M α} (hx : Encodes array u x) (s : State) :
    ∃ h res, Hands x s h res ∧ Carrying s h (reached res) := by
  induction hx generalizing s with
  | runs hx =>
    obtain ⟨h, res, hhands, hcarry, -⟩ := runsWell_of_runs hx s
    exact ⟨h, res, hhands, hcarry⟩
  | raise c => exact ⟨[], _, hands_raise c s, carrying_of_bsw rfl⟩
  | look hf _ ih =>
    obtain ⟨h, res, hhands, hcarry⟩ := ih s s
    exact ⟨h, res, hands_look hf hhands, hcarry⟩
  | bind _ _ ihx ihf =>
    obtain ⟨h, res, hhands, hcarry⟩ := ihx s
    cases res with
    | error e t => exact ⟨h, _, hhands.bind_error, hcarry⟩
    | ok v t =>
      obtain ⟨h', res', hhands', hcarry'⟩ := ihf v t
      exact ⟨h ++ h', res', hhands.bind_ok hhands', hcarry.trans hcarry'⟩
  | element hx => exact hands_element (writesWell_of_writeElement hx) s
  | elementAt n _ hx => exact hands_elementAt (writesWell_of_writeElement hx) n s
  | flush =>
    obtain ⟨h, t, hhands, hcarry, -⟩ := hands_flushWriter s
    exact ⟨h, _, hhands, hcarry⟩
  | openWriter => exact ⟨[], _, hands_update (fun _ => rfl) rfl, carrying_open s⟩
  | close =>
    obtain ⟨h, t, hhands, hcarry⟩ := hands_closeWriter s
    exact ⟨h, _, hhands, hcarry⟩

end Sys2Proof.Machine
end

section
/-! SUPPORT. What a decoder's command does as the host answers (20_memory R84): it waits only where the answers run out, it does not
depend on later ones, and an END behind them ends what would have waited. -/

namespace Sys2Proof.Machine

variable {α β : Type} {u : Nat} {array : Prop} {s t : State} {i : Instr}

/-! ### END -/

/-- No END is remembered, and none is answered. -/
def Calm (s : State) : Prop := s.bsr.ended = false ∧ .finish ∉ s.source

/-- An END is taken only to be remembered. -/
def SameCalm (s t : State) : Prop := Calm s ↔ Calm t

theorem OwnUpdate.bsr {f : State → State} (hf : OwnUpdate u f) (s : State) : (f s).bsr = s.bsr := by rw [← hf.kept s]; rfl

theorem OwnUpdate.source {f : State → State} (hf : OwnUpdate u f) (s : State) : (f s).source = s.source := by
  rw [← hf.kept s]; rfl

theorem stable_sameCalm : Stable array u SameCalm where
  refl _ := Iff.rfl
  trans _ _ _ := Iff.trans
  undo _ _ h := h
  own f hf s := by rw [SameCalm, Calm, Calm, hf.bsr, hf.source]
  count _ _ _ := Iff.rfl

theorem sameCalm_takeBytes (k : Nat) : Keeps SameCalm (takeBytes k) := by
  induction k with
  | zero => exact (stable_sameCalm (array := True) (u := 0)).pure ()
  | succ k ih =>
    intro s
    unfold takeBytes
    split
    · exact Iff.rfl
    next he =>
      split
      · exact Iff.rfl
      case h_2 b rest hs =>
        refine Iff.trans ?_ (ih (tookByte s b rest))
        simp [Calm, hs]
      case h_3 rest hs => simp [SameCalm, Calm, hs]

/-! ### Operations that wait for the host's answers -/

def withData (m : Memory) (s : State) : State := { s with data := m }

/-- A result with other DATA. -/
def resultData (m : Memory) : EStateM.Result Stop State α → EStateM.Result Stop State α
  | .ok v t => .ok v (withData m t)
  | .error e t => .error e (withData m t)

/-- An operation that reads the input and nothing of DATA, and waits for answers where it runs out of them. -/
structure Patient (x : M α) : Prop where
  later : KeepsLater x
  data : ∀ s m, x (withData m s) = resultData m (x s)
  waits : ∀ s p t, x s = .error (.wait p) t → p = .source ∧ t.source = [] ∧ t.bsr.ended = false
  calm : Keeps SameCalm x

theorem patient_pure (v : α) : Patient (pure v : M α) := ⟨keepsLater_pure v, fun _ _ => rfl, fun s p t h => absurd h (ok_ne_wait v s p t), fun _ => Iff.rfl⟩

theorem patient_raise (c : FaultCode) : Patient (raise c : M α) where
  later := keepsLater_raise c
  data _ _ := rfl
  waits s p t h := absurd h (fault_ne_wait c s p t)
  calm _ := Iff.rfl

theorem patient_stick : Patient (stick : M α) where
  later := keepsLater_stick
  data _ _ := rfl
  waits s p t h := absurd h (clamped_ne_wait s p t)
  calm _ := Iff.rfl

theorem patient_look {f : State → M α} (hf : ∀ s a m, f (s.withSource a m) = f s) (h : ∀ s, Patient (f s)) :
    Patient (look f) where
  later := keepsLater_look (fun s more => hf s (s.source ++ more) s.data) fun s => (h s).later
  data s m := by rw [look_run, look_run, show f (withData m s) = f s from hf s s.source m, (h s).data]
  waits s := (h s).waits s
  calm := keeps_look fun s => (h s).calm

theorem patient_update {f : State → State} (hf : ∀ s a m, f (s.withSource a m) = (f s).withSource a m)
    (hsource : ∀ s, (f s).source = s.source) (hdata : ∀ s, (f s).data = s.data) (hcalm : Keeps SameCalm (update f)) :
    Patient (update f) where
  later := keepsLater_update fun s more => by
    rw [show behind more s = s.withSource (s.source ++ more) s.data from rfl, hf, ← hsource, ← hdata]
    rfl
  data s m := by
    rw [update_run, update_run, show withData m s = s.withSource s.source m from rfl, hf, ← hsource]
    rfl
  waits s p t h := absurd h (ok_ne_wait () (f s) p t)
  calm := hcalm

theorem patient_own {f : State → State} (hf : OwnUpdate u f) : Patient (update f) := by
  refine patient_update (fun s a m => ?_) hf.source hf.data ((stable_sameCalm (array := True)).update hf)
  have h := hf.streams s (s.withSource a m)
  have hk := hf.kept s
  calc f (s.withSource a m) = f (s.withStreams (s.withSource a m)) := rfl
    _ = (f s).withStreams (s.withSource a m) := h
    _ = ((f s).withStreams s).withSource a m := rfl
    _ = (f s).withSource a m := by rw [hk]

theorem patient_bind {x : M α} {f : α → M β} (hx : Patient x) (hf : ∀ v, Patient (f v)) : Patient (x >>= f) where
  later := keepsLater_bind hx.later fun v => (hf v).later
  data s m := by
    rw [bind_run, bind_run, hx.data]
    cases x s with
    | ok v t => exact (hf v).data t m
    | error e t => rfl
  waits s p t h := by
    rw [bind_run] at h
    cases hr : x s with
    | ok v r =>
      rw [hr] at h
      exact (hf v).waits r p t h
    | error e r =>
      rw [hr] at h
      obtain ⟨rfl, rfl⟩ := EStateM.Result.error.inj h
      exact hx.waits s p _ hr
  calm := (stable_sameCalm (array := True) (u := 0)).bind hx.calm fun v => (hf v).calm

theorem patient_map {x : M α} (g : α → β) (hx : Patient x) : Patient (g <$> x) := patient_bind hx fun v => patient_pure (g v)

theorem patient_takeBytes (k : Nat) : Patient (takeBytes k) where
  later := keepsLater_takeBytes k
  data s m := by
    induction k generalizing s with
    | zero => rfl
    | succ k ih =>
      cases he : s.bsr.ended with
      | true => rw [takeBytes_ended he, takeBytes_ended (s := withData m s) he]; rfl
      | false =>
        cases hs : s.source with
        | nil => rw [takeBytes_nil he hs, takeBytes_nil (s := withData m s) he hs]; rfl
        | cons a rest =>
          cases a with
          | byte b =>
            rw [takeBytes_byte he hs, takeBytes_byte (s := withData m s) he hs]
            exact ih (tookByte s b rest)
          | finish => rw [takeBytes_finish he hs, takeBytes_finish (s := withData m s) he hs]; rfl
  waits s p t h := by
    induction k generalizing s with
    | zero => exact absurd h (ok_ne_wait () s p t)
    | succ k ih =>
      cases he : s.bsr.ended with
      | true =>
        rw [takeBytes_ended he] at h
        exact absurd h (fault_ne_wait _ _ _ _)
      | false =>
        cases hs : s.source with
        | nil =>
          rw [takeBytes_nil he hs] at h
          cases h
          exact ⟨rfl, hs, he⟩
        | cons a rest =>
          cases a with
          | byte b =>
            rw [takeBytes_byte he hs] at h
            exact ih _ h
          | finish =>
            rw [takeBytes_finish he hs] at h
            exact absurd h (fault_ne_wait _ _ _ _)
  calm := sameCalm_takeBytes k

theorem patient_getBits (n : Nat) : Patient (getBits n) := by
  refine patient_look (fun _ _ _ => rfl) fun s => ?_
  split
  · exact patient_raise _
  · split
    · exact patient_raise _
    · exact patient_bind (patient_takeBytes _) fun _ =>
        patient_bind (patient_update (fun _ _ _ => rfl) (fun _ => rfl) (fun _ => rfl) fun _ => Iff.rfl) fun _ =>
          patient_look (fun _ _ _ => rfl) fun _ => patient_pure _

theorem patient_of_gets {x : M α} (hx : Gets u x) : Patient x := by
  induction hx with
  | pure v => exact patient_pure v
  | raise c => exact patient_raise c
  | stick => exact patient_stick
  | look hf _ ih => exact patient_look hf ih
  | own hf => exact patient_own hf
  | getBits n => exact patient_getBits n
  | bind _ _ ihx ihf => exact patient_bind ihx ihf

/-! ### Elements -/

theorem element_look (f : State → M α) : element (look f) = look fun s => element (f s) := rfl

theorem element_map (g : α → β) (x : M α) : element (g <$> x) = g <$> element x := by
  funext s
  rw [element, map_run, map_run, element]
  rcases x s with ⟨v, t⟩ | ⟨_ | _ | _, t⟩ <;> rfl

theorem element_element (x : M α) : element (element x) = element x := by
  funext s
  cases hr : x s with
  | ok v t => rw [element_ok (element_ok hr), element_ok hr]
  | error e t =>
    cases e with
    | fault c =>
      rw [element_fault (element_fault hr), element_fault hr]
      rfl
    | clamped => rw [element_clamped (element_clamped hr), element_clamped hr]
    | wait p => rw [element_wait (element_wait hr), element_wait hr]

theorem patient_element {x : M α} (hx : Patient x) : Patient (element x) where
  later := keepsLater_element hx.later
  data s m := by
    rw [element, hx.data, element]
    rcases x s with ⟨v, t⟩ | ⟨_ | _ | _, t⟩ <;> rfl
  waits s p t h := by
    cases hr : x s with
    | ok v r =>
      rw [element_ok hr] at h
      exact absurd h (ok_ne_wait _ _ _ _)
    | error e r =>
      cases e with
      | fault c =>
        rw [element_fault hr] at h
        exact absurd h (fault_ne_wait _ _ _ _)
      | clamped =>
        rw [element_clamped hr] at h
        exact absurd h (clamped_ne_wait _ _ _)
      | wait q =>
        rw [element_wait hr] at h
        exact hx.waits s p t (hr.trans h)
  calm := (stable_sameCalm (array := True) (u := 0)).element hx.calm

/-- What counts the elements and what takes END as the end of the data add no wait. -/
theorem patient_elementAt {x : M α} (hx : Patient (element x)) (n : Nat) : Patient (elementAt n x) where
  later := by
    have h := keepsLater_elementAt n hx.later
    unfold elementAt at h ⊢
    rwa [element_element] at h
  data s m := by
    rw [elementAt, hx.data, elementAt]
    rcases element x s with ⟨v, t⟩ | ⟨_ | _ | _, t⟩ <;> rfl
  waits s p t h := by
    rw [elementAt] at h
    split at h
    · exact absurd h (fault_ne_wait _ _ _ _)
    · exact absurd h (clamped_ne_wait _ _ _)
    · exact hx.waits s p t h
  calm s := by
    have h := hx.calm s
    rw [elementAt]
    split
    next hr =>
      rw [hr] at h
      exact h
    next hr =>
      rw [hr] at h
      exact h
    · exact h

theorem patient_orEnd {x : M α} (hx : Patient (element x)) (n : Nat) : Patient (elementOrEnd n x) where
  later := by
    have h := keepsLater_elementOrEnd n hx.later
    unfold elementOrEnd elementAt at h ⊢
    rwa [element_element] at h
  data s m := by
    rw [elementOrEnd, (patient_elementAt hx n).data, elementOrEnd]
    rcases elementAt n x s with ⟨v, t⟩ | ⟨c | _ | _, t⟩
    · rfl
    · cases c <;> rfl
    · rfl
    · rfl
  waits s p t h := by
    rw [elementOrEnd] at h
    split at h
    · exact absurd h (ok_ne_wait _ _ _ _)
    · exact absurd h (ok_ne_wait _ _ _ _)
    next e r _ hr =>
      obtain ⟨rfl, rfl⟩ := EStateM.Result.error.inj h
      exact (patient_elementAt hx n).waits s p _ hr
  calm s := by
    have h := (patient_elementAt hx n).calm s
    rw [elementOrEnd]
    split
    next hr =>
      rw [hr] at h
      exact h
    next hr =>
      rw [hr] at h
      exact h
    next hr =>
      rw [hr] at h
      exact h

end Sys2Proof.Machine
end

section
/-! SUPPORT. An END behind a wait ends it, and a unary code does not depend on the bound of its loop. -/

namespace Sys2Proof.Machine

variable {α β : Type} {u : Nat} {array : Prop} {s t : State} {i : Instr}

/-! ### An END behind a wait -/

/-- Where the operation waits, an END behind the answers ends it. -/
def Ends (x : M α) : Prop :=
  ∀ s p t, x s = .error (.wait p) t → ∃ r, x (behind [.finish] s) = .error (.fault .endOfStream) r

theorem ends_of_no_wait {x : M α} (h : ∀ s p t, x s ≠ .error (.wait p) t) : Ends x := fun s p t ht => absurd ht (h s p t)

theorem ends_look {f : State → M α} (hf : ∀ s a m, f (s.withSource a m) = f s) (h : ∀ s, Ends (f s)) : Ends (look f) := by
  intro s p t ht
  obtain ⟨r, hr⟩ := h s s p t ht
  exact ⟨r, by rw [look_run, show behind [.finish] s = s.withSource (s.source ++ [.finish]) s.data from rfl, hf]; exact hr⟩

theorem ends_bind {x : M α} {f : α → M β} (hx : Ends x) (hlater : KeepsLater x) (hf : ∀ v, Ends (f v)) : Ends (x >>= f) := by
  intro s p t ht
  rw [bind_run] at ht
  cases hr : x s with
  | ok v r =>
    rw [hr] at ht
    obtain ⟨r', hr'⟩ := hf v r p t ht
    rcases hlater s [.finish] with ⟨r'', hr''⟩ | hb
    · exact absurd (hr''.symm.trans hr) error_ne_ok
    · rw [hr] at hb
      exact ⟨r', (bind_ok hb f).trans hr'⟩
  | error e r =>
    rw [hr] at ht
    obtain ⟨rfl, rfl⟩ := EStateM.Result.error.inj ht
    obtain ⟨r', hr'⟩ := hx s p r hr
    exact ⟨r', bind_error hr' f⟩

theorem ends_takeBytes (k : Nat) : Ends (takeBytes k) := by
  induction k with
  | zero => exact ends_of_no_wait fun s => ok_ne_wait () s
  | succ k ih =>
    intro s p t ht
    cases he : s.bsr.ended with
    | true =>
      rw [takeBytes_ended he] at ht
      exact absurd ht (fault_ne_wait _ _ _ _)
    | false =>
      cases hs : s.source with
      | nil =>
        exact ⟨_, takeBytes_finish (s := behind [.finish] s) (rest := []) he (by rw [behind_source, hs]; rfl)⟩
      | cons a rest =>
        cases a with
        | byte b =>
          rw [takeBytes_byte he hs] at ht
          obtain ⟨r, hr⟩ := ih _ p t ht
          exact ⟨r, (takeBytes_byte (s := behind [.finish] s) (b := b) (rest := rest ++ [SourceAnswer.finish]) he
            (by rw [behind_source, hs]; rfl)).trans hr⟩
        | finish =>
          rw [takeBytes_finish he hs] at ht
          exact absurd ht (fault_ne_wait _ _ _ _)

theorem ends_getBits (n : Nat) : Ends (getBits n) := by
  refine ends_look (fun _ _ _ => rfl) fun s => ?_
  split
  · exact ends_of_no_wait (fault_ne_wait _)
  · split
    · exact ends_of_no_wait (fault_ne_wait _)
    · exact ends_bind (ends_takeBytes _) (keepsLater_takeBytes _) fun _ =>
        ends_of_no_wait fun s => ok_ne_wait _ _

theorem ends_of_gets {x : M α} (hx : Gets u x) : Ends x := by
  induction hx with
  | pure v => exact ends_of_no_wait (ok_ne_wait v)
  | raise c => exact ends_of_no_wait (fault_ne_wait c)
  | stick => exact ends_of_no_wait clamped_ne_wait
  | look hf _ ih => exact ends_look hf ih
  | own hf => exact ends_of_no_wait fun s => ok_ne_wait _ _
  | getBits n => exact ends_getBits n
  | bind hx _ ihx ihf => exact ends_bind ihx (patient_of_gets hx).later ihf

theorem element_wait_inv {x : M α} {p : Port} (h : element x s = .error (.wait p) t) : x s = .error (.wait p) t := by
  cases hr : x s with
  | ok v r =>
    rw [element_ok hr] at h
    exact absurd h (ok_ne_wait _ _ _ _)
  | error e r =>
    cases e with
    | fault c =>
      rw [element_fault hr] at h
      exact absurd h (fault_ne_wait _ _ _ _)
    | clamped =>
      rw [element_clamped hr] at h
      exact absurd h (clamped_ne_wait _ _ _)
    | wait q =>
      rw [element_wait hr] at h
      exact h

theorem ends_element {x : M α} (hx : Ends x) : Ends (element x) := fun s p t h => by
  obtain ⟨r, hr⟩ := hx s p t (element_wait_inv h)
  exact ⟨_, element_fault hr⟩

/-! ### Zeros without end -/

/-- From `s`, `k` bits read as zeros, up to `t`. -/
def Zeros : Nat → State → State → Prop
  | 0, s, t => s = t
  | k + 1, s, t => ∃ r, getBits 1 s = .ok 0 r ∧ Zeros k r t

/-- The loop that counts zeros ends before its bound runs out, or all it reads is zeros. -/
theorem countZeros_cases (k n : Nat) (s : State) :
    (∀ m, countZeros (k + m) n s = countZeros k n s) ∨
      ∃ t, Zeros k s t ∧ ∀ m, countZeros (k + m) n s = countZeros m (n + k) t := by
  induction k generalizing n s with
  | zero => exact .inr ⟨s, rfl, fun m => by rw [Nat.zero_add, Nat.add_zero]⟩
  | succ k ih =>
    have hsucc : ∀ m, k + 1 + m = k + m + 1 := fun m => by omega
    cases hr : getBits 1 s with
    | error e r => exact .inl fun m => by rw [hsucc, countZeros, countZeros, bind_error hr, bind_error hr]
    | ok b r =>
      by_cases hb : b = 0
      · have hstep : ∀ j, countZeros (j + 1) n s = countZeros j (n + 1) r := fun j => by
          rw [countZeros, bind_ok hr, if_pos hb]
        rcases ih (n + 1) r with h | ⟨t, ht, h⟩
        · exact .inl fun m => by rw [hsucc, hstep, hstep, h]
        · exact .inr ⟨t, ⟨r, hb ▸ hr, ht⟩, fun m => by rw [hsucc, hstep, h, Nat.add_assoc, Nat.add_comm 1]⟩
      · exact .inl fun m => by rw [hsucc, countZeros, countZeros, bind_ok hr, bind_ok hr, if_neg hb, if_neg hb]

theorem takeBytes_taken {k : Nat} {v : Unit} (h : takeBytes k s = .ok v t) : ∃ bs rest,
    s.source = bs.map SourceAnswer.byte ++ rest ∧ t = { s with source := rest, bsr.bytes := s.bsr.bytes ++ bs } := by
  induction k generalizing s with
  | zero =>
    cases h
    exact ⟨[], t.source, rfl, by rw [List.append_nil]⟩
  | succ k ih =>
    cases he : s.bsr.ended with
    | true =>
      rw [takeBytes_ended he] at h
      exact absurd h error_ne_ok
    | false =>
      cases hs : s.source with
      | nil =>
        rw [takeBytes_nil he hs] at h
        exact absurd h error_ne_ok
      | cons a rest =>
        cases a with
        | byte b =>
          rw [takeBytes_byte he hs] at h
          obtain ⟨bs, rest', hrest, ht⟩ := ih h
          refine ⟨b :: bs, rest', ?_, ?_⟩
          · rw [show rest = _ from hrest]
            rfl
          · rw [ht]
            simp [tookByte]
        | finish =>
          rw [takeBytes_finish he hs] at h
          exact absurd h error_ne_ok

/-- The reader's registers after one bit was read from `s`. -/
structure ReadBit (s t : State) (b : Nat) : Prop where
  opened : s.bsr.ustate ≠ .uninit ∧ s.bsr.closed = false
  flags : t.bsr.ustate = s.bsr.ustate ∧ t.bsr.closed = s.bsr.closed
  grows : s.bsr.bytes <+: t.bsr.bytes
  total : t.bsr.bytes.length + t.source.length = s.bsr.bytes.length + s.source.length
  read : t.bsr.read = s.bsr.read + 1
  needed : s.bsr.read.toNat < 8 * t.bsr.bytes.length
  value : (streamBit t.bsr.bytes s.bsr.read.toNat).toNat = b

theorem readBit_of_getBits {b : Nat} (h : getBits 1 s = .ok b t) : ReadBit s t b := by
  rw [getBits, look_run] at h
  split at h
  · exact absurd h error_ne_ok
  next hu =>
    split at h
    · exact absurd h error_ne_ok
    next hc =>
      rw [bind_run] at h
      cases hr : takeBytes (bytesNeeded s.bsr 1 - s.bsr.bytes.length) s with
      | error e r =>
        rw [hr] at h
        exact absurd h error_ne_ok
      | ok v r =>
        rw [hr] at h
        have hlen := length_takeBytes hr
        obtain ⟨bs, rest, hsource, rfl⟩ := takeBytes_taken hr
        obtain ⟨rfl, rfl⟩ := EStateM.Result.ok.inj h
        unfold bytesNeeded at hlen
        refine ⟨⟨hu, by simpa using hc⟩, ⟨rfl, rfl⟩, List.prefix_append _ _, ?_, rfl, ?_, ?_⟩
        · rw [hsource]
          simp
          omega
        · dsimp only at hlen ⊢
          omega
        · simp [streamField, bitsValue]

theorem streamBit_prefix {bs cs : List Byte} (h : bs <+: cs) {k : Nat} (hk : k < 8 * bs.length) : streamBit cs k = streamBit bs k := by
  obtain ⟨ds, rfl⟩ := h
  rw [streamBit, streamBit, List.getD_append _ _ _ _ (by omega)]

/-- The reader after zeros only: each bit position it came by holds a zero. -/
structure AllZeros (k : Nat) (s t : State) : Prop where
  opened : 0 < k → s.bsr.ustate ≠ .uninit ∧ s.bsr.closed = false
  flags : t.bsr.ustate = s.bsr.ustate ∧ t.bsr.closed = s.bsr.closed
  grows : s.bsr.bytes <+: t.bsr.bytes
  total : t.bsr.bytes.length + t.source.length = s.bsr.bytes.length + s.source.length
  zeros : ∀ j < k, (s.bsr.read.toNat + j) % 2 ^ 64 < 8 * t.bsr.bytes.length ∧
    streamBit t.bsr.bytes ((s.bsr.read.toNat + j) % 2 ^ 64) = false

theorem allZeros_of_zeros {k : Nat} (h : Zeros k s t) : AllZeros k s t := by
  induction k generalizing s with
  | zero =>
    cases h
    exact ⟨nofun, ⟨rfl, rfl⟩, List.prefix_rfl, rfl, nofun⟩
  | succ k ih =>
    obtain ⟨r, hr, ht⟩ := h
    have hb := readBit_of_getBits hr
    have ht := ih ht
    refine ⟨fun _ => hb.opened, ⟨ht.flags.1.trans hb.flags.1, ht.flags.2.trans hb.flags.2⟩, hb.grows.trans ht.grows,
      ht.total.trans hb.total, fun j hj => ?_⟩
    cases j with
    | zero =>
      have hlen := ht.grows.length_le
      rw [Nat.add_zero, Nat.mod_eq_of_lt s.bsr.read.isLt, streamBit_prefix ht.grows hb.needed]
      exact ⟨by have := hb.needed; omega, by simpa using hb.value⟩
    | succ j =>
      have hpos : (r.bsr.read.toNat + j) % 2 ^ 64 = (s.bsr.read.toNat + (j + 1)) % 2 ^ 64 := by
        rw [hb.read, BitVec.toNat_add, Nat.mod_add_mod, Nat.add_assoc, Nat.add_comm j 1]
        rfl
      rw [← hpos]
      exact ht.zeros j (by omega)

/-- The reader gives nothing but zeros any more: it has bytes for every value of its count, and no one bit in them. -/
structure Endless (t : State) : Prop where
  opened : t.bsr.ustate ≠ .uninit ∧ t.bsr.closed = false
  long : 2 ^ 64 ≤ 8 * t.bsr.bytes.length
  zeros : ∀ k < 2 ^ 64, streamBit t.bsr.bytes k = false

/-- Only a reader whose count runs over can read more bits than are in reach. -/
theorem endless_of_zeros {k : Nat} (hk : bitsInReach s ≤ k) (h : Zeros k s t) : Endless t := by
  have ht := allZeros_of_zeros h
  have hread := s.bsr.read.isLt
  have htotal := ht.total
  unfold bitsInReach at hk
  have hlong : 2 ^ 64 ≤ 8 * t.bsr.bytes.length := by
    by_contra hshort
    have hfirst := (ht.zeros 0 (by omega)).1
    rw [Nat.add_zero, Nat.mod_eq_of_lt hread] at hfirst
    have hlast := (ht.zeros (8 * t.bsr.bytes.length - s.bsr.read.toNat) (by omega)).1
    rw [Nat.add_sub_of_le hfirst.le, Nat.mod_eq_of_lt (by omega)] at hlast
    omega
  refine ⟨?_, hlong, fun j hj => ?_⟩
  · rw [ht.flags.1, ht.flags.2]
    exact ht.opened (by omega)
  · have h0 := (ht.zeros ((j + (2 ^ 64 - s.bsr.read.toNat)) % 2 ^ 64) (by omega)).2
    rwa [Nat.add_mod_mod, show s.bsr.read.toNat + (j + (2 ^ 64 - s.bsr.read.toNat)) = j + 2 ^ 64 by omega, Nat.add_mod_right,
      Nat.mod_eq_of_lt hj] at h0

theorem Endless.getBits (h : Endless t) : getBits 1 t = .ok 0 { t with bsr.read := t.bsr.read + 1 } := by
  obtain ⟨hopen, hlong, hzeros⟩ := h
  have hread := t.bsr.read.isLt
  have hk : bytesNeeded t.bsr 1 - t.bsr.bytes.length = 0 := by
    unfold bytesNeeded
    omega
  rw [Machine.getBits, look_run, if_neg hopen.1, if_neg (by simp [hopen.2]), hk]
  simp [takeBytes, bind_run, streamField, bitsValue, hzeros _ hread]

theorem Endless.countZeros (h : Endless t) (k n : Nat) :
    ∃ v, countZeros k n t = .error (.fault .endOfStream) { t with bsr.read := v } := by
  induction k generalizing n t with
  | zero => exact ⟨t.bsr.read, rfl⟩
  | succ k ih =>
    have hnext : Endless { t with bsr.read := t.bsr.read + 1 } := ⟨h.opened, h.long, h.zeros⟩
    obtain ⟨v, hv⟩ := ih (t := { t with bsr.read := t.bsr.read + 1 }) hnext (n + 1)
    exact ⟨v, by rw [Machine.countZeros, bind_ok h.getBits, if_pos rfl, hv]⟩

/-- A unary code reads the same with any bound of at least the bits in reach. -/
theorem element_unary_eq (f : Nat → M α) {k : Nat} (hk : bitsInReach s ≤ k) :
    element (unaryZeros >>= f) s = element (countZeros k 0 >>= f) s := by
  obtain ⟨m, rfl⟩ := Nat.exists_eq_add_of_le hk
  have hunary : unaryZeros s = countZeros (bitsInReach s) 0 s := rfl
  rcases countZeros_cases (bitsInReach s) 0 s with h | ⟨t, ht, h⟩
  · rw [element, element, bind_run, bind_run, hunary, h]
  · have hend := endless_of_zeros le_rfl ht
    obtain ⟨v, hv⟩ := hend.countZeros 0 (0 + bitsInReach s)
    obtain ⟨w, hw⟩ := hend.countZeros m (0 + bitsInReach s)
    have h0 := (h 0).trans hv
    have hm := (h m).trans hw
    rw [Nat.add_zero] at h0
    rw [element_fault (bind_error (hunary.trans h0) f), element_fault (bind_error hm f)]
    rfl

theorem gets_countZeros (k n : Nat) : Gets u (countZeros k n) := by
  induction k generalizing n with
  | zero => exact .raise _
  | succ k ih =>
    refine .bind (.getBits 1) fun b => ?_
    split
    · exact ih _
    · exact .pure _

theorem bitsInReach_behind_le (s : State) (more : List SourceAnswer) : bitsInReach s ≤ bitsInReach (behind more s) := by
  simp only [bitsInReach, behind_bsr, behind_source, List.length_append]
  omega

/-! ### Elements -/

theorem patient_unary {f : Nat → M α} (hf : ∀ n, Gets u (f n)) : Patient (element (unaryZeros >>= f)) := by
  have hbound : ∀ k, Patient (element (countZeros k 0 >>= f)) := fun k =>
    patient_element (patient_of_gets (.bind (gets_countZeros (u := u) k 0) hf))
  refine ⟨fun s more => ?_, fun s m => ?_, fun s p t h => ?_, fun s => ?_⟩
  · rw [element_unary_eq f (bitsInReach_behind_le s more), element_unary_eq f (s := behind more s) le_rfl]
    exact (hbound _).later s more
  · rw [element_unary_eq f (s := s) le_rfl, element_unary_eq f (s := withData m s) le_rfl]
    exact (hbound _).data s m
  · rw [element_unary_eq f le_rfl] at h
    exact (hbound _).waits s p t h
  · rw [element_unary_eq f le_rfl]
    exact (hbound _).calm s

theorem ends_unary {f : Nat → M α} (hf : ∀ n, Gets u (f n)) : Ends (element (unaryZeros >>= f)) := by
  intro s p t h
  rw [element_unary_eq f (bitsInReach_behind_le s [.finish])] at h
  rw [element_unary_eq f (s := behind [.finish] s) le_rfl]
  exact ends_element (ends_of_gets (.bind (gets_countZeros (u := u) _ 0) hf)) s p t h

theorem patient_of_readElement {x : M α} (hx : ReadElement u x) : Patient (element x) := by
  induction hx with
  | gets hx => exact patient_element (patient_of_gets hx)
  | unary hf => exact patient_unary hf
  | @look _ f hf _ ih =>
    rw [element_look]
    exact patient_look (fun s a m => congrArg element (hf s a m)) ih
  | map g _ ih =>
    rw [element_map]
    exact patient_map g ih

theorem ends_of_readElement {x : M α} (hx : ReadElement u x) : Ends (element x) := by
  induction hx with
  | gets hx => exact ends_element (ends_of_gets hx)
  | unary hf => exact ends_unary hf
  | @look _ f hf _ ih =>
    rw [element_look]
    exact ends_look (fun s a m => congrArg element (hf s a m)) ih
  | map g hx ih =>
    rw [element_map]
    exact ends_bind ih (patient_of_readElement hx).later fun v => ends_of_no_wait (ok_ne_wait (g v))

end Sys2Proof.Machine
end

section
/-! SUPPORT. The bodies of the decoders' commands as the host answers: an array command that waits begins again over the bytes it
stored, and stores them again (log 5). -/

namespace Sys2Proof.Machine

variable {α β γ : Type} {u : Nat} {array : Prop} {s t : State} {i : Instr}

/-! ### Bytes stored twice -/

/-- DATA holds the byte `v` at `a` so that storing it there again changes nothing. -/
def HoldsCell (a : Nat) (v : Byte) (m : Memory) : Prop := Memory.insert m a v = m

theorem holdsCell_insert (m : Memory) (a : Nat) (v : Byte) : HoldsCell a v (Memory.insert m a v) := by
  unfold HoldsCell
  induction m with
  | nil => simp [Memory.insert]
  | cons c m ih =>
    by_cases h1 : a < c.1
    · simp [Memory.insert, h1]
    · by_cases h2 : a = c.1
      · simp [Memory.insert, h2]
      · simp only [Memory.insert, if_neg h1, if_neg h2, ih]

/-- A byte stays where bytes are stored behind it. -/
theorem HoldsCell.insert {a b : Nat} {v w : Byte} {m : Memory} (hab : a < b) (h : HoldsCell a v m) :
    HoldsCell a v (Memory.insert m b w) := by
  unfold HoldsCell at h ⊢
  induction m with
  | nil => exact absurd h (List.cons_ne_nil _ _)
  | cons c m ih =>
    by_cases h1 : a < c.1
    · simp only [Memory.insert, if_pos h1] at h
      exact absurd (congrArg List.length h) (by simp)
    · have hb : ¬b < c.1 := by
        intro hb
        omega
      by_cases h2 : a = c.1
      · simp only [Memory.insert, if_neg h1, if_pos h2, List.cons.injEq, and_true] at h
        rw [Memory.insert, if_neg hb, if_neg (by omega), Memory.insert, if_neg h1, if_pos h2, h]
      · simp only [Memory.insert, if_neg h1, if_neg h2, List.cons.injEq, true_and] at h
        have hc : c.1 < a := by omega
        simp only [Memory.insert, if_neg hb, if_neg (show b ≠ c.1 by omega), if_neg h1, if_neg h2, ih h]

/-! ### Bodies that store nothing -/

def SameData (s t : State) : Prop := t.data = s.data

theorem stable_sameData : Stable array u SameData :=
  ⟨fun _ => rfl, fun _ _ _ h h' => h'.trans h, fun _ _ _ => rfl, fun _ hf s => hf.data s, fun _ _ _ => rfl⟩

theorem sameData_getBits (n : Nat) : Keeps SameData (getBits n) := by
  intro s
  obtain ⟨l, hl, hd⟩ := (frame_getBits (array := True) (u := 0) (P := fun _ => False) rfl n s).data
  obtain rfl : l = [] := List.eq_nil_iff_forall_not_mem.2 hl
  exact hd

theorem patient_of_reads {x : M α} (hx : Reads array u x) : Patient x := by
  induction hx with
  | pure v => exact patient_pure v
  | raise c => exact patient_raise c
  | look hf _ ih => exact patient_look hf ih
  | own hf => exact patient_own hf
  | closeReader => exact patient_update (fun _ _ _ => rfl) (fun _ => rfl) (fun _ => rfl) fun _ => Iff.rfl
  | bind _ _ ihx ihf => exact patient_bind ihx ihf
  | element hx => exact patient_of_readElement hx
  | elementAt n _ hx => exact patient_elementAt (patient_of_readElement hx) n
  | orEnd n _ hx => exact patient_orEnd (patient_of_readElement hx) n

theorem sameData_of_readElement {x : M α} (hx : ReadElement u x) : Keeps SameData x :=
  keeps_of_readElement (array := True) stable_sameData sameData_getBits hx

theorem sameData_of_reads {x : M α} (hx : Reads array u x) : Keeps SameData x :=
  keeps_of_reads stable_sameData sameData_getBits (fun _ => rfl) hx

/-! ### Bodies that store -/

/-- A body that, where it waits, does the same again over the bytes it stored, and where END comes then stores no more. -/
structure Storing (x : M α) : Prop where
  later : KeepsLater x
  waits : ∀ s p t, x s = .error (.wait p) t → p = .source ∧ t.source = [] ∧ t.bsr.ended = false
  calm : Keeps SameCalm x
  rerun : ∀ s p t more, x s = .error (.wait p) t → x (withData t.data (behind more s)) = x (behind more s)
  ends : ∀ s p t, x s = .error (.wait p) t → (reached (x (behind [.finish] s))).data = t.data

theorem storing_of_patient {x : M α} (hx : Patient x) (hd : Keeps SameData x) : Storing x where
  later := hx.later
  waits := hx.waits
  calm := hx.calm
  rerun s p t more h := by
    have ht : t.data = s.data := by simpa [h, SameData] using hd s
    rw [ht]
    rfl
  ends s p t h := by
    have ht : t.data = s.data := by simpa [h, SameData] using hd s
    exact (hd _).trans ht.symm

theorem storing_pure (v : α) : Storing (pure v : M α) := storing_of_patient (patient_pure v) fun _ => rfl

theorem bind_wait {x : M α} {f : α → M β} {p : Port} (h : (x >>= f) s = .error (.wait p) t) :
    x s = .error (.wait p) t ∨ ∃ v r, x s = .ok v r ∧ f v r = .error (.wait p) t := by
  rw [bind_run] at h
  cases hr : x s with
  | ok v r =>
    rw [hr] at h
    exact .inr ⟨v, r, rfl, h⟩
  | error e r =>
    rw [hr] at h
    obtain ⟨rfl, rfl⟩ := EStateM.Result.error.inj h
    exact .inl rfl

/-- An operation that stores nothing, and where END behind its wait lets nothing be stored after it. -/
theorem storing_bind {x : M α} {f : α → M β} (hx : Patient x) (hd : Keeps SameData x)
    (hend : ∀ s p t, x s = .error (.wait p) t → SameData (behind [.finish] s) (reached ((x >>= f) (behind [.finish] s))))
    (hf : ∀ v, Storing (f v)) : Storing (x >>= f) := by
  have hlater : ∀ {s v r} more, x s = .ok v r → x (behind more s) = .ok v (behind more r) := by
    intro s v r more hr
    rcases hx.later s more with ⟨r', hr'⟩ | hb
    · exact absurd (hr'.symm.trans hr) error_ne_ok
    · rwa [hr] at hb
  refine ⟨keepsLater_bind hx.later fun v => (hf v).later, fun s p t h => ?_,
    (stable_sameCalm (array := True) (u := 0)).bind hx.calm fun v => (hf v).calm, fun s p t more h => ?_, fun s p t h => ?_⟩
  · rcases bind_wait h with hw | ⟨v, r, -, hw⟩
    · exact hx.waits s p t hw
    · exact (hf v).waits r p t hw
  · rcases bind_wait h with hw | ⟨v, r, hr, hw⟩
    · have ht : t.data = s.data := by simpa [hw, SameData] using hd s
      rw [ht]
      rfl
    · have hmore : x (withData t.data (behind more s)) = .ok v (withData t.data (behind more r)) := by
        rw [hx.data, hlater more hr]
        rfl
      rw [bind_ok hmore, bind_ok (hlater more hr)]
      exact (hf v).rerun r p t more hw
  · rcases bind_wait h with hw | ⟨v, r, hr, hw⟩
    · have ht : t.data = s.data := by simpa [hw, SameData] using hd s
      exact (hend s p t hw).trans ht.symm
    · rw [bind_ok (hlater [.finish] hr)]
      exact (hf v).ends r p t hw

theorem storing_update_bind {f : State → State} {y : M β} (hf : OwnUpdate u f) (hy : Storing y) :
    Storing (update f >>= fun _ => y) :=
  storing_bind (patient_own hf) (fun s => hf.data s) (fun s p t h => absurd h (ok_ne_wait () (f s) p t)) fun _ => hy

theorem storing_elementAt_bind {x : M α} {f : α → M β} (n : Nat) (hx : ReadElement u x) (hf : ∀ v, Storing (f v)) :
    Storing (elementAt n x >>= f) := by
  have hd : Keeps SameData (elementAt n x) := (stable_sameData (array := True) (u := 0)).elementAt trivial n (sameData_of_readElement hx)
  refine storing_bind (patient_elementAt (patient_of_readElement hx) n) hd (fun s p t h => ?_) hf
  have hwait : element x s = .error (.wait p) t := by
    rw [elementAt] at h
    split at h
    · exact absurd h (fault_ne_wait _ _ _ _)
    · exact absurd h (clamped_ne_wait _ _ _)
    · exact h
  obtain ⟨r, hr⟩ := ends_of_readElement hx s p t hwait
  have hat : elementAt n x (behind [.finish] s) = .error (.fault .endOfStream) { r with res := BitVec.ofNat 64 n } := by
    rw [elementAt, hr]
  have hdata := hd (behind [.finish] s)
  rw [hat] at hdata
  rw [bind_error hat]
  exact hdata

/-- An element of a loop: where it meets END the loop ends. -/
theorem storing_orEnd_bind {x : M α} {f : Option α → M β} (n : Nat) {w : β} (hx : ReadElement u x) (hnone : f none = pure w)
    (hf : ∀ v, Storing (f (some v))) : Storing (elementOrEnd n x >>= f) := by
  have hd : Keeps SameData (elementOrEnd n x) := (stable_sameData (array := True) (u := 0)).orEnd trivial n (sameData_of_readElement hx)
  have hstoring : ∀ r, Storing (f r) := fun r => by
    cases r with
    | none =>
      rw [hnone]
      exact storing_pure w
    | some v => exact hf v
  refine storing_bind (patient_orEnd (patient_of_readElement hx) n) hd (fun s p t h => ?_) hstoring
  have hwait : element x s = .error (.wait p) t := by
    rw [elementOrEnd] at h
    split at h
    · exact absurd h (ok_ne_wait _ _ _ _)
    · exact absurd h (ok_ne_wait _ _ _ _)
    next e r _ hr =>
      obtain ⟨rfl, rfl⟩ := EStateM.Result.error.inj h
      rw [elementAt] at hr
      split at hr
      · exact absurd hr (fault_ne_wait _ _ _ _)
      · exact absurd hr (clamped_ne_wait _ _ _)
      · exact hr
  obtain ⟨r, hr⟩ := ends_of_readElement hx s p t hwait
  have hat : elementOrEnd n x (behind [.finish] s) = .ok none { r with res := BitVec.ofNat 64 n } := by
    rw [elementOrEnd, elementAt, hr]
  have hdata := hd (behind [.finish] s)
  rw [hat] at hdata
  rw [bind_ok hat, hnone]
  exact hdata

def KeepsCell (a : Nat) (v : Byte) (s t : State) : Prop := HoldsCell a v s.data → HoldsCell a v t.data

theorem stable_keepsCell (a : Nat) (v : Byte) : Stable array u (KeepsCell a v) where
  refl _ := id
  trans _ _ _ h h' hs := h' (h hs)
  undo _ _ _ := id
  own f hf s h := by rwa [hf.data]
  count _ _ _ := id

theorem keepsCell_of_sameData {x : M α} (hx : Keeps SameData x) (a : Nat) (v : Byte) : Keeps (KeepsCell a v) x := fun s h => by
  rwa [show (reached (x s)).data = s.data from hx s]

/-- A byte is stored, and later ones behind it. -/
theorem storing_memWrite_bind {x : M β} {a : Nat} {v : Byte} (hx : Storing x) (hk : Keeps (KeepsCell a v) x) :
    Storing (memWrite a v >>= fun _ => x) := by
  have hrun : ∀ s, (memWrite a v >>= fun _ => x) s = x (withData (Memory.insert s.data a v) s) := fun _ => rfl
  refine ⟨keepsLater_bind (keepsLater_memWrite a v) fun _ => hx.later, fun s p t h => hx.waits _ p t h,
    fun s => Iff.trans Iff.rfl (hx.calm (withData (Memory.insert s.data a v) s)),
    fun s p t more h => ?_, fun s p t h => hx.ends _ p t h⟩
  rw [hrun] at h
  have ht : HoldsCell a v t.data := by
    have := hk (withData (Memory.insert s.data a v) s) (holdsCell_insert _ _ _)
    rwa [h] at this
  have hsame : withData (Memory.insert t.data a v) (withData t.data (behind more s)) =
      withData t.data (behind more (withData (Memory.insert s.data a v) s)) := by
    rw [show Memory.insert t.data a v = t.data from ht]
    rfl
  exact (hrun _).trans ((congrArg x hsame).trans (hx.rerun _ p t more h))

theorem keepsCell_memWrite {a b : Nat} (hab : a < b) (v w : Byte) : Keeps (KeepsCell a v) (memWrite b w) :=
  fun _ h => h.insert hab

theorem storing_decodeFrom {before : Nat → State → State} {code : M (Option Byte)} (hb : ∀ i, OwnUpdate u (before i))
    (hc : ReadElement u code) (start n i : Nat) : Storing (decodeFrom (fun i => update (before i)) code start n i) := by
  induction n generalizing i with
  | zero => exact storing_pure i
  | succ n ih =>
    refine storing_update_bind (hb i) (storing_orEnd_bind i hc rfl fun r => ?_)
    cases r with
    | none => exact storing_pure i
    | some v =>
      refine storing_memWrite_bind (ih (i + 1)) ?_
      exact (stable_keepsCell (array := True) (u := u) (start + i) v).decodeFrom
        (fun j => (stable_keepsCell (array := True) (start + i) v).update (hb j))
        (keepsCell_of_sameData (sameData_of_readElement hc) _ _) n (i + 1) fun j hj _ w => keepsCell_memWrite (by omega) _ _

theorem storing_fpDecodeFrom (hbit : ReadElement u (fpdElement decodeBit)) (hbyte : ReadElement u (fpdElement decodeByte))
    (start n i : Nat) : Storing (fpDecodeFrom start n i) := by
  induction n generalizing i with
  | zero => exact storing_orEnd_bind i hbit rfl fun _ => storing_pure i
  | succ n ih =>
    refine storing_orEnd_bind i hbit rfl fun r => ?_
    cases r with
    | true => exact storing_pure i
    | false =>
      refine storing_orEnd_bind i hbyte rfl fun v => storing_memWrite_bind (ih (i + 1)) ?_
      exact (stable_keepsCell (start + i) v).fpDecodeFrom (u := 0) (keepsCell_of_sameData (sameData_of_readElement hbit) _ _)
        (keepsCell_of_sameData (sameData_of_readElement hbyte) _ _) n (i + 1) fun j hj _ w => keepsCell_memWrite (by omega) _ _

theorem storing_answer {x : M α} (hx : Storing x) (g : α → β) : Storing (x >>= fun v => pure (g v)) := by
  refine ⟨keepsLater_bind hx.later fun v => keepsLater_pure _, fun s p t h => ?_,
    (stable_sameCalm (array := True) (u := 0)).bind hx.calm fun v => fun _ => Iff.rfl, fun s p t more h => ?_,
    fun s p t h => ?_⟩
  all_goals
    have hr : x s = .error (.wait p) t := (bind_wait h).resolve_right fun ⟨v, r, _, hw⟩ => absurd hw (ok_ne_wait _ _ _ _)
  · exact hx.waits s p t hr
  · rw [bind_run, bind_run, hx.rerun s p t more hr]
  · rw [← hx.ends s p t hr, bind_run]
    cases x (behind [.finish] s) <;> rfl

theorem storing_of_stores {start len : Nat} {x : M α} (hx : Stores u start len x) : Storing x := by
  induction hx with
  | loop hb hc => exact storing_decodeFrom hb hc start len 0
  | continued hbit hbyte => exact storing_fpDecodeFrom hbit hbyte start len 0
  | first n hx hnone _ ih => exact storing_orEnd_bind n hx hnone ih
  | answer g _ ih => exact storing_answer ih g

theorem storing_look {f : State → M α} (hf : ∀ s a m, f (s.withSource a m) = f s) (h : ∀ s, Storing (f s)) :
    Storing (look f) where
  later := keepsLater_look (fun s more => hf s (s.source ++ more) s.data) fun s => (h s).later
  waits s p t ht := (h s).waits s p t ht
  calm := keeps_look fun s => (h s).calm
  rerun s p t more ht := by
    have h1 : f (withData t.data (behind more s)) = f s := hf s (s.source ++ more) t.data
    have h2 : f (behind more s) = f s := hf s (s.source ++ more) s.data
    rw [look_run, look_run, h1, h2]
    exact (h s).rerun s p t more ht
  ends s p t ht := by
    have h1 : f (behind [.finish] s) = f s := hf s (s.source ++ [SourceAnswer.finish]) s.data
    rw [look_run, h1]
    exact (h s).ends s p t ht

theorem storing_onArray {body : Nat → Nat → M Word64} (c : CoderState) (hbody : ∀ start len, Storing (body start len)) :
    Storing (onArray c body) := by
  have hready : ReadElement 0 (onReady c (pure ())) := by
    cases c
    case ready => exact .gets (.pure ())
    all_goals exact .gets (.raise _)
  refine storing_elementAt_bind 0 hready fun _ => storing_look (fun _ _ _ => rfl) fun s => ?_
  split
  · exact hbody _ _
  · exact storing_pure _

/-- Every body of a decoder's command. -/
theorem storing_of_decodes {x : M Word64} (hx : Decodes array u x) : Storing x := by
  cases hx with
  | reads hx => exact storing_of_patient (patient_of_reads hx) (sameData_of_reads hx)
  | stores _ hstate hbody =>
    exact storing_look (fun s a m => by rw [hstate]) fun s => storing_onArray _ fun start len => storing_of_stores (hbody start len)

end Sys2Proof.Machine
end

section
/-! SUPPORT. What a command does at SINK and at SOURCE, however it ends, and the invariant of SINK. -/

namespace Sys2Proof.Machine

variable {α : Type} {u : Nat} {s t r : State} {i : Instr}

/-! ### The end of a body that does not wait -/

/-- The operation did not wait. -/
def Ended (res : EStateM.Result Stop State α) : Prop := ∀ p t, res ≠ .error (.wait p) t

/-- Where no command waits, its end does not depend on the state it began in, and changes nothing outside the machine. -/
structure EndsAs (res : EStateM.Result Stop State Word64) (t : State) : Prop where
  ports : t.sink = (reached res).sink ∧ t.sinkRoom = (reached res).sinkRoom ∧ t.source = (reached res).source ∧
    t.host = (reached res).host
  sent : t.sent = 0
  bsw : t.bsw = (reached res).bsw
  bsr : t.bsr = (reached res).bsr
  data : t.data = (reached res).data
  control : t.cmd = (reached res).cmd ∧ t.waiting = (reached res).waiting ∧ t.taken = (reached res).taken

theorem Marked.endsAs {k o : BitVec 4} {c : FaultCode} {res : EStateM.Result Stop State Word64} (h : Marked k (reached res) t) :
    EndsAs res (raiseFault k o c t) := by
  have hc := h.control
  simp only [State.control, Prod.mk.injEq] at hc
  obtain ⟨-, hcmd, -, -, ⟨hwaiting, htaken⟩, -, -⟩ := hc
  refine ⟨⟨?_, ?_, ?_, ?_⟩, rfl, ?_, ?_, ?_, hcmd, hwaiting, htaken⟩ <;> rw [← h.kept] <;> rfl

theorem finish_endsAs (k o : BitVec 4) {res : EStateM.Result Stop State Word64} (h : Ended res) (s : State) :
    EndsAs res (finish k o s res) := by
  rcases finish_cases k o s res with ⟨v, r, rfl, heq⟩ | ⟨c, r, hm, heq⟩ | ⟨p, r, rfl, heq⟩
  · rw [heq]
    exact ⟨⟨rfl, rfl, rfl, rfl⟩, rfl, rfl, rfl, rfl, rfl, rfl, rfl⟩
  · rw [heq]
    exact hm.endsAs
  · exact absurd rfl (h p r)

theorem finish_ended (k o : BitVec 4) {res : EStateM.Result Stop State Word64} (h : Ended res) (s r : State) :
    finish k o s res = finish k o r res := by
  rcases res with ⟨v, t⟩ | ⟨_ | _ | _, t⟩
  · rfl
  · rfl
  · rfl
  · exact absurd rfl (h _ _)

/-! ### Encoders at SINK -/

/-- The command `i`, an encoder's, stalled in `r` with the outside `o` where it was to hand over `h`. -/
def stalled (r : State) (o : Outside) (h : List Byte) : State :=
  { r.within o with
    sink := o.sink ++ (h.drop o.sent).take o.room, sinkRoom := 0, waiting := some .sink, sent := o.sent + o.room, taken := [] }

/-- What an encoder's command does in `r`, whatever stands outside. -/
structure EncodesTo (i : Instr) (r : State) (h : List Byte) (res : EStateM.Result Stop State Word64) : Prop where
  ended : Ended res
  carries : Carrying r h (reached res)
  control : (reached res).cmd = r.cmd ∧ (reached res).waiting = none ∧ (reached res).taken = []
  fits : ∀ o : Outside, (h.drop o.sent).length ≤ o.room →
    exec i (r.within o) = .next (finish i.unit i.op r (resultWithin (o.handing h) res))
  stalls : ∀ o : Outside, o.room < (h.drop o.sent).length → exec i (r.within o) = .next (stalled r o h)

theorem reached_resultWithin (o : Outside) (res : EStateM.Result Stop State α) :
    reached (resultWithin o res) = (reached res).within o := by
  cases res <;> rfl

theorem ended_resultWithin {o : Outside} {res : EStateM.Result Stop State α} (h : Ended res) : Ended (resultWithin o res) := by
  intro p t ht
  cases res with
  | ok v r => exact absurd ht (ok_ne_wait _ _ _ _)
  | error e r =>
    obtain ⟨rfl, -⟩ := EStateM.Result.error.inj ht
    exact h p r rfl

theorem exec_encodesTo (hu : i.unit.toNat % 2 = 1) (hw : r.waiting = none) (ht : r.taken = []) :
    ∃ h res, EncodesTo i r h res := by
  obtain ⟨body, hbody, hexec⟩ := exec_encodes i hu
  obtain ⟨h, res, hhands, hcarry⟩ := hands_of_encodes hbody r
  have hresume : ∀ o, resume (r.within o) = r.within o := fun o => by
    simp only [resume, State.within, ht, List.nil_append, ← hw]
  refine ⟨h, res, hhands.ends, hcarry, ?_, fun o ho => ?_, fun o ho => ?_⟩
  · have hframe : Frame (IsArray i) i.unit.toNat (fun _ => True) (r.within ⟨[], h.length, 0, [], []⟩)
        (reached (body (r.within ⟨[], h.length, 0, [], []⟩))) :=
      keeps_of_encodes stable_frame (frame_putBits hu) (frame_flushWriter hu) (fun s => frame_writer hu s _ _ _ _)
        (frame_closeWriter hu) hbody _
    rw [hhands.fits _ (by simp), reached_resultWithin] at hframe
    have hc := hframe.control
    simp only [State.control, Prod.mk.injEq] at hc
    obtain ⟨-, hcmd, -, -, ⟨hwaiting, htaken⟩, -, -⟩ := hc
    exact ⟨hcmd, hwaiting.trans hw, htaken.trans ht⟩
  · rw [hexec, command, hresume, hhands.fits o ho, finish_ended _ _ (ended_resultWithin hhands.ends)]
  · obtain ⟨t, hrun, hsink, hroom, hsource, hdata⟩ := hhands.stalls o ho
    rw [hexec, command, hresume, hrun]
    have hgrown : (o.sink ++ (h.drop o.sent).take o.room).length - o.sink.length = o.room := by
      rw [List.length_append, List.length_take]
      omega
    simp only [finish, suspend, hsink, hroom, hsource, hdata, State.within, stalled, hgrown, Nat.sub_self, List.take_zero]

theorem exec_resume_encoder (hu : i.unit.toNat % 2 = 1) (s : State) : exec i (resume s) = exec i s := by
  obtain ⟨body, -, hexec⟩ := exec_encodes i hu
  rw [hexec, hexec]
  rfl

/-- A command that waits at SINK, with the host's answers and acceptances since, goes on as if they had stood there at its start. -/
theorem exec_stalled {o : Outside} {h : List Byte} {res : EStateM.Result Stop State Word64} (hu : i.unit.toNat % 2 = 1)
    (hw : r.waiting = none) (ht : r.taken = []) (he : EncodesTo i r h res) (hsent : o.sent = 0) (ho : o.room < h.length) (m : Nat)
    (source : List SourceAnswer) (host : List HostMove) :
    exec i { stalled r o h with sinkRoom := m, source := source, host := host } =
      exec i (r.within { o with room := o.room + m, source := source, host := host }) := by
  let o' : Outside := ⟨o.sink ++ h.take o.room, m, o.room, source, host⟩
  have hstate : resume { stalled r o h with sinkRoom := m, source := source, host := host } = r.within o' := by
    simp only [resume, stalled, State.within, hsent, List.drop_zero, Nat.zero_add, List.nil_append, hw, ht, o']
  rw [← exec_resume_encoder hu, hstate]
  have hdrop : (h.drop o.room).length = h.length - o.room := List.length_drop
  by_cases hm : h.length ≤ o.room + m
  · rw [he.fits o' (by simp only [o', hdrop]; omega), he.fits _ (by simp only [hsent, List.drop_zero]; exact hm)]
    have hout : o'.handing h = ({ o with room := o.room + m, source := source, host := host } : Outside).handing h := by
      simp only [Outside.handing, o', hsent, List.drop_zero, hdrop, List.append_assoc, List.take_append_drop, Outside.mk.injEq,
        true_and, and_true]
      omega
    rw [hout]
  · rw [he.stalls o' (by simp only [o', hdrop]; omega), he.stalls _ (by simp only [hsent, List.drop_zero]; omega)]
    simp only [stalled, State.within, o', hsent, List.drop_zero, Nat.zero_add, List.append_assoc, ← List.take_add]

/-! ### Commands that wait -/

/-- What a decoder's command does: its body, which leaves what is not its own, and its end. -/
structure DecodesBy (i : Instr) (body : M Word64) : Prop where
  exec : ∀ s, exec i s = command i body s
  storing : Storing body
  frame : ∀ s, Frame (IsArray i) i.unit.toNat (fun _ => True) s (reached (body s))

/-- A command that neither waits nor faults, and reads neither port. -/
structure Plain (i : Instr) (f : State → State) (v : State → Word64) : Prop where
  exec : ∀ s, exec i s = .next (complete i.unit i.op (v (resume s)) (f (resume s)))
  later : ∀ s more, f (behind more s) = behind more (f s) ∧ v (behind more s) = v s
  waiting : ∀ s, (f (resume s)).waiting = none
  ended : ∀ s, s.bsr.ended = false → (f s).bsr.ended = false

/-- The kinds of commands: encoders and BSW; decoders and BSR; SYS and the INIT of BSR. -/
theorem exec_kinds (i : Instr) : i.unit.toNat % 2 = 1 ∨ i.unit.toNat % 2 = 0 ∧
    ((∃ body, DecodesBy i body) ∨ ∃ f v, Plain i f v) := by
  by_cases hu : i.unit.toNat % 2 = 1
  · exact .inl hu
  replace hu : i.unit.toNat % 2 = 0 := by omega
  refine .inr ⟨hu, ?_⟩
  by_cases h0 : i.unit = 0
  · refine .inr ?_
    cases i
    case sysNop => exact ⟨id, fun _ => 0, fun _ => rfl, fun _ _ => ⟨rfl, rfl⟩, fun _ => rfl, fun _ => id⟩
    case sysUstate u => exact ⟨id, fun s => unitState s u, fun _ => rfl, fun _ _ => ⟨rfl, rfl⟩, fun _ => rfl, fun _ => id⟩
    case sysSreset => exact ⟨resetAll, fun _ => 0, fun _ => rfl, fun _ _ => ⟨rfl, rfl⟩, fun _ => rfl, fun _ _ => rfl⟩
    all_goals exact absurd h0 (by simp only [Instr.unit]; decide)
  · by_cases hinit : i = .bsrInit
    · subst hinit
      exact .inr ⟨fun s => { s with bsr := readerFresh .opened }, fun _ => 0, fun _ => rfl, fun _ _ => ⟨rfl, rfl⟩, fun _ => rfl,
        fun _ _ => rfl⟩
    · obtain ⟨body, hbody, hexec⟩ := exec_decodes i hu h0 hinit
      exact .inl ⟨body, hexec, storing_of_decodes hbody, fun s => reached_of_decodes hbody s stable_frame (frame_getBits hu)
        (fun s => frame_reader hu s _ _) fun _ _ _ _ _ => frame_memWrite trivial _⟩

theorem Frame.waiting {array : Prop} {P : Nat → Prop} (h : Frame array u P s t) : t.waiting = s.waiting := by
  have hc := h.control
  simp only [State.control, Prod.mk.injEq] at hc
  obtain ⟨-, -, -, -, ⟨hwaiting, -⟩, -, -⟩ := hc
  exact hwaiting

theorem finish_waiting {k o : BitVec 4} {res : EStateM.Result Stop State Word64} {p : Port}
    (hw : (reached res).waiting = none) (h : (finish k o s res).waiting = some p) : ∃ r, res = .error (.wait p) r := by
  by_cases he : Ended res
  · have := (finish_endsAs k o he s).control
    rw [this.2.1, hw] at h
    cases h
  · simp only [Ended, not_forall, not_not] at he
    obtain ⟨q, r, rfl⟩ := he
    exact ⟨r, by rw [show p = q from (Option.some.inj h).symm]⟩

/-- A command that waits is an encoder's, and waits at SINK, or a decoder's, and waits at SOURCE where its body does. -/
theorem exec_wait {p : Port} (h : exec i s = .next t) (hw : t.waiting = some p) : p = .sink ∧ i.unit.toNat % 2 = 1 ∨
    p = .source ∧ i.unit.toNat % 2 = 0 ∧ ∃ body, DecodesBy i body ∧
      ∃ r, body (resume s) = .error (.wait .source) r ∧ t = suspend .source (resume s) r := by
  rcases exec_kinds i with hu | ⟨hu, ⟨body, hbody⟩ | ⟨f, v, hplain⟩⟩
  · obtain ⟨h', res, he⟩ := exec_encodesTo (r := resume s) hu rfl rfl
    rw [← exec_resume_encoder hu, ← within_outside (resume s)] at h
    by_cases hfit : (h'.drop s.sent).length ≤ s.sinkRoom
    · rw [he.fits _ hfit] at h
      rw [← Host.Outcome.next.inj h] at hw
      obtain ⟨r, hr⟩ := finish_waiting (by rw [reached_resultWithin]; exact he.control.2.1) hw
      exact absurd hr (ended_resultWithin he.ended _ _)
    · rw [he.stalls _ (Nat.lt_of_not_le hfit)] at h
      rw [← Host.Outcome.next.inj h] at hw
      exact .inl ⟨(Option.some.inj hw).symm, hu⟩
  · rw [hbody.exec] at h
    rw [← Host.Outcome.next.inj h] at hw
    obtain ⟨r, hr⟩ := finish_waiting (hbody.frame (resume s)).waiting hw
    obtain ⟨rfl, -⟩ := hbody.storing.waits _ _ _ hr
    refine .inr ⟨rfl, hu, body, hbody, r, hr, ?_⟩
    rw [← Host.Outcome.next.inj h, hr]
    rfl
  · rw [hplain.exec] at h
    rw [← Host.Outcome.next.inj h] at hw
    have hnone : (complete i.unit i.op (v (resume s)) (f (resume s))).waiting = none := hplain.waiting s
    cases hnone.symm.trans hw

theorem unit_odd_of_wait_sink (h : exec i s = .next t) (hw : t.waiting = some .sink) : i.unit.toNat % 2 = 1 := by
  rcases exec_wait h hw with ⟨-, hu⟩ | ⟨hp, -⟩
  · exact hu
  · cases hp

theorem exec_wait_source (h : exec i s = .next t) (hw : t.waiting = some .source) : ∃ body, DecodesBy i body ∧
    i.unit.toNat % 2 = 0 ∧ ∃ r, body (resume s) = .error (.wait .source) r ∧ t = suspend .source (resume s) r := by
  rcases exec_wait h hw with ⟨hp, -⟩ | ⟨-, hu, body, hbody, hr⟩
  · cases hp
  · exact ⟨body, hbody, hu, hr⟩

/-! ### Answers that come later -/

theorem resume_behind (more : List SourceAnswer) (s : State) : resume (behind more s) = behind more (resume s) := by
  simp only [resume, behind, List.append_assoc]

theorem markFailed_behind (k : BitVec 4) (more : List SourceAnswer) (s : State) :
    markFailed k (behind more s) = behind more (markFailed k s) := by
  unfold markFailed
  split
  · rfl
  · split <;> rfl

theorem scrambleRange_behind (k : BitVec 4) (more : List SourceAnswer) (s : State) :
    scrambleRange k (behind more s) = behind more (scrambleRange k s) := by
  unfold scrambleRange
  dsimp only
  split
  · rfl
  · split <;> rfl

theorem finish_behind (k o : BitVec 4) {res : EStateM.Result Stop State Word64} (he : Ended res) (more : List SourceAnswer)
    (s r : State) : finish k o s (behindResult more res) = behind more (finish k o r res) := by
  rcases res with ⟨v, t⟩ | ⟨c | _ | _, t⟩
  · rfl
  · by_cases hc : c = .rangeDegenerate
    · simp only [behindResult, finish, if_pos hc, markFailed_behind]
      rfl
    · simp only [behindResult, finish, if_neg hc]
      rfl
  · simp only [behindResult, finish, markFailed_behind, scrambleRange_behind]
    rfl
  · exact absurd rfl (he _ _)

/-- A command that does not wait at SOURCE does the same with later answers behind. -/
theorem exec_behind (h : exec i s = .next t) (hw : t.waiting ≠ some .source) (more : List SourceAnswer) :
    exec i (behind more s) = .next (behind more t) := by
  rcases exec_kinds i with hu | ⟨hu, ⟨body, hbody⟩ | ⟨f, v, hplain⟩⟩
  · obtain ⟨h', res, he⟩ := exec_encodesTo (r := resume s) hu rfl rfl
    have hstate : resume (behind more s) = (resume s).within { (resume s).outside with source := (resume s).source ++ more } := by
      rw [resume_behind]
      rfl
    rw [← exec_resume_encoder hu, ← within_outside (resume s)] at h
    rw [← exec_resume_encoder hu, hstate]
    by_cases hfit : (h'.drop s.sent).length ≤ s.sinkRoom
    · rw [he.fits _ hfit] at h
      rw [he.fits _ hfit, ← Host.Outcome.next.inj h, ← finish_behind _ _ (ended_resultWithin he.ended) more (resume s)]
      cases res <;> rfl
    · rw [he.stalls _ (Nat.lt_of_not_le hfit)] at h
      rw [he.stalls _ (Nat.lt_of_not_le hfit), ← Host.Outcome.next.inj h]
      rfl
  · rw [hbody.exec] at h
    have ht := Host.Outcome.next.inj h
    have hended : Ended (body (resume s)) := by
      intro p r hr
      obtain ⟨rfl, -⟩ := hbody.storing.waits _ _ _ hr
      rw [hr] at ht
      exact hw (by rw [← ht]; rfl)
    rcases hbody.storing.later (resume s) more with ⟨r, hr⟩ | hb
    · exact absurd hr (hended _ _)
    · rw [hbody.exec, command, resume_behind, hb, finish_behind _ _ hended more _ (resume s), ← ht]
  · rw [hplain.exec] at h
    obtain ⟨hf, hv⟩ := hplain.later (resume s) more
    rw [hplain.exec, resume_behind, hf, hv, ← Host.Outcome.next.inj h]
    rfl

/-- A command that does not wait comes by no END where none was answered. -/
theorem ended_of_exec (h : exec i s = .next t) (hw : t.waiting ≠ some .source) (hs : Calm (resume s)) : t.bsr.ended = false := by
  rcases exec_kinds i with hu | ⟨hu, ⟨body, hbody⟩ | ⟨f, v, hplain⟩⟩
  · have hne : i ≠ .sysSreset := by
      rintro rfl
      exact absurd hu (by decide)
    rw [((exec_endFrame hne h).reader hu).1]
    exact hs.1
  · rw [hbody.exec] at h
    have ht := Host.Outcome.next.inj h
    have hended : Ended (body (resume s)) := by
      intro p r hr
      obtain ⟨rfl, -⟩ := hbody.storing.waits _ _ _ hr
      rw [hr] at ht
      exact hw (by rw [← ht]; rfl)
    rw [← ht, (finish_endsAs _ _ hended _).bsr]
    exact ((hbody.storing.calm (resume s)).1 hs).1
  · rw [hplain.exec] at h
    rw [← Host.Outcome.next.inj h]
    exact hplain.ended (resume s) hs.1

theorem finish_data (k o : BitVec 4) (res : EStateM.Result Stop State Word64) (s : State) :
    (finish k o s res).data = (reached res).data := by
  by_cases he : Ended res
  · exact (finish_endsAs k o he s).data
  · simp only [Ended, not_forall, not_not] at he
    obtain ⟨q, r, rfl⟩ := he
    rfl

theorem finish_withData (k o : BitVec 4) (res : EStateM.Result Stop State Word64) (m : Memory) (s : State) :
    finish k o (withData m s) res = finish k o s res := by
  rcases res with ⟨v, t⟩ | ⟨_ | _ | _, t⟩ <;> rfl

/-- The state of a command that waits at SOURCE (20_memory R84; log 5). -/
theorem exec_wait_source_eq (hs : Settled s) (h : exec i s = .next t) (hw : t.waiting = some .source) : Calm s ∧
    t = { s with waiting := some .source, source := [], taken := s.source, data := t.data } := by
  obtain ⟨body, hbody, hu, r, hr, ht⟩ := exec_wait_source h hw
  rw [resume_settled hs] at hr ht
  obtain ⟨-, hsource, hended⟩ := hbody.storing.waits _ _ _ hr
  have hframe := hbody.frame s
  have hcalm := hbody.storing.calm s
  rw [hr] at hframe hcalm
  obtain ⟨-, hsink, hroom, -⟩ := hframe.writer hu
  rw [reached_error] at hsink hroom
  refine ⟨hcalm.2 ⟨hended, by simp [hsource]⟩, ?_⟩
  rw [ht]
  simp only [suspend, hsource, hsink, hroom, List.length_nil, Nat.sub_zero, List.take_length, Nat.sub_self, Nat.add_zero]

/-- With more answers it does what it would have done with all of them at its start. -/
theorem exec_wait_source_resumes (hs : Settled s) (h : exec i s = .next t) (hw : t.waiting = some .source)
    (more : List SourceAnswer) : exec i { t with source := more } = exec i (behind more s) := by
  obtain ⟨body, hbody, hu, r, hr, ht⟩ := exec_wait_source h hw
  rw [resume_settled hs] at hr ht
  have hdata : t.data = r.data := by rw [ht]; rfl
  have hresume : resume { t with source := more } = withData t.data (behind more s) := by
    rw [(exec_wait_source_eq hs h hw).2]
    exact resume_wait hs t.data more
  have hsettled : resume (behind more s) = behind more s := by rw [resume_behind, resume_settled hs]
  rw [hbody.exec, hbody.exec, command, command, hresume, hsettled, finish_withData, hdata, hbody.storing.rerun s _ r more hr]

/-- Where a read is to meet END behind the answers, it waits while the END is not there. -/
theorem exec_wait_of_end (hs : Settled s) (hcalm : Calm s) (h : exec i (behind [.finish] s) = .next t) (ht : t.bsr.ended = true) :
    exec i s = .next { s with waiting := some .source, source := [], taken := s.source, data := t.data } := by
  obtain ⟨r, hr⟩ := exec_eq_next i s
  have hw : r.waiting = some .source := by
    by_contra hw
    have hb := exec_behind hr hw [.finish]
    rw [h] at hb
    have hcalm' : Calm (resume s) := by rwa [resume_settled hs]
    rw [Host.Outcome.next.inj hb, behind_bsr, ended_of_exec hr hw hcalm'] at ht
    cases ht
  obtain ⟨body, hbody, hu, r', hr', hrr⟩ := exec_wait_source hr hw
  rw [resume_settled hs] at hr' hrr
  have hdata : t.data = r.data := by
    rw [hbody.exec] at h
    rw [← Host.Outcome.next.inj h, finish_data, resume_behind, resume_settled hs, hbody.storing.ends s _ r' hr', hrr]
    rfl
  rw [hr, hdata, ← (exec_wait_source_eq hs hr hw).2]

/-! ### The obligation on waits at SOURCE -/

theorem exec_bsrRdbit_waits (hs : Settled s) (hopen : ReaderOpen s) (hcalm : Calm s) (hn : (unread s).length < 1) :
    ∃ t, exec .bsrRdbit s = .next t ∧ t.waiting = some .source :=
  ⟨_, command_wait hs (element_wait (bind_error (getBits_wait hopen hn hcalm.1 hcalm.2) _)), rfl⟩

theorem exec_bsrRdbits_waits (hs : Settled s) (hopen : ReaderOpen s) (hcalm : Calm s) {n : Nat} (h1 : 1 ≤ n) (h64 : n ≤ 64)
    (hn : (unread s).length < n) : ∃ t, exec (.bsrRdbits n) s = .next t ∧ t.waiting = some .source :=
  ⟨_, command_wait hs (element_wait ((bind_ok (checkReadLength_ok hopen h1 h64) _).trans
    (bind_error (getBits_wait hopen hn hcalm.1 hcalm.2) _))), rfl⟩

theorem data_of_not_isDecode (hne : i ≠ .sysSreset) (hi : ¬IsDecode i) (h : exec i s = .next t) : t.data = s.data := by
  obtain ⟨l, hl, hd⟩ := (exec_endFrame hne h).data
  obtain rfl : l = [] := List.eq_nil_iff_forall_not_mem.2 fun c hc => hi (hl c hc).1
  exact hd

/-- Settles O27. -/
theorem readWaits : Obligations.ReadWaits := by
  have hwaits : ∀ {i : Instr} {s t : State}, Settled s → ¬IsDecode i → i ≠ .sysSreset → exec i s = .next t →
      t.waiting = some .source → t = { s with waiting := some .source, source := [], taken := s.source } := by
    intro i s t hs hi hne h hw
    have ht := (exec_wait_source_eq hs h hw).2
    rwa [data_of_not_isDecode hne hi h] at ht
  refine ⟨fun s hs hopen hended hfinish => ⟨fun hn => ?_, fun n h1 h64 hn => ⟨?_, fun more => ?_⟩⟩,
    fun i s t hs h hw => ⟨?_, ?_, ?_, fun hi => ?_, fun more => ?_⟩, fun i s t more hs h hw => exec_behind h hw more,
    fun i s t hs hended hfinish h ht => exec_wait_of_end hs ⟨hended, hfinish⟩ h ht⟩
  · obtain ⟨t, h, hw⟩ := exec_bsrRdbit_waits hs hopen ⟨hended, hfinish⟩ hn
    rw [h, hwaits hs (by decide) (by decide) h hw]
  · obtain ⟨t, h, hw⟩ := exec_bsrRdbits_waits hs hopen ⟨hended, hfinish⟩ h1 h64 hn
    rw [h, hwaits hs (by simp [Instr.op]) (by simp) h hw]
  · obtain ⟨t, h, hw⟩ := exec_bsrRdbits_waits hs hopen ⟨hended, hfinish⟩ h1 h64 hn
    have hrun := exec_wait_source_resumes hs h hw more
    rw [hwaits hs (by simp [Instr.op]) (by simp) h hw] at hrun
    exact hrun
  · exact (exec_wait_source_eq hs h hw).1.1
  · exact (exec_wait_source_eq hs h hw).1.2
  · exact (exec_wait_source_eq hs h hw).2
  · by_cases hne : i = .sysSreset
    · subst hne
      rw [exec_sysSreset] at h
      rw [← Host.Outcome.next.inj h]
      rfl
    · exact data_of_not_isDecode hne hi h
  · exact exec_wait_source_resumes hs h hw more

end Sys2Proof.Machine
end

section
/-! SUPPORT. SINK: the bytes that a command hands over are those that the host accepts, and those of the writer's output
(20_memory R83; 41_bitstream R183, R191). -/

namespace Sys2Proof.Machine

variable {α : Type} {s t r : State} {i : Instr}

/-! ### Bytes handed over -/

/-- What an encoder's command hands over, in any state. -/
theorem exec_sink_encoder (hu : i.unit.toNat % 2 = 1) (h : exec i s = .next t) :
    (∃ bs, t.sink = s.sink ++ bs ∧ bs.length + t.sinkRoom = s.sinkRoom) ∧ (t.waiting = some .sink → t.sinkRoom = 0) := by
  obtain ⟨bs, res, he⟩ := exec_encodesTo (r := resume s) hu rfl rfl
  rw [← exec_resume_encoder hu, ← within_outside (resume s)] at h
  by_cases hfit : (bs.drop s.sent).length ≤ s.sinkRoom
  · rw [he.fits _ hfit] at h
    have hends := finish_endsAs i.unit i.op (ended_resultWithin (o := (resume s).outside.handing bs) he.ended) (resume s)
    obtain ⟨hsink, hroom, -, -⟩ := hends.ports
    obtain ⟨-, hwaiting, -⟩ := hends.control
    rw [Host.Outcome.next.inj h, reached_resultWithin] at hsink hroom hwaiting
    refine ⟨⟨bs.drop s.sent, hsink, ?_⟩, fun hw => ?_⟩
    · rw [hroom]
      exact Nat.add_sub_of_le hfit
    · rw [hwaiting] at hw
      cases he.control.2.1.symm.trans hw
  · rw [he.stalls _ (Nat.lt_of_not_le hfit)] at h
    rw [← Host.Outcome.next.inj h]
    refine ⟨⟨(bs.drop s.sent).take s.sinkRoom, rfl, ?_⟩, fun _ => rfl⟩
    rw [List.length_take, Nat.min_eq_left (Nat.le_of_not_le hfit)]
    rfl

theorem exec_sink (h : exec i s = .next t) :
    (∃ bs, t.sink = s.sink ++ bs ∧ bs.length + t.sinkRoom = s.sinkRoom) ∧ (t.waiting = some .sink → t.sinkRoom = 0) := by
  by_cases hu : i.unit.toNat % 2 = 1
  · exact exec_sink_encoder hu h
  · refine ⟨⟨[], ?_⟩, fun hw => absurd (unit_odd_of_wait_sink h hw) hu⟩
    rw [List.append_nil, List.length_nil, Nat.zero_add]
    by_cases hne : i = .sysSreset
    · subst hne
      rw [exec_sysSreset] at h
      rw [← Host.Outcome.next.inj h]
      exact ⟨rfl, rfl⟩
    · exact ((exec_endFrame hne h).writer (by omega)).2

/-- The state of a command that waits at SINK. -/
theorem exec_wait_sink (hs : Settled s) (h : exec i s = .next t) (hw : t.waiting = some .sink) :
    ∃ bs res, EncodesTo i s bs res ∧ s.sinkRoom < bs.length ∧ t = stalled s s.outside bs := by
  have hu := unit_odd_of_wait_sink h hw
  obtain ⟨hwaiting, hsent, htaken⟩ := hs
  obtain ⟨bs, res, he⟩ := exec_encodesTo (r := s) hu hwaiting htaken
  have hdrop : bs.drop s.outside.sent = bs := by rw [show s.outside.sent = 0 from hsent, List.drop_zero]
  refine ⟨bs, res, he, ?_⟩
  rw [← within_outside s] at h
  by_cases hfit : bs.length ≤ s.sinkRoom
  · rw [he.fits _ (by rw [hdrop]; exact hfit)] at h
    rw [← Host.Outcome.next.inj h] at hw
    obtain ⟨r, hr⟩ := finish_waiting (by rw [reached_resultWithin]; exact he.control.2.1) hw
    exact absurd hr (ended_resultWithin he.ended _ _)
  · rw [he.stalls _ (by rw [hdrop]; exact Nat.lt_of_not_le hfit)] at h
    exact ⟨Nat.lt_of_not_le hfit, (Host.Outcome.next.inj h).symm⟩

/-- It goes on as if what the host has answered and accepted since had stood there at its start. -/
theorem exec_wait_sink_resumes (hs : Settled s) (h : exec i s = .next t) (hw : t.waiting = some .sink) (m : Nat)
    (source : List SourceAnswer) (host : List HostMove) :
    exec i { t with sinkRoom := m, source := source, host := host } =
      exec i { s with sinkRoom := s.sinkRoom + m, source := source, host := host } := by
  obtain ⟨bs, res, he, hroom, rfl⟩ := exec_wait_sink hs h hw
  exact exec_stalled (unit_odd_of_wait_sink h hw) hs.1 hs.2.2 he hs.2.1 hroom m source host

/-! ### FLUSH and WRBITS at a SINK that takes too little -/

theorem command_stall {body : M Word64} (hs : Settled s) (h : body s = .error (.wait .sink) t) {bs : List Byte}
    (ht : t.sink = s.sink ++ bs.take s.sinkRoom ∧ t.sinkRoom = 0 ∧ t.source = s.source ∧ t.data = s.data)
    (hroom : s.sinkRoom < bs.length) : command i body s = .next { s with
      sink := s.sink ++ bs.take s.sinkRoom, sinkRoom := 0, waiting := some .sink, sent := s.sinkRoom } := by
  obtain ⟨hsink, hzero, hsource, hdata⟩ := ht
  have ⟨_, hsent, htaken⟩ := hs
  have hgrown : (s.sink ++ bs.take s.sinkRoom).length - s.sink.length = s.sinkRoom := by
    rw [List.length_append, List.length_take]
    omega
  rw [command_wait hs h, suspend, hsink, hzero, hsource, hdata, hgrown, hsent, Nat.zero_add, Nat.sub_self, List.take_zero, ← htaken]

theorem handOff_stall {bs : List Byte} (hs : s.sent = 0) (h : s.sinkRoom < bs.length) : ∃ t, handOff bs s = .error (.wait .sink) t ∧
    t.sink = s.sink ++ bs.take s.sinkRoom ∧ t.sinkRoom = 0 ∧ t.source = s.source ∧ t.data = s.data :=
  ⟨_, handOff_wait hs h, rfl, rfl, rfl, rfl⟩

theorem exec_bswFlush_stall (hs : Settled s) (hopen : WriterOpen s) {bs : List Byte}
    (hbs : bs = outBytes s.bsw.bits s.bsw.delivered (s.bsw.bits.length / 8 - s.bsw.delivered)) (hroom : s.sinkRoom < bs.length) :
    exec .bswFlush s = .next { s with
      sink := s.sink ++ bs.take s.sinkRoom, sinkRoom := 0, waiting := some .sink, sent := s.sinkRoom } := by
  obtain ⟨hu, hclosed, hcounts⟩ := hopen
  obtain ⟨t, hrun, ht⟩ := handOff_stall hs.2.1 hroom
  have hflush : flushWriter s = .error (.wait .sink) t := by
    rw [flushWriter, look_run, if_neg (not_true_of_false hclosed), completeBytes, hcounts, ← hbs, hrun]
  refine command_stall hs ?_ ht hroom
  rw [onStream_bound (by simp [hu])]
  exact bind_error hflush _

theorem putBits_stall {v n : Nat} (hs : s.sent = 0) (hopen : WriterOpen s) (hlen : s.bsw.bits.length + n < 2 ^ 64) {bs : List Byte}
    (hbs : bs = outBytes (s.bsw.bits ++ bitsOf v n) s.bsw.delivered (fullBuffers s (s.bsw.bits.length + n)))
    (hroom : s.sinkRoom < bs.length) : ∃ t, putBits v n s = .error (.wait .sink) t ∧
      t.sink = s.sink ++ bs.take s.sinkRoom ∧ t.sinkRoom = 0 ∧ t.source = s.source ∧ t.data = s.data := by
  obtain ⟨hu, hclosed, hcounts⟩ := hopen
  have hcomplete : completeBytes { s.bsw with bits := s.bsw.bits ++ bitsOf v n, written := s.bsw.written + BitVec.ofNat 64 n } =
      (s.bsw.bits.length + n) / 8 := by
    rw [completeBytes, BitVec.toNat_add, BitVec.toNat_ofNat, hcounts, Nat.add_mod_mod, Nat.mod_eq_of_lt hlen]
  have hne : fullBuffers s (s.bsw.bits.length + n) ≠ 0 := by
    intro h0
    rw [hbs, h0] at hroom
    exact absurd hroom (Nat.not_lt_zero _)
  obtain ⟨t, hrun, ht⟩ := handOff_stall (bs := bs)
    (s := { s with bsw.bits := s.bsw.bits ++ bitsOf v n, bsw.written := s.bsw.written + BitVec.ofNat 64 n }) hs hroom
  refine ⟨t, ?_, ht⟩
  rw [putBits, look_run, if_neg (by simp [hu]), if_neg (not_true_of_false hclosed), bind_ok (update_run _ _), deliver, look_run]
  dsimp only
  rw [hcomplete]
  refine Eq.trans (congrFun (if_neg hne) _) ?_
  rw [← hrun, hbs]
  rfl

theorem exec_bswWrbits_stall (hs : Settled s) (hopen : WriterOpen s) {n : Nat} (h1 : 1 ≤ n) (h64 : n ≤ 64)
    (hlen : s.bsw.bits.length + n < 2 ^ 64) {bs : List Byte}
    (hbs : bs = outBytes (s.bsw.bits ++ bitsOf s.arg0.toNat n) s.bsw.delivered (fullBuffers s (s.bsw.bits.length + n)))
    (hroom : s.sinkRoom < bs.length) : exec (.bswWrbits n) s = .next { s with
      sink := s.sink ++ bs.take s.sinkRoom, sinkRoom := 0, waiting := some .sink, sent := s.sinkRoom } := by
  obtain ⟨t, hrun, ht⟩ := putBits_stall hs.2.1 hopen hlen hbs hroom
  have hcheck := checkWriteLength_ok (by simp [hopen.1]) hopen.2.1 h1 h64
  exact command_stall hs ((bind_ok hcheck _).trans (bind_error hrun _)) ht hroom

/-- Settles O24. -/
theorem sinkStall : Obligations.SinkStall := by
  have hresumes : ∀ (i : Instr) (s t : State) (m : Nat), Settled s → exec i s = .next t → t.waiting = some .sink →
      exec i { t with sinkRoom := m } = exec i { s with sinkRoom := s.sinkRoom + m } := by
    intro i s t m hs h hw
    have hrun := exec_wait_sink_resumes hs h hw m t.source t.host
    obtain ⟨bs, res, he, hroom, rfl⟩ := exec_wait_sink hs h hw
    exact hrun
  refine ⟨fun i s t => exec_sink, fun s hs hopen => ⟨fun bs hbs hroom => ⟨exec_bswFlush_stall hs hopen hbs hroom, fun m hm => ?_⟩,
    fun n bs h1 h64 hlen hbs hroom => exec_bswWrbits_stall hs hopen h1 h64 hlen hbs hroom⟩, hresumes⟩
  have hroom' : SinkTakes { s with sinkRoom := s.sinkRoom + m } (s.bsw.bits.length / 8 - s.bsw.delivered) := by
    have hlen : bs.length = s.bsw.bits.length / 8 - s.bsw.delivered := by rw [hbs, length_outBytes]
    show _ ≤ s.sinkRoom + m
    omega
  have hflush := flushWriter_ok (s := { s with sinkRoom := s.sinkRoom + m }) hs.2.1 hopen.2.1 hopen.2.2 hroom'
  refine (hresumes _ _ _ m hs (exec_bswFlush_stall hs hopen hbs hroom) rfl).trans ?_
  refine (command_onStream_ok (s := { s with sinkRoom := s.sinkRoom + m }) hs (by simp [hopen.1]) (bind_ok hflush _)).trans ?_
  rw [flushed, handed, ← hbs]
  dsimp only
  rw [show s.sinkRoom + m - bs.length = m - (bs.length - s.sinkRoom) by omega]
  rfl

/-! ### The invariant of SINK -/

theorem carriesOutput_resetAll (s : State) : CarriesOutput (resetAll s) :=
  ⟨rfl, fun _ => ⟨rfl, Nat.zero_le _, fun _ => Nat.zero_le _, List.nil_suffix⟩⟩

theorem CarriesOutput.congr (h : CarriesOutput s) (hbsw : t.bsw = s.bsw) (hsink : t.sink = s.sink) (hsent : t.sent = 0) :
    CarriesOutput t := by
  obtain ⟨-, h⟩ := carriesOutput_iff.1 h
  exact carriesOutput_iff.2 ⟨hsent, by rwa [hbsw, hsink]⟩

theorem sent_of_exec_even (hu : i.unit.toNat % 2 = 0) (h : exec i s = .next t) (hs : s.sent = 0) : t.sent = 0 := by
  rcases exec_kinds i with hodd | ⟨-, ⟨body, hbody⟩ | ⟨f, v, hplain⟩⟩
  · omega
  · rw [hbody.exec] at h
    have ht := Host.Outcome.next.inj h
    by_cases he : Ended (body (resume s))
    · rw [← ht]
      exact (finish_endsAs _ _ he _).sent
    · simp only [Ended, not_forall, not_not] at he
      obtain ⟨p, r, hr⟩ := he
      have hsink := ((hbody.frame (resume s)).writer hu).2.1
      rw [hr] at hsink ht
      rw [← ht]
      show s.sent + (r.sink.length - s.sink.length) = 0
      rw [show r.sink = s.sink from hsink, hs, Nat.sub_self]
  · rw [hplain.exec] at h
    rw [← Host.Outcome.next.inj h]
    rfl

/-- A command that does not wait at SINK has handed over the beginning of the output. -/
theorem carriesOutput_of_exec (hs : CarriesOutput s) (h : exec i s = .next t) (hw : t.waiting ≠ some .sink) : CarriesOutput t := by
  obtain ⟨hsent, hcarries⟩ := carriesOutput_iff.1 hs
  by_cases hu : i.unit.toNat % 2 = 1
  · obtain ⟨bs, res, he⟩ := exec_encodesTo (r := resume s) hu rfl rfl
    have hdrop : bs.drop (resume s).outside.sent = bs := by rw [show (resume s).outside.sent = 0 from hsent, List.drop_zero]
    rw [← exec_resume_encoder hu, ← within_outside (resume s)] at h
    by_cases hfit : bs.length ≤ s.sinkRoom
    · rw [he.fits _ (by rw [hdrop]; exact hfit)] at h
      have hends := finish_endsAs i.unit i.op (ended_resultWithin (o := (resume s).outside.handing bs) he.ended) (resume s)
      have hsink := hends.ports.1
      have hbsw := hends.bsw
      have hsent' := hends.sent
      rw [Host.Outcome.next.inj h] at hsink hbsw hsent'
      rw [reached_resultWithin] at hsink hbsw
      refine carriesOutput_iff.2 ⟨hsent', ?_⟩
      rw [hsink, hbsw]
      have hcarries' := he.carries s.sink hcarries
      show Carries (reached res).bsw (s.sink ++ bs.drop (resume s).outside.sent)
      rwa [hdrop]
    · rw [he.stalls _ (by rw [hdrop]; exact Nat.lt_of_not_le hfit)] at h
      rw [← Host.Outcome.next.inj h] at hw
      exact absurd rfl hw
  · have hu : i.unit.toNat % 2 = 0 := by omega
    by_cases hne : i = .sysSreset
    · subst hne
      rw [exec_sysSreset] at h
      rw [← Host.Outcome.next.inj h]
      exact (carriesOutput_resetAll (resume s)).congr rfl rfl rfl
    · obtain ⟨hbsw, hsink, -⟩ := (exec_endFrame hne h).writer hu
      exact hs.congr hbsw hsink (sent_of_exec_even hu h hsent)

theorem sinkCarriesOutput_of_exec (hs : CarriesOutput s) (hsettled : Settled s) (hi : decode s.cmd = .ok i)
    (h : exec i s = .next t) : SinkCarriesOutput t := by
  by_cases hw : t.waiting = some .sink
  · have hne : i ≠ .sysSreset := by
      rintro rfl
      exact absurd (unit_odd_of_wait_sink h hw) (by decide)
    obtain ⟨-, hcmd, -⟩ := (exec_endFrame hne h).operands
    exact .inr ⟨s, i, hs, hsettled, by rw [hcmd]; exact hi, h, hw⟩
  · exact .inl (carriesOutput_of_exec hs h hw)

theorem sinkCarriesOutput_of_step (hs : CarriesOutput s) (h : step s = .next t) : SinkCarriesOutput t := by
  have hmoved : ∀ {r}, Moved s r → CarriesOutput r := fun hr =>
    hs.congr (hr.field State.bsw fun _ _ => rfl) (hr.field State.sink fun _ _ => rfl)
      ((hr.field State.sent fun _ _ => rfl).trans hs.1)
  rcases step_cases h with ⟨rest, -, rfl⟩ | ⟨r, hr, rfl | ⟨w, -, rfl, ⟨i, hi, hexec⟩ | rfl⟩⟩
  · exact .inl (carriesOutput_resetAll _)
  · exact .inl (hmoved hr)
  · by_cases hw : t.waiting = some .sink
    · refine sinkCarriesOutput_of_exec (s := resume r) (i := i) ((hmoved hr).congr rfl rfl (hmoved hr).1) ⟨rfl, (hmoved hr).1, rfl⟩
        hi ?_
      rw [exec_resume_encoder (unit_odd_of_wait_sink hexec hw), hexec]
    · exact .inl (carriesOutput_of_exec (hmoved hr) hexec hw)
  · exact .inl ((hmoved hr).congr rfl rfl rfl)

/-- Settles O56. -/
theorem sinkCarriesTheOutput : Obligations.SinkCarriesTheOutput := by
  intro s t hs h
  rcases hs with hs | ⟨u, i, hu, hsettled, hi, hexec, hw⟩
  · exact sinkCarriesOutput_of_step hs h
  · have hstay : step s = .next s → SinkCarriesOutput t := fun hstep => by
      rw [hstep] at h
      rw [← Host.Outcome.next.inj h]
      exact .inr ⟨u, i, hu, hsettled, hi, hexec, hw⟩
    have hcmd : s.cmd = u.cmd := by
      obtain ⟨bs, res, he, hroom, rfl⟩ := exec_wait_sink hsettled hexec hw
      rfl
    have hresume : ∀ m source host, runWord s.cmd { s with sinkRoom := m, source := source, host := host } = .next t →
        SinkCarriesOutput t := by
      intro m source host hrun
      simp only [runWord, hi] at hrun
      rw [exec_wait_sink_resumes hsettled hexec hw m source host] at hrun
      exact sinkCarriesOutput_of_exec (s := { u with sinkRoom := u.sinkRoom + m, source := source, host := host })
        (hu.congr rfl rfl hsettled.2.1) hsettled (by rw [← hi, hcmd]) hrun
    cases hhost : s.host with
    | nil => exact hstay (step_nil hhost)
    | cons m rest =>
      cases m with
      | reset =>
        rw [step_reset_move hhost] at h
        rw [← Host.Outcome.next.inj h]
        exact .inl (carriesOutput_resetAll _)
      | read o => exact hstay (step_waiting_access hw hhost (.inl ⟨o, rfl⟩))
      | write o v => exact hstay (step_waiting_access hw hhost (.inr ⟨o, v, rfl⟩))
      | answer a => exact hresume s.sinkRoom (s.source ++ [a]) rest (by rw [step_waiting_answer hw hhost] at h; exact h)
      | accept n => exact hresume (s.sinkRoom + n) s.source rest (by rw [step_waiting_accept hw hhost] at h; exact h)

end Sys2Proof.Machine
end

section
/-! SUPPORT. Operations told by the bits they write or read: what such an operation does where the bits can be written or read, where
its stream is not open, and where the stream ends. -/

namespace Sys2Proof.Machine

variable {α β E : Type} {s t : State} {v w : List Bool}

/-! ### A coder's registers beside the streams -/

namespace Slot

variable (slot : Slot E) (e : E) (s t : State)

/-- What belongs to the streams stays. -/
theorem set_field {γ : Type} (f : State → γ) (hf : ∀ s t : State, f (s.withStreams t) = f t) : f (slot.set e s) = f s := by
  rw [← hf s (slot.set e s), slot.withStreams_set]

@[simp] theorem set_bsw : (slot.set e s).bsw = s.bsw := slot.set_field e s State.bsw fun _ _ => rfl

@[simp] theorem set_sink : (slot.set e s).sink = s.sink := slot.set_field e s State.sink fun _ _ => rfl

@[simp] theorem set_sinkRoom : (slot.set e s).sinkRoom = s.sinkRoom := slot.set_field e s State.sinkRoom fun _ _ => rfl

@[simp] theorem set_sent : (slot.set e s).sent = s.sent := slot.set_field e s State.sent fun _ _ => rfl

@[simp] theorem set_bsr : (slot.set e s).bsr = s.bsr := slot.set_field e s State.bsr fun _ _ => rfl

@[simp] theorem set_source : (slot.set e s).source = s.source := slot.set_field e s State.source fun _ _ => rfl

@[simp] theorem set_data : (slot.set e s).data = s.data := slot.set_field e s State.data fun _ _ => rfl

@[simp] theorem set_res : (slot.set e s).res = s.res := slot.set_field e s State.res fun _ _ => rfl

@[simp] theorem set_host : (slot.set e s).host = s.host := slot.set_field e s State.host fun _ _ => rfl

@[simp] theorem set_params : (slot.set e s).params = s.params := by
  have h := slot.control_set e s
  simp only [State.control, Prod.mk.injEq] at h
  exact h.1

/-- An update of the streams leaves the registers. -/
theorem get_of_withStreams {s t : State} (h : s.withStreams t = t) : slot.get t = slot.get s := by
  rw [← h, slot.get_withStreams]

/-- An update of the streams that does not depend on the registers commutes with setting them. -/
theorem set_of_withStreams {s t t' : State} (h : s.withStreams t = t) (h' : (slot.set e s).withStreams t = t') :
    t' = slot.set e t := by
  rw [← h', ← slot.set_withStreams, h]

theorem appended_withStreams (w : List Bool) : s.withStreams (appended s w) = appended s w := by
  unfold appended
  split <;> rfl

theorem consumed_withStreams (n : Nat) : s.withStreams (consumed s n) = consumed s n := by
  unfold consumed
  split <;> rfl

@[simp] theorem get_appended (w : List Bool) : slot.get (appended s w) = slot.get s :=
  slot.get_of_withStreams (appended_withStreams s w)

@[simp] theorem get_consumed (n : Nat) : slot.get (consumed s n) = slot.get s :=
  slot.get_of_withStreams (consumed_withStreams s n)

@[simp] theorem get_withData (m : Memory) : slot.get (withData m s) = slot.get s :=
  slot.get_of_withStreams (s := s) (t := withData m s) rfl

theorem appended_set (w : List Bool) : appended (slot.set e s) w = slot.set e (appended s w) := by
  refine slot.set_of_withStreams e (appended_withStreams s w) ?_
  rw [← appended_withStreams (slot.set e s) w]
  simp only [appended, State.withStreams, handed, fullBuffers, set_bsw, set_sink, set_sinkRoom, set_bsr, set_source, set_data,
    set_params, set_sent, set_res, set_host]
  split <;> simp

theorem consumed_set (n : Nat) : consumed (slot.set e s) n = slot.set e (consumed s n) := by
  refine slot.set_of_withStreams e (consumed_withStreams s n) ?_
  rw [← consumed_withStreams (slot.set e s) n]
  simp only [consumed, State.withStreams, set_bsw, set_sink, set_sinkRoom, set_bsr, set_source, set_data, set_sent, set_res,
    set_host]
  split <;> simp

theorem withData_set (m : Memory) : withData m (slot.set e s) = slot.set e (withData m s) := by
  refine slot.set_of_withStreams e (s := s) (t := withData m s) rfl ?_
  simp only [State.withStreams, withData, set_bsw, set_sink, set_sinkRoom, set_bsr, set_source, set_sent, set_res, set_host]

end Slot

/-! ### Operations that read -/

/-- In `s`, the operation reads the bits `w` and answers `a`; where the stream ends inside them it ends the read; and where the reader
is not open, it raises the reader's fault at its first bit. -/
structure ReadsAt (s : State) (x : M α) (w : List Bool) (a : α) : Prop where
  ok : CanRead s w → x s = .ok a (consumed s w.length)
  ends : EndsInside s [] w → ∃ v, v <+: unread s ∧ x s = .error (.fault .endOfStream) (metEnd (consumed s v.length))
  fault : ∀ c, ReaderFault s c → w ≠ [] → x s = .error (.fault c) s

theorem not_endsInside_nil : ¬EndsInside s [] [] := fun ⟨_, _, _, h⟩ => Nat.not_lt_zero _ h

theorem readsAt_of_run {x : M α} {a : α} (h : x s = .ok a s) : ReadsAt s x [] a :=
  ⟨fun _ => h, fun h => absurd h not_endsInside_nil, fun _ _ h => absurd rfl h⟩

theorem readsAt_pure (a : α) (s : State) : ReadsAt s (pure a) [] a := readsAt_of_run rfl

theorem readsAt_getBits {n : Nat} (hn : w.length = n) (hw : w ≠ []) : ReadsAt s (getBits n) w (bitsValue w) where
  ok h := by rw [getBits_ok hn hw h, hn]
  ends h := ⟨[], List.nil_prefix, getBits_endsInside hn h⟩
  fault _ h _ := getBits_fault n h

theorem ReadsAt.look {f : State → M α} {a : α} (h : ReadsAt s (f s) w a) : ReadsAt s (look f) w a := ⟨h.ok, h.ends, h.fault⟩

/-- One read after another. -/
theorem ReadsAt.bind {x : M α} {f : α → M β} {a : α} {b : β} (hx : ReadsAt s x v a)
    (hf : CanRead s v → ReadsAt (consumed s v.length) (f a) w b) : ReadsAt s (x >>= f) (v ++ w) b where
  ok h := by
    have hv := canRead_left h
    rw [bind_ok (hx.ok hv), (hf hv).ok (canRead_right h), consumed_consumed h]
  ends h := by
    rcases h.split with hv | ⟨hv, hw⟩
    · obtain ⟨v', hv', hrun⟩ := hx.ends hv
      exact ⟨v', hv', bind_error hrun f⟩
    · obtain ⟨w', hw', hrun⟩ := (hf hv).ends hw
      rw [bind_ok (hx.ok hv), hrun]
      by_cases hnil : v = []
      · subst hnil
        exact ⟨w', hw', rfl⟩
      · obtain ⟨-, hcount, hprefix⟩ := hv.resolve_left hnil
        rw [unread_consumed hcount hprefix] at hw'
        have hboth : v ++ w' <+: unread s := by
          obtain ⟨rest, hrest⟩ := hw'
          exact ⟨rest, by rw [List.append_assoc, hrest]; exact List.prefix_iff_eq_append.1 hprefix⟩
        exact ⟨v ++ w', hboth, by rw [consumed_consumed (h.1.canRead hboth)]⟩
  fault c h hne := by
    by_cases hv : v = []
    · subst hv
      rw [bind_ok (hx.ok (.inl rfl))]
      exact (hf (.inl rfl)).fault c h hne
    · exact bind_error (hx.fault c h hv) f

theorem ReadsAt.map {x : M α} {a : α} (hx : ReadsAt s x w a) (g : α → β) : ReadsAt s (x >>= fun v => pure (g v)) w (g a) := by
  have h := hx.bind (f := fun v => Pure.pure (g v)) fun _ => readsAt_pure (g a) _
  rwa [List.append_nil] at h

/-- Bits and what is read behind them, put together. -/
theorem ReadsAt.cast {x : M α} {a b : α} (hx : ReadsAt s x v a) (hw : v = w) (hb : a = b) : ReadsAt s x w b := by rwa [← hw, ← hb]

/-- An element that reads the bits `w`, answers `a` and leaves the registers `e` in their slot. -/
structure ReadsElement (slot : Slot E) (s : State) (x : M α) (w : List Bool) (a : α) (e : E) : Prop where
  ok : CanRead s w → x s = .ok a (slot.set e (consumed s w.length))
  ends : EndsInside s [] w → ∃ t, x s = .error (.fault .endOfStream) t ∧ undo s t = metEnd s
  fault : ∀ c, ReaderFault s c → w ≠ [] → x s = .error (.fault c) s

theorem ReadsAt.element {x : M α} {a : α} (slot : Slot E) (hx : ReadsAt s x w a) : ReadsElement slot s x w a (slot.get s) where
  ok h := by
    rw [hx.ok h, ← slot.get_consumed s w.length, slot.set_get]
  ends h := by
    obtain ⟨v, hv, hrun⟩ := hx.ends h
    exact ⟨_, hrun, undo_metEnd h.1 hv⟩
  fault := hx.fault

theorem ReadsElement.map {slot : Slot E} {x : M α} {a : α} {e : E} (hx : ReadsElement slot s x w a e) (g : α → β) :
    ReadsElement slot s (g <$> x) w (g a) e where
  ok h := by rw [map_run, hx.ok h]
  ends h := by
    obtain ⟨t, hrun, ht⟩ := hx.ends h
    exact ⟨t, by rw [map_run, hrun], ht⟩
  fault c h hw := by rw [map_run, hx.fault c h hw]

/-! ### Operations that write -/

/-- In `s`, the operation writes the bits `w` and answers `a`; where the writer is not open, it raises the writer's fault. -/
structure WritesAt (s : State) (x : M α) (w : List Bool) (a : α) : Prop where
  ok : CanWrite s w → x s = .ok a (appended s w)
  fault : ∀ c, WriterFault s c → w ≠ [] → x s = .error (.fault c) s

theorem writesAt_of_run {x : M α} {a : α} (h : x s = .ok a s) : WritesAt s x [] a := ⟨fun _ => h, fun _ _ h => absurd rfl h⟩

theorem writesAt_pure (a : α) (s : State) : WritesAt s (pure a) [] a := writesAt_of_run rfl

theorem writesAt_putBits {x n : Nat} (hn : n ≠ 0) (hs : s.sent = 0) : WritesAt s (putBits x n) (bitsOf x n) () :=
  ⟨fun hw => putBits_ok hn hs hw, fun _ hf _ => putBits_fault x n hf⟩

theorem WritesAt.look {f : State → M α} {a : α} (h : WritesAt s (f s) w a) : WritesAt s (look f) w a := ⟨h.ok, h.fault⟩

/-- One write after another. -/
theorem WritesAt.bind {x : M α} {f : α → M β} {a : α} {b : β} (hx : WritesAt s x v a)
    (hf : WritesAt (appended s v) (f a) w b) : WritesAt s (x >>= f) (v ++ w) b where
  ok h := by rw [bind_ok (hx.ok (canWrite_left h)), hf.ok (canWrite_right h), appended_appended h]
  fault c h hne := by
    by_cases hv : v = []
    · subst hv
      rw [bind_ok (hx.ok (.inl rfl))]
      exact hf.fault c h hne
    · exact bind_error (hx.fault c h hv) f

theorem WritesAt.map {x : M α} {a : α} (hx : WritesAt s x w a) (g : α → β) : WritesAt s (x >>= fun v => pure (g v)) w (g a) := by
  have h := hx.bind (f := fun v => Pure.pure (g v)) (writesAt_pure (g a) _)
  rwa [List.append_nil] at h

theorem WritesAt.cast {x : M α} {a : α} (hx : WritesAt s x v a) (hw : v = w) : WritesAt s x w a := by rwa [← hw]

/-- An element that writes the bits `w` and leaves the registers `e` in their slot. -/
structure WritesElement (slot : Slot E) (s : State) (x : M Unit) (w : List Bool) (e : E) : Prop where
  ok : CanWrite s w → x s = .ok () (slot.set e (appended s w))
  fault : ∀ c, WriterFault s c → w ≠ [] → x s = .error (.fault c) s

theorem WritesAt.element {x : M Unit} (slot : Slot E) (hx : WritesAt s x w ()) : WritesElement slot s x w (slot.get s) where
  ok h := by rw [hx.ok h, ← slot.get_appended s w, slot.set_get]
  fault := hx.fault

end Sys2Proof.Machine
end

section
/-! SUPPORT. The loops of the array commands over elements told by the bits they write or read. -/

namespace Sys2Proof.Machine

variable {α β E : Type} {s t : State} {w w' : List Bool} {i start n : Nat} {p : Params} {slot : Slot E} {pre : Nat → E → E}
  {step : Nat → E → List Bool → Byte → E → Prop} {e e' : E} {bs : List Byte}

/-- A coder's steps over byte elements from index `i` on: the bits and the bytes of each in order. -/
inductive Elements (step : Nat → E → List Bool → Byte → E → Prop) : Nat → E → List Bool → List Byte → E → Prop
  | nil (i : Nat) (e : E) : Elements step i e [] [] e
  | cons {i : Nat} {e e' e'' : E} {w w' : List Bool} {b : Byte} {bs : List Byte} :
      step i e w b e' → Elements step (i + 1) e' w' bs e'' → Elements step i e (w ++ w') (b :: bs) e''

/-! ### Registers and streams -/

namespace Slot

variable (slot : Slot E) (e : E) (s : State)

theorem canWrite_set : CanWrite (slot.set e s) w ↔ CanWrite s w := by
  simp [CanWrite, WriterOpen, CountsBits, SinkTakes, fullBuffers]

theorem writerFault_set {c : FaultCode} : WriterFault (slot.set e s) c ↔ WriterFault s c := by simp [WriterFault]

theorem incoming_set : incoming (slot.set e s) = incoming s := by simp [incoming]

theorem unread_set : unread (slot.set e s) = unread s := by simp [unread, incoming]

theorem canRead_set : CanRead (slot.set e s) w ↔ CanRead s w := by simp [CanRead, ReaderOpen, unread_set]

theorem readerFault_set {c : FaultCode} : ReaderFault (slot.set e s) c ↔ ReaderFault s c := by simp [ReaderFault]

theorem endsInside_set : EndsInside (slot.set e s) w w' ↔ EndsInside s w w' := by
  simp [EndsInside, BeforeEnd, ReaderOpen, unread_set]

theorem metEnd_withStreams : s.withStreams (metEnd s) = metEnd s := by
  unfold metEnd
  split <;> rfl

theorem metEnd_set : metEnd (slot.set e s) = slot.set e (metEnd s) := by
  refine slot.set_of_withStreams e (metEnd_withStreams s) ?_
  rw [← metEnd_withStreams (slot.set e s)]
  simp only [metEnd, State.withStreams, set_bsw, set_sink, set_sinkRoom, set_bsr, set_source, set_data, set_sent, set_res,
    set_host, incoming_set]
  split <;> simp

end Slot

theorem consumed_withData (m : Memory) (s : State) (n : Nat) : consumed (withData m s) n = withData m (consumed s n) := by
  unfold consumed
  split <;> rfl

theorem metEnd_withData (m : Memory) (s : State) : metEnd (withData m s) = withData m (metEnd s) := by
  unfold metEnd
  change (if s.bsr.ended then _ else _) = _
  split <;> rfl

/-! ### ENCODE -/

/-- What an encoder's loop needs: `before` changes the coder's registers alone, and `code` writes the bits of a step. -/
structure EncodesSteps (slot : Slot E) (p : Params) (pre : Nat → E → E) (step : Nat → E → List Bool → Byte → E → Prop)
    (before : Nat → M Unit) (code : Byte → M Unit) : Prop where
  before : ∀ i s, before i s = .ok () (slot.set (pre i (slot.get s)) s)
  code : ∀ {s i e w b e'}, step i e w b e' → s.params = p → s.sent = 0 → slot.get s = pre i e →
    WritesElement slot s (code b) w e'

theorem arrayBytes_add (s : State) (a m n : Nat) : arrayBytes s a (m + n) = arrayBytes s a m ++ arrayBytes s (a + m) n := by
  simp only [arrayBytes, List.range_add, List.map_append, List.map_map, Function.comp_def, Nat.add_assoc]

theorem encodeFrom_elements {before : Nat → M Unit} {code : Byte → M Unit} (hc : EncodesSteps slot p pre step before code)
    (h : Elements step i e w bs e') (n : Nat) (he : slot.get s = e) (hp : s.params = p) (hs : s.sent = 0)
    (hbs : arrayBytes s (start + i) bs.length = bs) (hw : CanWrite s w) :
    encodeFrom before code start (bs.length + n) i s =
      encodeFrom before code start n (i + bs.length) (slot.set e' (appended s w)) := by
  induction h generalizing s with
  | nil i e =>
    subst he
    rw [appended_nil, slot.set_get, List.length_nil, Nat.zero_add, Nat.add_zero]
  | @cons i e e1 e2 v v' b bs hstep _ ih =>
    subst he
    rw [List.length_cons, arrayBytes_succ, List.cons.injEq] at hbs
    obtain ⟨hb, hbs⟩ := hbs
    have hcode := hc.code (s := slot.set (pre i (slot.get s)) s) hstep (by rwa [slot.set_params]) (by rwa [slot.set_sent])
      (slot.get_set _ _)
    have hrun := hcode.ok ((slot.canWrite_set _ _).2 (canWrite_left hw))
    rw [slot.appended_set, slot.set_set] at hrun
    have hdata : dataByte (slot.set (pre i (slot.get s)) s) (start + i) = b := by
      rw [dataByte_congr (slot.set_data _ _), hb]
    rw [List.length_cons, show bs.length + 1 + n = bs.length + n + 1 by omega,
      encodeFrom_succ (hc.before i s) (by rw [hdata]; exact hrun),
      ih (slot.get_set _ _) (by rwa [slot.set_params, appended_params]) (by rwa [slot.set_sent, appended_sent])
        (by rw [arrayBytes_congr (t := slot.set e1 (appended s v)) (s := s) (by rw [slot.set_data, appended_data])]; exact hbs)
        ((slot.canWrite_set _ _).2 (canWrite_right hw)),
      slot.appended_set, slot.set_set, appended_appended hw, show i + 1 + bs.length = i + (bs.length + 1) by omega]

/-- The whole loop, where the writer is open. -/
theorem encodeAll_elements {before : Nat → M Unit} {code : Byte → M Unit} (hc : EncodesSteps slot p pre step before code)
    (h : Elements step 0 (slot.get s) w bs e') (hp : s.params = p) (hs : s.sent = 0)
    (hbs : arrayBytes s start bs.length = bs) (hw : CanWrite s w) :
    encodeAll before code start bs.length s = .ok (BitVec.ofNat 64 bs.length) (slot.set e' (appended s w)) :=
  encodeAll_ok (encodeFrom_elements hc h 0 rfl hp hs hbs hw)

/-- What the loop does with the element behind some others. -/
theorem encodeFrom_next {before : Nat → M Unit} {code : Byte → M Unit} (hc : EncodesSteps slot p pre step before code)
    (h : Elements step 0 (slot.get s) w bs e) {b : Byte} {behind : List Byte} (hp : s.params = p) (hs : s.sent = 0)
    (hbs : arrayBytes s start n = bs ++ b :: behind) (hw : CanWrite s w) :
    encodeFrom before code start n 0 s =
      (elementAt bs.length (code b) >>= fun _ => encodeFrom before code start behind.length (bs.length + 1))
        (slot.set (pre bs.length e) (appended s w)) := by
  have hn : n = bs.length + (behind.length + 1) := by
    have := congrArg List.length hbs
    simpa using this
  have hprefix : arrayBytes s (start + 0) bs.length = bs ∧ dataByte s (start + bs.length) = b := by
    rw [hn, arrayBytes_add, arrayBytes_succ] at hbs
    obtain ⟨h1, h2⟩ := List.append_inj hbs (by simp)
    exact ⟨h1, (List.cons.inj h2).1⟩
  have hdata : dataByte (slot.set (pre bs.length e) (appended s w)) (start + bs.length) = b := by
    rw [dataByte_congr ((slot.set_data _ _).trans (appended_data s w)), hprefix.2]
  have hbefore : before bs.length (slot.set e (appended s w)) = .ok () (slot.set (pre bs.length e) (appended s w)) := by
    rw [hc.before, slot.get_set, slot.set_set]
  rw [hn, encodeFrom_elements hc h _ rfl hp hs hprefix.1 hw, Nat.zero_add, encodeFrom, bind_ok hbefore, bind_run, bind_run,
    ← hdata]
  rfl

/-- The loop where an element faults: the elements before it stay. -/
theorem encodeFrom_elementFault {before : Nat → M Unit} {code : Byte → M Unit} (hc : EncodesSteps slot p pre step before code)
    (h : Elements step 0 (slot.get s) w bs e) {b : Byte} {behind : List Byte} (hp : s.params = p) (hs : s.sent = 0)
    (hbs : arrayBytes s start n = bs ++ b :: behind) (hw : CanWrite s w) {c : FaultCode}
    (hcode : code b (slot.set (pre bs.length e) (appended s w)) = .error (.fault c) (slot.set (pre bs.length e) (appended s w))) :
    encodeFrom before code start n 0 s =
      .error (.fault c) { slot.set (pre bs.length e) (appended s w) with res := BitVec.ofNat 64 bs.length } := by
  rw [encodeFrom_next hc h hp hs hbs hw, bind_error (elementAt_fault _ hcode), undo_self]

/-- The loop up to an element that the writer refuses: the elements before it wrote nothing. -/
theorem encodeFrom_writerFault {before : Nat → M Unit} {code : Byte → M Unit} (hc : EncodesSteps slot p pre step before code)
    (h : Elements step 0 (slot.get s) [] bs e) {b : Byte} {behind : List Byte} (hstep : step bs.length e w b e') (hw : w ≠ [])
    (hp : s.params = p) (hs : s.sent = 0) (hbs : arrayBytes s start n = bs ++ b :: behind) {c : FaultCode} (hf : WriterFault s c) :
    encodeFrom before code start n 0 s =
      .error (.fault c) { slot.set (pre bs.length e) s with res := BitVec.ofNat 64 bs.length } := by
  have hcode := hc.code (s := slot.set (pre bs.length e) s) hstep (by rwa [slot.set_params]) (by rwa [slot.set_sent])
    (slot.get_set _ _)
  exact encodeFrom_elementFault hc h hp hs hbs (.inl rfl) (hcode.fault c ((slot.writerFault_set _ _).2 hf) hw)

/-! ### DECODE -/

/-- What a decoder's loop needs: `before` changes the coder's registers alone, and `code` reads the bits of a step. -/
structure DecodesSteps (slot : Slot E) (p : Params) (pre : Nat → E → E) (step : Nat → E → List Bool → Byte → E → Prop)
    (before : Nat → M Unit) (code : M (Option Byte)) : Prop where
  before : ∀ i s, before i s = .ok () (slot.set (pre i (slot.get s)) s)
  code : ∀ {s i e w b e'}, step i e w b e' → s.params = p → slot.get s = pre i e → ReadsElement slot s code w (some b) e'

/-- `s` after a DECODE's elements: the bytes `bs` stored from `a` on, and the bits `w` read. -/
def decoded (slot : Slot E) (e : E) (s : State) (w : List Bool) (a : Nat) (bs : List Byte) : State :=
  slot.set e (withData (writeBytes s.data a bs) (consumed s w.length))

theorem decodeFrom_elements {before : Nat → M Unit} {code : M (Option Byte)} (hc : DecodesSteps slot p pre step before code)
    (h : Elements step i e w bs e') (n : Nat) (he : slot.get s = e) (hp : s.params = p) (hw : CanRead s w) :
    decodeFrom before code start (bs.length + n) i s =
      decodeFrom before code start n (i + bs.length) (decoded slot e' s w (start + i) bs) := by
  induction h generalizing s with
  | nil i e =>
    subst he
    have hs : decoded slot (slot.get s) s [] (start + i) [] = s := by
      rw [decoded, List.length_nil, consumed_zero]
      exact slot.set_get s
    rw [hs, List.length_nil, Nat.zero_add, Nat.add_zero]
  | @cons i e e1 e2 v v' b bs hstep _ ih =>
    subst he
    have hcode := hc.code (s := slot.set (pre i (slot.get s)) s) hstep (by rwa [slot.set_params]) (slot.get_set _ _)
    have hrun := hcode.ok ((slot.canRead_set _ _).2 (canRead_left hw))
    rw [slot.consumed_set, slot.set_set] at hrun
    have hstore : ({ slot.set e1 (consumed s v.length) with
        data := Memory.insert (slot.set e1 (consumed s v.length)).data (start + i) b } : State) =
        slot.set e1 (withData (Memory.insert s.data (start + i) b) (consumed s v.length)) := by
      rw [slot.set_data, consumed_data, ← slot.withData_set]
      rfl
    have hread : CanRead (slot.set e1 (withData (Memory.insert s.data (start + i) b) (consumed s v.length))) v' :=
      (slot.canRead_set _ _).2 (canRead_right hw)
    have hparams : (slot.set e1 (withData (Memory.insert s.data (start + i) b) (consumed s v.length))).params = p := by
      rw [slot.set_params, ← hp]
      exact consumed_params s v.length
    rw [List.length_cons, show bs.length + 1 + n = bs.length + n + 1 by omega, decodeFrom_succ (hc.before i s) hrun, hstore,
      ih (slot.get_set _ _) hparams hread, show i + 1 + bs.length = i + (bs.length + 1) by omega, decoded, decoded, slot.set_data,
      slot.consumed_set, slot.withData_set, slot.set_set, consumed_withData, consumed_consumed hw]
    rfl

/-- The whole loop, where all its bits can be read. -/
theorem decodeAll_elements {before : Nat → M Unit} {code : M (Option Byte)} (hc : DecodesSteps slot p pre step before code)
    (h : Elements step 0 (slot.get s) w bs e') (hp : s.params = p) (hw : CanRead s w) :
    decodeAll before code start bs.length s = .ok (BitVec.ofNat 64 bs.length) (decoded slot e' s w start bs) := by
  refine decodeAll_ok ?_
  have hrun := decodeFrom_elements (start := start) hc h 0 rfl hp hw
  rwa [Nat.zero_add] at hrun

/-- What the loop does with its next element, some being left. -/
theorem decodeFrom_next {before : Nat → M Unit} {code : M (Option Byte)} (hc : DecodesSteps slot p pre step before code)
    (h : Elements step 0 (slot.get s) w bs e) (hp : s.params = p) (hw : CanRead s w) (hn : bs.length < n) :
    ∃ m, decodeFrom before code start n 0 s = decodeFrom before code start (m + 1) bs.length (decoded slot e s w start bs) ∧
      before bs.length (decoded slot e s w start bs) = .ok () (decoded slot (pre bs.length e) s w start bs) := by
  obtain ⟨m, rfl⟩ := Nat.exists_eq_add_of_lt hn
  refine ⟨m, ?_, ?_⟩
  · rw [Nat.add_assoc, decodeFrom_elements hc h _ rfl hp hw, Nat.zero_add]
    rfl
  · rw [hc.before, decoded, decoded, slot.get_set, slot.set_set]

theorem decoded_params (e : E) (s : State) (w : List Bool) (a : Nat) (bs : List Byte) :
    (decoded slot e s w a bs).params = s.params := by
  rw [decoded, slot.set_params]
  exact consumed_params s w.length

/-- The loop where the stream ends inside an element, whatever that element would answer: the bytes before it are stored. -/
theorem decodeAll_elementEnd {before : Nat → M Unit} {code : M (Option Byte)} (hc : DecodesSteps slot p pre step before code)
    (h : Elements step 0 (slot.get s) w bs e) (hp : s.params = p) (hend : EndsInside s w w') (hn : bs.length < n) {a : Option Byte}
    (hcode : ReadsElement slot (decoded slot (pre bs.length e) s w start bs) code w' a e') :
    decodeAll before code start n s = .ok (BitVec.ofNat 64 bs.length)
      { slot.set (pre bs.length e) (withData (writeBytes s.data start bs) (metEnd (consumed s w.length))) with
        res := BitVec.ofNat 64 bs.length } := by
  obtain ⟨hread, hend⟩ := hend.right
  obtain ⟨m, hrun, hbefore⟩ := decodeFrom_next (start := start) hc h hp hread hn
  obtain ⟨t, hcode, ht⟩ := hcode.ends ((slot.endsInside_set _ _).2 hend)
  refine decodeAll_ok ?_
  rw [hrun, decodeFrom_end hbefore hcode, ht, decoded, slot.metEnd_set, metEnd_withData]

theorem decodeAll_end {before : Nat → M Unit} {code : M (Option Byte)} (hc : DecodesSteps slot p pre step before code)
    (h : Elements step 0 (slot.get s) w bs e) {b : Byte} (hstep : step bs.length e w' b e') (hp : s.params = p)
    (hend : EndsInside s w w') (hn : bs.length < n) :
    decodeAll before code start n s = .ok (BitVec.ofNat 64 bs.length)
      { slot.set (pre bs.length e) (withData (writeBytes s.data start bs) (metEnd (consumed s w.length))) with
        res := BitVec.ofNat 64 bs.length } :=
  decodeAll_elementEnd hc h hp hend hn (hc.code hstep ((decoded_params _ _ _ _ _).trans hp) (slot.get_set _ _))

/-- The loop where an element answers no byte: the bytes before it are stored. -/
theorem decodeAll_none {before : Nat → M Unit} {code : M (Option Byte)} (hc : DecodesSteps slot p pre step before code)
    (h : Elements step 0 (slot.get s) w bs e) (hp : s.params = p) (hw : CanRead s (w ++ w')) (hn : bs.length < n)
    (hcode : ReadsElement slot (decoded slot (pre bs.length e) s w start bs) code w' none e') :
    decodeAll before code start n s = .ok (BitVec.ofNat 64 bs.length) (decoded slot e' s (w ++ w') start bs) := by
  obtain ⟨m, hrun, hbefore⟩ := decodeFrom_next (start := start) hc h hp (canRead_left hw) hn
  have hnone := hcode.ok ((slot.canRead_set _ _).2 (canRead_right hw))
  refine decodeAll_ok ?_
  rw [hrun, decodeFrom_none hbefore hnone, decoded, slot.consumed_set, slot.set_set, consumed_withData, consumed_consumed hw]
  rfl

/-- The loop where an element faults: the elements before it stay. -/
theorem decodeAll_fault {before : Nat → M Unit} {code : M (Option Byte)} (hc : DecodesSteps slot p pre step before code)
    (h : Elements step 0 (slot.get s) w bs e) (hp : s.params = p) (hw : CanRead s w) (hn : bs.length < n) {c : FaultCode}
    (hcode : code (decoded slot (pre bs.length e) s w start bs) = .error (.fault c) t) (hne : c ≠ .endOfStream) :
    decodeAll before code start n s = .error (.fault c)
      { undo (decoded slot (pre bs.length e) s w start bs) t with res := BitVec.ofNat 64 bs.length } := by
  obtain ⟨m, hrun, hbefore⟩ := decodeFrom_next (start := start) hc h hp hw hn
  rw [decodeAll, bind_error (hrun.trans (decodeFrom_fault hbefore hcode hne))]

/-- The loop where the reader is not open, at an element that reads: the bytes before it are stored. -/
theorem decodeAll_elementFault {before : Nat → M Unit} {code : M (Option Byte)} (hc : DecodesSteps slot p pre step before code)
    (h : Elements step 0 (slot.get s) [] bs e) (hw : w ≠ []) (hp : s.params = p) {c : FaultCode} (hf : ReaderFault s c)
    (hn : bs.length < n) {a : Option Byte} (hcode : ReadsElement slot (decoded slot (pre bs.length e) s [] start bs) code w a e') :
    decodeAll before code start n s = .error (.fault c)
      { slot.set (pre bs.length e) (withData (writeBytes s.data start bs) s) with res := BitVec.ofNat 64 bs.length } := by
  have hfault := hcode.fault c ((slot.readerFault_set _ _).2 hf) hw
  have hne : c ≠ .endOfStream := by
    rcases hf with ⟨-, rfl⟩ | ⟨-, -, rfl⟩ <;> decide
  rw [decodeAll_fault hc h hp (.inl rfl) hn hfault hne, undo_self]
  rfl

theorem decodeAll_readerFault {before : Nat → M Unit} {code : M (Option Byte)} (hc : DecodesSteps slot p pre step before code)
    (h : Elements step 0 (slot.get s) [] bs e) {b : Byte} (hstep : step bs.length e w b e') (hw : w ≠ []) (hp : s.params = p)
    {c : FaultCode} (hf : ReaderFault s c) (hn : bs.length < n) :
    decodeAll before code start n s = .error (.fault c)
      { slot.set (pre bs.length e) (withData (writeBytes s.data start bs) s) with res := BitVec.ofNat 64 bs.length } :=
  decodeAll_elementFault hc h hw hp hf hn (hc.code hstep ((decoded_params _ _ _ _ _).trans hp) (slot.get_set _ _))

end Sys2Proof.Machine
end

section
/-! SUPPORT. Commands over elements told by the bits they write or read (40_system R158, R160 to R163; 60_exceptions R402, R404,
R405). -/

namespace Sys2Proof.Machine

variable {α E : Type} {s t : State} {i : Instr} {u : CoderState} {w w' : List Bool} {p : Params} {slot : Slot E}
  {pre : Nat → E → E} {step : Nat → E → List Bool → Byte → E → Prop} {e e' : E} {c : FaultCode} {body : Nat → Nat → M Word64}
  {before : Nat → M Unit}

theorem argByte_eq (s : State) : argByte s = s.arg0.setWidth 8 := (BitVec.setWidth_eq_extractLsb' (by decide)).symm

/-- A byte or bit command whose element faults before it changes anything. -/
theorem command_fault_at_start {x : M α} {f : α → M Word64} (hs : Settled s) (hu : u = .ready) (hc : c ≠ .rangeDegenerate)
    (h : x s = .error (.fault c) s) : command i (onReady u (element x >>= f)) s = .next (raiseFault i.unit i.op c s) := by
  subst hu
  refine command_fault hs hc (bind_error ?_ _)
  rw [element_fault h, undo_self]

/-! ### Encoders -/

/-- A byte or bit command of an encoder, where the bits can be written. -/
theorem command_write_ok {x : M Unit} (hs : Settled s) (hu : u = .ready) (hx : WritesElement slot s x w e) (hw : CanWrite s w) :
    command i (onReady u do
      element x
      pure 0) s = .next (complete i.unit i.op 0 (slot.set e (appended s w))) := by
  subst hu
  exact command_ok hs (bind_ok (element_ok (hx.ok hw)) _)

/-- A byte or bit command of an encoder whose writer is not open. -/
theorem command_write_fault {x : M Unit} (hs : Settled s) (hu : u = .ready) (hx : WritesElement slot s x w e)
    (hf : WriterFault s c) (hw : w ≠ []) :
    command i (onReady u do
      element x
      pure 0) s = .next (raiseFault i.unit i.op c s) :=
  command_fault_at_start hs hu (WriterFault.ne_rangeDegenerate hf) (hx.fault c hf hw)

theorem command_array (hu : u = .ready) (hv : descriptorValid s) (hs : Settled s) :
    command i (onArray u body) s = command i (body (arrayStart s) (arrayLength s)) s := by
  subst hu
  rw [command, command, resume_settled hs, onArray_ready body hv]

/-- An ENCODE, where the bits can be written. -/
theorem command_encode_ok {code : Byte → M Unit} (hs : Settled s) (hu : u = .ready)
    (hv : descriptorValid s) (hc : EncodesSteps slot s.params pre step before code)
    (h : Elements step 0 (slot.get s) w (arrayBytes s (arrayStart s) (arrayLength s)) e) (hw : CanWrite s w)
    (hbody : body (arrayStart s) (arrayLength s) = encodeAll before code (arrayStart s) (arrayLength s) := by rfl) :
    command i (onArray u body) s =
      .next (complete i.unit i.op (BitVec.ofNat 64 (arrayLength s)) (slot.set e (appended s w))) := by
  have ⟨_, hsent, _⟩ := hs
  have hrun := encodeAll_elements (start := arrayStart s) hc h rfl hsent (by rw [length_arrayBytes]) hw
  rw [length_arrayBytes] at hrun
  rw [command_array hu hv hs, hbody]
  exact command_ok hs hrun

/-- An ENCODE whose writer is not open: the elements that write nothing are encoded. -/
theorem command_encode_fault {code : Byte → M Unit} (hs : Settled s) (hu : u = .ready)
    (hv : descriptorValid s) (hc : EncodesSteps slot s.params pre step before code) {bs behind : List Byte} {b : Byte}
    (hbs : arrayBytes s (arrayStart s) (arrayLength s) = bs ++ b :: behind) (h : Elements step 0 (slot.get s) [] bs e)
    (hstep : step bs.length e w b e') (hw : w ≠ []) (hf : WriterFault s c)
    (hbody : body (arrayStart s) (arrayLength s) = encodeAll before code (arrayStart s) (arrayLength s) := by rfl) :
    command i (onArray u body) s =
      .next (raiseFault i.unit i.op c { slot.set (pre bs.length e) s with res := BitVec.ofNat 64 bs.length }) := by
  have ⟨_, hsent, _⟩ := hs
  rw [command_array hu hv hs, hbody]
  exact command_fault hs (WriterFault.ne_rangeDegenerate hf)
    (bind_error (encodeFrom_writerFault hc h hstep hw rfl hsent hbs hf) _)

/-! ### Decoders -/

/-- A byte or bit command of a decoder, where the bits can be read. -/
theorem command_read_ok {x : M α} {a : α} {g : α → Word64} (hs : Settled s) (hu : u = .ready) (hx : ReadsElement slot s x w a e)
    (hw : CanRead s w) :
    command i (onReady u (element x >>= fun v => pure (g v))) s =
      .next (complete i.unit i.op (g a) (slot.set e (consumed s w.length))) := by
  subst hu
  exact command_ok hs (bind_ok (element_ok (hx.ok hw)) _)

/-- A byte or bit command of a decoder whose stream ends inside the bits. -/
theorem command_read_end {x : M α} {a : α} {g : α → Word64} (hs : Settled s) (hu : u = .ready) (hx : ReadsElement slot s x w a e)
    (hend : EndsInside s [] w) :
    command i (onReady u (element x >>= fun v => pure (g v))) s = .next (raiseFault i.unit i.op .endOfStream (metEnd s)) := by
  subst hu
  obtain ⟨t, hrun, ht⟩ := hx.ends hend
  refine command_fault hs (by decide) (bind_error ?_ _)
  rw [element_fault hrun, ht]

/-- A byte or bit command of a decoder whose reader is not open. -/
theorem command_read_fault {x : M α} {a : α} {g : α → Word64} (hs : Settled s) (hu : u = .ready) (hx : ReadsElement slot s x w a e)
    (hf : ReaderFault s c) (hw : w ≠ []) :
    command i (onReady u (element x >>= fun v => pure (g v))) s = .next (raiseFault i.unit i.op c s) :=
  command_fault_at_start hs hu (ReaderFault.ne_rangeDegenerate hf) (hx.fault c hf hw)

/-- A DECODE, where the bits of all its bytes can be read. -/
theorem command_decode_ok {code : M (Option Byte)} (hs : Settled s) (hu : u = .ready)
    (hv : descriptorValid s) (hc : DecodesSteps slot s.params pre step before code) {bs : List Byte}
    (h : Elements step 0 (slot.get s) w bs e) (hn : bs.length = arrayLength s) (hw : CanRead s w)
    (hbody : body (arrayStart s) (arrayLength s) = decodeAll before code (arrayStart s) (arrayLength s) := by rfl) :
    command i (onArray u body) s =
      .next (complete i.unit i.op (BitVec.ofNat 64 bs.length) (decoded slot e s w (arrayStart s) bs)) := by
  have hrun := decodeAll_elements (start := arrayStart s) hc h rfl hw
  rw [command_array hu hv hs, hbody]
  rw [hn] at hrun ⊢
  exact command_ok hs hrun

/-- A DECODE whose stream ends inside an element. -/
theorem command_decode_end {code : M (Option Byte)} (hs : Settled s) (hu : u = .ready)
    (hv : descriptorValid s) (hc : DecodesSteps slot s.params pre step before code) {bs : List Byte} {b : Byte}
    (h : Elements step 0 (slot.get s) w bs e) (hstep : step bs.length e w' b e') (hn : bs.length < arrayLength s)
    (hend : EndsInside s w w')
    (hbody : body (arrayStart s) (arrayLength s) = decodeAll before code (arrayStart s) (arrayLength s) := by rfl) :
    command i (onArray u body) s =
      .next (complete i.unit i.op (BitVec.ofNat 64 bs.length)
        (slot.set (pre bs.length e) (withData (writeBytes s.data (arrayStart s) bs) (metEnd (consumed s w.length))))) := by
  rw [command_array hu hv hs, hbody]
  exact (command_ok hs (decodeAll_end hc h hstep rfl hend hn)).trans rfl

/-- A DECODE whose reader is not open: the elements that read nothing are decoded. -/
theorem command_decode_fault {code : M (Option Byte)} (hs : Settled s) (hu : u = .ready)
    (hv : descriptorValid s) (hc : DecodesSteps slot s.params pre step before code) {bs : List Byte} {b : Byte}
    (h : Elements step 0 (slot.get s) [] bs e) (hstep : step bs.length e w b e') (hw : w ≠ []) (hn : bs.length < arrayLength s)
    (hf : ReaderFault s c)
    (hbody : body (arrayStart s) (arrayLength s) = decodeAll before code (arrayStart s) (arrayLength s) := by rfl) :
    command i (onArray u body) s =
      .next (raiseFault i.unit i.op c
        { slot.set (pre bs.length e) (withData (writeBytes s.data (arrayStart s) bs) s) with res := BitVec.ofNat 64 bs.length }) := by
  rw [command_array hu hv hs, hbody]
  exact command_fault hs (ReaderFault.ne_rangeDegenerate hf) (decodeAll_readerFault hc h hstep hw rfl hf hn)

/-! ### Elements that set their coder's registers -/

/-- An encoder's element: its steps from the registers, which they then replace. -/
theorem writesElement_set {code : E → M E} (h : WritesAt s (code (slot.get s)) w e) :
    WritesElement slot s (look fun s => do
      let e ← code (slot.get s)
      update fun s => slot.set e s) w e where
  ok hw := by
    rw [look_run, bind_ok (h.ok hw)]
    rfl
  fault c hf hw := bind_error (h.fault c hf hw) _

/-- A decoder's element: its steps from the registers, which they then replace. -/
theorem readsElement_set {code : E → M (α × E)} {a : α} (h : ReadsAt s (code (slot.get s)) w (a, e)) :
    ReadsElement slot s (look fun s => do
      let (v, d) ← code (slot.get s)
      update fun s => slot.set d s
      pure v) w a e where
  ok hw := by
    rw [look_run, bind_ok (h.ok hw)]
    rfl
  ends he := by
    obtain ⟨v, hv, hrun⟩ := h.ends he
    exact ⟨_, bind_error hrun _, undo_metEnd he.1 hv⟩
  fault c hf hw := bind_error (h.fault c hf hw) _

theorem noChunk_before (slot : Slot E) (k : Nat) (s : State) : noChunk k s = .ok () (slot.set (slot.get s) s) := by
  rw [noChunk_run, slot.set_get]

end Sys2Proof.Machine
end

section
/-! SUPPORT. The binary coders' operations and loops by the bits they write or read (42_binary_coder; 43_fpaq). -/

namespace Sys2Proof.Machine

variable {α β E : Type} {s t : State} {w : List Bool} {low high cur low' high' cur' : BitVec 32} {e e' : BinaryEncoder}
  {d d' : BinaryDecoder} {bits : List Bool} {out used : List Byte} {bs : List Byte} {p : Params} {c : FaultCode}
  {code : Byte → List Bool}

/-- An operation that does in `s` what another does. -/
theorem ReadsAt.of_eq {x y : M α} {a : α} (h : ReadsAt s x w a) (he : y s = x s) : ReadsAt s y w a :=
  ⟨fun hw => he.trans (h.ok hw), fun hw => by rw [he]; exact h.ends hw, fun c hf hw => he.trans (h.fault c hf hw)⟩

theorem WritesAt.of_eq {x y : M α} {a : α} (h : WritesAt s x w a) (he : y s = x s) : WritesAt s y w a :=
  ⟨fun hw => he.trans (h.ok hw), fun c hf hw => he.trans (h.fault c hf hw)⟩

/-! ### The encoder -/

theorem writesAt_renormalize (h : Settles low high out low' high') {k : Nat} (hk : out.length ≤ k) (hs : s.sent = 0) :
    WritesAt s (renormalize shiftOut k low high ()) (bytesBits out) (low', high', ()) where
  ok := renormalize_out h hk hs
  fault c hf hne := by
    cases h with
    | done => exact absurd rfl hne
    | shift _ _ out _ _ hagree _ =>
      obtain ⟨k, rfl⟩ : ∃ j, k = j + 1 := ⟨k - 1, by simp at hk; omega⟩
      have hshift : shiftOut high () s = .error (.fault c) s := putBits_fault _ _ hf
      rw [renormalize, if_pos (topAgrees_iff.2 hagree)]
      exact bind_error hshift _

theorem writesAt_encodeBits (h : CodedBits e bits out e') (hs : s.sent = 0) :
    WritesAt s (encodeBits e bits) (bytesBits out) e' := by
  induction h generalizing s with
  | nil e => exact writesAt_pure e s
  | zero e e' bits out out' low high hset _ ih =>
    rw [bytesBits_append, encodeBits]
    exact ((writesAt_renormalize hset hset.length_le hs).map _).bind (ih (by rwa [appended_sent]))
  | one e e' bits out out' low high hset _ ih =>
    rw [bytesBits_append, encodeBits]
    exact ((writesAt_renormalize hset hset.length_le hs).map _).bind (ih (by rwa [appended_sent]))

theorem writesAt_encodeBit {b : Bool} (h : CodedBits e [b] out e') (hs : s.sent = 0) :
    WritesAt s (encodeBit e b) (bytesBits out) e' :=
  (writesAt_encodeBits h hs).of_eq (encodeBits_singleton e b s).symm

theorem writesAt_encodeByte {v : Byte} (h : CodedBits e (byteBits v) out e') (hs : s.sent = 0) :
    WritesAt s (encodeByte e v) (bytesBits out) e' := writesAt_encodeBits h hs

theorem writesAt_fpEncodeByte {v : Byte} (h : CodedBits e (false :: byteBits v) out e') (hs : s.sent = 0) :
    WritesAt s (fpEncodeByte e v) (bytesBits out) e' := writesAt_encodeBits h hs

/-- A coder's step over one byte, whose bits `code` gives. -/
def codedStep (code : Byte → List Bool) (_ : Nat) (e : BinaryEncoder) (w : List Bool) (b : Byte) (e' : BinaryEncoder) : Prop :=
  ∃ out, w = bytesBits out ∧ CodedBits e (code b) out e'

theorem CodedBits.elements (h : CodedBits e (bs.flatMap code) out e') (i : Nat) :
    Elements (codedStep code) i e (bytesBits out) bs e' := by
  induction bs generalizing e out i with
  | nil =>
    cases h
    exact .nil i _
  | cons b bs ih =>
    rw [List.flatMap_cons] at h
    obtain ⟨o1, e1, o2, h1, h2, rfl⟩ := h.split
    rw [bytesBits_append]
    exact .cons ⟨o1, rfl, h1⟩ (ih h2 (i + 1))

/-- No change of registers before an element. -/
def noPre {E : Type} (_ : Nat) (e : E) : E := e

theorem encodesSteps_bee : EncodesSteps beeSlot p noPre (codedStep byteBits) noChunk fun v => beeElement fun e => encodeByte e v where
  before i s := noChunk_before beeSlot i s
  code := by
    rintro s i e _ b e' ⟨out, rfl, h⟩ - hs rfl
    exact writesElement_set (slot := beeSlot) (code := fun e => encodeByte e b) (writesAt_encodeByte h hs)

theorem encodesSteps_fpe :
    EncodesSteps fpeSlot p noPre (codedStep fun b => false :: byteBits b) noChunk fun v => fpeElement fun e => fpEncodeByte e v where
  before i s := noChunk_before fpeSlot i s
  code := by
    rintro s i e _ b e' ⟨out, rfl, h⟩ - hs rfl
    exact writesElement_set (slot := fpeSlot) (code := fun e => fpEncodeByte e b) (writesAt_fpEncodeByte h hs)

/-- Every interval settles, after at most four shifts (42_binary_coder R228), so every bit sequence can be coded. -/
theorem CodedBits.exists (e : BinaryEncoder) (bits : List Bool) :
    ∃ out e', CodedBits e bits out e' ∧ out.length ≤ 4 * bits.length := by
  induction bits generalizing e with
  | nil => exact ⟨[], e, .nil e, Nat.le_refl _⟩
  | cons b bits ih =>
    cases b with
    | false =>
      obtain ⟨out, low, high, hset⟩ := Settles.exists (splitPoint e.low e.high e.pred.probability + 1) e.high
      obtain ⟨out', e', hcoded, hlen⟩ := ih { e with low := low, high := high, pred := e.pred.update false }
      refine ⟨out ++ out', e', .zero _ _ _ _ _ _ _ hset hcoded, ?_⟩
      have := hset.length_le
      rw [List.length_append, List.length_cons]
      omega
    | true =>
      obtain ⟨out, low, high, hset⟩ := Settles.exists e.low (splitPoint e.low e.high e.pred.probability)
      obtain ⟨out', e', hcoded, hlen⟩ := ih { e with low := low, high := high, pred := e.pred.update true }
      refine ⟨out ++ out', e', .one _ _ _ _ _ _ _ hset hcoded, ?_⟩
      have := hset.length_le
      rw [List.length_append, List.length_cons]
      omega

theorem bytesBits_ne_nil (h : out ≠ []) : bytesBits out ≠ [] := by rwa [ne_eq, bytesBits_eq_nil]

/-- Settles O34: each operation of the coder is told by the bytes that leave the interval, and the loops by their elements. -/
theorem binaryEncode : Obligations.BinaryEncode := by
  unfold Obligations.BinaryEncode
  refine ⟨CodedBits.exists, ?_, ?_, ?_⟩
  · intro s out e' hs hu hw
    have ⟨_, hsent, _⟩ := hs
    refine ⟨fun h => ?_, fun h => ?_, fun hv h => ?_⟩
    · exact command_write_ok hs hu (writesElement_set (slot := beeSlot) (code := fun e => encodeBit e (argBit s))
        (writesAt_encodeBit h hsent)) hw
    · exact command_write_ok hs hu (writesElement_set (slot := beeSlot) (code := fun e => encodeByte e (argByte s))
        (writesAt_encodeByte (by rwa [argByte_eq]) hsent)) hw
    · exact command_encode_ok hs hu hv encodesSteps_bee (h.elements 0) hw
  · intro s out e' hs hu hw
    have ⟨_, hsent, _⟩ := hs
    refine ⟨fun h => ?_, fun hv h => ?_⟩
    · exact command_write_ok hs hu (writesElement_set (slot := fpeSlot) (code := fun e => fpEncodeByte e (argByte s))
        (writesAt_fpEncodeByte (by rw [argByte_eq]; exact h) hsent)) hw
    · exact command_encode_ok hs hu hv encodesSteps_fpe (h.elements 0) hw
  · intro s c out e e' hs hf hne
    have ⟨_, hsent, _⟩ := hs
    refine ⟨fun hu => ⟨fun h => ?_, fun h => ?_, fun before b behind hv hbs hbefore h => ?_⟩,
      fun hu => ⟨fun h => ?_, fun before b behind hv hbs hbefore h => ?_⟩⟩
    · exact command_write_fault hs hu (writesElement_set (slot := beeSlot) (code := fun e => encodeBit e (argBit s))
        (writesAt_encodeBit h hsent)) hf (bytesBits_ne_nil hne)
    · exact command_write_fault hs hu (writesElement_set (slot := beeSlot) (code := fun e => encodeByte e (argByte s))
        (writesAt_encodeByte (by rwa [argByte_eq]) hsent)) hf (bytesBits_ne_nil hne)
    · exact command_encode_fault hs hu hv encodesSteps_bee hbs (hbefore.elements 0) ⟨out, rfl, h⟩ (bytesBits_ne_nil hne) hf
    · exact command_write_fault hs hu (writesElement_set (slot := fpeSlot) (code := fun e => fpEncodeByte e (argByte s))
        (writesAt_fpEncodeByte (by rw [argByte_eq]; exact h) hsent)) hf (bytesBits_ne_nil hne)
    · exact command_encode_fault hs hu hv encodesSteps_fpe hbs (hbefore.elements 0) ⟨out, rfl, h⟩ (bytesBits_ne_nil hne) hf

end Sys2Proof.Machine
end

section
/-! SUPPORT. The binary decoders' operations and loops by the bits they read (42_binary_coder R236 to R240; 43_fpaq R266 to R270). -/

namespace Sys2Proof.Machine

variable {α β E : Type} {s t : State} {w w' : List Bool} {low high cur low' high' cur' : BitVec 32}
  {d d' d'' : BinaryDecoder} {bits : List Bool} {used used' : List Byte} {bs : List Byte} {p : Params} {c : FaultCode}
  {code : Byte → List Bool} {start n i : Nat}

/-- The answer of an operation is what its success says. -/
theorem ReadsAt.answer {x : M α} {a b : α} (h : ReadsAt s x w a) (hb : CanRead s w → x s = .ok b (consumed s w.length)) :
    ReadsAt s x w b := ⟨hb, h.ends, h.fault⟩

theorem byteBits_ne_nil (b : Byte) : byteBits b ≠ [] := by simp [byteBits, bitsOf_eq_nil]

/-! ### The decoder's steps -/

theorem readsAt_shiftIn (high cur : BitVec 32) (b : Byte) :
    ReadsAt s (shiftIn high cur) (byteBits b) ((cur <<< 8) ||| b.setWidth 32) :=
  ((readsAt_getBits (length_byteBits b) (byteBits_ne_nil b)).map _).cast rfl
    (by rw [bitsValue_byteBits, BitVec.ofNat_toNat])

theorem readsAt_renormalize (h : Refills low high cur used low' high' cur') {k : Nat} (hk : used.length ≤ k) :
    ReadsAt s (renormalize shiftIn k low high cur) (bytesBits used) (low', high', cur') := by
  induction h generalizing s k with
  | done low high cur h =>
    refine readsAt_of_run ?_
    cases k with
    | zero => rfl
    | succ k => rw [renormalize, if_neg (by rw [topAgrees_false.2 h]; decide), pure_run]
  | shift low high cur b used low' high' cur' h _ ih =>
    obtain ⟨k, rfl⟩ : ∃ j, k = j + 1 := ⟨k - 1, by simp at hk; omega⟩
    rw [bytesBits_cons, renormalize, if_pos (topAgrees_iff.2 h)]
    exact (readsAt_shiftIn high cur b).bind fun _ => ih (Nat.le_of_succ_le_succ hk)

theorem readsAt_seedDecoder {b3 b2 b1 b0 : Byte} (hd : d.seeded = false) :
    ReadsAt s (seedDecoder d) (bytesBits [b3, b2, b1, b0]) { d with current := b3 ++ b2 ++ b1 ++ b0, seeded := true } := by
  have hread := (readsAt_getBits (s := s) (w := bytesBits [b3, b2, b1, b0]) (n := 32) (by simp) (bytesBits_ne_nil (by simp))).map
    fun v => { d with current := BitVec.ofNat 32 v, seeded := true }
  refine (hread.of_eq ?_).answer (seed_ok hd)
  rw [seedDecoder, if_neg (by rw [hd]; decide)]

theorem seedDecoder_seeded_of_ok {d1 : BinaryDecoder} (h : seedDecoder d s = .ok d1 t) : d1.seeded = true := by
  rw [seedDecoder] at h
  split at h
  · cases h
    assumption
  · obtain ⟨v, r, -, h⟩ := bind_eq_ok.1 h
    cases h
    rfl

/-- A step of any decoder is its seed and then a step of the seeded one. -/
theorem decodeBit_seedDecoder (d : BinaryDecoder) (s : State) : decodeBit d s = (seedDecoder d >>= decodeBit) s := by
  cases h : seedDecoder d s with
  | ok d1 t => rw [bind_ok h, decodeBit_seed h (seedDecoder_seeded_of_ok h)]
  | error c t => rw [bind_error h, decodeBit, bind_error h]

/-- The step for one bit of a seeded decoder, from the comparison with the split point. -/
theorem readsAt_decodeBit_step {bit : Bool} (hs : d.seeded = true)
    (hbit : decide (d.current ≤ splitPoint d.low d.high d.pred.probability) = bit)
    (h : Refills (stepLow d.low (splitPoint d.low d.high d.pred.probability) bit)
      (stepHigh d.high (splitPoint d.low d.high d.pred.probability) bit) d.current used low high cur) :
    ReadsAt s (decodeBit d) (bytesBits used)
      (bit, { d with low := low, high := high, current := cur, pred := d.pred.update bit }) := by
  have hread := (readsAt_renormalize (s := s) h h.length_le).map fun r =>
    (bit, { d with low := r.1, high := r.2.1, current := r.2.2, pred := d.pred.update bit })
  refine hread.of_eq ?_
  rw [decodeBit, bind_ok (seedDecoder_seeded hs s), ← hbit]

theorem readsAt_decodeBit_seeded {b : Bool} (hs : d.seeded = true) (h : DecodedBits d used [b] d') :
    ReadsAt s (decodeBit d) (bytesBits used) (b, d') := by
  cases h with
  | seed _ _ _ _ _ _ _ _ _ hd => exact absurd (hs.symm.trans hd) (by decide)
  | zero _ _ used _ _ low high current _ hlt hre hnil =>
    cases hnil
    rw [List.append_nil]
    refine readsAt_decodeBit_step hs ?_ hre
    rw [decide_eq_false_iff_not, BitVec.not_le]
    exact hlt
  | one _ _ used _ _ low high current _ hle hre hnil =>
    cases hnil
    rw [List.append_nil]
    exact readsAt_decodeBit_step hs (decide_eq_true hle) hre

theorem readsAt_decodeBit {b : Bool} (h : DecodedBits d used [b] d') : ReadsAt s (decodeBit d) (bytesBits used) (b, d') := by
  by_cases hs : d.seeded = true
  · exact readsAt_decodeBit_seeded hs h
  · cases h with
    | seed _ _ b3 b2 b1 b0 used _ _ hd h =>
      rw [show b3 :: b2 :: b1 :: b0 :: used = [b3, b2, b1, b0] ++ used from rfl, bytesBits_append]
      exact ((readsAt_seedDecoder hd).bind fun _ => readsAt_decodeBit_seeded rfl h).of_eq (decodeBit_seedDecoder d s)
    | zero _ _ _ _ _ _ _ _ h => exact absurd h hs
    | one _ _ _ _ _ _ _ _ h => exact absurd h hs

theorem readsAt_decodeBits (h : DecodedBits d used bits d') (v : Nat) :
    ReadsAt s (decodeBits d bits.length v) (bytesBits used) (v * 2 ^ bits.length + bitsValue bits, d') := by
  induction bits generalizing d used s v with
  | nil =>
    cases h
    exact (readsAt_pure _ s).cast rfl (by simp)
  | cons b bits ih =>
    obtain ⟨u1, d1, u2, h1, h2, rfl⟩ := DecodedBits.split (as := [b]) h
    rw [bytesBits_append, List.length_cons, decodeBits]
    refine ((readsAt_decodeBit h1).bind fun _ => ih h2 (2 * v + b.toNat)).cast rfl ?_
    rw [bitsValue_cons, pow_succ]
    congr 1
    ring

theorem readsAt_decodeByte {b : Byte} (h : DecodedBits d used (byteBits b) d') :
    ReadsAt s (decodeByte d) (bytesBits used) (b, d') := by
  have hread := readsAt_decodeBits (s := s) h 0
  rw [length_byteBits] at hread
  refine (hread.map _).cast rfl ?_
  simp [bitsValue_byteBits]

/-! ### Elements of BED and FPD -/

theorem readsElement_bedBit {b : Bool} (h : DecodedBits s.bed used [b] d') :
    ReadsElement bedSlot s (bedElement decodeBit) (bytesBits used) b d' :=
  readsElement_set (slot := bedSlot) (readsAt_decodeBit h)

theorem readsElement_bedByte {b : Byte} (h : DecodedBits s.bed used (byteBits b) d') :
    ReadsElement bedSlot s (bedElement decodeByte) (bytesBits used) b d' :=
  readsElement_set (slot := bedSlot) (readsAt_decodeByte h)

theorem readsElement_fpdBit {b : Bool} (h : DecodedBits s.fpd used [b] d') :
    ReadsElement fpdSlot s (fpdElement decodeBit) (bytesBits used) b d' :=
  readsElement_set (slot := fpdSlot) (readsAt_decodeBit h)

theorem readsElement_fpdByte {b : Byte} (h : DecodedBits s.fpd used (byteBits b) d') :
    ReadsElement fpdSlot s (fpdElement decodeByte) (bytesBits used) b d' :=
  readsElement_set (slot := fpdSlot) (readsAt_decodeByte h)

/-- A decoder's step over one byte. -/
def decodedStep (_ : Nat) (d : BinaryDecoder) (w : List Bool) (b : Byte) (d' : BinaryDecoder) : Prop :=
  ∃ used, w = bytesBits used ∧ DecodedBits d used (byteBits b) d'

theorem DecodedBits.elements (h : DecodedBits d used (bytesBits bs) d') (i : Nat) :
    Elements decodedStep i d (bytesBits used) bs d' := by
  induction bs generalizing d used i with
  | nil =>
    cases h
    exact .nil i _
  | cons b bs ih =>
    rw [bytesBits_cons] at h
    obtain ⟨u1, d1, u2, h1, h2, rfl⟩ := h.split
    rw [bytesBits_append]
    exact .cons ⟨u1, rfl, h1⟩ (ih h2 (i + 1))

theorem decodesSteps_bed : DecodesSteps bedSlot p noPre decodedStep noChunk (some <$> bedElement decodeByte) where
  before i s := noChunk_before bedSlot i s
  code := by
    rintro s i d _ b d' ⟨used, rfl, h⟩ - rfl
    exact (readsElement_bedByte h).map some

/-! ### The loop of FPD.DECODE -/

/-- A continue bit that ends the loop. -/
theorem fpDecodeFrom_bit_stop {r : Option Bool} (h : elementOrEnd i (fpdElement decodeBit) s = .ok r t)
    (hr : r ≠ some false ∨ n = 0) : fpDecodeFrom start n i s = .ok i t := by
  cases n with
  | zero =>
    rw [fpDecodeFrom]
    exact bind_ok h _
  | succ n =>
    rw [fpDecodeFrom, bind_ok h]
    match r, hr with
    | none, _ => rfl
    | some true, _ => rfl
    | some false, hr => exact absurd rfl (hr.resolve_right (Nat.succ_ne_zero n))

theorem fpDecodeFrom_bit_error {x : Stop} (h : elementOrEnd i (fpdElement decodeBit) s = .error x t) :
    fpDecodeFrom start n i s = .error x t := by
  cases n with
  | zero =>
    rw [fpDecodeFrom]
    exact bind_error h _
  | succ n =>
    rw [fpDecodeFrom]
    exact bind_error h _

/-- Behind a continue bit 0, with room, a byte is decoded. -/
theorem fpDecodeFrom_succ {r : State} {v : Byte} (hbit : fpdElement decodeBit s = .ok false r)
    (hbyte : fpdElement decodeByte r = .ok v t) :
    fpDecodeFrom start (n + 1) i s = fpDecodeFrom start n (i + 1) { t with data := Memory.insert t.data (start + i) v } := by
  rw [fpDecodeFrom, bind_ok (elementOrEnd_ok i hbit)]
  refine (bind_ok (elementOrEnd_ok i hbyte) _).trans ?_
  exact bind_ok (memWrite_run _ _ _) _

theorem fpDecodeFrom_byte_end {r : State} (hbit : fpdElement decodeBit s = .ok false r)
    (hbyte : elementOrEnd i (fpdElement decodeByte) r = .ok none t) : fpDecodeFrom start (n + 1) i s = .ok i t := by
  rw [fpDecodeFrom, bind_ok (elementOrEnd_ok i hbit)]
  exact bind_ok hbyte _

theorem fpDecodeFrom_byte_error {r : State} {x : Stop} (hbit : fpdElement decodeBit s = .ok false r)
    (hbyte : elementOrEnd i (fpdElement decodeByte) r = .error x t) : fpDecodeFrom start (n + 1) i s = .error x t := by
  rw [fpDecodeFrom, bind_ok (elementOrEnd_ok i hbit)]
  exact bind_error hbyte _

/-- One element after another. -/
theorem decoded_cons {E : Type} {slot : Slot E} {e e' : E} {v w : List Bool} {a : Nat} {b : Byte} (hw : CanRead s (v ++ w)) :
    decoded slot e' (decoded slot e s v a [b]) w (a + 1) bs = decoded slot e' s (v ++ w) a (b :: bs) := by
  simp only [decoded, slot.set_data, slot.consumed_set, slot.withData_set, slot.set_set, consumed_withData, consumed_consumed hw]
  rfl

/-- A continue bit 0 and a byte behind it. -/
theorem fpDecodeFrom_element {b : Byte} (h : DecodedBits s.fpd used (false :: byteBits b) d') (n i : Nat)
    (hw : CanRead s (bytesBits used)) :
    fpDecodeFrom start (n + 1) i s = fpDecodeFrom start n (i + 1) (decoded fpdSlot d' s (bytesBits used) (start + i) [b]) := by
  obtain ⟨u1, d1, u2, h1, h2, rfl⟩ := DecodedBits.split (as := [false]) h
  rw [bytesBits_append] at hw ⊢
  have hbit := (readsElement_fpdBit h1).ok (canRead_left hw)
  have hbyte := (readsElement_fpdByte (s := fpdSlot.set d1 (consumed s (bytesBits u1).length)) h2).ok (canRead_right hw)
  rw [fpdSlot.consumed_set, consumed_consumed hw, fpdSlot.set_set] at hbyte
  rw [fpDecodeFrom_succ hbit hbyte, fpdSlot.set_data, consumed_data]
  rfl

theorem fpDecodeFrom_elements (h : DecodedBits s.fpd used (continuedBits bs) d') (n i : Nat) (hw : CanRead s (bytesBits used)) :
    fpDecodeFrom start (bs.length + n) i s =
      fpDecodeFrom start n (i + bs.length) (decoded fpdSlot d' s (bytesBits used) (start + i) bs) := by
  induction bs generalizing s used i with
  | nil =>
    cases h
    rw [List.length_nil, Nat.zero_add, Nat.add_zero, decoded, bytesBits_nil, List.length_nil, consumed_zero]
    rfl
  | cons b bs ih =>
    obtain ⟨u1, d1, u2, h1, h2, hu⟩ := DecodedBits.split (as := false :: byteBits b) (bs := continuedBits bs) h
    rw [hu, bytesBits_append] at hw ⊢
    have hrest : CanRead (decoded fpdSlot d1 s (bytesBits u1) (start + i) [b]) (bytesBits u2) := canRead_right hw
    rw [List.length_cons, show bs.length + 1 + n = bs.length + n + 1 by omega, fpDecodeFrom_element h1 _ _ (canRead_left hw),
      ih (used := u2) h2 (i + 1) hrest, Nat.add_right_comm i 1, Nat.add_assoc i, ← Nat.add_assoc start, decoded_cons hw]

/-- Bits read behind some elements. -/
theorem consumed_decoded {E : Type} {slot : Slot E} {e : E} {v w : List Bool} {a : Nat} (hw : CanRead s (v ++ w)) :
    consumed (decoded slot e s v a bs) w.length = decoded slot e s (v ++ w) a bs := by
  simp only [decoded, slot.consumed_set, consumed_withData, consumed_consumed hw]

theorem set_consumed_decoded {E : Type} {slot : Slot E} {e e' : E} {v w : List Bool} {a : Nat} (hw : CanRead s (v ++ w)) :
    slot.set e' (consumed (decoded slot e s v a bs) w.length) = decoded slot e' s (v ++ w) a bs := by
  rw [consumed_decoded hw, decoded, slot.set_set, decoded]

/-- The end of the stream behind some elements. -/
theorem metEnd_decoded {E : Type} (slot : Slot E) (e : E) (s : State) (w : List Bool) (a : Nat) (bs : List Byte) :
    metEnd (decoded slot e s w a bs) = slot.set e (withData (writeBytes s.data a bs) (metEnd (consumed s w.length))) := by
  rw [decoded, slot.metEnd_set, metEnd_withData]

/-! ### FPD.DECODE -/

/-- The loop behind some bytes and their continue bits. -/
theorem fpDecodeFrom_start (h : DecodedBits s.fpd used (continuedBits bs) d) (hw : CanRead s (bytesBits used))
    (hn : arrayLength s = bs.length + n) :
    fpDecodeFrom start (arrayLength s) 0 s = fpDecodeFrom start n bs.length (decoded fpdSlot d s (bytesBits used) start bs) := by
  rw [hn, fpDecodeFrom_elements h n 0 hw, Nat.zero_add, Nat.add_zero]

theorem execFpdDecode_of_ok (hs : Settled s) (hu : s.fpd.ustate = .ready) (hv : descriptorValid s)
    (h : fpDecodeFrom (arrayStart s) (arrayLength s) 0 s = .ok n t) :
    exec .fpdDecode s = .next (complete 6 6 (BitVec.ofNat 64 n) t) :=
  (command_array hu hv hs).trans (command_ok hs (bind_ok h _))

theorem execFpdDecode_of_fault (hs : Settled s) (hu : s.fpd.ustate = .ready) (hv : descriptorValid s) (hc : c ≠ .rangeDegenerate)
    (h : fpDecodeFrom (arrayStart s) (arrayLength s) 0 s = .error (.fault c) t) :
    exec .fpdDecode s = .next (raiseFault 6 6 c t) :=
  (command_array hu hv hs).trans (command_fault hs hc (bind_error h _))

/-- The last continue bit, where it can be read. -/
theorem execFpdDecode_ok (hs : Settled s) (hu : s.fpd.ustate = .ready) (hv : descriptorValid s) {last : Bool}
    (h : DecodedBits s.fpd used (continuedBits bs ++ [last]) d') (hw : CanRead s (bytesBits used))
    (hlast : (last = true ∧ bs.length ≤ arrayLength s) ∨ (last = false ∧ bs.length = arrayLength s)) :
    exec .fpdDecode s =
      .next (complete 6 6 (BitVec.ofNat 64 bs.length) (decoded fpdSlot d' s (bytesBits used) (arrayStart s) bs)) := by
  obtain ⟨u1, d1, u2, h1, h2, rfl⟩ := h.split
  rw [bytesBits_append] at hw ⊢
  have hle : bs.length ≤ arrayLength s := by omega
  obtain ⟨n, hn⟩ := Nat.exists_eq_add_of_le hle
  have hbit := (readsElement_fpdBit (s := decoded fpdSlot d1 s (bytesBits u1) (arrayStart s) bs) h2).ok (canRead_right hw)
  rw [set_consumed_decoded hw] at hbit
  refine execFpdDecode_of_ok hs hu hv ((fpDecodeFrom_start h1 (canRead_left hw) hn).trans
    (fpDecodeFrom_bit_stop (elementOrEnd_ok _ hbit) ?_))
  rcases hlast with ⟨rfl, -⟩ | ⟨-, hlen⟩
  · exact .inl (by decide)
  · exact .inr (by omega)

/-- What FPD.DECODE has read and decoded where its next element cannot be read: some bytes behind their continue bits, and the next
element is a continue bit or, behind one more continue bit 0, a byte. -/
def FpdStopsAt (s : State) (used used' bs : List Byte) (d d' : BinaryDecoder) : Prop :=
  ∃ stored, DecodedBits s.fpd used stored d ∧
    ((stored = continuedBits bs ∧ bs.length ≤ arrayLength s ∧ ∃ c, DecodedBits d used' [c] d') ∨
      (stored = continuedBits bs ++ [false] ∧ bs.length < arrayLength s ∧ ∃ b, DecodedBits d used' (byteBits b) d'))

theorem readerFault_decoded {E : Type} {slot : Slot E} {e : E} {a : Nat} (hf : ReaderFault s c) :
    ReaderFault (decoded slot e s [] a bs) c := (slot.readerFault_set _ _).2 hf

theorem endsInside_decoded {E : Type} {slot : Slot E} {e : E} {a : Nat} (h : EndsInside s w w') :
    EndsInside (decoded slot e s w a bs) [] w' := (slot.endsInside_set _ _).2 h.right.2

/-- The stream ends inside the next element of FPD.DECODE. -/
theorem execFpdDecode_end (hs : Settled s) (hu : s.fpd.ustate = .ready) (hv : descriptorValid s)
    (h : FpdStopsAt s used used' bs d d') (hend : EndsInside s (bytesBits used) (bytesBits used')) :
    exec .fpdDecode s = .next (complete 6 6 (BitVec.ofNat 64 bs.length)
      (fpdSlot.set d (withData (writeBytes s.data (arrayStart s) bs) (metEnd (consumed s (bytesBits used).length))))) := by
  obtain ⟨stored, h, hnext⟩ := h
  have hw := hend.right.1
  rcases hnext with ⟨rfl, hle, b, hnext⟩ | ⟨rfl, hlt, b, hnext⟩
  · obtain ⟨n, hn⟩ := Nat.exists_eq_add_of_le hle
    obtain ⟨t, hrun, ht⟩ := (readsElement_fpdBit (s := decoded fpdSlot d s (bytesBits used) (arrayStart s) bs) hnext).ends
      (endsInside_decoded hend)
    have hbit := elementOrEnd_end bs.length hrun
    rw [ht, metEnd_decoded] at hbit
    exact (execFpdDecode_of_ok hs hu hv ((fpDecodeFrom_start h hw hn).trans
      (fpDecodeFrom_bit_stop hbit (.inl (by decide))))).trans rfl
  · obtain ⟨u1, d1, u2, h1, h2, rfl⟩ := h.split
    obtain ⟨n, hn⟩ := Nat.exists_eq_add_of_lt hlt
    rw [bytesBits_append] at hw hend ⊢
    have hbit := (readsElement_fpdBit (s := decoded fpdSlot d1 s (bytesBits u1) (arrayStart s) bs) h2).ok (canRead_right hw)
    rw [set_consumed_decoded hw] at hbit
    obtain ⟨t, hrun, ht⟩ := (readsElement_fpdByte
      (s := decoded fpdSlot d s (bytesBits u1 ++ bytesBits u2) (arrayStart s) bs) hnext).ends (endsInside_decoded hend)
    have hbyte := elementOrEnd_end bs.length hrun
    rw [ht, metEnd_decoded] at hbyte
    exact (execFpdDecode_of_ok hs hu hv ((fpDecodeFrom_start h1 (canRead_left hw) (Nat.add_assoc _ _ _ ▸ hn)).trans
      (fpDecodeFrom_byte_end hbit hbyte))).trans rfl

/-- The reader is not open, and the next element of FPD.DECODE reads. -/
theorem execFpdDecode_fault (hs : Settled s) (hu : s.fpd.ustate = .ready) (hv : descriptorValid s)
    (h : FpdStopsAt s [] used' bs d d') (hf : ReaderFault s c) (hne : used' ≠ []) :
    exec .fpdDecode s = .next (raiseFault 6 6 c
      { fpdSlot.set d (withData (writeBytes s.data (arrayStart s) bs) s) with res := BitVec.ofNat 64 bs.length }) := by
  have hc : c ≠ .endOfStream := by
    rcases hf with ⟨-, rfl⟩ | ⟨-, -, rfl⟩ <;> decide
  obtain ⟨stored, h, hnext⟩ := h
  rcases hnext with ⟨rfl, hle, b, hnext⟩ | ⟨rfl, hlt, b, hnext⟩
  · obtain ⟨n, hn⟩ := Nat.exists_eq_add_of_le hle
    have hrun := (readsElement_fpdBit (s := decoded fpdSlot d s [] (arrayStart s) bs) hnext).fault c
      (readerFault_decoded hf) (bytesBits_ne_nil hne)
    have hbit := elementOrEnd_fault bs.length hrun hc
    rw [undo_self] at hbit
    exact execFpdDecode_of_fault hs hu hv (ReaderFault.ne_rangeDegenerate hf)
      ((fpDecodeFrom_start h (.inl rfl) hn).trans (fpDecodeFrom_bit_error hbit))
  · obtain ⟨u1, d1, u2, h1, h2, hu12⟩ := h.split
    obtain ⟨rfl, rfl⟩ := List.append_eq_nil_iff.1 hu12.symm
    obtain ⟨n, hn⟩ := Nat.exists_eq_add_of_lt hlt
    have hbit := (readsElement_fpdBit (s := decoded fpdSlot d1 s [] (arrayStart s) bs) h2).ok (.inl rfl)
    rw [bytesBits_nil, set_consumed_decoded (.inl rfl)] at hbit
    have hrun := (readsElement_fpdByte (s := decoded fpdSlot d s [] (arrayStart s) bs) hnext).fault c
      (readerFault_decoded hf) (bytesBits_ne_nil hne)
    have hbyte := elementOrEnd_fault bs.length hrun hc
    rw [undo_self] at hbyte
    exact execFpdDecode_of_fault hs hu hv (ReaderFault.ne_rangeDegenerate hf)
      ((fpDecodeFrom_start h1 (.inl rfl) (Nat.add_assoc _ _ _ ▸ hn)).trans (fpDecodeFrom_byte_error hbit hbyte))

/-! ### Commands -/

/-- Settles O35: the decoders' steps are told by the bytes they read, and the loops by their elements. -/
theorem binaryDecode : Obligations.BinaryDecode := by
  unfold Obligations.BinaryDecode
  constructor
  · intro s used d' hs hu hw
    rw [← length_bytesBits]
    refine ⟨fun b h => ?_, fun b h => ?_, fun bs hv hn h => ?_⟩
    · refine (command_read_ok (g := fun b => BitVec.ofNat 64 b.toNat) hs hu (readsElement_bedBit h) hw).trans ?_
      cases b <;> rfl
    · exact command_read_ok (g := fun v => v.setWidth 64) hs hu (readsElement_bedByte h) hw
    · exact command_decode_ok hs hu hv decodesSteps_bed (h.elements 0) hn hw
  · intro s used d' hs hu hw
    rw [← length_bytesBits]
    refine ⟨fun b h => ?_, fun b h => ?_, fun bs last hv hlast h => ?_⟩
    · refine (command_read_ok (g := fun b => BitVec.ofNat 64 b.toNat) hs hu (readsElement_fpdBit h) hw).trans ?_
      cases b <;> rfl
    · exact command_read_ok (g := fun v => v.setWidth 64) hs hu (readsElement_fpdByte h) hw
    · exact execFpdDecode_ok hs hu hv h hw hlast

end Sys2Proof.Machine
end

section
/-! SUPPORT. Every stream that is long enough decodes, so a stream that decodes no further ends inside the next byte (42_binary_coder
R238 to R240; 40_system R163). -/

namespace Sys2Proof.Machine

variable {s : State} {low high low' high' : BitVec 32} {out : List Byte} {v w : List Bool}

/-- Any bytes can be shifted in. -/
theorem Settles.refills_any (h : Settles low high out low' high') (cur : BitVec 32) {bs : List Byte}
    (hlen : out.length ≤ bs.length) :
    ∃ used cur', used <+: bs ∧ used.length = out.length ∧ Refills low high cur used low' high' cur' := by
  induction h generalizing cur bs with
  | done low high h => exact ⟨[], cur, List.nil_prefix, rfl, .done low high cur h⟩
  | shift low high out low' high' htop _ ih =>
    match bs, hlen with
    | b :: bs, hlen =>
      obtain ⟨used, cur', hprefix, hused, hrefills⟩ := ih ((cur <<< 8) ||| b.setWidth 32) (Nat.le_of_succ_le_succ hlen)
      exact ⟨b :: used, cur', List.cons_prefix_cons.2 ⟨rfl, hprefix⟩, congrArg (· + 1) hused,
        .shift _ _ _ _ _ _ _ _ htop hrefills⟩

theorem Refills.exists (low high cur : BitVec 32) {bs : List Byte} (hlen : 4 ≤ bs.length) :
    ∃ used low' high' cur', used <+: bs ∧ used.length ≤ 4 ∧ Refills low high cur used low' high' cur' := by
  obtain ⟨out, low', high', hset⟩ := Settles.exists low high
  have hle := hset.length_le
  obtain ⟨used, cur', hprefix, hused, hrefills⟩ := hset.refills_any cur (hle.trans hlen)
  exact ⟨used, low', high', cur', hprefix, hused ▸ hle, hrefills⟩

/-- A seeded decoder decodes any bytes, at most four for a bit (42_binary_coder R228). -/
theorem DecodedBits.exists_seeded (n : Nat) {d : BinaryDecoder} (hd : d.seeded = true) {bs : List Byte} (hlen : 4 * n ≤ bs.length) :
    ∃ used bits d', used <+: bs ∧ bits.length = n ∧ DecodedBits d used bits d' := by
  induction n generalizing d bs with
  | zero => exact ⟨[], [], d, List.nil_prefix, rfl, .nil d⟩
  | succ n ih =>
    have hbit : ∃ b used d', used <+: bs ∧ used.length ≤ 4 ∧ d'.seeded = true ∧
        ∀ used' bits d'', DecodedBits d' used' bits d'' → DecodedBits d (used ++ used') (b :: bits) d'' := by
      rcases Nat.lt_or_ge (splitPoint d.low d.high d.pred.probability).toNat d.current.toNat with hlt | hle
      · obtain ⟨used, low, high, cur, hprefix, hfour, hrefills⟩ := Refills.exists
          (splitPoint d.low d.high d.pred.probability + 1) d.high d.current (bs := bs) (by omega)
        exact ⟨false, used, { d with low := low, high := high, current := cur, pred := d.pred.update false }, hprefix, hfour, hd,
          fun _ _ _ h => .zero _ _ _ _ _ _ _ _ hd hlt hrefills h⟩
      · obtain ⟨used, low, high, cur, hprefix, hfour, hrefills⟩ := Refills.exists
          d.low (splitPoint d.low d.high d.pred.probability) d.current (bs := bs) (by omega)
        exact ⟨true, used, { d with low := low, high := high, current := cur, pred := d.pred.update true }, hprefix, hfour, hd,
          fun _ _ _ h => .one _ _ _ _ _ _ _ _ hd hle hrefills h⟩
    obtain ⟨b, used, d1, ⟨rest, rfl⟩, hfour, hd1, hstep⟩ := hbit
    rw [List.length_append] at hlen
    obtain ⟨used', bits, d', hprefix, hbits, hrest⟩ := ih hd1 (bs := rest) (by omega)
    exact ⟨used ++ used', b :: bits, d', (List.prefix_append_right_inj used).2 hprefix, congrArg (· + 1) hbits, hstep _ _ _ hrest⟩

/-- Any decoder decodes a byte of any 36 bytes: four for the seed and at most four for a bit. -/
theorem DecodedBits.exists_byte (d : BinaryDecoder) {bs : List Byte} (hlen : bs.length = 36) :
    ∃ used b d', used <+: bs ∧ DecodedBits d used (byteBits b) d' := by
  have hbyte (bits : List Bool) (h : bits.length = 8) : byteBits (BitVec.ofNat 8 (bitsValue bits)) = bits := by
    have hlt := bitsValue_lt bits
    rw [h] at hlt
    rw [byteBits, BitVec.toNat_ofNat, Nat.mod_eq_of_lt hlt, ← h, bitsOf_bitsValue]
  by_cases hd : d.seeded = true
  · obtain ⟨used, bits, d', hprefix, hbits, h⟩ := DecodedBits.exists_seeded 8 hd (bs := bs) (by omega)
    exact ⟨used, _, d', hprefix, by rwa [hbyte bits hbits]⟩
  · match bs, hlen with
    | b3 :: b2 :: b1 :: b0 :: bs, hlen =>
      obtain ⟨used, bits, d', hprefix, hbits, h⟩ := DecodedBits.exists_seeded 8
        (d := { d with current := b3 ++ b2 ++ b1 ++ b0, seeded := true }) rfl (bs := bs) (by simp at hlen; omega)
      refine ⟨[b3, b2, b1, b0] ++ used, BitVec.ofNat 8 (bitsValue bits), d',
        (List.prefix_append_right_inj [b3, b2, b1, b0]).2 hprefix, ?_⟩
      rw [hbyte bits hbits]
      match bits, hbits with
      | bit :: bits, _ => exact .seed _ _ _ _ _ _ _ _ _ (Bool.eq_false_iff.2 hd) h

/-- Some bytes begin with given bits, or are begun with by them. -/
theorem exists_bytes (w : List Bool) (n : Nat) : ∃ bs, bs.length = n ∧ (w <+: bytesBits bs ∨ bytesBits bs <+: w) := by
  refine ⟨outBytes (w.take (8 * n)) 0 n, by simp [outBytes], ?_⟩
  have h := prefix_bytesBits_outBytes (w.take (8 * n)) (n := n) (by simp)
  rcases Nat.le_total w.length (8 * n) with hle | hle
  · rw [List.take_of_length_le hle] at h ⊢
    exact .inl h
  · refine .inr ?_
    rw [← h.eq_of_length (by simp [outBytes]; omega)]
    exact List.take_prefix _ _

/-- A stream of which no byte can be decoded ends inside the next one. -/
theorem exists_endsInside {d : BinaryDecoder} (hopen : ReaderOpen s) (hend : s.bsr.ended = true ∨ .finish ∈ s.source)
    (hv : v <+: unread s) (hcount : s.bsr.read.toNat + v.length + 320 < 2 ^ 64)
    (h : ∀ b used d', DecodedBits d used (byteBits b) d' → ¬bytesBits used <+: (unread s).drop v.length) :
    ∃ b used d', DecodedBits d used (byteBits b) d' ∧ EndsInside s v (bytesBits used) := by
  obtain ⟨rest, hrest⟩ := hv
  rw [← hrest, List.drop_left] at h
  obtain ⟨bs, hbs, hcover⟩ := exists_bytes rest 36
  obtain ⟨used, b, d', hused, hcoded⟩ := DecodedBits.exists_byte d hbs
  have hbits : bytesBits used <+: bytesBits bs := by
    obtain ⟨behind, rfl⟩ := hused
    rw [bytesBits_append]
    exact List.prefix_append _ _
  have hnot := h b used d' hcoded
  have hshort : rest <+: bytesBits used := by
    rcases hcover with hcover | hcover
    · exact (List.prefix_or_prefix_of_prefix hcover hbits).resolve_right hnot
    · exact absurd (hbits.trans hcover) hnot
  have hlt : rest.length < (bytesBits used).length := by
    refine lt_of_le_of_ne hshort.length_le fun he => hnot ?_
    rw [hshort.eq_of_length he]
  have hle := hbits.length_le
  rw [length_bytesBits bs, hbs] at hle
  refine ⟨b, used, d', hcoded, ⟨hopen, hend, ?_⟩, ⟨rest, hrest⟩, ?_, ?_⟩
  · rw [← hrest, List.length_append]
    omega
  · rw [← hrest]
    exact (List.prefix_append_right_inj v).2 hshort
  · rw [← hrest, List.length_append]
    omega

/-- Settles O36: the bits up to END that give no further byte begin the bits of one. -/
theorem decodeShortCount : Obligations.DecodeShortCount := by
  unfold Obligations.DecodeShortCount
  intro s used bs d' hs hu hv hopen hcount hused hend h hlt hno
  have hread : unread (consumed s (8 * used.length)) = (unread s).drop (bytesBits used).length := by
    rw [← length_bytesBits]
    exact unread_consumed (by rw [length_bytesBits]; omega) hused
  rw [hread] at hno
  obtain ⟨b, used', d'', hnext, hinside⟩ := exists_endsInside hopen hend hused (by rw [length_bytesBits]; omega) hno
  rw [← length_bytesBits]
  exact command_decode_end hs hu hv decodesSteps_bed (h.elements 0) ⟨used', rfl, hnext⟩ hlt hinside

end Sys2Proof.Machine
end

section
/-! SUPPORT. The Golomb coders' operations by the bits they write or read, and the Golomb commands (46_golomb). -/

namespace Sys2Proof.Machine

variable {α β E : Type} {s t : State} {v w : List Bool} {slot : Slot E} {signed neg : Bool} {k m n i : Nat} {c : FaultCode}

/-! ### Elements that leave their coder's registers -/

theorem Slot.set_get_appended (slot : Slot E) (s : State) (w : List Bool) :
    slot.set (slot.get s) (appended s w) = appended s w := by
  rw [← slot.get_appended s w, slot.set_get]

theorem Slot.set_get_consumed (slot : Slot E) (s : State) (n : Nat) : slot.set (slot.get s) (consumed s n) = consumed s n := by
  rw [← slot.get_consumed s n, slot.set_get]

theorem decoded_get {e : E} (he : slot.get s = e) (w : List Bool) (a : Nat) (bs : List Byte) :
    decoded slot e s w a bs = withData (writeBytes s.data a bs) (consumed s w.length) := by
  subst he
  have h : slot.get (withData (writeBytes s.data a bs) (consumed s w.length)) = slot.get s := by
    rw [slot.get_withData, slot.get_consumed]
  rw [decoded, ← h, slot.set_get]

/-- Elements that leave the registers, in a row. -/
theorem elements_same {step : Nat → E → List Bool → Byte → E → Prop} {e : E} {f : β → List Bool} {g : β → Byte} {xs : List β}
    (h : ∀ x ∈ xs, ∀ i, step i e (f x) (g x) e) (i : Nat) : Elements step i e (xs.flatMap f) (xs.map g) e := by
  induction xs generalizing i with
  | nil => exact .nil i e
  | cons x xs ih =>
    rw [List.flatMap_cons, List.map_cons]
    exact .cons (h x List.mem_cons_self i) (ih (fun x hx => h x (List.mem_cons_of_mem _ hx)) (i + 1))

/-! ### The encoders -/

theorem writesAt_putZeros (n : Nat) (hs : s.sent = 0) : WritesAt s (putZeros n) (List.replicate n false) () := by
  induction n generalizing s with
  | zero => exact writesAt_pure () s
  | succ n ih =>
    rw [show List.replicate (n + 1) false = [false] ++ List.replicate n false from rfl, putZeros]
    exact (writesAt_putBits (by decide) hs).bind (ih (by rwa [appended_sent]))

theorem writesAt_putSign (signed : Bool) (m : Nat) (neg : Bool) (hs : s.sent = 0) :
    WritesAt s (putSign signed m neg) (signBits signed m neg) () := by
  by_cases hc : signed = true ∧ m ≠ 0
  · rw [signBits, if_pos hc, putSign, if_pos (by simp [hc])]
    exact (writesAt_putBits (by decide) hs).cast (bitsOf_one neg)
  · rw [signBits, if_neg hc, putSign, if_neg (by simpa using hc)]
    exact writesAt_pure () s

theorem writesAt_putExpGolomb (signed : Bool) (m : Nat) (neg : Bool) (hs : s.sent = 0) :
    WritesAt s (putExpGolomb signed m neg) (expGolombBits signed m neg) () := by
  rw [expGolombBits, List.append_assoc, putExpGolomb]
  refine (writesAt_putZeros _ hs).bind (.bind (writesAt_putBits (by omega) (by rwa [appended_sent])) ?_)
  exact writesAt_putSign signed m neg (by rwa [appended_sent, appended_sent])

theorem writesAt_putRice (signed : Bool) (m : Nat) (neg : Bool) (hk : k ≠ 0) (hs : s.sent = 0) :
    WritesAt s (putRice signed k m neg) (riceBits signed k m neg) () := by
  have hbits : riceBits signed k m neg =
      List.replicate (m / 2 ^ k) false ++ ([true] ++ (bitsOf (m % 2 ^ k) k ++ signBits signed m neg)) := by simp [riceBits]
  rw [hbits, putRice, Nat.shiftRight_eq_div_pow]
  refine (writesAt_putZeros _ hs).bind (.bind (writesAt_putBits (by decide) (by rwa [appended_sent])) (.bind
    (writesAt_putBits hk (by rwa [appended_sent, appended_sent])) ?_))
  exact writesAt_putSign signed m neg (by rwa [appended_sent, appended_sent, appended_sent])

/-- Every code begins with a bit, so a writer that is not open meets it there. -/
theorem putZeros_then_fault {f : M Unit} (n : Nat) (hf : WriterFault s c) (h : f s = .error (.fault c) s) :
    (putZeros n >>= fun _ => f) s = .error (.fault c) s := by
  cases n with
  | zero => exact h
  | succ n =>
    rw [putZeros]
    exact bind_error (bind_error (putBits_fault _ _ hf) _) _

theorem egeElement_fault (b : Byte) (hf : WriterFault s c) : egeElement b s = .error (.fault c) s :=
  putZeros_then_fault _ hf (bind_error (putBits_fault _ _ hf) _)

theorem rgeElement_fault (b : Byte) (hf : WriterFault s c) : rgeElement b s = .error (.fault c) s :=
  putZeros_then_fault _ hf (bind_error (putBits_fault _ _ hf) _)

/-- The bits of a byte's exp-Golomb code (46_golomb R360, R363). -/
def egBits (signed : Bool) (b : Byte) : List Bool := expGolombBits signed (magnitude signed b) (isNegative signed b)

/-- The bits of a byte's Rice code (46_golomb R360, R373). -/
def rgBits (signed : Bool) (k : Nat) (b : Byte) : List Bool := riceBits signed k (magnitude signed b) (isNegative signed b)

theorem isNegative_eq (b : Byte) : isNegative true b = decide (b.toInt < 0) := by
  rw [isNegative, Bool.true_and, BitVec.msb_eq_toInt]

theorem egBits_eq (signed : Bool) (b : Byte) :
    egBits signed b = if signed then expGolombBits true b.toInt.natAbs (b.toInt < 0) else expGolombBits false b.toNat false := by
  cases signed with
  | false => rfl
  | true => rw [egBits, isNegative_eq]; rfl

theorem rgBits_eq (signed : Bool) (k : Nat) (b : Byte) :
    rgBits signed k b = if signed then riceBits true k b.toInt.natAbs (b.toInt < 0) else riceBits false k b.toNat false := by
  cases signed with
  | false => rfl
  | true => rw [rgBits, isNegative_eq]; rfl

/-- An encoder's step that leaves the registers `e`. -/
def EncodesAs (e : E) (code : Byte → List Bool) (_ : Nat) (e₁ : E) (w : List Bool) (b : Byte) (e₂ : E) : Prop :=
  e₁ = e ∧ e₂ = e ∧ w = code b

theorem writesElement_ege (b : Byte) (hs : s.sent = 0) : WritesElement egeSlot s (egeElement b) (egBits s.ege.signed b) s.ege :=
  (writesAt_putExpGolomb _ _ _ hs).look.element egeSlot

theorem writesElement_rge (b : Byte) (hk : s.rge.logBase ≠ 0) (hs : s.sent = 0) :
    WritesElement rgeSlot s (rgeElement b) (rgBits s.rge.signed s.rge.logBase.toNat b) s.rge :=
  (writesAt_putRice _ _ _ (fun h => hk (BitVec.eq_of_toNat_eq h)) hs).look.element rgeSlot

theorem encodesSteps_ege (p : Params) (g : ExpGolomb) :
    EncodesSteps egeSlot p noPre (EncodesAs g (egBits g.signed)) noChunk egeElement where
  before i s := noChunk_before egeSlot i s
  code := by
    rintro s i e w b e' ⟨rfl, rfl, rfl⟩ - hs rfl
    exact writesElement_ege b hs

theorem encodesSteps_rge (p : Params) {g : RiceGolomb} (hk : g.logBase ≠ 0) :
    EncodesSteps rgeSlot p noPre (EncodesAs g (rgBits g.signed g.logBase.toNat)) noChunk rgeElement where
  before i s := noChunk_before rgeSlot i s
  code := by
    rintro s i e w b e' ⟨rfl, rfl, rfl⟩ - hs rfl
    exact writesElement_rge b hk hs

theorem elements_encodesAs (e : E) (code : Byte → List Bool) (bs : List Byte) :
    Elements (EncodesAs e code) 0 e (bs.flatMap code) bs e := by
  have h := elements_same (step := EncodesAs e code) (e := e) (f := code) (g := id) (xs := bs)
    (fun _ _ _ => ⟨rfl, rfl, rfl⟩) 0
  rwa [List.map_id] at h

/-- An ENCODE without chunks whose first byte cannot be written. -/
theorem command_encode_first_fault {instr : Instr} {u : CoderState} {code : Byte → M Unit} (hs : Settled s) (hu : u = .ready)
    (hv : descriptorValid s) (hn : 0 < arrayLength s) (hc : c ≠ .rangeDegenerate) (h : ∀ b, code b s = .error (.fault c) s) :
    command instr (onArray u (encodeAll noChunk code)) s = .next (raiseFault instr.unit instr.op c { s with res := 0 }) := by
  obtain ⟨n, hlen⟩ : ∃ n, arrayLength s = n + 1 := ⟨arrayLength s - 1, by omega⟩
  have hrun := encodeFrom_fault (start := arrayStart s) (n := n) (noChunk_run 0 s) (h _)
  rw [undo_self] at hrun
  rw [command_array hu hv hs, hlen]
  exact command_fault hs hc (bind_error hrun _)

/-- Settles O51: a code is written bit field by bit field, and every code begins with a bit that is written. -/
theorem golombEncode : Obligations.GolombEncode := by
  unfold Obligations.GolombEncode
  refine ⟨fun s code hs => ⟨fun hu hcode => ?_, fun hu hk hcode => ?_⟩, fun s c hs hf => ⟨fun hu => ?_, fun hu => ?_⟩⟩
  · obtain rfl : code = egBits s.ege.signed := funext fun b => (hcode b).trans (egBits_eq _ b).symm
    have ⟨_, hsent, _⟩ := hs
    refine ⟨fun hw => ?_, fun xs hxs hv hw => ?_⟩
    · rw [← argByte_eq] at hw ⊢
      rw [← egeSlot.set_get_appended]
      exact command_write_ok hs hu (writesElement_ege (argByte s) hsent) hw
    · subst hxs
      rw [← egeSlot.set_get_appended]
      exact command_encode_ok hs hu hv (encodesSteps_ege _ s.ege) (elements_encodesAs _ _ _) hw
  · obtain rfl : code = rgBits s.rge.signed s.rge.logBase.toNat := funext fun b => (hcode b).trans (rgBits_eq _ _ b).symm
    have ⟨_, hsent, _⟩ := hs
    refine ⟨fun hw => ?_, fun xs hxs hv hw => ?_⟩
    · rw [← argByte_eq] at hw ⊢
      rw [← rgeSlot.set_get_appended]
      exact command_write_ok hs hu (writesElement_rge (argByte s) hk hsent) hw
    · subst hxs
      rw [← rgeSlot.set_get_appended]
      exact command_encode_ok hs hu hv (encodesSteps_rge _ hk) (elements_encodesAs _ _ _) hw
  · exact ⟨command_fault_at_start hs hu (WriterFault.ne_rangeDegenerate hf) (egeElement_fault _ hf), fun hv hn =>
      command_encode_first_fault hs hu hv hn (WriterFault.ne_rangeDegenerate hf) fun b => egeElement_fault b hf⟩
  · exact ⟨command_fault_at_start hs hu (WriterFault.ne_rangeDegenerate hf) (rgeElement_fault _ hf), fun hv hn =>
      command_encode_first_fault hs hu hv hn (WriterFault.ne_rangeDegenerate hf) fun b => rgeElement_fault b hf⟩

/-! ### The decoders -/

theorem readsAt_getBit (b : Bool) : ReadsAt s (getBits 1) [b] b.toNat :=
  (readsAt_getBits rfl (by simp)).cast rfl (bitsValue_one b)

theorem length_unread_lt_bitsInReach (s : State) : (unread s).length < bitsInReach s := by
  have hanswered := length_answeredBytes_le s.source
  have hincoming : (incoming s).length ≤ s.bsr.bytes.length + s.source.length := by
    rw [incoming]
    split <;> simp [hanswered]
  rw [unread, List.length_drop, length_bytesBits, bitsInReach]
  omega

theorem readsAt_countZeros (hk : (unread s).length < k) (i n : Nat) :
    ReadsAt s (countZeros k i) (List.replicate n false ++ [true]) (i + n) := by
  induction n generalizing s k i with
  | zero =>
    obtain ⟨k, rfl⟩ := Nat.exists_eq_succ_of_ne_zero (Nat.ne_zero_of_lt hk)
    rw [countZeros]
    exact (readsAt_getBit true).bind fun _ => readsAt_pure i _
  | succ n ih =>
    obtain ⟨k, rfl⟩ := Nat.exists_eq_succ_of_ne_zero (Nat.ne_zero_of_lt hk)
    rw [countZeros, show List.replicate (n + 1) false ++ [true] = [false] ++ (List.replicate n false ++ [true]) from rfl]
    refine ((readsAt_getBit false).bind fun hread => ?_).cast rfl rfl
    obtain ⟨-, hcount, hprefix⟩ := hread.resolve_left (by simp)
    have hle := hprefix.length_le
    have hrest : (unread (consumed s [false].length)).length < k := by
      rw [unread_consumed hcount hprefix, List.length_drop]
      simp only [List.length_singleton] at hle ⊢
      omega
    exact (ih hrest (i + 1)).cast rfl (by omega)

theorem readsAt_unaryZeros (n : Nat) : ReadsAt s unaryZeros (List.replicate n false ++ [true]) n :=
  ((readsAt_countZeros (length_unread_lt_bitsInReach s) 0 n).cast rfl (Nat.zero_add n)).look

theorem readsAt_appendBits (w : List Bool) (x : Nat) :
    ReadsAt s (appendBits w.length x) w (x * 2 ^ w.length + bitsValue w) := by
  induction w generalizing s x with
  | nil => exact (readsAt_pure x s).cast rfl (by simp [bitsValue])
  | cons b w ih =>
    rw [List.length_cons, appendBits]
    refine ((readsAt_getBit b).bind fun _ => ih (2 * x + b.toNat)).cast rfl ?_
    rw [bitsValue_cons]
    ring

theorem readsAt_getSign (signed : Bool) (m : Nat) (neg : Bool) :
    ReadsAt s (getSign signed m) (signBits signed m neg) (decide (signed = true ∧ m ≠ 0 ∧ neg = true)) := by
  by_cases hc : signed = true ∧ m ≠ 0
  · rw [signBits, if_pos hc, getSign, if_pos (by simp [hc])]
    refine ((readsAt_getBit neg).map fun b => b == 1).cast rfl ?_
    cases neg <;> simp [hc]
  · rw [signBits, if_neg hc, getSign, if_neg (by simpa using hc)]
    exact (readsAt_pure false s).cast rfl (by rw [eq_comm, decide_eq_false_iff_not]; exact fun h => hc ⟨h.1, h.2.1⟩)

/-- The number whose bits below its leading one are read (46_golomb R366). -/
theorem leading_one_value (m : Nat) :
    1 * 2 ^ (bitsOf (m + 1) (Nat.log2 (m + 1))).length + bitsValue (bitsOf (m + 1) (Nat.log2 (m + 1))) = m + 1 := by
  have hle := Nat.log2_self_le (n := m + 1) (by omega)
  have hlt : m + 1 < 2 ^ (Nat.log2 (m + 1) + 1) := Nat.lt_log2_self
  rw [pow_succ] at hlt
  rw [length_bitsOf, bitsValue_bitsOf, Nat.mod_eq_sub_mod hle, Nat.mod_eq_of_lt (by omega)]
  omega

theorem readsAt_egdElement (m : Nat) (neg : Bool) :
    ReadsAt s egdElement (expGolombBits s.egd.signed m neg) (golombByte s.egd.signed m neg) := by
  have hbits : expGolombBits s.egd.signed m neg = (List.replicate (Nat.log2 (m + 1)) false ++ [true]) ++
      (bitsOf (m + 1) (Nat.log2 (m + 1)) ++ signBits s.egd.signed m neg) := by
    rw [expGolombBits, bitsOf_leading]
    simp
  rw [hbits]
  refine ReadsAt.look ((readsAt_unaryZeros _).bind fun _ => ?_)
  have hx := (readsAt_appendBits (s := consumed s (List.replicate (Nat.log2 (m + 1)) false ++ [true]).length)
    (bitsOf (m + 1) (Nat.log2 (m + 1))) 1).cast rfl (leading_one_value m)
  rw [length_bitsOf] at hx
  exact hx.bind fun _ => ((readsAt_getSign s.egd.signed m neg).map _).cast rfl (signedByte_eq _ _ _)

/-- A field of no bits behind a read. -/
theorem readsAt_getBits_behind {n x : Nat} (hv : v ≠ []) (h : CanRead s v) (hx : n = 0 → x = 0) (hlt : x < 2 ^ n) :
    ReadsAt (consumed s v.length) (getBits n) (bitsOf x n) x := by
  by_cases hn : n = 0
  · subst hn
    rw [hx rfl]
    obtain ⟨⟨hu, hclosed⟩, -, -⟩ := h.resolve_left hv
    exact readsAt_of_run (getBits_zero (by rw [consumed_ustate, hu]; decide) (by rw [consumed_closed, hclosed])
      (consumed_bytes hv h))
  · refine (readsAt_getBits (length_bitsOf _ _) (by simpa [bitsOf_eq_nil] using hn)).cast rfl ?_
    rw [bitsValue_bitsOf, Nat.mod_eq_of_lt hlt]

theorem readsAt_rgdElement (m : Nat) (neg : Bool) :
    ReadsAt s rgdElement (riceBits s.rgd.signed s.rgd.logBase.toNat m neg) (golombByte s.rgd.signed m neg) := by
  generalize hk : s.rgd.logBase.toNat = k
  have hbits : riceBits s.rgd.signed k m neg = (List.replicate (m / 2 ^ k) false ++ [true]) ++
      (bitsOf (m % 2 ^ k) k ++ signBits s.rgd.signed m neg) := by simp [riceBits]
  rw [hbits]
  refine ReadsAt.look ?_
  rw [hk]
  refine (readsAt_unaryZeros _).bind fun hread => ?_
  have hlt : m % 2 ^ k < 2 ^ k := Nat.mod_lt _ (Nat.two_pow_pos k)
  have hfield := readsAt_getBits_behind (n := k) (x := m % 2 ^ k) (by simp) hread (fun h => by subst h; omega) hlt
  refine hfield.bind fun _ => ?_
  have hsign := readsAt_getSign (s := consumed (consumed s (List.replicate (m / 2 ^ k) false ++ [true]).length)
    (bitsOf (m % 2 ^ k) k).length) s.rgd.signed m neg
  rw [Nat.div_add_mod']
  exact (hsign.map _).cast rfl (signedByte_eq _ _ _)

/-- A decoder's step that leaves the registers `e`: the code of a magnitude and a sign, and the byte they stand for. -/
def DecodesAs (e : E) (code : Nat × Bool → List Bool) (byte : Nat × Bool → Byte) (_ : Nat) (e₁ : E) (w : List Bool)
    (b : Byte) (e₂ : E) : Prop :=
  e₁ = e ∧ e₂ = e ∧ ∃ x, w = code x ∧ b = byte x

theorem readsElement_egd (m : Nat) (neg : Bool) :
    ReadsElement egdSlot s egdElement (expGolombBits s.egd.signed m neg) (golombByte s.egd.signed m neg) s.egd :=
  (readsAt_egdElement m neg).element egdSlot

theorem readsElement_rgd (m : Nat) (neg : Bool) :
    ReadsElement rgdSlot s rgdElement (riceBits s.rgd.signed s.rgd.logBase.toNat m neg) (golombByte s.rgd.signed m neg) s.rgd :=
  (readsAt_rgdElement m neg).element rgdSlot

theorem decodesSteps_egd (p : Params) (g : ExpGolomb) :
    DecodesSteps egdSlot p noPre
      (DecodesAs g (fun x => expGolombBits g.signed x.1 x.2) fun x => golombByte g.signed x.1 x.2) noChunk
      (some <$> egdElement) where
  before i s := noChunk_before egdSlot i s
  code := by
    rintro s i e _ _ e' ⟨rfl, rfl, x, rfl, rfl⟩ - rfl
    exact (readsElement_egd x.1 x.2).map some

theorem decodesSteps_rgd (p : Params) (g : RiceGolomb) :
    DecodesSteps rgdSlot p noPre
      (DecodesAs g (fun x => riceBits g.signed g.logBase.toNat x.1 x.2) fun x => golombByte g.signed x.1 x.2) noChunk
      (some <$> rgdElement) where
  before i s := noChunk_before rgdSlot i s
  code := by
    rintro s i e _ _ e' ⟨rfl, rfl, x, rfl, rfl⟩ - rfl
    exact (readsElement_rgd x.1 x.2).map some

theorem elements_decodesAs (e : E) (code : Nat × Bool → List Bool) (byte : Nat × Bool → Byte) (ms : List (Nat × Bool)) :
    Elements (DecodesAs e code byte) 0 e (ms.flatMap code) (ms.map byte) e :=
  elements_same (fun x _ _ => ⟨rfl, rfl, x, rfl, rfl⟩) 0

/-- Settles O52: a code is read bit by bit, whatever its magnitude, and the loop reads code after code. -/
theorem golombDecode : Obligations.GolombDecode := by
  unfold Obligations.GolombDecode
  refine fun s hs => ⟨fun hu => ⟨fun m neg w hbits hw => ?_, fun ms w bs hv hlen hbits hbs hw => ?_⟩,
    fun hu => ⟨fun m neg w hbits hw => ?_, fun ms w bs hv hlen hbits hbs hw => ?_⟩⟩
  · subst hbits
    rw [← egdSlot.set_get_consumed]
    exact command_read_ok (g := fun v => v.setWidth 64) hs hu (readsElement_egd m neg) hw
  · subst hbits hbs
    have h : exec .egdDecode s = _ := command_decode_ok hs hu hv (decodesSteps_egd _ s.egd) (elements_decodesAs _ _ _ ms)
      (by rw [List.length_map, hlen]) hw
    rwa [decoded_get (slot := egdSlot) (s := s) (e := s.egd) rfl] at h
  · subst hbits
    rw [← rgdSlot.set_get_consumed]
    exact command_read_ok (g := fun v => v.setWidth 64) hs hu (readsElement_rgd m neg) hw
  · subst hbits hbs
    have h : exec .rgdDecode s = _ := command_decode_ok hs hu hv (decodesSteps_rgd _ s.rgd) (elements_decodesAs _ _ _ ms)
      (by rw [List.length_map, hlen]) hw
    rwa [decoded_get (slot := rgdSlot) (s := s) (e := s.rgd) rfl] at h

end Sys2Proof.Machine
end

section
/-! SUPPORT. The Huffman encoder's operations by the bits they write, and HFE.ENCODE (45_huffman R328 to R330). -/

namespace Sys2Proof.Machine

variable {s t : State} {v w : List Bool} {n : Nat} {c : FaultCode} {sizes : Table (BitVec 8) 256} {xs : List Byte} {h : Huffman}

theorem writesAt_putFields {w : Nat} (hw : w ≠ 0) (vs : List Nat) (hs : s.sent = 0) :
    WritesAt s (putFields w vs) (vs.flatMap fun v => bitsOf v w) () := by
  induction vs generalizing s with
  | nil => exact writesAt_pure () s
  | cons v vs ih =>
    rw [List.flatMap_cons, putFields]
    exact (writesAt_putBits hw hs).bind (ih (by rwa [appended_sent]))

theorem writesAt_writeHeader (sizes : Table (BitVec 8) 256) (hs : s.sent = 0) :
    WritesAt s (writeHeader sizes) (headerBits (lengthWidth sizes) (lengthsOf sizes)) () := by
  have hbits : headerBits (lengthWidth sizes) (lengthsOf sizes) = [true] ++ (bitsOf (lengthWidth sizes) 5 ++
      (if lengthWidth sizes = 0 then [] else (lengthsOf sizes).flatMap fun l => bitsOf l (lengthWidth sizes))) := by
    simp [headerBits]
  rw [hbits, writeHeader]
  refine (writesAt_putBits (by decide) hs).bind (.bind (writesAt_putBits (by decide) (by rwa [appended_sent])) ?_)
  by_cases hw : lengthWidth sizes = 0
  · rw [if_pos hw, if_pos hw]
    exact writesAt_pure () _
  · rw [if_neg hw, if_neg hw]
    exact writesAt_putFields hw _ (by rwa [appended_sent, appended_sent])

/-- The registers with the tables of some lengths. -/
def Huffman.withSizes (h : Huffman) (sizes : Table (BitVec 8) 256) : Huffman :=
  { h with sizes := sizes, codes := canonicalCodes sizes }

theorem hfe_withSizes (ht : hfeSlot.get t = h) :
    ({ t with hfe.sizes := sizes, hfe.codes := canonicalCodes sizes } : State) = hfeSlot.set (h.withSizes sizes) t := by
  subst ht
  rfl

/-- The header element of HFE (45_huffman R330). -/
theorem writesElement_hfeHeader {start len : Nat} (hx : sizes = buildSizes (arrayBytes s start len)) (hs : s.sent = 0) :
    WritesElement hfeSlot s (hfeHeader start len) (headerBits (lengthWidth sizes) (lengthsOf sizes)) (s.hfe.withSizes sizes) := by
  subst hx
  have hwrite := writesAt_writeHeader (buildSizes (arrayBytes s start len)) hs
  refine ⟨fun hw => ?_, fun c hf hne => bind_error (hwrite.fault c hf hne) _⟩
  rw [hfeHeader, look_run, bind_ok (hwrite.ok hw), update_run]
  exact congrArg _ (hfe_withSizes (hfeSlot.get_appended s _))

/-- A Huffman coder's step over one byte that has a code. -/
def HuffmanStep (h : Huffman) (_ : Nat) (h₁ : Huffman) (w : List Bool) (b : Byte) (h₂ : Huffman) : Prop :=
  h₁ = h ∧ h₂ = h ∧ sizeAt h.sizes b.toNat ≠ 0 ∧ w = codeWord h.sizes h.codes b.toNat

theorem elements_huffman (hx : ∀ b ∈ xs, sizeAt h.sizes b.toNat ≠ 0) :
    Elements (HuffmanStep h) 0 h (codeWords h.sizes h.codes xs) xs h := by
  have helements := elements_same (step := HuffmanStep h) (f := fun b => codeWord h.sizes h.codes b.toNat) (g := id) (xs := xs)
    (fun b hb _ => ⟨rfl, rfl, hx b hb, rfl⟩) 0
  rwa [List.map_id] at helements

theorem encodesSteps_hfe (p : Params) (h : Huffman) : EncodesSteps hfeSlot p noPre (HuffmanStep h) noChunk hfeElement where
  before i s := noChunk_before hfeSlot i s
  code := by
    rintro s i _ w b _ ⟨rfl, rfl, hb, rfl⟩ - hs rfl
    exact WritesAt.element hfeSlot (WritesAt.look (writesAt_putBits hb hs))

/-- The lengths built from some bytes give each of them a code (45_huffman R321, R324). -/
theorem sizeAt_buildSizes_ne_zero {b : Byte} (hb : b ∈ xs) : sizeAt (buildSizes xs) b.toNat ≠ 0 :=
  ((kraftEquality xs).1 b).2 hb

/-- Settles O45: the header element writes the header of the lengths and keeps the tables, and the loop writes code words. -/
theorem huffmanEncode : Obligations.HuffmanEncode := by
  unfold Obligations.HuffmanEncode
  constructor
  · intro s xs sizes w bits hs hu hv hxs hsizes hfit hleast hbits hw
    have ⟨_, hsent, _⟩ := hs
    have hwidth : w = lengthWidth sizes :=
      le_antisymm (hleast _ (lengthWidth_least sizes).1) ((lengthWidth_least sizes).2 w hfit)
    subst hbits hwidth
    have hheader := elementAt_ok 0 ((writesElement_hfeHeader (hsizes.trans (congrArg buildSizes hxs)) hsent).ok (canWrite_left hw))
    have hlen : xs.length = arrayLength s := by rw [hxs, length_arrayBytes]
    have hcodes : Elements (HuffmanStep (s.hfe.withSizes sizes)) 0 (s.hfe.withSizes sizes)
        (codeWords sizes (canonicalCodes sizes) xs) xs (s.hfe.withSizes sizes) :=
      elements_huffman (by rw [hsizes]; exact fun b hb => sizeAt_buildSizes_ne_zero hb)
    have hloop := encodeAll_elements (start := arrayStart s)
      (s := hfeSlot.set (s.hfe.withSizes sizes) (appended s (headerBits (lengthWidth sizes) (lengthsOf sizes))))
      (encodesSteps_hfe s.params (s.hfe.withSizes sizes)) hcodes (appended_params _ _) (by rwa [hfeSlot.set_sent, appended_sent])
      (by rw [arrayBytes_congr (s := s) (by rw [hfeSlot.set_data, appended_data]), hlen, hxs])
      ((hfeSlot.canWrite_set _ _).2 (canWrite_right hw))
    rw [hfeSlot.appended_set, hfeSlot.set_set, appended_appended hw, hlen] at hloop
    rw [hfe_withSizes (hfeSlot.get_appended s _)]
    exact (command_array hu hv hs).trans (command_ok hs ((bind_ok hheader _).trans hloop))
  · intro s c hs hu hv hf
    have hheader := (writesElement_hfeHeader (start := arrayStart s) (len := arrayLength s) rfl hs.2.1).fault c hf
      (by simp [headerBits])
    have hrun := elementAt_fault 0 hheader
    rw [undo_self] at hrun
    exact (command_array hu hv hs).trans (command_fault hs (WriterFault.ne_rangeDegenerate hf) (bind_error hrun _))

end Sys2Proof.Machine
end

section
/-! SUPPORT. The Huffman decoder's operations by the bits they read, and HFD.DECODE (45_huffman R340 to R343). -/

namespace Sys2Proof.Machine

variable {E : Type} {s t r : State} {v w : List Bool} {n len : Nat} {c : FaultCode} {sizes : Table (BitVec 8) 256} {xs : List Byte}
  {h : Huffman} {lengths : List Nat}

/-- An element that read some bits, undone (60_exceptions R402). -/
theorem undo_consumed (s : State) (n : Nat) : undo s (consumed s n) = takenBack s n := by
  rw [undo, consumed_ended, takenBack]

theorem Slot.get_takenBack (slot : Slot E) (s : State) (n : Nat) : slot.get (takenBack s n) = slot.get s :=
  slot.get_of_withStreams (s := s) (t := takenBack s n) rfl

theorem Slot.takenBack_set (slot : Slot E) (e : E) (s : State) (n : Nat) :
    takenBack (slot.set e s) n = slot.set e (takenBack s n) := by
  refine slot.set_of_withStreams e (s := s) (t := takenBack s n) rfl ?_
  simp only [State.withStreams, takenBack, slot.consumed_set, slot.set_bsw, slot.set_sink, slot.set_sinkRoom, slot.set_bsr,
    slot.set_source, slot.set_data, slot.set_sent, slot.set_res, slot.set_host]

theorem takenBack_withData (m : Memory) (s : State) (n : Nat) : takenBack (withData m s) n = withData m (takenBack s n) := by
  rw [takenBack, consumed_withData]
  rfl

theorem takenBack_decoded (slot : Slot E) (e : E) (s : State) (w : List Bool) (a : Nat) (n : Nat) :
    takenBack (decoded slot e s w a xs) n = slot.set e (withData (writeBytes s.data a xs) (takenBack (consumed s w.length) n)) := by
  rw [decoded, slot.takenBack_set, takenBack_withData]

/-- The registers set behind some bits, and then elements. -/
theorem decoded_set_consumed {slot : Slot E} {e e' : E} {a : Nat} (hw : CanRead s (v ++ w)) :
    decoded slot e' (slot.set e (consumed s v.length)) w a xs = decoded slot e' s (v ++ w) a xs := by
  simp only [decoded, slot.set_data, slot.consumed_set, slot.withData_set, slot.set_set, consumed_consumed hw, consumed_data]

theorem map_error {α β : Type} {x : M α} {g : α → β} {e : Stop} (h : x s = .error e t) : (g <$> x) s = .error e t := by
  rw [map_run, h]

/-! ### The header -/

theorem readsAt_getFields {w : Nat} (hw : w ≠ 0) {vs : List Nat} (hv : ∀ v ∈ vs, v < 2 ^ w) :
    ReadsAt s (getFields w vs.length) (vs.flatMap fun v => bitsOf v w) vs := by
  induction vs generalizing s with
  | nil => exact readsAt_pure [] s
  | cons v vs ih =>
    rw [List.flatMap_cons, List.length_cons, getFields]
    have hfield := (readsAt_getBits (s := s) (length_bitsOf v w) (by simpa [bitsOf_eq_nil] using hw)).cast rfl
      ((bitsValue_bitsOf v w).trans (Nat.mod_eq_of_lt (hv v List.mem_cons_self)))
    exact hfield.bind fun _ => (ih fun x hx => hv x (List.mem_cons_of_mem _ hx)).map _

/-- The lengths of a header, read before any of them is checked (45_huffman R342). -/
def headerLengths : M (List Nat) := do
  let flag ← getBits 1
  if flag ≠ 1 then raise .invalidStream
  else
    let w ← getBits 5
    if w = 0 then pure (List.replicate 256 0) else getFields w 256

/-- The table of some lengths. -/
def sizesOf (lengths : List Nat) : Table (BitVec 8) 256 := Table.ofFn 256 fun sym => BitVec.ofNat 8 (lengths.getD sym 0)

/-- The check of a header's lengths, and the tables that HFD keeps of them (45_huffman R340, R342; log 9). -/
def keepLengths (len : Nat) (lengths : List Nat) : M Unit :=
  if headerValid lengths = true then
    if 0 < len ∧ presentSymbols (sizesOf lengths) = [] then raise .invalidStream
    else update fun s => hfdSlot.set (s.hfd.withSizes (sizesOf lengths)) s
  else raise .invalidStream

theorem hfdHeader_eq (len : Nat) : hfdHeader len = headerLengths >>= keepLengths len := by
  rw [hfdHeader, readHeader, headerLengths, bind_assoc, bind_assoc]
  refine congrArg (getBits 1 >>= ·) (funext fun flag => ?_)
  by_cases hflag : flag ≠ 1
  · rw [if_pos hflag, if_pos hflag]
    rfl
  · rw [if_neg hflag, if_neg hflag, bind_assoc, bind_assoc]
    refine congrArg (getBits 5 >>= ·) (funext fun w => ?_)
    have hkeep (lengths : List Nat) : keepLengths len lengths =
        (if headerValid lengths = true then (pure (sizesOf lengths) : M _) else raise .invalidStream) >>= fun sizes =>
          if 0 < len ∧ presentSymbols sizes = [] then raise .invalidStream
          else update fun s => { s with hfd.sizes := sizes, hfd.codes := canonicalCodes sizes } := by
      rw [keepLengths]
      split <;> rfl
    rw [funext hkeep, ← bind_assoc]
    refine congrArg (· >>= _) ?_
    by_cases hw : w = 0
    · simp only [if_pos hw]
      rfl
    · simp only [if_neg hw]
      rfl

theorem readsAt_headerLengths {w : Nat} (hw : w < 32) (hlen : lengths.length = 256) (hl : ∀ l ∈ lengths, l < 2 ^ w) :
    ReadsAt s headerLengths (headerBits w lengths) lengths := by
  have hbits : headerBits w lengths = [true] ++ (bitsOf w 5 ++
      (if w = 0 then [] else lengths.flatMap fun l => bitsOf l w)) := by simp [headerBits]
  rw [hbits]
  refine (readsAt_getBit true).bind fun _ => ?_
  have hwidth := (readsAt_getBits (s := consumed s [true].length) (length_bitsOf w 5) (by simp [bitsOf_eq_nil])).cast rfl
    ((bitsValue_bitsOf w 5).trans (Nat.mod_eq_of_lt hw))
  refine hwidth.bind fun _ => ?_
  by_cases h0 : w = 0
  · subst h0
    rw [if_pos rfl, if_pos rfl]
    have hzero : lengths = List.replicate 256 0 :=
      List.eq_replicate_iff.2 ⟨hlen, fun l hmem => Nat.lt_one_iff.1 (hl l hmem)⟩
    exact (readsAt_pure _ _).cast rfl hzero.symm
  · rw [if_neg h0, if_neg h0, ← hlen]
    exact readsAt_getFields h0 hl

/-! ### Code words -/

theorem readsAt_descend {sym n : Nat} {p w : List Bool} (hu : Uniquely h.sizes h.codes) (hs : sym < 256)
    (h0 : sizeAt h.sizes sym ≠ 0) (hw : w ≠ []) (hc : codeWord h.sizes h.codes sym = p ++ w) (hn : w.length ≤ n) :
    ReadsAt s (descend h n (bitsValue p) p.length) w (BitVec.ofNat 8 sym) := by
  induction w generalizing s p n with
  | nil => exact absurd rfl hw
  | cons b w ih =>
    obtain ⟨n, rfl⟩ := Nat.exists_eq_succ_of_ne_zero (Nat.ne_zero_of_lt hn)
    have hlen : p.length + (w.length + 1) = sizeAt h.sizes sym := by
      have := congrArg List.length hc
      rwa [codeWord, length_bitsOf, List.length_append, List.length_cons, eq_comm] at this
    have hv : bitsValue (p ++ [b]) = 2 * bitsValue p + b.toNat := by
      rw [bitsValue_append, bitsValue_one, List.length_singleton, pow_one, Nat.mul_comm]
    have hmatch := matchCode_eq (h := h) (l := p.length + 1) (v := 2 * bitsValue p + b.toNat) hu hs h0 (w := p ++ [b])
      (by rw [hc]; exact ⟨w, by simp⟩) (by simp) hv
    rw [descend]
    refine (readsAt_getBit b).bind (v := [b]) (w := w) fun _ => ?_
    rw [hmatch]
    by_cases hnil : w = []
    · subst hnil
      rw [if_pos (by simpa using hlen)]
      exact readsAt_pure _ _
    · have := List.length_pos_iff.2 hnil
      rw [if_neg (by omega)]
      have hrest := ih (s := consumed s [b].length) (p := p ++ [b]) (n := n) hnil (by rw [hc]; simp) (Nat.le_of_succ_le_succ hn)
      rwa [hv, List.length_append, List.length_singleton] at hrest

theorem readsElement_hfd {b : Byte} (hu : Uniquely s.hfd.sizes s.hfd.codes) (h0 : sizeAt s.hfd.sizes b.toNat ≠ 0) :
    ReadsElement hfdSlot s hfdElement (codeWord s.hfd.sizes s.hfd.codes b.toNat) b s.hfd := by
  have hlen : (codeWord s.hfd.sizes s.hfd.codes b.toNat).length = sizeAt s.hfd.sizes b.toNat := length_bitsOf _ _
  have hne : codeWord s.hfd.sizes s.hfd.codes b.toNat ≠ [] := by
    rw [← List.length_pos_iff, hlen]
    omega
  have hle : (codeWord s.hfd.sizes s.hfd.codes b.toNat).length ≤ max 1 (longestCode s.hfd.sizes) := by
    rw [hlen]
    exact (sizeAt_le_longest _ b.isLt).trans (le_max_right _ _)
  have hread := readsAt_descend (s := s) (p := []) hu b.isLt h0 hne rfl hle
  exact (hread.look.cast rfl (BitVec.ofNat_toNat 8 b)).element hfdSlot

/-! ### The header's check -/

theorem keepLengths_ok (ha : LengthsAllowed (lengthsOf sizes)) (hp : 0 < len → presentSymbols sizes ≠ [])
    (ht : hfdSlot.get t = h) : keepLengths len (lengthsOf sizes) t = .ok () (hfdSlot.set (h.withSizes sizes) t) := by
  subst ht
  rw [keepLengths, if_pos ((headerValid_iff _).2 ha), sizesOf, ofFn_lengthsOf, if_neg fun ⟨hpos, hnone⟩ => hp hpos hnone]
  rfl

theorem presentSymbols_sizesOf (h : ∀ l ∈ lengths, l = 0) : presentSymbols (sizesOf lengths) = [] := by
  rw [List.eq_nil_iff_forall_not_mem]
  intro sym hmem
  obtain ⟨hsym, hne⟩ := mem_presentSymbols.1 hmem
  refine hne ?_
  have hzero : lengths.getD sym 0 = 0 := by
    rw [List.getD_eq_getElem?_getD]
    cases hget : lengths[sym]? with
    | none => rfl
    | some l => exact h l (List.mem_of_getElem? hget)
  rw [sizeAt, sizesOf, Table.get_ofFn _ hsym, hzero]
  rfl

theorem keepLengths_invalid (h : ¬LengthsAllowed lengths ∨ (0 < len ∧ ∀ l ∈ lengths, l = 0)) (t : State) :
    keepLengths len lengths t = .error (.fault .invalidStream) t := by
  rw [keepLengths]
  split
  · next hvalid =>
    obtain ⟨hlen, hzero⟩ := h.resolve_left (not_not_intro ((headerValid_iff _).1 hvalid))
    rw [if_pos ⟨hlen, presentSymbols_sizesOf hzero⟩, raise_run]
  · rfl

/-- A header that HFD keeps (45_huffman R340). -/
theorem readsElement_hfdHeader {w : Nat} (hw : w < 32) (hl : ∀ sym < 256, sizeAt sizes sym < 2 ^ w)
    (ha : LengthsAllowed (lengthsOf sizes)) (hp : 0 < len → presentSymbols sizes ≠ []) :
    ReadsElement hfdSlot s (hfdHeader len) (headerBits w (lengthsOf sizes)) () (s.hfd.withSizes sizes) := by
  have hlengths := readsAt_headerLengths (s := s) hw (length_lengthsOf sizes) fun l hmem => by
    obtain ⟨sym, hsym, rfl⟩ := List.mem_map.1 hmem
    exact hl sym (List.mem_range.1 hsym)
  rw [hfdHeader_eq]
  refine ⟨fun hread => ?_, fun hend => ?_, fun c hf hne => bind_error (hlengths.fault c hf hne) _⟩
  · exact (bind_ok (hlengths.ok hread) _).trans (keepLengths_ok ha hp (hfdSlot.get_consumed s _))
  · obtain ⟨v, hv, hrun⟩ := hlengths.ends hend
    exact ⟨_, bind_error hrun _, undo_metEnd hend.1 hv⟩

/-! ### The loop -/

theorem decodesSteps_hfd (p : Params) (hu : Uniquely h.sizes h.codes) :
    DecodesSteps hfdSlot p noPre (HuffmanStep h) noChunk (some <$> hfdElement) where
  before i s := noChunk_before hfdSlot i s
  code := by
    rintro s i _ w b _ ⟨rfl, rfl, hb, rfl⟩ - rfl
    exact (readsElement_hfd hu hb).map some

theorem presentSymbols_singleton {sym : Nat} (hsym : sym < 256) (h : ∀ x < 256, sizeAt sizes x ≠ 0 ↔ x = sym) :
    presentSymbols sizes = [sym] := by
  rw [← List.perm_singleton, List.perm_ext_iff_of_nodup (nodup_presentSymbols sizes) (List.nodup_singleton sym)]
  intro x
  rw [mem_presentSymbols, List.mem_singleton]
  refine ⟨fun ⟨hx, hne⟩ => (h x hx).1 hne, ?_⟩
  rintro rfl
  exact ⟨hsym, (h x hsym).2 rfl⟩

/-- The one symbol of a table has the code word 0 (45_huffman R326, R342). -/
theorem codeWord_singleton {sym : Nat} (ha : LengthsAllowed (lengthsOf sizes)) (hpresent : presentSymbols sizes = [sym]) :
    sizeAt sizes sym = 1 ∧ codeAt (canonicalCodes sizes) sym = 0 := by
  have hmem : sym ∈ presentSymbols sizes := hpresent ▸ List.mem_singleton_self sym
  obtain ⟨hsym, hne⟩ := mem_presentSymbols.1 hmem
  have hcode := (canonicalCodeValues sizes 64 ha fun sym hsym => size_le_of_allowed ha hsym).2 sym hsym hne
  have hnone : (List.range 256).filter (fun t =>
      sizeAt sizes t ≠ 0 ∧ (sizeAt sizes sym < sizeAt sizes t ∨ (sizeAt sizes t = sizeAt sizes sym ∧ t < sym))) = [] := by
    rw [List.filter_eq_nil_iff]
    intro t ht hbefore
    obtain ⟨hne, hbefore⟩ := of_decide_eq_true hbefore
    have heq : t ∈ presentSymbols sizes := mem_presentSymbols.2 ⟨List.mem_range.1 ht, hne⟩
    rw [hpresent, List.mem_singleton] at heq
    subst heq
    omega
  rw [hnone] at hcode
  refine ⟨?_, by rw [hcode]; exact Nat.zero_div _⟩
  obtain ⟨-, hone, -⟩ := ha
  rw [filter_lengthsOf, hpresent] at hone
  exact (List.cons.inj (hone rfl)).1

/-- The bit 1 is no code word of a one-symbol table (45_huffman R341). -/
theorem hfdElement_invalid {sym : Nat} (ha : LengthsAllowed (lengthsOf sizes)) (hpresent : presentSymbols sizes = [sym])
    (hs : s.hfd.sizes = sizes) (hc : s.hfd.codes = canonicalCodes sizes) (hr : CanRead s [true]) :
    hfdElement s = .error (.fault .invalidStream) (consumed s 1) := by
  obtain ⟨hsize, hcode⟩ := codeWord_singleton ha hpresent
  have hsym : sym < 256 := (mem_presentSymbols.1 (hpresent ▸ List.mem_singleton_self sym)).1
  have hlongest : max 1 (longestCode s.hfd.sizes) = 1 := by
    rw [hs]
    refine max_eq_left (longestCode_le fun x hx => ?_)
    by_cases hx0 : sizeAt sizes x = 0
    · omega
    · have hmem : x ∈ presentSymbols sizes := mem_presentSymbols.2 ⟨hx, hx0⟩
      rw [hpresent, List.mem_singleton] at hmem
      rw [hmem, hsize]
  have hmatch : matchCode s.hfd 1 1 = none := by
    rw [matchCode, hs, hc, hpresent, List.find?_cons_of_neg (by rw [hcode]; simp)]
    rfl
  rw [hfdElement, look_run, hlongest, descend, bind_ok (getBit_ok hr)]
  change (match matchCode s.hfd 1 1 with | some sym => pure (BitVec.ofNat 8 sym) | none => _ : M Byte) _ = _
  rw [hmatch]
  rfl

/-! ### HFD.DECODE -/

theorem execHfdDecode_ok {r : State} {x : Word64} (hs : Settled s) (hu : s.hfd.ustate = .ready) (hv : descriptorValid s)
    (hheader : hfdHeader (arrayLength s) s = .ok () t)
    (hloop : decodeAll noChunk (some <$> hfdElement) (arrayStart s) (arrayLength s) t = .ok x r) :
    exec .hfdDecode s = .next (complete 10 6 x r) :=
  (command_array hu hv hs).trans (command_ok hs ((bind_ok (elementOrEnd_ok 0 hheader) _).trans hloop))

theorem execHfdDecode_fault {r : State} (hs : Settled s) (hu : s.hfd.ustate = .ready) (hv : descriptorValid s)
    (hc : c ≠ .rangeDegenerate) (hheader : hfdHeader (arrayLength s) s = .ok () t)
    (hloop : decodeAll noChunk (some <$> hfdElement) (arrayStart s) (arrayLength s) t = .error (.fault c) r) :
    exec .hfdDecode s = .next (raiseFault 10 6 c r) :=
  (command_array hu hv hs).trans (command_fault hs hc ((bind_ok (elementOrEnd_ok 0 hheader) _).trans hloop))

theorem execHfdDecode_header_fault (hs : Settled s) (hu : s.hfd.ustate = .ready) (hv : descriptorValid s)
    (hc : c ≠ .rangeDegenerate) (hne : c ≠ .endOfStream) (hheader : hfdHeader (arrayLength s) s = .error (.fault c) t) :
    exec .hfdDecode s = .next (raiseFault 10 6 c { undo s t with res := 0 }) :=
  (command_array hu hv hs).trans (command_fault hs hc (bind_error (elementOrEnd_fault 0 hheader hne) _))

theorem execHfdDecode_header_end (hs : Settled s) (hu : s.hfd.ustate = .ready) (hv : descriptorValid s)
    (hheader : hfdHeader (arrayLength s) s = .error (.fault .endOfStream) t) :
    exec .hfdDecode s = .next (complete 10 6 0 (undo s t)) := by
  have hrun := command_ok (i := .hfdDecode) hs ((bind_ok (elementOrEnd_end 0 hheader) fun r =>
    match r with
    | none => pure 0
    | some _ => decodeAll noChunk (some <$> hfdElement) (arrayStart s) (arrayLength s)).trans (pure_run 0 _))
  exact (command_array hu hv hs).trans (hrun.trans rfl)

theorem hfd_withSizes (ht : hfdSlot.get t = h) :
    ({ t with hfd.sizes := sizes, hfd.codes := canonicalCodes sizes } : State) = hfdSlot.set (h.withSizes sizes) t := by
  subst ht
  rfl

/-- The state behind a header is that of the loop's start. -/
theorem elements_hfd (hx : ∀ b ∈ xs, sizeAt sizes b.toNat ≠ 0) (h : Huffman) :
    Elements (HuffmanStep (h.withSizes sizes)) 0 (h.withSizes sizes) (codeWords sizes (canonicalCodes sizes) xs) xs
      (h.withSizes sizes) := elements_huffman hx

/-- Settles O46: the header is one element, whose tables the loop then reads code words by; the only other faults are those of a
header that is not allowed, and of a bit that begins no code word. -/
theorem huffmanDecode : Obligations.HuffmanDecode := by
  unfold Obligations.HuffmanDecode
  refine ⟨fun s sizes w xs bits hs hu hv hw hl ha huniq hx hbits => ?_, fun s w lengths hs hu hv hw hlen hl hbad hr => ?_,
    fun s hs hu hv hr => ?_⟩
  · subst hbits
    have hsteps := decodesSteps_hfd s.params (h := s.hfd.withSizes sizes) huniq
    have hheader (hr : CanRead s (headerBits w (lengthsOf sizes))) (hp : 0 < arrayLength s → presentSymbols sizes ≠ []) :=
      (readsElement_hfdHeader (s := s) hw hl ha hp).ok hr
    have hstored {t : State} (ht : hfdSlot.get t = s.hfd) :
        withData (writeBytes s.data (arrayStart s) xs) (hfdSlot.set (s.hfd.withSizes sizes) t) =
          { t with hfd.sizes := sizes, hfd.codes := canonicalCodes sizes, data := writeBytes s.data (arrayStart s) xs } :=
      congrArg (withData _) (hfd_withSizes ht).symm
    refine ⟨fun hn hr => ?_, fun b hn hone hr => ?_⟩
    · have hpresent : 0 < arrayLength s → presentSymbols sizes ≠ [] := by
        intro hpos
        obtain ⟨b, hb⟩ := List.exists_mem_of_length_pos (hn ▸ hpos)
        exact List.ne_nil_of_mem (mem_presentSymbols.2 ⟨b.isLt, hx b hb⟩)
      have hloop := decodeAll_elements (start := arrayStart s) hsteps (elements_hfd hx s.hfd)
        (s := hfdSlot.set (s.hfd.withSizes sizes) (consumed s (headerBits w (lengthsOf sizes)).length)) (consumed_params _ _)
        ((hfdSlot.canRead_set _ _).2 (canRead_right hr))
      rw [decoded_set_consumed hr, hn] at hloop
      rw [← hstored (hfdSlot.get_consumed s _), hn]
      exact execHfdDecode_ok hs hu hv (hheader (canRead_left hr) hpresent) hloop
    · have hsingle := presentSymbols_singleton b.isLt hone
      have hbits := canRead_left hr
      have hread : CanRead (decoded hfdSlot (s.hfd.withSizes sizes) s
          (headerBits w (lengthsOf sizes) ++ codeWords sizes (canonicalCodes sizes) xs) (arrayStart s) xs) [true] :=
        (hfdSlot.canRead_set _ _).2 (canRead_right hr)
      have hcode := map_error (g := some) (hfdElement_invalid ha hsingle rfl rfl hread)
      rw [← decoded_set_consumed (e := s.hfd.withSizes sizes) hbits] at hcode
      have hloop := decodeAll_fault (start := arrayStart s) hsteps (elements_hfd hx s.hfd)
        (s := hfdSlot.set (s.hfd.withSizes sizes) (consumed s (headerBits w (lengthsOf sizes)).length)) (consumed_params _ _)
        ((hfdSlot.canRead_set _ _).2 (canRead_right hbits)) hn hcode (by decide)
      rw [noPre, undo_consumed, decoded_set_consumed hbits, takenBack_decoded] at hloop
      refine (execHfdDecode_fault hs hu hv (by decide) (hheader (canRead_left hbits) fun _ => by rw [hsingle]; simp) hloop).trans ?_
      exact congrArg (fun t : State => (.next (raiseFault 10 6 .invalidStream { t with res := BitVec.ofNat 64 xs.length }) :
        Host.Outcome State Fault Refusal))
        (hstored ((hfdSlot.get_takenBack _ 1).trans (hfdSlot.get_consumed s _)))
  · have hlengths := (readsAt_headerLengths (s := s) hw hlen hl).ok hr
    have hheader : hfdHeader (arrayLength s) s = .error (.fault .invalidStream) (consumed s (headerBits w lengths).length) := by
      rw [hfdHeader_eq, bind_ok hlengths, keepLengths_invalid hbad]
    rw [← undo_consumed]
    exact execHfdDecode_header_fault hs hu hv (by decide) (by decide) hheader
  · have hheader : hfdHeader (arrayLength s) s = .error (.fault .invalidStream) (consumed s 1) := by
      rw [hfdHeader_eq, headerLengths, bind_error (bind_ok (getBit_ok hr) _)]
    rw [← undo_consumed]
    exact execHfdDecode_header_fault hs hu hv (by decide) (by decide) hheader

end Sys2Proof.Machine
end

section
/-! SUPPORT. The range encoder's operations by the bits they write, and its commands (44_range_coder R284 to R289). -/

namespace Sys2Proof.Machine

variable {s t : State} {clamp : ClampMask} {low range low' range' : Word56} {e e' : RangeEncoder} {out : List Byte} {sym k n : Nat}
  {sz : Option Nat} {i len : Nat} {bs : List Byte} {p : Params} {c : FaultCode}

/-! ### The end of a command of a FAILED range coder -/

/-- A step of width 0 makes the unit FAILED (44_range_coder R288 (b)). -/
theorem command_degenerate {instr : Instr} {body : M Word64} (hs : Settled s) (h : body s = .error (.fault .rangeDegenerate) t) :
    command instr body s = .next (raiseFault instr.unit instr.op .rangeDegenerate (markFailed instr.unit t)) := by
  rw [command, resume_settled hs, h, finish, if_pos rfl]

theorem elementAt_clamped {α : Type} {body : M α} (n : Nat) (h : body s = .error .clamped t) :
    elementAt n body s = .error .clamped { t with res := BitVec.ofNat 64 n } := by
  rw [elementAt, element_clamped h]

theorem appended_freeCount (s : State) (w : List Bool) : (appended s w).freeCount = s.freeCount := by
  rw [← Slot.appended_withStreams]
  rfl

/-! ### The encoder's steps -/

/-- The first turn of the loop meets the writer's fault (44_range_coder R284). -/
theorem renormRange_writerFault (h : RangeShifts clamp low range) (hf : WriterFault s c) (k : Nat) :
    renormRange clamp rangeShiftOut (k + 1) low range () s = .error (.fault c) s := by
  have hshift : rangeShiftOut low () s = .error (.fault c) s := putBits_fault _ _ hf
  by_cases htop : TopSettled low range
  · rw [renormRange_some (straddleRange_settled htop) (clampedToZero_settled htop _)]
    exact bind_error hshift _
  · obtain ⟨hrange, hclamp⟩ := h.resolve_left htop
    rw [renormRange_some (straddleRange_straddle htop hrange) (by rw [clampedToZero_straddle htop]; simpa using hclamp)]
    exact bind_error hshift _

theorem RangeSettles.shifts (h : RangeSettles clamp low range out low' range') (hne : out ≠ []) : RangeShifts clamp low range := by
  cases h with
  | done => exact absurd rfl hne
  | settled _ _ _ _ _ htop => exact .inl htop
  | straddle _ _ _ _ _ _ hrange hclamp => exact .inr ⟨hrange, hclamp⟩

theorem encodeSymbol_writerFault (hr : stepWidth e.range e.freq ≠ 0)
    (h : RangeShifts s.params.clamp (stepLow56 e.low e.range e.freq sym) (stepRange56 e.range e.freq sym)) (hf : WriterFault s c) :
    encodeSymbol e sym s = .error (.fault c) s := by
  have hr' : unitWidth e.range e.freq ≠ 0 := hr
  rw [encodeSymbol, look_run, if_neg hr']
  exact bind_error (renormRange_writerFault h hf 63) _

theorem writesAt_encodeSymbol (hp : s.params.clamp = clamp) (hs : s.sent = 0) (h : RangeCoded clamp sz i e [sym] out e') :
    WritesAt s (encodeSymbol { e with freq := tableAt sz i e.freq } sym) (bytesBits out) e' := by
  subst hp
  cases h with
  | cons _ _ _ t _ _ out _ low range ht hr hset hnil =>
    cases hnil
    subst ht
    rw [List.append_nil]
    exact ⟨fun hw => encodeSymbol_ok hr hset hs hw,
      fun c hf hne => encodeSymbol_writerFault hr (hset.shifts fun h => hne (by rw [h]; rfl)) hf⟩

theorem withTable_none (e : RangeEncoder) (i : Nat) : { e with freq := tableAt none i e.freq } = e := rfl

/-- A single-symbol command, which never makes the table flat. -/
theorem writesElement_rce {b : Byte} (hs : s.sent = 0) (h : RangeCoded s.params.clamp none i s.rce [b.toNat] out e') :
    WritesElement rceSlot s (rceElement b) (bytesBits out) e' := by
  have hwrite := writesAt_encodeSymbol rfl hs h
  rw [withTable_none] at hwrite
  exact writesElement_set (slot := rceSlot) (code := fun e => encodeSymbol e b.toNat) hwrite

/-! ### Elements of RCE -/

/-- The registers before the element `i` of an ENCODE of `len` bytes (44_range_coder R289). -/
def rcePre (len i : Nat) (e : RangeEncoder) : RangeEncoder := { e with freq := tableAt (chunkLength e.chunkSize len) i e.freq }

/-- The encoder's step over one byte of an ENCODE of `len` bytes. -/
def rceStep (clamp : ClampMask) (len i : Nat) (e : RangeEncoder) (w : List Bool) (b : Byte) (e' : RangeEncoder) : Prop :=
  ∃ out, w = bytesBits out ∧ RangeCoded clamp (chunkLength e.chunkSize len) i e [b.toNat] out e'

theorem RangeCoded.split_cons {syms : List Nat} (h : RangeCoded clamp sz i e (sym :: syms) out e') :
    ∃ o1 e1 o2, RangeCoded clamp sz i e [sym] o1 e1 ∧ RangeCoded clamp sz (i + 1) e1 syms o2 e' ∧ out = o1 ++ o2 ∧
      e1.chunkSize = e.chunkSize := by
  cases h with
  | cons _ _ _ t _ _ o1 o2 low range ht hr hset hrest =>
    refine ⟨o1, _, o2, ?_, hrest, rfl, rfl⟩
    have hone := RangeCoded.cons (clamp := clamp) (sz := sz) i e _ t sym [] o1 [] low range ht hr hset (.nil _ _)
    rwa [List.append_nil] at hone

theorem RangeCoded.chunkSize {syms : List Nat} (h : RangeCoded clamp sz i e syms out e') : e'.chunkSize = e.chunkSize := by
  induction h with
  | nil => rfl
  | cons _ _ _ _ _ _ _ _ _ _ _ _ _ _ ih => exact ih

theorem RangeCoded.elements (hsz : sz = chunkLength e.chunkSize len) (h : RangeCoded clamp sz i e (bs.map BitVec.toNat) out e') :
    Elements (rceStep clamp len) i e (bytesBits out) bs e' := by
  induction bs generalizing e i out with
  | nil =>
    cases h
    exact .nil i _
  | cons b bs ih =>
    rw [List.map_cons] at h
    obtain ⟨o1, e1, o2, h1, h2, rfl, hchunk⟩ := h.split_cons
    rw [bytesBits_append]
    exact .cons ⟨o1, rfl, hsz ▸ h1⟩ (ih (hchunk ▸ hsz) h2)

theorem chunkStart_iff (cs : BitVec 32) (len i : Nat) (t : FreqTable) :
    (if chunkStart cs len i then flatTable else t) = tableAt (chunkLength cs len) i t := by
  simp [chunkStart, tableAt, chunkLength]

theorem rceChunk_run (len i : Nat) (s : State) : rceChunk len i s = .ok () (rceSlot.set (rcePre len i s.rce) s) := by
  rw [rceChunk_eq, update_run, rcePre, ← chunkStart_iff]
  split <;> rfl

theorem encodesSteps_rce (p : Params) (len : Nat) :
    EncodesSteps rceSlot p (rcePre len) (rceStep p.clamp len) (rceChunk len) rceElement where
  before := rceChunk_run len
  code := by
    rintro s i e _ b e' ⟨out, rfl, h⟩ hp hs he
    refine writesElement_set (slot := rceSlot) (code := fun e => encodeSymbol e b.toNat) ?_
    rw [he]
    exact writesAt_encodeSymbol (by rw [hp]) hs h

/-- An element of RCE that stops before it changes anything. -/
theorem rceElement_error {b : Byte} {x : Stop} (h : encodeSymbol s.rce b.toNat s = .error x t) :
    rceElement b s = .error x t := bind_error h _

theorem writerFault_rce (hf : WriterFault s c) : WriterFault (rceSlot.set e s) c := (rceSlot.writerFault_set _ _).2 hf

/-! ### The commands -/

/-- Settles O39: a step writes the bytes that leave `low`, and its first shift meets the writer's fault. -/
theorem rangeEncode : Obligations.RangeEncode := by
  unfold Obligations.RangeEncode
  constructor
  · intro s out e' hs hu hw
    refine ⟨fun h => ?_, fun hv h => ?_⟩
    · rw [← argByte_eq] at h
      exact command_write_ok hs hu (writesElement_rce hs.2.1 h) hw
    · exact command_encode_ok hs hu hv (encodesSteps_rce _ _) (h.elements rfl) hw
  · intro s c hs hu hf
    refine ⟨fun sym hsym hr hshift => ?_, fun before b behind sz e t hv hbs hsz h ht hr hshift => ?_⟩
    · subst hsym
      rw [← argByte_eq] at hshift
      exact command_fault_at_start hs hu (WriterFault.ne_rangeDegenerate hf)
        (rceElement_error (encodeSymbol_writerFault hr hshift hf))
    · subst hsz ht
      have hchunk := h.chunkSize
      rw [← hchunk] at hr hshift ⊢
      have hcode := rceElement_error (s := rceSlot.set (rcePre (arrayLength s) before.length e) s) (b := b)
        (encodeSymbol_writerFault hr hshift (writerFault_rce hf))
      have hloop := encodeFrom_elementFault (encodesSteps_rce _ _) (h.elements rfl) rfl hs.2.1 hbs (.inl rfl) hcode
      refine (command_array hu hv hs).trans ?_
      exact command_fault hs (WriterFault.ne_rangeDegenerate hf) (bind_error hloop _)

/-! ### `RANGE_DEGENERATE` -/

theorem command_onReady {u : CoderState} {instr : Instr} {body : M Word64} (hu : u = .ready) (s : State) :
    command instr (onReady u body) s = command instr body s := by
  rw [hu, onReady_ready]

/-- The end of a command of RCE whose clamp gave 0 (44_range_coder R288 (a)): its registers are free values (log 7). -/
theorem command_rce_clamped {instr : Instr} {body : M Word64} (hs : Settled s) (hi : instr.unit = 7)
    (h : body s = .error .clamped t) (hcount : t.freeCount = s.freeCount) (hchunk : t.rce.chunkSize = s.rce.chunkSize) :
    ∃ low range freq, command instr body s = .next (raiseFault instr.unit instr.op .rangeDegenerate
      { t with
        freeCount := s.freeCount + 1
        rce := { ustate := .failed, low := low, range := range, freq := freq, chunkSize := s.rce.chunkSize } }) := by
  rw [command_clamped hs h, hi, ← hcount, ← hchunk]
  exact ⟨_, _, _, rfl⟩

theorem rceEncbyte_zero (hs : Settled s) (hu : s.rce.ustate = .ready) (hr : stepWidth s.rce.range s.rce.freq = 0) :
    exec .rceEncbyte s = .next (raiseFault 7 2 .rangeDegenerate { s with rce.ustate := .failed }) := by
  have helement := element_fault (rceElement_error (b := argByte s) (encodeSymbol_zero _ hr))
  rw [undo_self] at helement
  exact (command_onReady hu s).trans (command_degenerate hs (bind_error helement _))

theorem rceEncbyte_clamped (hs : Settled s) (hu : s.rce.ustate = .ready) (hr : stepWidth s.rce.range s.rce.freq ≠ 0)
    (h : RangeSticks s.params.clamp (stepLow56 s.rce.low s.rce.range s.rce.freq (argByte s).toNat)
      (stepRange56 s.rce.range s.rce.freq (argByte s).toNat) out) (hw : CanWrite s (bytesBits out)) :
    ∃ low range freq, exec .rceEncbyte s = .next (raiseFault 7 2 .rangeDegenerate
      { appended s (bytesBits out) with
        freeCount := s.freeCount + 1
        rce := { ustate := .failed, low := low, range := range, freq := freq, chunkSize := s.rce.chunkSize } }) := by
  have helement := element_clamped (rceElement_error (encodeSymbol_sticks hr h hs.2.1 hw))
  have hchunk : (appended s (bytesBits out)).rce.chunkSize = s.rce.chunkSize :=
    congrArg RangeEncoder.chunkSize (rceSlot.get_appended s _)
  obtain ⟨low, range, freq, hrun⟩ := command_rce_clamped (instr := .rceEncbyte) hs rfl (bind_error helement fun _ => pure 0)
    (appended_freeCount _ _) hchunk
  exact ⟨low, range, freq, (command_onReady hu s).trans hrun⟩

section

variable {before behind : List Byte} {b : Byte} {u : FreqTable} {out' : List Byte}

theorem rceEncode_zero (hs : Settled s) (hu : s.rce.ustate = .ready) (hv : descriptorValid s)
    (hbs : arrayBytes s (arrayStart s) (arrayLength s) = before ++ b :: behind)
    (hsz : sz = chunkLength s.rce.chunkSize (arrayLength s))
    (h : RangeCoded s.params.clamp sz 0 s.rce (before.map BitVec.toNat) out e) (ht : u = tableAt sz before.length e.freq)
    (hr : stepWidth e.range u = 0) (hw : CanWrite s (bytesBits out)) :
    exec .rceEncode s = .next (raiseFault 7 6 .rangeDegenerate
      { appended s (bytesBits out) with
        rce := { e with freq := u, ustate := .failed }, res := BitVec.ofNat 64 before.length }) := by
  subst hsz ht
  rw [← h.chunkSize] at hr ⊢
  have hcode := rceElement_error (b := b)
    (s := rceSlot.set (rcePre (arrayLength s) before.length e) (appended s (bytesBits out))) (encodeSymbol_zero _ hr)
  have hloop := encodeFrom_elementFault (encodesSteps_rce _ _) (h.elements rfl) rfl hs.2.1 hbs hw hcode
  exact (command_array hu hv hs).trans (command_degenerate hs (bind_error hloop _))

theorem rceEncode_clamped (hs : Settled s) (hu : s.rce.ustate = .ready) (hv : descriptorValid s)
    (hbs : arrayBytes s (arrayStart s) (arrayLength s) = before ++ b :: behind)
    (hsz : sz = chunkLength s.rce.chunkSize (arrayLength s))
    (h : RangeCoded s.params.clamp sz 0 s.rce (before.map BitVec.toNat) out e) (ht : u = tableAt sz before.length e.freq)
    (hr : stepWidth e.range u ≠ 0)
    (hsticks : RangeSticks s.params.clamp (stepLow56 e.low e.range u b.toNat) (stepRange56 e.range u b.toNat) out')
    (hw : CanWrite s (bytesBits (out ++ out'))) :
    ∃ low range freq, exec .rceEncode s = .next (raiseFault 7 6 .rangeDegenerate
      { appended s (bytesBits (out ++ out')) with
        freeCount := s.freeCount + 1
        rce := { ustate := .failed, low := low, range := range, freq := freq, chunkSize := s.rce.chunkSize }
        res := BitVec.ofNat 64 before.length }) := by
  subst hsz ht
  rw [← h.chunkSize] at hr hsticks
  rw [bytesBits_append] at hw ⊢
  have hcode := rceElement_error (b := b)
    (s := rceSlot.set (rcePre (arrayLength s) before.length e) (appended s (bytesBits out)))
    (encodeSymbol_sticks hr (by rwa [rceSlot.set_params, appended_params]) (by rw [rceSlot.set_sent, appended_sent, hs.2.1])
      ((rceSlot.canWrite_set _ _).2 (canWrite_right hw)))
  rw [rceSlot.appended_set, appended_appended hw] at hcode
  have hloop := encodeFrom_next (encodesSteps_rce _ _) (h.elements rfl) rfl hs.2.1 hbs (canWrite_left hw)
  rw [bind_error (elementAt_clamped _ hcode)] at hloop
  obtain ⟨low, range, freq, hrun⟩ := command_rce_clamped (instr := .rceEncode) hs rfl (bind_error hloop fun _ => pure _)
    (appended_freeCount _ _) h.chunkSize
  exact ⟨low, range, freq, (command_array hu hv hs).trans hrun⟩

end

end Sys2Proof.Machine
end

section
/-! SUPPORT. The range decoder's operations by the bits they read, and its commands (44_range_coder R296 to R298). -/

namespace Sys2Proof.Machine

variable {s t : State} {clamp : ClampMask} {low range code low' range' code' : Word56} {d d' d'' : RangeDecoder}
  {used used' seed out : List Byte} {w : List Bool} {sym k n : Nat} {sz : Option Nat} {i len : Nat} {bs : List Byte} {p : Params}
  {c : FaultCode}

/-! ### The seed -/

/-- A step behind its seed (44_range_coder R296). -/
def decodeSeeded (clamp : ClampMask) (d : RangeDecoder) : M (Nat × RangeDecoder) :=
  let r := unitWidth d.range d.freq
  if r = 0 then raise .rangeDegenerate
  else
    let count := (d.code - d.low).toNat / r
    match (if count < freqAt d.freq 257 then findSymbol d.freq count else none) with
    | none => raise .invalidStream
    | some sym => do
      let (low, range, code) ←
        renormRange clamp rangeShiftIn renormLimit (symbolLow d.low d.freq r sym) (symbolRange d.freq r sym) d.code
      pure (sym, { d with low := low, range := range, code := code, freq := countSymbol d.freq sym })

theorem decodeSymbol_eq (d : RangeDecoder) (s : State) :
    decodeSymbol d s = (seedRange d >>= decodeSeeded s.params.clamp) s := rfl

theorem RangeSeeds.withTable (h : RangeSeeds d seed d') (t : FreqTable) :
    RangeSeeds { d with freq := t } seed { d' with freq := t } := by
  cases h with
  | kept h => exact .kept _ h
  | read b6 b5 b4 b3 b2 b1 b0 h => exact .read { d with freq := t } b6 b5 b4 b3 b2 b1 b0 h

theorem readsAt_seedRange (h : RangeSeeds d seed d') : ReadsAt s (seedRange d) (bytesBits seed) d' := by
  cases h with
  | kept h => exact readsAt_of_run (seedRange_seeded h s)
  | read b6 b5 b4 b3 b2 b1 b0 h =>
    have hread := (readsAt_getBits (s := s) (w := bytesBits [b6, b5, b4, b3, b2, b1, b0]) (n := 56) (by simp)
      (bytesBits_ne_nil (by simp))).map fun v => { d with code := BitVec.ofNat 56 v, seeded := true }
    refine (hread.of_eq ?_).answer (seedRange_ok h)
    rw [seedRange, if_neg (by rw [h]; decide)]

/-! ### The step -/

theorem readsAt_rangeShiftIn (low code : Word56) (b : Byte) :
    ReadsAt s (rangeShiftIn low code) (byteBits b) ((code <<< 8) ||| b.setWidth 56) :=
  ((readsAt_getBits (length_byteBits b) (byteBits_ne_nil b)).map _).cast rfl
    (by rw [bitsValue_byteBits, BitVec.ofNat_toNat])

theorem readsAt_renormRange (h : RangeRefills clamp low range code used low' range' code') (hk : used.length < k) :
    ReadsAt s (renormRange clamp rangeShiftIn k low range code) (bytesBits used) (low', range', code') := by
  induction h generalizing s k with
  | done low range code hset hrange =>
    rw [renormRange_none (straddleRange_none hset hrange)]
    exact readsAt_pure _ s
  | settled low range code b used low' range' code' hset _ ih =>
    obtain ⟨k, rfl⟩ := Nat.exists_eq_succ_of_ne_zero (Nat.ne_zero_of_lt hk)
    rw [renormRange_some (straddleRange_settled hset) (clampedToZero_settled hset _), BitVec.ofNat_toNat, BitVec.setWidth_eq]
    exact (readsAt_rangeShiftIn low code b).bind fun _ => ih (Nat.lt_of_succ_lt_succ hk)
  | straddle low range code b used low' range' code' hset hrange hclamp _ ih =>
    obtain ⟨k, rfl⟩ := Nat.exists_eq_succ_of_ne_zero (Nat.ne_zero_of_lt hk)
    rw [renormRange_some (straddleRange_straddle hset hrange) (by rw [clampedToZero_straddle hset]; simpa using hclamp)]
    exact (readsAt_rangeShiftIn low code b).bind fun _ => ih (Nat.lt_of_succ_lt_succ hk)

/-- Where the clamp gives 0 the decoder's loop stops, the bytes before it read (44_range_coder R288 (a)). -/
theorem renormRange_in_sticks (h : RangeSticks clamp low range out) (hk : out.length < k) (hlen : used.length = out.length)
    (hr : CanRead s (bytesBits used)) :
    renormRange clamp rangeShiftIn k low range code s = .error .clamped (consumed s (bytesBits used).length) := by
  induction h generalizing s k used code with
  | zero low range hset hrange hclamp =>
    obtain ⟨k, rfl⟩ := Nat.exists_eq_succ_of_ne_zero (Nat.ne_zero_of_lt hk)
    rw [renormRange_stick (straddleRange_straddle hset hrange) (by rw [clampedToZero_straddle hset, hclamp]; rfl),
      List.length_eq_zero_iff.1 hlen, bytesBits_nil, List.length_nil, consumed_zero]
    rfl
  | settled low range out hset _ ih =>
    obtain ⟨k, rfl⟩ := Nat.exists_eq_succ_of_ne_zero (Nat.ne_zero_of_lt hk)
    match used, hlen with
    | b :: used, hlen =>
      rw [bytesBits_cons] at hr ⊢
      rw [renormRange_some (straddleRange_settled hset) (clampedToZero_settled hset _),
        bind_ok ((readsAt_rangeShiftIn low code b).ok (canRead_left hr)), BitVec.ofNat_toNat, BitVec.setWidth_eq,
        ih (Nat.lt_of_succ_lt_succ hk) (Nat.succ.inj hlen) (canRead_right hr), consumed_consumed hr]
  | straddle low range out hset hrange hclamp _ ih =>
    obtain ⟨k, rfl⟩ := Nat.exists_eq_succ_of_ne_zero (Nat.ne_zero_of_lt hk)
    match used, hlen with
    | b :: used, hlen =>
      rw [bytesBits_cons] at hr ⊢
      rw [renormRange_some (straddleRange_straddle hset hrange) (by rw [clampedToZero_straddle hset]; simpa using hclamp),
        bind_ok ((readsAt_rangeShiftIn low code b).ok (canRead_left hr)),
        ih (Nat.lt_of_succ_lt_succ hk) (Nat.succ.inj hlen) (canRead_right hr), consumed_consumed hr]

theorem decodeSeeded_some (hr : stepWidth d.range d.freq ≠ 0) (hsym : SymbolOf d.freq (stepCount d d.freq) sym) (h256 : sym ≤ 256) :
    decodeSeeded clamp d =
      renormRange clamp rangeShiftIn renormLimit (stepLow56 d.low d.range d.freq sym) (stepRange56 d.range d.freq sym) d.code >>=
        fun r => pure (sym, { d with low := r.1, range := r.2.1, code := r.2.2, freq := countSymbol d.freq sym }) := by
  have hr' : unitWidth d.range d.freq ≠ 0 := hr
  rw [decodeSeeded]
  simp only []
  rw [if_neg hr', count_eq, if_pos hsym.1, findSymbol_eq hsym h256]
  rfl

theorem readsAt_decodeSeeded (hr : stepWidth d.range d.freq ≠ 0) (hsym : SymbolOf d.freq (stepCount d d.freq) sym)
    (h256 : sym ≤ 256)
    (h : RangeRefills clamp (stepLow56 d.low d.range d.freq sym) (stepRange56 d.range d.freq sym) d.code used low range code) :
    ReadsAt s (decodeSeeded clamp d) (bytesBits used)
      (sym, { d with low := low, range := range, code := code, freq := countSymbol d.freq sym }) := by
  obtain ⟨out, hout, hset⟩ := h.settles
  have hle := hset.length_le
  rw [decodeSeeded_some hr hsym h256]
  exact (readsAt_renormRange h (by rw [renormLimit]; omega)).map _

/-- What a decoder's step for one symbol is: its seed, then the step of the seeded decoder. -/
theorem readsAt_decodeSymbol (hp : s.params.clamp = clamp) (h : RangeDecoded clamp sz i d used [sym] d') :
    ReadsAt s (decodeSymbol { d with freq := tableAt sz i d.freq }) (bytesBits used) (sym, d') := by
  subst hp
  have hstep (d : RangeDecoder) (used : List Byte) (hd : d.seeded = true)
      (h : RangeDecoded s.params.clamp sz i d used [sym] d') (t : State) :
      ReadsAt t (decodeSeeded s.params.clamp { d with freq := tableAt sz i d.freq }) (bytesBits used) (sym, d') := by
    cases h with
    | seed _ _ _ _ _ _ _ _ _ _ _ _ _ h => exact absurd (hd.symm.trans h) (by decide)
    | cons _ _ _ u _ _ used _ low range code _ hu hr hsym h256 hrefill hnil =>
      cases hnil
      subst hu
      rw [List.append_nil]
      exact readsAt_decodeSeeded (d := { d with freq := tableAt sz i d.freq }) hr hsym h256 hrefill
  by_cases hd : d.seeded = true
  · have hread := (readsAt_seedRange (s := s) (RangeSeeds.kept _ hd |>.withTable (tableAt sz i d.freq))).bind
      fun _ => hstep d used hd h _
    exact hread.of_eq (decodeSymbol_eq _ s)
  · cases h with
    | cons _ _ _ _ _ _ _ _ _ _ _ h => exact absurd h hd
    | seed _ _ _ b6 b5 b4 b3 b2 b1 b0 used _ _ hseed h =>
      rw [show b6 :: b5 :: b4 :: b3 :: b2 :: b1 :: b0 :: used = [b6, b5, b4, b3, b2, b1, b0] ++ used from rfl, bytesBits_append]
      have hread := (readsAt_seedRange (s := s)
        (RangeSeeds.read d b6 b5 b4 b3 b2 b1 b0 hseed |>.withTable (tableAt sz i d.freq))).bind fun _ => hstep _ used rfl h _
      exact hread.of_eq (decodeSymbol_eq _ s)

/-! ### Elements of RCD -/

theorem withTable_none_rcd (d : RangeDecoder) (i : Nat) : { d with freq := tableAt none i d.freq } = d := rfl

/-- The registers before the element `i` of a DECODE of `len` bytes (44_range_coder R298). -/
def rcdPre (len i : Nat) (d : RangeDecoder) : RangeDecoder := { d with freq := tableAt (chunkLength d.chunkSize len) i d.freq }

/-- The decoder's step over one byte of a DECODE of `len` bytes. -/
def rcdStep (clamp : ClampMask) (len i : Nat) (d : RangeDecoder) (w : List Bool) (b : Byte) (d' : RangeDecoder) : Prop :=
  ∃ used, w = bytesBits used ∧ RangeDecoded clamp (chunkLength d.chunkSize len) i d used [b.toNat] d'

theorem readsElement_rcd (hd : { d with freq := tableAt sz i d.freq } = s.rcd) (h : RangeDecoded s.params.clamp sz i d used [sym] d') :
    ReadsElement rcdSlot s rcdElement (bytesBits used) sym d' := by
  have hread := readsAt_decodeSymbol rfl h
  rw [hd] at hread
  exact readsElement_set (slot := rcdSlot) (code := decodeSymbol) hread

theorem RangeDecoded.split_cons {syms : List Nat} (h : RangeDecoded clamp sz i d used (sym :: syms) d') :
    ∃ u1 d1 u2, RangeDecoded clamp sz i d u1 [sym] d1 ∧ RangeDecoded clamp sz (i + 1) d1 u2 syms d' ∧ used = u1 ++ u2 ∧
      d1.chunkSize = d.chunkSize := by
  have hstep {d : RangeDecoder} {used : List Byte} (hd : d.seeded = true)
      (h : RangeDecoded clamp sz i d used (sym :: syms) d') :
      ∃ u1 d1 u2, RangeDecoded clamp sz i d u1 [sym] d1 ∧ RangeDecoded clamp sz (i + 1) d1 u2 syms d' ∧ used = u1 ++ u2 ∧
        d1.chunkSize = d.chunkSize := by
    cases h with
    | seed _ _ _ _ _ _ _ _ _ _ _ _ _ h => exact absurd (hd.symm.trans h) (by decide)
    | cons _ _ _ t _ _ u1 u2 low range code hseeded ht hr hsym h256 hrefill hrest =>
      refine ⟨u1, _, u2, ?_, hrest, rfl, rfl⟩
      have hone := RangeDecoded.cons (clamp := clamp) (sz := sz) i d _ t sym [] u1 [] low range code hseeded ht hr hsym h256
        hrefill (.nil _ _)
      rwa [List.append_nil] at hone
  by_cases hd : d.seeded = true
  · exact hstep hd h
  · cases h with
    | cons _ _ _ _ _ _ _ _ _ _ _ h => exact absurd h hd
    | seed _ _ _ b6 b5 b4 b3 b2 b1 b0 used _ _ hseed h =>
      obtain ⟨u1, d1, u2, h1, h2, rfl, hchunk⟩ := hstep rfl h
      exact ⟨_, d1, u2, .seed i d d1 b6 b5 b4 b3 b2 b1 b0 u1 sym [] hseed h1, h2, rfl, hchunk⟩

theorem RangeDecoded.chunkSize {syms : List Nat} (h : RangeDecoded clamp sz i d used syms d') : d'.chunkSize = d.chunkSize := by
  induction h with
  | nil => rfl
  | seed _ _ _ _ _ _ _ _ _ _ _ _ _ _ _ ih => exact ih
  | cons _ _ _ _ _ _ _ _ _ _ _ _ _ _ _ _ _ _ ih => exact ih

/-- The steps over some bytes, and those behind them. -/
theorem RangeDecoded.elements_append {syms : List Nat} (hsz : sz = chunkLength d.chunkSize len)
    (h : RangeDecoded clamp sz i d used (bs.map BitVec.toNat ++ syms) d') :
    ∃ u1 d1 u2, Elements (rcdStep clamp len) i d (bytesBits u1) bs d1 ∧ RangeDecoded clamp sz (i + bs.length) d1 u2 syms d' ∧
      used = u1 ++ u2 ∧ d1.chunkSize = d.chunkSize := by
  induction bs generalizing d used i with
  | nil => exact ⟨[], d, used, .nil i d, h, rfl, rfl⟩
  | cons b bs ih =>
    obtain ⟨u1, d1, u2, h1, h2, rfl, hchunk⟩ := h.split_cons
    obtain ⟨v1, d2, v2, helements, hrest, rfl, hchunk2⟩ := ih (hchunk ▸ hsz) h2
    refine ⟨u1 ++ v1, d2, v2, ?_, ?_, (List.append_assoc _ _ _).symm, hchunk2.trans hchunk⟩
    · rw [bytesBits_append]
      exact .cons ⟨u1, rfl, hsz ▸ h1⟩ helements
    · rwa [List.length_cons, Nat.add_comm bs.length, ← Nat.add_assoc]

theorem RangeDecoded.elements (hsz : sz = chunkLength d.chunkSize len) (h : RangeDecoded clamp sz i d used (bs.map BitVec.toNat) d') :
    Elements (rcdStep clamp len) i d (bytesBits used) bs d' := by
  rw [← List.append_nil (bs.map BitVec.toNat)] at h
  obtain ⟨u1, d1, u2, helements, hnil, rfl, -⟩ := h.elements_append hsz
  cases hnil
  rwa [List.append_nil]

theorem rcdChunk_run (len i : Nat) (s : State) : rcdChunk len i s = .ok () (rcdSlot.set (rcdPre len i s.rcd) s) := by
  rw [rcdChunk_eq, update_run, rcdPre, ← chunkStart_iff]
  split <;> rfl

theorem symbolByte_toNat (b : Byte) : symbolByte b.toNat = some b := by
  have := b.isLt
  rw [symbolByte, if_neg (by omega), BitVec.ofNat_toNat, BitVec.setWidth_eq]

theorem decodesSteps_rcd (p : Params) (len : Nat) :
    DecodesSteps rcdSlot p (rcdPre len) (rcdStep p.clamp len) (rcdChunk len) (symbolByte <$> rcdElement) where
  before := rcdChunk_run len
  code := by
    rintro s i d _ b d' ⟨used, rfl, h⟩ rfl hd
    have hread := (readsElement_rcd hd.symm h).map symbolByte
    rwa [symbolByte_toNat] at hread

/-! ### Elements that stop -/

/-- An element of RCD whose step stops behind its seed. -/
theorem rcdElement_error (hseed : RangeSeeds s.rcd seed d') (hr : CanRead s (bytesBits seed)) {x : Stop}
    (h : decodeSeeded s.params.clamp d' (consumed s (bytesBits seed).length) = .error x t) : rcdElement s = .error x t := by
  refine bind_error ?_ _
  rw [decodeSymbol_eq, bind_ok ((readsAt_seedRange hseed).ok hr), h]

theorem decodeSeeded_invalid (hr : stepWidth d.range d.freq ≠ 0) (hc : freqAt d.freq 257 ≤ stepCount d d.freq) (s : State) :
    decodeSeeded clamp d s = .error (.fault .invalidStream) s := by
  have hr' : unitWidth d.range d.freq ≠ 0 := hr
  rw [decodeSeeded]
  simp only []
  rw [if_neg hr', count_eq, if_neg (Nat.not_lt.2 hc)]
  rfl

theorem decodeSeeded_zero (hr : stepWidth d.range d.freq = 0) (s : State) :
    decodeSeeded clamp d s = .error (.fault .rangeDegenerate) s := by
  have hr' : unitWidth d.range d.freq = 0 := hr
  rw [decodeSeeded]
  simp only []
  rw [if_pos hr']
  rfl

theorem decodeSeeded_sticks (hr : stepWidth d.range d.freq ≠ 0) (hsym : SymbolOf d.freq (stepCount d d.freq) sym)
    (h256 : sym ≤ 256) (h : RangeSticks clamp (stepLow56 d.low d.range d.freq sym) (stepRange56 d.range d.freq sym) out)
    (hlen : used.length = out.length) (hread : CanRead s (bytesBits used)) :
    decodeSeeded clamp d s = .error .clamped (consumed s (bytesBits used).length) := by
  have hle := h.length_le
  rw [decodeSeeded_some hr hsym h256]
  exact bind_error (renormRange_in_sticks h (by rw [renormLimit]; omega) hlen hread) _

/-! ### The commands -/

/-- The element behind some bytes of a DECODE, whatever its symbol. -/
theorem readsElement_next (hsz : sz = chunkLength d.chunkSize len) (h : RangeDecoded s.params.clamp sz bs.length d used [sym] d')
    (w : List Bool) (a : Nat) :
    ReadsElement rcdSlot (decoded rcdSlot (rcdPre len bs.length d) s w a bs) (symbolByte <$> rcdElement) (bytesBits used)
      (symbolByte sym) d' := by
  subst hsz
  have hclamp : (decoded rcdSlot (rcdPre len bs.length d) s w a bs).params.clamp = s.params.clamp :=
    congrArg Params.clamp (decoded_params _ _ _ _ _)
  rw [← hclamp] at h
  exact (readsElement_rcd rfl h).map symbolByte

/-- An element behind some bytes of a DECODE whose step stops behind its seed. -/
theorem rcdElement_next_error {x : Stop} {w : List Bool} {a : Nat} (hseed : RangeSeeds d seed d')
    (hr : CanRead s (w ++ bytesBits seed))
    (h : decodeSeeded s.params.clamp { d' with freq := tableAt (chunkLength d.chunkSize len) bs.length d.freq }
      (consumed (decoded rcdSlot (rcdPre len bs.length d) s w a bs) (bytesBits seed).length) = .error x t) :
    (symbolByte <$> rcdElement) (decoded rcdSlot (rcdPre len bs.length d) s w a bs) = .error x t := by
  have hclamp : (decoded rcdSlot (rcdPre len bs.length d) s w a bs).params.clamp = s.params.clamp :=
    congrArg Params.clamp (decoded_params _ _ _ _ _)
  rw [← hclamp] at h
  have hread : CanRead (decoded rcdSlot (rcdPre len bs.length d) s w a bs) (bytesBits seed) :=
    (rcdSlot.canRead_set _ _).2 (canRead_right hr)
  exact map_error (rcdElement_error (hseed.withTable _) hread h)

/-- Settles O40: a step reads its seed and the bytes that it shifts in, and stops at a count without a symbol. -/
theorem rangeDecode : Obligations.RangeDecode := by
  unfold Obligations.RangeDecode
  refine ⟨fun s used d' hs hu hw => ⟨fun sym h => ?_, fun bs hv h => ?_⟩, fun s seed d hs hu hseed hr hwidth hcount => ?_,
    fun s bs used seed sz d d' t hs hu hv hn hsz h ht hseed hr hwidth hcount => ?_⟩
  · rw [← length_bytesBits]
    exact command_read_ok (g := fun sym => BitVec.ofNat 64 sym) hs hu (readsElement_rcd (withTable_none_rcd _ 0) h) hw
  · rw [← length_bytesBits]
    rcases h with ⟨hn, h⟩ | ⟨hn, h⟩
    · exact command_decode_ok hs hu hv (decodesSteps_rcd _ _) (h.elements rfl) hn hw
    · obtain ⟨u1, d1, u2, helements, hlast, rfl, hchunk⟩ := h.elements_append rfl
      rw [Nat.zero_add] at hlast
      rw [bytesBits_append] at hw ⊢
      have hloop := decodeAll_none (start := arrayStart s) (decodesSteps_rcd s.params (arrayLength s)) helements rfl hw hn
        (readsElement_next (congrArg (chunkLength · _) hchunk.symm) hlast _ _)
      exact (command_array hu hv hs).trans (command_ok hs hloop)
  · have hrun := rcdElement_error hseed hr (decodeSeeded_invalid hwidth hcount _)
    have helement := element_fault hrun
    rw [undo_consumed, length_bytesBits] at helement
    exact (command_onReady hu s).trans (command_fault hs (by decide) (bind_error helement _))
  · subst hsz ht
    rw [← h.chunkSize] at hwidth hcount ⊢
    rw [bytesBits_append] at hr
    have hcode := rcdElement_next_error (a := arrayStart s) hseed hr (decodeSeeded_invalid hwidth hcount _)
    have hloop := decodeAll_fault (start := arrayStart s) (decodesSteps_rcd s.params (arrayLength s)) (h.elements rfl) rfl
      (canRead_left hr) hn hcode (by decide)
    rw [undo_consumed, takenBack_decoded, length_bytesBits, length_bytesBits] at hloop
    exact (command_array hu hv hs).trans (command_fault hs (by decide) hloop)

end Sys2Proof.Machine
end

section
/-! SUPPORT. What `RANGE_DEGENERATE` leaves of a range decoder (44_range_coder R288). -/

namespace Sys2Proof.Machine

variable {s t : State} {d d' : RangeDecoder} {used used' seed out : List Byte} {w : List Bool} {sym n : Nat} {sz : Option Nat}
  {bs : List Byte} {u : FreqTable}

theorem elementOrEnd_clamped {α : Type} {body : M α} (n : Nat) (h : body s = .error .clamped t) :
    elementOrEnd n body s = .error .clamped { t with res := BitVec.ofNat 64 n } := by
  rw [elementOrEnd, elementAt_clamped n h]

/-- The loop of a DECODE where an element's clamp gives 0: the elements before it stay, and what it read. -/
theorem decodeAll_clamped {E : Type} {slot : Slot E} {p : Params} {pre : Nat → E → E} {step : Nat → E → List Bool → Byte → E → Prop}
    {before : Nat → M Unit} {code : M (Option Byte)} {e : E} {start : Nat} (hc : DecodesSteps slot p pre step before code)
    (h : Elements step 0 (slot.get s) w bs e) (hp : s.params = p) (hw : CanRead s w) (hn : bs.length < n)
    (hcode : code (decoded slot (pre bs.length e) s w start bs) = .error .clamped t) :
    decodeAll before code start n s = .error .clamped { t with res := BitVec.ofNat 64 bs.length } := by
  obtain ⟨m, hrun, hbefore⟩ := decodeFrom_next (start := start) hc h hp hw hn
  refine bind_error (hrun.trans ?_) _
  rw [decodeFrom, bind_ok hbefore]
  exact bind_error (elementOrEnd_clamped _ hcode) _

theorem consumed_freeCount (s : State) (n : Nat) : (consumed s n).freeCount = s.freeCount := by
  rw [← Slot.consumed_withStreams]
  rfl

theorem decoded_rcd (d : RangeDecoder) (s : State) (w : List Bool) (a : Nat) (bs : List Byte) :
    decoded rcdSlot d s w a bs = { consumed s w.length with rcd := d, data := writeBytes s.data a bs } := rfl

/-- The end of a command of RCD whose clamp gave 0 (44_range_coder R288 (a)): its registers are free values (log 7). -/
theorem command_rcd_clamped {instr : Instr} {body : M Word64} (hs : Settled s) (hi : instr.unit = 8)
    (h : body s = .error .clamped t) (hcount : t.freeCount = s.freeCount) (hchunk : t.rcd.chunkSize = s.rcd.chunkSize) :
    ∃ low range code freq, command instr body s = .next (raiseFault instr.unit instr.op .rangeDegenerate
      { t with
        freeCount := s.freeCount + 1
        rcd :=
          { ustate := .failed, low := low, range := range, code := code, seeded := true, freq := freq,
            chunkSize := s.rcd.chunkSize } }) := by
  rw [command_clamped hs h, hi, ← hcount, ← hchunk]
  exact ⟨_, _, _, _, rfl⟩

theorem rcdDecbyte_zero (hs : Settled s) (hu : s.rcd.ustate = .ready) (hseed : RangeSeeds s.rcd seed d)
    (hwidth : stepWidth d.range d.freq = 0) (hr : CanRead s (bytesBits seed)) :
    exec .rcdDecbyte s = .next (raiseFault 8 2 .rangeDegenerate { takenBack s (8 * seed.length) with rcd.ustate := .failed }) := by
  have helement := element_fault (rcdElement_error hseed hr (decodeSeeded_zero hwidth _))
  rw [undo_consumed, length_bytesBits] at helement
  exact (command_onReady hu s).trans (command_degenerate hs (bind_error helement _))

theorem rcdDecbyte_clamped (hs : Settled s) (hu : s.rcd.ustate = .ready) (hseed : RangeSeeds s.rcd seed d)
    (hwidth : stepWidth d.range d.freq ≠ 0) (hsym : SymbolOf d.freq (stepCount d d.freq) sym) (h256 : sym ≤ 256)
    (h : RangeSticks s.params.clamp (stepLow56 d.low d.range d.freq sym) (stepRange56 d.range d.freq sym) out)
    (hlen : used.length = out.length) (hr : CanRead s (bytesBits (seed ++ used))) :
    ∃ low range code freq, exec .rcdDecbyte s = .next (raiseFault 8 2 .rangeDegenerate
      { consumed s (8 * (seed ++ used).length) with
        freeCount := s.freeCount + 1
        rcd :=
          { ustate := .failed, low := low, range := range, code := code, seeded := true, freq := freq,
            chunkSize := s.rcd.chunkSize } }) := by
  rw [bytesBits_append] at hr
  have hrun := rcdElement_error hseed (canRead_left hr) (decodeSeeded_sticks hwidth hsym h256 h hlen (canRead_right hr))
  rw [consumed_consumed hr, ← bytesBits_append, length_bytesBits] at hrun
  have hchunk : (consumed s (8 * (seed ++ used).length)).rcd.chunkSize = s.rcd.chunkSize :=
    congrArg RangeDecoder.chunkSize (rcdSlot.get_consumed s _)
  obtain ⟨low, range, code, freq, hcommand⟩ := command_rcd_clamped (instr := .rcdDecbyte) hs rfl
    (bind_error (element_clamped hrun) fun sym => pure (BitVec.ofNat 64 sym)) (consumed_freeCount _ _) hchunk
  exact ⟨low, range, code, freq, (command_onReady hu s).trans hcommand⟩

theorem rcdDecode_zero (hs : Settled s) (hu : s.rcd.ustate = .ready) (hv : descriptorValid s) (hn : bs.length < arrayLength s)
    (hsz : sz = chunkLength s.rcd.chunkSize (arrayLength s))
    (h : RangeDecoded s.params.clamp sz 0 s.rcd used (bs.map BitVec.toNat) d) (ht : u = tableAt sz bs.length d.freq)
    (hseed : RangeSeeds d seed d') (hwidth : stepWidth d'.range u = 0) (hr : CanRead s (bytesBits (used ++ seed))) :
    exec .rcdDecode s = .next (raiseFault 8 6 .rangeDegenerate
      { takenBack (consumed s (8 * used.length)) (8 * seed.length) with
        rcd := { d with freq := u, ustate := .failed }, data := writeBytes s.data (arrayStart s) bs
        res := BitVec.ofNat 64 bs.length }) := by
  subst hsz ht
  rw [← h.chunkSize] at hwidth ⊢
  rw [bytesBits_append] at hr
  have hcode := rcdElement_next_error (a := arrayStart s) hseed hr (decodeSeeded_zero hwidth _)
  have hloop := decodeAll_fault (start := arrayStart s) (decodesSteps_rcd s.params (arrayLength s)) (h.elements rfl) rfl
    (canRead_left hr) hn hcode (by decide)
  rw [undo_consumed, takenBack_decoded, length_bytesBits, length_bytesBits] at hloop
  exact (command_array hu hv hs).trans (command_degenerate hs hloop)

theorem rcdDecode_clamped (hs : Settled s) (hu : s.rcd.ustate = .ready) (hv : descriptorValid s) (hn : bs.length < arrayLength s)
    (hsz : sz = chunkLength s.rcd.chunkSize (arrayLength s))
    (h : RangeDecoded s.params.clamp sz 0 s.rcd used (bs.map BitVec.toNat) d) (ht : u = tableAt sz bs.length d.freq)
    (hseed : RangeSeeds d seed d') (hwidth : stepWidth d'.range u ≠ 0) (hsym : SymbolOf u (stepCount d' u) sym) (h256 : sym ≤ 256)
    (hsticks : RangeSticks s.params.clamp (stepLow56 d'.low d'.range u sym) (stepRange56 d'.range u sym) out)
    (hlen : used'.length = out.length) (hr : CanRead s (bytesBits (used ++ seed ++ used'))) :
    ∃ low range code freq, exec .rcdDecode s = .next (raiseFault 8 6 .rangeDegenerate
      { consumed s (8 * (used ++ seed ++ used').length) with
        freeCount := s.freeCount + 1
        rcd :=
          { ustate := .failed, low := low, range := range, code := code, seeded := true, freq := freq,
            chunkSize := s.rcd.chunkSize }
        data := writeBytes s.data (arrayStart s) bs
        res := BitVec.ofNat 64 bs.length }) := by
  subst hsz ht
  rw [← h.chunkSize] at hwidth hsym hsticks
  rw [bytesBits_append] at hr
  have hseeds := canRead_left hr
  rw [bytesBits_append] at hseeds
  rw [bytesBits_append] at hr
  have hread : CanRead (consumed (decoded rcdSlot (rcdPre (arrayLength s) bs.length d) s (bytesBits used) (arrayStart s) bs)
      (bytesBits seed).length) (bytesBits used') := by
    rw [consumed_decoded hseeds]
    exact (rcdSlot.canRead_set _ _).2 (canRead_right hr)
  have hcode := rcdElement_next_error (a := arrayStart s) hseed hseeds
    (decodeSeeded_sticks hwidth hsym h256 hsticks hlen hread)
  rw [consumed_decoded hseeds, consumed_decoded hr, ← bytesBits_append, ← bytesBits_append] at hcode
  have hloop := decodeAll_clamped (start := arrayStart s) (decodesSteps_rcd s.params (arrayLength s)) (h.elements rfl) rfl
    (canRead_left hseeds) hn hcode
  rw [decoded_rcd, length_bytesBits] at hloop
  obtain ⟨low, range, code, freq, hcommand⟩ := command_rcd_clamped (instr := .rcdDecode) hs rfl hloop (consumed_freeCount s _) h.chunkSize
  exact ⟨low, range, code, freq, (command_array hu hv hs).trans hcommand⟩

/-- Settles O41: a step of width 0 changes nothing behind its seed, and a clamp that gives 0 keeps what its element wrote or read. -/
theorem degenerateRange : Obligations.DegenerateRange := by
  unfold Obligations.DegenerateRange
  refine ⟨fun s hs hu => ⟨rceEncbyte_zero hs hu, fun sym out hsym hr h hw => ?_, ?encode⟩,
    fun s hs hu => ⟨fun seed d hseed => ⟨fun hr hread => rcdDecbyte_zero hs hu hseed hr hread, ?byte⟩, ?decode⟩⟩
  case encode =>
    intro before b behind out sz e u hv hbs hsz h hu'
    exact ⟨fun hr hw => rceEncode_zero hs hu hv hbs hsz h hu' hr hw,
      fun out' hr hsticks hw => rceEncode_clamped hs hu hv hbs hsz h hu' hr hsticks hw⟩
  case byte =>
    intro sym out used hr hsym h256 h hlen hread
    exact rcdDecbyte_clamped hs hu hseed hr hsym h256 h hlen hread
  case decode =>
    intro bs used seed sz d d' u hv hn hsz h hu' hseed
    exact ⟨fun hr hread => rcdDecode_zero hs hu hv hn hsz h hu' hseed hr hread,
      fun sym out used' hr hsym h256 hsticks hlen hread =>
        rcdDecode_clamped hs hu hv hn hsz h hu' hseed hr hsym h256 hsticks hlen hread⟩
  subst hsym
  rw [← argByte_eq] at h
  exact rceEncbyte_clamped hs hu hr h hw

end Sys2Proof.Machine
end

section
/-! SUPPORT. Decoders whose stream ends inside an element, or whose reader is not open (40_system R158, R162, R163; 60_exceptions R402
to R404). -/

namespace Sys2Proof.Machine

variable {α E : Type} {s t : State} {w w' : List Bool} {slot : Slot E} {c : FaultCode} {d d' : RangeDecoder} {used used' : List Byte}
  {bs xs : List Byte} {sym len k : Nat} {sz : Option Nat} {sizes : Table (BitVec 8) 256} {lengths : List Nat}

theorem ReaderFault.ne_endOfStream (h : ReaderFault s c) : c ≠ .endOfStream := by
  rcases h with ⟨-, rfl⟩ | ⟨-, -, rfl⟩ <;> decide

theorem Slot.get_metEnd (slot : Slot E) (s : State) : slot.get (metEnd s) = slot.get s :=
  slot.get_of_withStreams (metEnd_withStreams s)

/-- A DECODE that leaves its coder's registers, where the stream ended. -/
theorem Slot.set_get_stored (slot : Slot E) (s : State) (m : Memory) (n : Nat) :
    slot.set (slot.get s) (withData m (metEnd (consumed s n))) = withData m (metEnd (consumed s n)) := by
  have h : slot.get (withData m (metEnd (consumed s n))) = slot.get s := by
    rw [slot.get_withData, slot.get_metEnd, slot.get_consumed]
  rw [← h, slot.set_get]

/-- A stream that ends inside some bits ends there behind the first of those before them too. -/
theorem EndsInside.behind {v : List Bool} (h : EndsInside s (v ++ w) w') : EndsInside (consumed s v.length) w w' := by
  obtain ⟨hread, -⟩ := h.right
  obtain ⟨hbefore, hprefix, hshort, hlt⟩ := h
  have hall : EndsInside s v (w ++ w') :=
    ⟨hbefore, (List.prefix_append v w).trans hprefix, by rwa [← List.append_assoc],
      by rw [List.length_append] at hlt ⊢; omega⟩
  obtain ⟨hbefore', -, hshort', hlt'⟩ := hall.right.2
  refine ⟨hbefore', ?_, hshort', by simpa using hlt'⟩
  rcases canRead_right hread with rfl | ⟨-, -, hw⟩
  · exact List.nil_prefix
  · exact hw

/-- A DECODE whose stream ends inside an element, whatever that element would answer. -/
theorem command_decode_elementEnd {instr : Instr} {u : CoderState} {body : Nat → Nat → M Word64} {pre : Nat → E → E}
    {step : Nat → E → List Bool → Byte → E → Prop} {before : Nat → M Unit} {code : M (Option Byte)} {e e' : E} {a : Option Byte}
    (hs : Settled s) (hu : u = .ready) (hv : descriptorValid s) (hc : DecodesSteps slot s.params pre step before code)
    (h : Elements step 0 (slot.get s) w bs e) (hn : bs.length < arrayLength s) (hend : EndsInside s w w')
    (hcode : ReadsElement slot (decoded slot (pre bs.length e) s w (arrayStart s) bs) code w' a e')
    (hbody : body (arrayStart s) (arrayLength s) = decodeAll before code (arrayStart s) (arrayLength s) := by rfl) :
    command instr (onArray u body) s =
      .next (complete instr.unit instr.op (BitVec.ofNat 64 bs.length)
        (slot.set (pre bs.length e) (withData (writeBytes s.data (arrayStart s) bs) (metEnd (consumed s w.length))))) := by
  rw [command_array hu hv hs, hbody]
  exact (command_ok hs (decodeAll_elementEnd hc h rfl hend hn hcode)).trans rfl

/-! ### RCD -/

/-- The stream ends inside an element of RCD.DECODE, whatever its symbol (44_range_coder R298). -/
theorem execRcdDecode_end (hs : Settled s) (hu : s.rcd.ustate = .ready) (hv : descriptorValid s) (hn : bs.length < arrayLength s)
    (hsz : sz = chunkLength s.rcd.chunkSize (arrayLength s)) (hend : EndsInside s (bytesBits used) (bytesBits used'))
    (h : RangeDecoded s.params.clamp sz 0 s.rcd used (bs.map BitVec.toNat) d)
    (hnext : RangeDecoded s.params.clamp sz bs.length d used' [sym] d') :
    exec .rcdDecode s = .next (complete 8 6 (BitVec.ofNat 64 bs.length)
      (rcdSlot.set { d with freq := tableAt sz bs.length d.freq }
        (withData (writeBytes s.data (arrayStart s) bs) (metEnd (consumed s (8 * used.length)))))) := by
  subst hsz
  rw [← h.chunkSize] at hnext ⊢
  rw [← length_bytesBits]
  exact command_decode_elementEnd hs hu hv (decodesSteps_rcd s.params (arrayLength s)) (h.elements rfl) hn hend
    (readsElement_next rfl hnext (bytesBits used) (arrayStart s))

/-- The reader is not open, and an element of RCD.DECODE reads. -/
theorem execRcdDecode_fault (hs : Settled s) (hu : s.rcd.ustate = .ready) (hv : descriptorValid s) (hn : bs.length < arrayLength s)
    (hsz : sz = chunkLength s.rcd.chunkSize (arrayLength s)) (hf : ReaderFault s c) (hne : used ≠ [])
    (h : RangeDecoded s.params.clamp sz 0 s.rcd [] (bs.map BitVec.toNat) d)
    (hnext : RangeDecoded s.params.clamp sz bs.length d used [sym] d') :
    exec .rcdDecode s = .next (raiseFault 8 6 c
      { rcdSlot.set { d with freq := tableAt sz bs.length d.freq } (withData (writeBytes s.data (arrayStart s) bs) s) with
        res := BitVec.ofNat 64 bs.length }) := by
  subst hsz
  rw [← h.chunkSize] at hnext ⊢
  have hloop := decodeAll_elementFault (start := arrayStart s) (decodesSteps_rcd s.params (arrayLength s)) (h.elements rfl)
    (bytesBits_ne_nil hne) rfl hf hn (readsElement_next rfl hnext [] (arrayStart s))
  exact (command_array hu hv hs).trans (command_fault hs (ReaderFault.ne_rangeDegenerate hf) hloop)

/-! ### HFD -/

/-- The stream ends inside the header of HFD.DECODE (45_huffman R342). -/
theorem execHfdDecode_endsInHeader {n : Nat} (hs : Settled s) (hu : s.hfd.ustate = .ready) (hv : descriptorValid s) (hn : n < 32)
    (hlen : lengths.length = 256) (hl : ∀ l ∈ lengths, l < 2 ^ n) (hend : EndsInside s [] (headerBits n lengths)) :
    exec .hfdDecode s = .next (complete 10 6 0 (metEnd s)) := by
  obtain ⟨v, hv', hrun⟩ := (readsAt_headerLengths (s := s) hn hlen hl).ends hend
  have hheader : hfdHeader (arrayLength s) s = .error (.fault .endOfStream) (metEnd (consumed s v.length)) := by
    rw [hfdHeader_eq, bind_error hrun]
  rw [← undo_metEnd hend.1 hv']
  exact execHfdDecode_header_end hs hu hv hheader

/-- The stream ends inside a code word of HFD.DECODE (45_huffman R342). -/
theorem execHfdDecode_endsInCodeWord {n : Nat} {b : Byte} {bits : List Bool} (hs : Settled s) (hu : s.hfd.ustate = .ready)
    (hv : descriptorValid s) (hn : n < 32) (hl : ∀ sym < 256, sizeAt sizes sym < 2 ^ n) (ha : LengthsAllowed (lengthsOf sizes))
    (huniq : Uniquely sizes (canonicalCodes sizes)) (hlen : xs.length < arrayLength s) (hx : ∀ x ∈ b :: xs, sizeAt sizes x.toNat ≠ 0)
    (hbits : bits = headerBits n (lengthsOf sizes) ++ codeWords sizes (canonicalCodes sizes) xs)
    (hend : EndsInside s bits (codeWord sizes (canonicalCodes sizes) b.toNat)) :
    exec .hfdDecode s = .next (complete 10 6 (BitVec.ofNat 64 xs.length)
      { metEnd (consumed s bits.length) with
        hfd.sizes := sizes, hfd.codes := canonicalCodes sizes, data := writeBytes s.data (arrayStart s) xs }) := by
  subst hbits
  have hb := hx b List.mem_cons_self
  have hread := hend.right.1
  have hpresent : presentSymbols sizes ≠ [] := List.ne_nil_of_mem (mem_presentSymbols.2 ⟨b.isLt, hb⟩)
  have hheader := (readsElement_hfdHeader (s := s) (len := arrayLength s) hn hl ha fun _ => hpresent).ok (canRead_left hread)
  have hloop := decodeAll_end (start := arrayStart s) (decodesSteps_hfd s.params (h := s.hfd.withSizes sizes) huniq)
    (elements_hfd (fun x hmem => hx x (List.mem_cons_of_mem _ hmem)) s.hfd)
    (s := hfdSlot.set (s.hfd.withSizes sizes) (consumed s (headerBits n (lengthsOf sizes)).length))
    (w' := codeWord sizes (canonicalCodes sizes) b.toNat) (b := b) ⟨rfl, rfl, hb, rfl⟩ (consumed_params _ _)
    ((hfdSlot.endsInside_set _ _).2 hend.behind) hlen
  rw [hfdSlot.set_data, consumed_data, hfdSlot.consumed_set, consumed_consumed hread, hfdSlot.metEnd_set, hfdSlot.withData_set,
    hfdSlot.set_set] at hloop
  refine (execHfdDecode_ok hs hu hv hheader hloop).trans ?_
  exact congrArg (fun t : State => (.next (complete 10 6 (BitVec.ofNat 64 xs.length)
    (withData (writeBytes s.data (arrayStart s) xs) t)) : Host.Outcome State Fault Refusal))
    (hfd_withSizes ((hfdSlot.get_metEnd _).trans (hfdSlot.get_consumed s _))).symm

/-- The header's first bit meets the reader's fault. -/
theorem execHfdDecode_readerFault (hs : Settled s) (hf : ReaderFault s c) (hu : s.hfd.ustate = .ready) (hv : descriptorValid s) :
    exec .hfdDecode s = .next (raiseFault 10 6 c { s with res := 0 }) := by
  have hheader : hfdHeader (arrayLength s) s = .error (.fault c) s := by
    rw [hfdHeader_eq, headerLengths, bind_error (bind_error (getBits_fault 1 hf) _)]
  have h := execHfdDecode_header_fault hs hu hv (ReaderFault.ne_rangeDegenerate hf) hf.ne_endOfStream hheader
  rwa [undo_self] at h

/-! ### EGD and RGD -/

/-- Every code begins with a bit, so a reader that is not open is met there. -/
theorem egdElement_fault (hf : ReaderFault s c) : egdElement s = .error (.fault c) s :=
  (readsAt_egdElement 0 false).fault c hf (by simp [expGolombBits, bitsOf_eq_nil])

theorem rgdElement_fault (hf : ReaderFault s c) : rgdElement s = .error (.fault c) s :=
  (readsAt_rgdElement 0 false).fault c hf (by simp [riceBits])

/-- A DECODE without chunks whose first byte cannot be read. -/
theorem command_decode_first_fault {instr : Instr} {u : CoderState} {code : M (Option Byte)} (hs : Settled s) (hu : u = .ready)
    (hv : descriptorValid s) (hn : 0 < arrayLength s) (hf : ReaderFault s c) (h : code s = .error (.fault c) s) :
    command instr (onArray u (decodeAll noChunk code)) s = .next (raiseFault instr.unit instr.op c { s with res := 0 }) := by
  obtain ⟨n, hlen⟩ := Nat.exists_eq_succ_of_ne_zero (Nat.ne_of_gt hn)
  have hrun := decodeFrom_fault (start := arrayStart s) (n := n) (noChunk_run 0 s) h hf.ne_endOfStream
  rw [undo_self] at hrun
  rw [command_array hu hv hs, hlen]
  exact command_fault hs (ReaderFault.ne_rangeDegenerate hf) (bind_error hrun _)

/-! ### The obligations -/

/-- Settles O59: an element that meets END is undone but for the bytes it took, and only a DECODE completes then. -/
theorem decodersMeetEnd : Obligations.DecodersMeetEnd := by
  unfold Obligations.DecodersMeetEnd
  refine ⟨fun s d' used b hs hend => ⟨fun hu h => ?_, fun hu h => ?_⟩, fun s d' used b hs hend => ⟨fun hu h => ?_, fun hu h => ?_⟩,
    fun s d d' bs used used' stored hs hu hv hend h hnext => ?_,
    fun s d d' bs used used' sym sz hs hu => ⟨fun hend h => ?_, fun hv hn hsz hend h hnext => ?_⟩,
    fun s w hs hu hv hw => ⟨fun lengths hlen hl hend => ?_, fun sizes xs b bits hl ha huniq hlen hx hbits hend => ?_⟩,
    fun s ms m neg bs hs hlen => ⟨fun code hu hcode => ⟨fun hend => ?_, fun hv hn hbs hend => ?_⟩,
      fun code hu hcode => ⟨fun hend => ?_, fun hv hn hbs hend => ?_⟩⟩⟩
  · exact command_read_end (g := fun b => BitVec.ofNat 64 b.toNat) hs hu (readsElement_bedBit h) hend
  · exact command_read_end (g := fun b => BitVec.ofNat 64 b.toNat) hs hu (readsElement_fpdBit h) hend
  · exact command_read_end (g := fun v => v.setWidth 64) hs hu (readsElement_bedByte h) hend
  · exact command_read_end (g := fun v => v.setWidth 64) hs hu (readsElement_fpdByte h) hend
  · rw [← length_bytesBits]
    exact execFpdDecode_end hs hu hv ⟨stored, h, hnext⟩ hend
  · exact command_read_end (g := fun sym => BitVec.ofNat 64 sym) hs hu (readsElement_rcd (withTable_none_rcd _ 0) h) hend
  · exact execRcdDecode_end hs hu hv hn hsz hend h hnext
  · exact execHfdDecode_endsInHeader hs hu hv hw hlen hl hend
  · exact execHfdDecode_endsInCodeWord hs hu hv hw hl ha huniq hlen hx hbits hend
  · subst hcode
    exact command_read_end (g := fun v => v.setWidth 64) hs hu (readsElement_egd m neg) hend
  · subst hcode hbs
    have h : exec .egdDecode s = _ := command_decode_end hs hu hv (decodesSteps_egd _ s.egd) (elements_decodesAs _ _ _ ms)
      ⟨rfl, rfl, (m, neg), rfl, rfl⟩ hn hend
    exact h.trans (congrArg (fun t : State => (.next (complete 12 6 _ t) : Host.Outcome State Fault Refusal))
      (egdSlot.set_get_stored s _ _))
  · subst hcode
    exact command_read_end (g := fun v => v.setWidth 64) hs hu (readsElement_rgd m neg) hend
  · subst hcode hbs
    have h : exec .rgdDecode s = _ := command_decode_end hs hu hv (decodesSteps_rgd _ s.rgd) (elements_decodesAs _ _ _ ms)
      ⟨rfl, rfl, (m, neg), rfl, rfl⟩ hn hend
    exact h.trans (congrArg (fun t : State => (.next (complete 14 6 _ t) : Host.Outcome State Fault Refusal))
      (rgdSlot.set_get_stored s _ _))

/-- Settles O60: an element that reads meets the reader's fault at its first bit, before it changes anything. -/
theorem decodersWithoutAReader : Obligations.DecodersWithoutAReader := by
  unfold Obligations.DecodersWithoutAReader
  refine ⟨fun s c d d' used bs hs hf hne =>
      ⟨fun b => ⟨fun hu h => ?_, fun hu h => ?_⟩, fun b => ⟨fun hu h => ?_, fun hu h => ?_, fun hu hv hn h hnext => ?_⟩,
        fun stored hu hv h hnext => ?_⟩,
    fun s c d d' used bs sym sz hs hf hne hu => ⟨fun h => ?_, fun hv hn hsz h hnext => ?_⟩,
    fun s c hs hf => ⟨execHfdDecode_readerFault hs hf, fun hu => ⟨?_, fun hv hn => ?_⟩, fun hu => ⟨?_, fun hv hn => ?_⟩⟩⟩
  · exact command_read_fault (g := fun b => BitVec.ofNat 64 b.toNat) hs hu (readsElement_bedBit h) hf (bytesBits_ne_nil hne)
  · exact command_read_fault (g := fun b => BitVec.ofNat 64 b.toNat) hs hu (readsElement_fpdBit h) hf (bytesBits_ne_nil hne)
  · exact command_read_fault (g := fun v => v.setWidth 64) hs hu (readsElement_bedByte h) hf (bytesBits_ne_nil hne)
  · exact command_read_fault (g := fun v => v.setWidth 64) hs hu (readsElement_fpdByte h) hf (bytesBits_ne_nil hne)
  · exact command_decode_fault hs hu hv decodesSteps_bed (h.elements 0) ⟨used, rfl, hnext⟩ (bytesBits_ne_nil hne) hn hf
  · exact execFpdDecode_fault hs hu hv ⟨stored, h, hnext⟩ hf hne
  · exact command_read_fault (g := fun sym => BitVec.ofNat 64 sym) hs hu (readsElement_rcd (withTable_none_rcd _ 0) h) hf
      (bytesBits_ne_nil hne)
  · exact execRcdDecode_fault hs hu hv hn hsz hf hne h hnext
  · exact command_fault_at_start hs hu (ReaderFault.ne_rangeDegenerate hf) (egdElement_fault hf)
  · exact command_decode_first_fault hs hu hv hn hf (map_error (egdElement_fault hf))
  · exact command_fault_at_start hs hu (ReaderFault.ne_rangeDegenerate hf) (rgdElement_fault hf)
  · exact command_decode_first_fault hs hu hv hn hf (map_error (rgdElement_fault hf))

end Sys2Proof.Machine
end
